-- ==== Sys2Proof/Word.lean ====
section
/-! DEFINITION. The value types of the block: bytes, the 32-bit register word, probabilities. -/

namespace Sys2Proof

/-- A byte; a source symbol is one byte (00_scope.md R3, R10). -/
abbrev Byte := BitVec 8

/-- A 32-bit register word (10_state.md R22). -/
abbrev Word32 := BitVec 32

/-- A probability (00_scope.md R11): a rational number or, in a number system that is not exact, a value that is
no rational number (an infinity, a NaN, a signed zero of IEEE binary64), known by a code. An exact instance holds
rational numbers only (`State.wf` in Safety.lean). Log 1. -/
inductive Prob where
  | rat (q : ℚ)
  | other (code : Nat)
deriving DecidableEq, Repr, Inhabited

/-- The value is a rational number. -/
def Prob.isNumber : Prob → Bool
  | .rat _ => true
  | .other _ => false

/-- The rational number a value is; 0 for a value that is none, which no exact instance holds. -/
def Prob.toRat : Prob → ℚ
  | .rat q => q
  | .other _ => 0

end Sys2Proof
end

