-- ==== Sys2Proof/Config.lean ====
section
/-! DEFINITION. What an implementation fixes (the instance parameters) and the free values: constants
without a body for every value the spec leaves unspecified. -/

namespace Sys2Proof

/-- The nine RAM spaces (10_state.md R30, 20_memory.md R60). -/
inductive Space where
  | pmf | src | dst | alpha | s2m | dict | jump | dec | rare
deriving DecidableEq, Repr

namespace Config

/-- `NUMERICS`, the number system of probabilities (00_scope.md R7, R11; D4): the exact rationals of the
reference semantics, or another system, known by a number, whose four operations are the constants without a body
below. Log 1. -/
inductive Numerics where
  | exact
  | rounding (system : Nat)
deriving DecidableEq, Repr

/-- The OPEN instance parameters of 00_scope.md R7. -/
structure Instance where
  /-- `K_MAX`, the largest `K` the instance accepts. -/
  kMax : Nat
  /-- `KO_MAX`, the largest `K + O`; it sizes `DICT`, `JUMP` and `DEC`. -/
  koMax : Nat
  /-- `LENW`, the width of every length register. -/
  lenw : Nat
  /-- `SRC_SIZE`, bytes of `SRC`. -/
  srcSize : Nat
  /-- `DST_SIZE`, bytes of `DST`. -/
  dstSize : Nat
  /-- `NUMERICS`, the number system of probabilities. -/
  numerics : Numerics
deriving DecidableEq, Repr

/-- What the spec says of the parameters: `K_MAX` is at most 25 (the 32-bit bit register, 00_scope.md R7),
lengths are below `2^LENW` (10_state.md R40); DEDUCED (log 2): a length register holds the reset value 16 of
`ABORT_MARGIN`, and the widest offset form, 64 bits, holds every length. -/
abbrev Instance.ok (c : Instance) : Prop :=
  c.kMax ≤ 25 ∧ 5 ≤ c.lenw ∧ c.lenw ≤ 64 ∧ c.srcSize < 2 ^ c.lenw ∧ c.dstSize < 2 ^ c.lenw

/-- DESIGN CHOICE (log 2): the parameters of `State.reset`, the suggested values of 00_scope.md R7, buffers of
1 MiB and the reference `NUMERICS`. No statement rests on them. -/
def suggested : Instance :=
  { kMax := 16, koMax := 16, lenw := 64, srcSize := 1048576, dstSize := 1048576,
    numerics := .exact }

/-! Free values (70_reset_and_hazards.md R341: "a model must treat a read as returning any value, not
zero"). Each is a constant without a body, applied to the space, the epoch (which event left the contents
unspecified) and the address. Log 3. -/

/-- An unspecified byte. -/
opaque freeByte (space : Space) (epoch addr : Nat) : Byte

/-- An unspecified probability of the exact rationals. -/
opaque freeRat (space : Space) (epoch addr : Nat) : ℚ≥0

/-- An unspecified probability of another number system, any of its values. -/
opaque freeProb (system : Nat) (space : Space) (epoch addr : Nat) : Prob

/-- An unspecified number. -/
opaque freeNum (space : Space) (epoch addr : Nat) : Nat

/-- An unspecified sequence of symbols. -/
opaque freeSyms (space : Space) (epoch addr : Nat) : List Nat

/-- An unspecified sequence of bytes. -/
opaque freeBytes (space : Space) (epoch addr : Nat) : List Byte

/-! The four operations of a number system that is not exact: it "replaces `Prob` and these four operations and
nothing else" (00_scope.md R11). Each result may be any value of a `Prob`, a negative number too. Log 1. -/

/-- `a + b`. -/
opaque roundAdd (system : Nat) (a b : Prob) : Prob

/-- `a - b`. -/
opaque roundSub (system : Nat) (a b : Prob) : Prob

/-- `a * b`. -/
opaque roundMul (system : Nat) (a b : Prob) : Prob

/-- `qdiv(a, b)`. -/
opaque roundDiv (system : Nat) (a b : Prob) : Prob

/-! What R11 does not say of such a system: how its values that are no numbers compare, and in which order an
instance adds the terms of a sum. Log 1. -/

/-- `a < b` where one of the two is no number. -/
opaque otherLess (system : Nat) (a b : Prob) : Bool

/-- `a = b` where one of the two is no number. -/
opaque otherEqual (system : Nat) (a b : Prob) : Bool

/-- An order of adding: which terms, by their places, are added to which. -/
inductive SumTree where
  | term (place : Nat)
  | plus (left right : SumTree)
deriving DecidableEq, Repr, Inhabited

/-- The order in which an instance adds the terms of a sum, which no rule gives. -/
opaque sumOrder (system : Nat) (terms : List Prob) : SumTree

/-- The tolerance of the test "sum to 1" (40_build_alphabet.md R131: "a tolerance the instance names"; D5). -/
opaque sumTolerance (system : Nat) : ℚ≥0

/-- The tolerance of the test that one entry equals 1. DESIGN CHOICE (log 29): whether R131's tolerance is for
this test too is open, so the test has its own, which may be 0, the other one, or neither. -/
opaque entryTolerance (system : Nat) : ℚ≥0

/-- The tolerance with which `NORM` may clamp to 0 or 1 (41_build_dictionary.md R152: "its own tolerance"). -/
opaque clampTolerance (system : Nat) : ℚ≥0

/-- Which of 0 and 1 `NORM` clamps a value to, if the value is that near: the instance's choice for each value
(41_build_dictionary.md R152: "may clamp"). Log 30. -/
opaque clampTarget (system : Nat) (p : Prob) : Option (Fin 2)

/-- `+infinity > p` where `p` is no number: 40_build_alphabet.md R138 says it of a finite `p` only. Log 31. -/
opaque otherBelowInfinity (system : Nat) (p : Prob) : Bool

/-- `p > +infinity` where `p` is no number. Log 31. -/
opaque otherAboveInfinity (system : Nat) (p : Prob) : Bool

/-- What `pos(c, w)` is when chapter `c` has no word `w`: undefined (00_scope.md R13). Log 18. -/
opaque undefinedPos (chapter : Nat) (word : List Nat) : Nat

end Config

end Sys2Proof
end

