-- ==== Sys2Proof/Syntax.lean ====
section
/-! DEFINITION. The commands (one constructor per row of the opcode table), the register numbers, the
formats of table entries, and the host's actions (30_encoding.md, 10_state.md R22, R30). -/

namespace Sys2Proof

/-- The seven commands of 30_encoding.md R91. A command word has no operand field (R90): operands are the
registers and RAM spaces the command's rule names. -/
inductive Instr where
  /-- 46_control_commands.md R281 -/
  | nop
  /-- 46_control_commands.md R282 -/
  | sreset
  /-- 40_build_alphabet.md R130 -/
  | build
  /-- 43_encode.md R200 -/
  | encode
  /-- 44_decode.md R230 -/
  | decode
  /-- 45_residual_plane.md R268 -/
  | pext
  /-- 45_residual_plane.md R269 -/
  | pdep
deriving DecidableEq, Repr

/-- The register map of 10_state.md R22, in the order of the register numbers. -/
inductive Reg where
  | cmd | status | cfgKo | cfgS | cfgMws | cfgIter | cfgPurge | abortMargin | srcLen | dstCap | blkN
  | result | hA | hS | hMws | hStart | hRare | hBps | hLbar | hEff | lastRare | hKo
deriving DecidableEq, Repr

/-- The registers by number (10_state.md R22). -/
def Reg.all : List Reg :=
  [.cmd, .status, .cfgKo, .cfgS, .cfgMws, .cfgIter, .cfgPurge, .abortMargin, .srcLen, .dstCap, .blkN,
   .result, .hA, .hS, .hMws, .hStart, .hRare, .hBps, .hLbar, .hEff, .lastRare, .hKo]

/-- The register of a number, if there is one: the model addresses a register by its number. -/
def Reg.ofNumber (n : Nat) : Option Reg := Reg.all[n]?

/-- A real-valued register, kept as the exact expression whose value it is (42_build_tables.md R182:
`H(source) / bps`, `H` the entropy of the PMF in bits). Plain data: no real is computed. Log 9. -/
inductive Efficiency where
  /-- the number 0, the value without a handle (10_state.md R29) -/
  | zero
  /-- the entropy of `pmf` divided by `bps` -/
  | ratio (pmf : List Prob) (bps : Prob)
deriving DecidableEq, Repr

/-- An entry of `ALPHA` (30_encoding.md R103). -/
structure AlphaEntry where
  src : Byte
  p : Prob
deriving DecidableEq, Repr

/-- An entry of `DICT`: a word record (30_encoding.md R103). Its `len` is the length of `syms`. -/
structure DictWord where
  syms : List Nat
  p : Prob
  state : Nat
deriving DecidableEq, Repr

/-- An entry of `RARE` (30_encoding.md R103). -/
structure RareEntry where
  offset : Nat
  value : Byte
deriving DecidableEq, Repr

/-- One register's content on the host's side. -/
inductive HostValue where
  /-- the content of a 32-bit register -/
  | word (w : Word32)
  /-- a length or another unsigned number -/
  | num (n : Nat)
  | prob (p : Prob)
  | real (e : Efficiency)
deriving DecidableEq, Repr

/-- Consecutive entries of one RAM space on the host's side (20_memory.md R62). -/
inductive HostData where
  | bytes (l : List Byte)
  | probs (l : List Prob)
  | alphas (l : List AlphaEntry)
  | words (l : List DictWord)
  | records (l : List (List Byte))
  /-- entries of `S2M` or of `JUMP` -/
  | nums (l : List Nat)
deriving DecidableEq, Repr

/-- How many entries there are. -/
def HostData.count : HostData → Nat
  | .bytes l => l.length
  | .probs l => l.length
  | .alphas l => l.length
  | .words l => l.length
  | .records l => l.length
  | .nums l => l.length

/-- The host's actions (30_encoding.md R106 `WR`, `RD`, `WRM`, `RDM`; 70_reset_and_hazards.md R340 the
reset input). `CMD x` of a script is `WR CMD <- x` and then waiting for `DONE`. -/
inductive HostAction where
  | writeReg (n : Nat) (v : HostValue)
  | readReg (n : Nat)
  | writeRam (space : Space) (addr : Nat) (data : HostData)
  | readRam (space : Space) (addr count : Nat)
  | reset
deriving DecidableEq, Repr

/-- A host action and when it happens: `early` says that the host does not wait for `BUSY = 0` first
(70_reset_and_hazards.md R350). Log 5. -/
structure HostEvent where
  early : Bool
  action : HostAction
deriving DecidableEq, Repr

end Sys2Proof
end

