-- ==== Sys2Proof/WellFormed.lean ====
section
/-! DEFINITION. Which commands and host actions are well formed. -/

namespace Sys2Proof

/-- Every command is well formed: the command word has no operand field (30_encoding.md R90). -/
def Instr.wf : Instr → Bool
  | .nop => true
  | .sreset => true
  | .build => true
  | .encode => true
  | .decode => true
  | .pext => true
  | .pdep => true

/-- The number of entries of a space (10_state.md R30). -/
def Space.size (c : Config.Instance) : Space → Nat
  | .pmf => 256
  | .src => c.srcSize
  | .dst => c.dstSize
  | .alpha => 256
  | .s2m => 256
  | .dict => 2 ^ c.koMax
  | .jump => 2 ^ c.koMax * 257
  | .dec => 2 ^ c.koMax
  | .rare => 255

/-- `count` entries from `addr` on lie inside the space (20_memory.md R63). -/
def Space.holds (c : Config.Instance) (space : Space) (addr count : Nat) : Bool :=
  addr + count ≤ space.size c

/-- `RARE` is not host accessible, every other space is (20_memory.md R62). -/
def Space.hostAccess : Space → Bool
  | .rare => false
  | _ => true

/-- The spaces the host may write; a write to another one is ignored (20_memory.md R62). -/
def Space.hostWritable : Space → Bool
  | .pmf | .src | .dst => true
  | _ => false

/-- The number system has the value: a rational number that is not negative or, in a system that is not exact, a
value that is no number (00_scope.md R11; 40_build_alphabet.md R131: "cannot be negative"). Logs 1, 7. -/
def Config.Numerics.has : Config.Numerics → Prob → Bool
  | _, .rat q => 0 ≤ q
  | .exact, .other _ => false
  | .rounding _, .other _ => true

/-- The data is of the type of the space's entries. -/
def HostData.fits (num : Config.Numerics) : Space → HostData → Bool
  | .pmf, .probs l => l.all num.has
  | .src, .bytes _ => true
  | .dst, .bytes _ => true
  | .alpha, .alphas _ => true
  | .s2m, .nums _ => true
  | .dict, .words _ => true
  | .jump, .nums _ => true
  | .dec, .records _ => true
  | _, _ => false

/-- The registers the host may write; a write to another one is ignored (10_state.md section 2, R22). -/
def Reg.hostWritable : Reg → Bool
  | .cmd | .cfgKo | .cfgS | .cfgMws | .cfgIter | .cfgPurge | .abortMargin | .srcLen | .dstCap | .blkN => true
  | _ => false

/-- The value is of the type a writable register holds (10_state.md R22, column width). -/
def HostValue.fits (num : Config.Numerics) : Reg → HostValue → Bool
  | .cmd, .word _ => true
  | .cfgKo, .word _ => true
  | .cfgS, .word _ => true
  | .cfgMws, .word _ => true
  | .cfgIter, .word _ => true
  | .cfgPurge, .prob p => num.has p
  | .abortMargin, .num _ => true
  | .srcLen, .num _ => true
  | .dstCap, .num _ => true
  | .blkN, .num _ => true
  | _, _ => false

/-- A register write is well formed: the register exists, and one that can be written gets a value of its
type. -/
def HostAction.wfWriteReg (num : Config.Numerics) (n : Nat) (v : HostValue) : Bool :=
  match Reg.ofNumber n with
  | none => false
  | some r => !r.hostWritable || v.fits num r

/-- A host action the spec gives a meaning while `BUSY = 0`. -/
def HostAction.wf (c : Config.Instance) : HostAction → Bool
  | .writeReg n v => HostAction.wfWriteReg c.numerics n v
  | .readReg n => (Reg.ofNumber n).isSome
  | .writeRam space addr data =>
      space.hostAccess && space.holds c addr data.count && (!space.hostWritable || data.fits c.numerics space)
  | .readRam space addr count => space.hostAccess && space.holds c addr count
  | .reset => true

/-- A host action the spec gives a meaning while `BUSY = 1`: reading `STATUS` (70_reset_and_hazards.md
R350) and the reset input (R340, R343). -/
def HostAction.busyOk : HostAction → Bool
  | .readReg n => Reg.ofNumber n == some .status
  | .reset => true
  | _ => false

end Sys2Proof
end

