-- ==== Sys2Proof/Decode.lean ====
section
/-! DEFINITION. The command word (30_encoding.md R90, R91, R93): decoder and encoder. -/

namespace Sys2Proof

/-- Why a word is no command (30_encoding.md R93). -/
inductive DecodeError where
  /-- `RSV[31:8]` is not 0 -/
  | reservedBits
  /-- `OPC[7:0]` is none of the seven codes -/
  | unknownOpcode
deriving DecidableEq, Repr

/-- Field `OPC`, bits 7:0 (30_encoding.md R90). -/
def opcOf (w : Word32) : BitVec 8 := w.extractLsb' 0 8

/-- Field `RSV`, bits 31:8 (30_encoding.md R90). -/
def rsvOf (w : Word32) : BitVec 24 := w.extractLsb' 8 24

/-- The operation codes of 30_encoding.md R91. -/
def opcodes : List (BitVec 8 × Instr) :=
  [(0x00#8, .nop), (0x01#8, .sreset), (0x10#8, .build), (0x20#8, .encode), (0x21#8, .decode),
   (0x30#8, .pext), (0x31#8, .pdep)]

/-- The command of an operation code. -/
def instrOfOpc (opc : BitVec 8) : Option Instr :=
  (opcodes.find? fun row => row.1 == opc).map Prod.snd

/-- The decoder, total on command words. A command word is written to `CMD` as one 32-bit word
(30_encoding.md R90); it has no bytes and no byte order. -/
def decode (w : Word32) : Except DecodeError Instr :=
  if rsvOf w ≠ 0 then .error .reservedBits
  else
    match instrOfOpc (opcOf w) with
    | some i => .ok i
    | none => .error .unknownOpcode

/-- The operation code of a command (30_encoding.md R91). -/
def opcOfInstr : Instr → BitVec 8
  | .nop => 0x00#8
  | .sreset => 0x01#8
  | .build => 0x10#8
  | .encode => 0x20#8
  | .decode => 0x21#8
  | .pext => 0x30#8
  | .pdep => 0x31#8

/-- The encoder: `OPC` in bits 7:0, `RSV` 0 (30_encoding.md R90, R91). -/
def encode (i : Instr) : Word32 := (0#24) ++ opcOfInstr i

/-- The command word of an instruction given by `nbits` bits: those bits, zeros above them. -/
def commandWord (nbits w : Nat) : Word32 := BitVec.ofNat 32 (w % 2 ^ nbits)

/-- What the decoder reads from an instruction of the opcode table whose bits are `w`. -/
def decodeTableWord (nbits w : Nat) : Option Instr :=
  match decode (commandWord nbits w) with
  | .ok i => some i
  | .error _ => none

end Sys2Proof
end

