-- ==== Sys2Proof/Machine/State.lean ====
section
/-! DEFINITION. The state of one instance of the block, as plain data, and its value after reset
(10_state.md; 70_reset_and_hazards.md R341). -/

namespace Sys2Proof.Machine

open Sys2Proof

/-- Sub-causes of `ConstructionError` (60_exceptions.md R300, R301). -/
inductive ConstructionCause where
  | invalidPmf | badKo | alphabetTooSmall | badIter
deriving DecidableEq, Repr

/-- Sub-causes of `FrameError` (60_exceptions.md R300; 44_decode.md R234). -/
inductive FrameCause where
  | lengthMismatch | rareOverrun | rareOffset | symbolCount
deriving DecidableEq, Repr

/-- The errors a command can report (60_exceptions.md R300). `Incompressible`, code 3, is never reported
(R303), so it is none of these. -/
inductive BlockError where
  | construction (c : ConstructionCause)
  | insufficientBuffer
  | frame (c : FrameCause)
  | unsupported
  | noHandle
  | illegalCommand
  | badLength
deriving DecidableEq, Repr

/-- Frame kinds, `STATUS.KIND` (10_state.md R27, 30_encoding.md R95). -/
inductive FrameKind where
  | none | empty | constant | raw | coded
deriving DecidableEq, Repr

/-- `STATUS` (10_state.md R22, R27). `ERR`, `ECODE` and `ESUB` are one field, the error reported, for they
are all 0 together; the 32-bit word is `Status.word` in Flags.lean. No host write reaches the register and
its reserved bits read 0, so the fields are the whole of it. -/
structure Status where
  busy : Bool
  done : Bool
  report : Option BlockError
  hvalid : Bool
  rawfb : Bool
  kind : FrameKind
deriving DecidableEq, Repr

/-- The configuration registers (10_state.md R22 to R26). Reserved bits read 0 and ignore writes, so only
the fields are held. -/
structure CfgRegs where
  k : BitVec 5
  o : BitVec 5
  s : BitVec 3
  sAuto : Bool
  mws : BitVec 10
  mwsAuto : Bool
  iter : BitVec 16
  purge : Prob
  abortMargin : Nat
deriving DecidableEq, Repr

/-- The handle registers (10_state.md R22, R29). -/
structure HandleRegs where
  k : BitVec 5
  o : BitVec 5
  a : BitVec 9
  s : BitVec 3
  mws : BitVec 10
  start : Nat
  rare : Prob
  bps : Prob
  lbar : Prob
  eff : Efficiency
deriving DecidableEq, Repr

/-- The handle registers without a handle: all 0 (10_state.md R29). -/
def HandleRegs.zero : HandleRegs :=
  { k := 0, o := 0, a := 0, s := 0, mws := 0, start := 0, rare := .rat 0, bps := .rat 0, lbar := .rat 0,
    eff := .zero }

/-- The encoder registers (10_state.md R36). -/
structure EncRegs where
  j : Nat
  val : BitVec 32
  nbits : Nat
  icur : Nat
  ocur : Nat
  rcnt : Nat
  rcur : Nat
deriving DecidableEq, Repr

/-- The decoder registers (10_state.md R37). -/
structure DecRegs where
  v : Nat
  ucur : Nat
  syms : Nat
  rcur : Nat
  pcur : Nat
deriving DecidableEq, Repr

/-- A RAM space: the entries with a known content, by strictly rising address, and the epoch of its
unspecified contents (which free values an unlisted address reads). Log 3. -/
structure Memory (α : Type) where
  epoch : Nat
  cells : List (Nat × α)
deriving DecidableEq, Repr

/-- The canonical form of a memory: addresses strictly rising. What an unlisted address reads is a free
value and no datum, so no listed entry can equal it. -/
abbrev Memory.wf {α : Type} (m : Memory α) : Prop := (m.cells.map Prod.fst).Pairwise (· < ·)

/-- The state of one instance. -/
structure State where
  /-- the instance parameters (00_scope.md R7): the model's own field, changed by no step. Log 2 -/
  inst : Config.Instance
  /-- register 0, the last word written to `CMD` -/
  cmd : Word32
  /-- register 1 -/
  status : Status
  /-- registers 2 to 7 -/
  cfg : CfgRegs
  /-- register 8 -/
  srcLen : Nat
  /-- register 9 -/
  dstCap : Nat
  /-- register 10 -/
  blkN : Nat
  /-- register 11 -/
  result : Nat
  /-- registers 12 to 19 and 21 -/
  handle : HandleRegs
  /-- register 20 -/
  lastRare : BitVec 8
  pmf : Memory Prob
  src : Memory Byte
  dst : Memory Byte
  alpha : Memory AlphaEntry
  s2m : Memory Nat
  dict : Memory DictWord
  jump : Memory Nat
  dec : Memory (List Byte)
  rare : Memory RareEntry
  enc : EncRegs
  decr : DecRegs
  /-- the host's actions that have not happened yet, oldest first: the model's own field. Log 5 -/
  host : List HostEvent
  /-- what the last host read returned: the model's own field. Log 5 -/
  reply : Option (HostValue ⊕ HostData)
  /-- the next epoch of free values: the model's own field. Log 3 -/
  fresh : Nat
deriving DecidableEq, Repr

/-- Why a step ends in a fault: there is no reason. The block's errors are values in `STATUS`
(60_exceptions.md R300), and what the spec gives no meaning is refused. Log 8. -/
inductive Fault
deriving DecidableEq, Repr

/-- Why a step is refused. -/
inductive Refusal where
  /-- An instruction without a meaning in this model, by its mnemonic. Raised by no arm: every command has
  its meaning. Safe. -/
  | notModelled (mnemonic : String)
  /-- A host access while `BUSY = 1` other than a `STATUS` read: "A model refuses such a host action"
  (70_reset_and_hazards.md R350). Raised by the host port. Safe. -/
  | busyHazard
  /-- A host access to a register number or a RAM address beyond the end of its space: it "has no meaning and a
  model refuses it" (20_memory.md R63). Raised by the host port. Safe: no effect is invented. Log 8. -/
  | beyondEnd
  /-- A host access to `RARE`, which is not host accessible (20_memory.md R62). Raised by the host port.
  Safe. -/
  | rareNotAccessible
  /-- A host write of data that is not of the type the register or space holds, a value that is
  no probability of its `NUMERICS` included (00_scope.md R11). Raised by the host port. Safe. Log 7. -/
  | wrongType
deriving DecidableEq, Repr

/-- `STATUS` after reset: 0. -/
def Status.reset : Status :=
  { busy := false, done := false, report := none, hvalid := false, rawfb := false, kind := .none }

/-- The configuration after reset (70_reset_and_hazards.md R341, 00_scope.md R8). -/
def CfgRegs.reset : CfgRegs :=
  { k := 8, o := 2, s := 0, sAuto := true, mws := 0, mwsAuto := true, iter := 3, purge := .rat 0,
    abortMargin := 16 }

/-- The encoder registers after reset (10_state.md R43). -/
def EncRegs.zero : EncRegs :=
  { j := 0, val := 0, nbits := 0, icur := 0, ocur := 0, rcnt := 0, rcur := 0 }

/-- The decoder registers after reset (10_state.md R43). -/
def DecRegs.zero : DecRegs := { v := 0, ucur := 0, syms := 0, rcur := 0, pcur := 0 }

/-- A RAM space whose whole content is unspecified: nothing listed. -/
def Memory.unspecified {α : Type} (epoch : Nat) : Memory α := { epoch := epoch, cells := [] }

/-- The state of 70_reset_and_hazards.md R341 of an instance with parameters `inst`, every RAM space
unspecified under the epoch given. -/
def State.resetOf (inst : Config.Instance) (epoch : Nat) (host : List HostEvent) : State :=
  { inst := inst, cmd := 0, status := Status.reset, cfg := CfgRegs.reset, srcLen := 0, dstCap := 0,
    blkN := 0, result := 0, handle := HandleRegs.zero, lastRare := 0, pmf := .unspecified epoch,
    src := .unspecified epoch, dst := .unspecified epoch, alpha := .unspecified epoch,
    s2m := .unspecified epoch, dict := .unspecified epoch, jump := .unspecified epoch,
    dec := .unspecified epoch, rare := .unspecified epoch, enc := EncRegs.zero, decr := DecRegs.zero,
    host := host, reply := none, fresh := epoch + 1 }

/-- The machine right after reset, nothing pending on the host's side. -/
def State.reset : State := State.resetOf Config.suggested 0 []

end Sys2Proof.Machine
end

