-- ==== Sys2Proof/Machine/Flags.lean ====
section
/-! DEFINITION. `STATUS`, the only flags the block has (10_state.md R27): its codes, its 32-bit word, and
its value at the end of a command. -/

namespace Sys2Proof.Machine

open Sys2Proof

/-- `ECODE` of an error (60_exceptions.md R300). -/
def BlockError.ecode : BlockError → BitVec 8
  | .construction _ => 1
  | .insufficientBuffer => 2
  | .frame _ => 4
  | .unsupported => 5
  | .noHandle => 6
  | .illegalCommand => 7
  | .badLength => 8

/-- `ESUB` of an error (60_exceptions.md R300). -/
def BlockError.esub : BlockError → BitVec 8
  | .construction .invalidPmf => 1
  | .construction .badKo => 2
  | .construction .alphabetTooSmall => 3
  | .construction .badIter => 4
  | .frame .lengthMismatch => 1
  | .frame .rareOverrun => 2
  | .frame .rareOffset => 3
  | .frame .symbolCount => 4
  | .insufficientBuffer => 0
  | .unsupported => 0
  | .noHandle => 0
  | .illegalCommand => 0
  | .badLength => 0

/-- `KIND` as a number (10_state.md R27). -/
def FrameKind.code : FrameKind → BitVec 3
  | .none => 0
  | .empty => 1
  | .constant => 2
  | .raw => 3
  | .coded => 4

/-- `STATUS.ERR`. -/
def Status.err (st : Status) : Bool := st.report.isSome

/-- `STATUS.ECODE`: 0 without an error. -/
def Status.ecode (st : Status) : BitVec 8 := (st.report.map BlockError.ecode).getD 0

/-- `STATUS.ESUB`: 0 without an error. -/
def Status.esub (st : Status) : BitVec 8 := (st.report.map BlockError.esub).getD 0

/-- A flag as a word with the flag at bit `n`. -/
def flagAt (n : Nat) (b : Bool) : Word32 := if b then BitVec.ofNat 32 (2 ^ n) else 0

/-- A field as a word with the field's bit 0 at bit `n`. -/
def fieldAt {w : Nat} (n : Nat) (f : BitVec w) : Word32 := BitVec.ofNat 32 (f.toNat * 2 ^ n)

/-- `STATUS` as the host reads it: `BUSY[0]`, `DONE[1]`, `ERR[2]`, `HVALID[3]`, `RAWFB[4]`, `KIND[7:5]`,
`ECODE[15:8]`, `ESUB[23:16]` (10_state.md R22). -/
def Status.word (st : Status) : Word32 :=
  flagAt 0 st.busy ||| flagAt 1 st.done ||| flagAt 2 st.err ||| flagAt 3 st.hvalid ||| flagAt 4 st.rawfb
    ||| fieldAt 5 st.kind.code ||| fieldAt 8 st.ecode ||| fieldAt 16 st.esub

/-- `STATUS` from the write to `CMD` on, until the command ends (46_control_commands.md R280): every field but
`BUSY` and `DONE` as before. DESIGN CHOICE for `HVALID` while `BUILD` or `SRESET` runs (log 28). -/
def Status.started (st : Status) : Status := { st with busy := true, done := false }

/-- `STATUS` at the end of a command without an error: rewritten as a whole but for `HVALID`, which follows
the handle (46_control_commands.md R280, 10_state.md R27). -/
def Status.finished (st : Status) (kind : FrameKind) (rawfb : Bool) : Status :=
  { busy := false, done := true, report := none, hvalid := st.hvalid, rawfb := rawfb, kind := kind }

/-- `STATUS` at the end of a command with an error: `KIND` and `RAWFB` are 0 (60_exceptions.md R311). -/
def Status.failed (st : Status) (e : BlockError) : Status :=
  { busy := false, done := true, report := some e, hvalid := st.hvalid, rawfb := false, kind := .none }

end Sys2Proof.Machine
end

