-- ==== Sys2Proof/Machine/Ops.lean ====
section
/-! DEFINITION. The named operations over memory and registers, and the end of a command: finishing it and
raising an error, the block's exceptions (20_memory.md; 60_exceptions.md R311, R312). -/

namespace Sys2Proof.Machine

open Sys2Proof

/-! ### RAM spaces -/

/-- The known content of an address, if it has one. -/
def cellAt {α : Type} : List (Nat × α) → Nat → Option α
  | [], _ => none
  | (b, v) :: rest, a => if a = b then some v else cellAt rest a

/-- One entry: its known content, else the free value of its epoch and address. -/
def Memory.read {α : Type} (free : Nat → Nat → α) (m : Memory α) (a : Nat) : α :=
  (cellAt m.cells a).getD (free m.epoch a)

/-- The values at consecutive addresses from `a` on. -/
def cellsFrom {α : Type} : Nat → List α → List (Nat × α)
  | _, [] => []
  | a, v :: vs => (a, v) :: cellsFrom (a + 1) vs

/-- `MemWrite(space, addr, n, v)` (00_scope.md R12): the entries below, the values written, the entries
beyond them. -/
def Memory.writeRange {α : Type} (m : Memory α) (a : Nat) (vs : List α) : Memory α :=
  { m with cells := m.cells.filter (fun c => c.1 < a) ++ cellsFrom a vs
                      ++ m.cells.filter (fun c => a + vs.length ≤ c.1) }

/-- A space filled from address 0 on, unspecified beyond. -/
def Memory.filled {α : Type} (epoch : Nat) (vs : List α) : Memory α :=
  (Memory.unspecified epoch).writeRange 0 vs

/-! ### Reading the spaces of a state: a known entry, or any value of the entry's width -/

/-- An unspecified probability of a number system. -/
def freeProb (num : Config.Numerics) (space : Space) (e a : Nat) : Prob :=
  match num with
  | .exact => .rat (Config.freeRat space e a)
  | .rounding n => Config.freeProb n space e a

/-- `PMF[v]`. -/
def State.pmfAt (s : State) (v : Nat) : Prob := s.pmf.read (freeProb s.inst.numerics .pmf) v

/-- The whole of `PMF`. -/
def State.pmfAll (s : State) : List Prob := (List.range 256).map s.pmfAt

/-- `SRC[a]`. -/
def State.srcAt (s : State) (a : Nat) : Byte := s.src.read (Config.freeByte .src) a

/-- `DST[a]`. -/
def State.dstAt (s : State) (a : Nat) : Byte := s.dst.read (Config.freeByte .dst) a

/-- `MemRead(SRC, a, n)` (00_scope.md R12). -/
def State.readSrc (s : State) (a n : Nat) : List Byte := (List.range n).map fun k => s.srcAt (a + k)

/-- `MemRead(DST, a, n)`. -/
def State.readDst (s : State) (a n : Nat) : List Byte := (List.range n).map fun k => s.dstAt (a + k)

/-- `ALPHA[a]`. -/
def State.alphaAt (s : State) (a : Nat) : AlphaEntry :=
  s.alpha.read (fun e i => { src := Config.freeByte .alpha e i, p := freeProb s.inst.numerics .alpha e i }) a

/-- `S2M[a]`, 9 bits. -/
def State.s2mAt (s : State) (a : Nat) : Nat := s.s2m.read (fun e i => Config.freeNum .s2m e i % 2 ^ 9) a

/-- `DICT[a]`. -/
def State.dictAt (s : State) (a : Nat) : DictWord :=
  s.dict.read (fun e i => { syms := Config.freeSyms .dict e i, p := freeProb s.inst.numerics .dict e i,
                            state := Config.freeNum .dict e i }) a

/-- `JUMP` at a flat address, at most `KO_MAX + 1` bits. -/
def State.jumpAt (s : State) (a : Nat) : Nat :=
  s.jump.read (fun e i => Config.freeNum .jump e i % 2 ^ (s.inst.koMax + 1)) a

/-- `DEC[a]`. -/
def State.decAt (s : State) (a : Nat) : List Byte := s.dec.read (Config.freeBytes .dec) a

/-- `RARE[a]`. -/
def rareRead (m : Memory RareEntry) (a : Nat) : RareEntry :=
  m.read (fun e i => { offset := Config.freeNum .rare e i, value := Config.freeByte .rare e i }) a

/-! ### Writing -/

/-- `MemWrite(DST, a, |bs|, bs)`. -/
def State.writeDst (s : State) (a : Nat) (bs : List Byte) : State :=
  { s with dst := s.dst.writeRange a bs }

/-- `ENCODE` and `PEXT` leave their result in `DST[0..RESULT)` and write nothing else; the bytes at and beyond
`RESULT` are unspecified, free values of a new epoch (43_encode.md R216, V3 of 93_implementation_defined.md;
20_memory.md R64). Log 10. -/
def State.leaveDst (s : State) (bs : List Byte) : State :=
  { s with dst := .filled s.fresh bs, fresh := s.fresh + 1 }

/-- `DST[lo..hi)` becomes unspecified: each of its bytes is a fresh free value. Log 11. -/
def State.freeDst (s : State) (lo hi : Nat) : State :=
  { s with dst := s.dst.writeRange lo ((List.range (hi - lo)).map fun k => Config.freeByte .dst s.fresh (lo + k)),
           fresh := s.fresh + 1 }

/-- The handle is dropped: `HVALID` 0, the handle registers 0, the table RAMs unspecified
(40_build_alphabet.md R130, 46_control_commands.md R282, 20_memory.md R78). Log 12. -/
def State.dropHandle (s : State) : State :=
  { s with status := { s.status with hvalid := false }, handle := HandleRegs.zero,
           alpha := .unspecified s.fresh, s2m := .unspecified s.fresh, dict := .unspecified s.fresh,
           jump := .unspecified s.fresh, dec := .unspecified s.fresh, fresh := s.fresh + 1 }

/-- The per-block state at the start of every `ENCODE`, `DECODE`, `PEXT` and `PDEP` (10_state.md R20): the
encoder registers as 43_encode.md R204 gives them, the decoder registers as 44_decode.md R230 does. Log 13. -/
def State.startBlock (s : State) : State :=
  { s with enc := { EncRegs.zero with j := s.handle.start }, decr := DecRegs.zero }

/-! ### The end of a command -/

/-- A command ends without an error (46_control_commands.md R280, 10_state.md R28). -/
def State.finish (s : State) (kind : FrameKind) (rawfb : Bool) (result : Nat) : State :=
  { s with status := s.status.finished kind rawfb, result := result }

/-- `raise e` (60_exceptions.md R311): the report in `STATUS`, `RESULT` 0. Nothing is saved and nothing is
redirected; the report stands until the next `CMD` write, and there is no return operation (R312). -/
def State.raise (s : State) (e : BlockError) : State :=
  { s with status := s.status.failed e, result := 0 }

/-- `raise e` in `ENCODE` or `DECODE`, which also zeroes `LAST_RARE` (60_exceptions.md R311,
43_encode.md R213, 44_decode.md R243). -/
def State.raiseBlock (s : State) (e : BlockError) : State :=
  { s.raise e with lastRare := 0 }

end Sys2Proof.Machine
end

