-- ==== Sys2Proof/Machine/Operands.lean ====
section
/-! DEFINITION. The operand forms: the registers as the host reads and writes them (10_state.md R22 to
R29) and the values the commands take from them. -/

namespace Sys2Proof.Machine

open Sys2Proof

/-- The layout of `CFG_KO` and `H_KO`: `K[4:0]`, `O[12:8]` (10_state.md R22). -/
def koWord (k o : BitVec 5) : Word32 := fieldAt 0 k ||| fieldAt 8 o

/-- The layout of `CFG_S` and `CFG_MWS`: a field from bit 0 on and `AUTO[31]` (10_state.md R22). -/
def autoWord {n : Nat} (f : BitVec n) (auto : Bool) : Word32 := fieldAt 0 f ||| flagAt 31 auto

/-- A host read of a register (10_state.md R22): no side effect (20_memory.md R74), `CMD` reads 0. -/
def State.regValue (s : State) : Reg → HostValue
  | .cmd => .word 0
  | .status => .word s.status.word
  | .cfgKo => .word (koWord s.cfg.k s.cfg.o)
  | .cfgS => .word (autoWord s.cfg.s s.cfg.sAuto)
  | .cfgMws => .word (autoWord s.cfg.mws s.cfg.mwsAuto)
  | .cfgIter => .word (fieldAt 0 s.cfg.iter)
  | .cfgPurge => .prob s.cfg.purge
  | .abortMargin => .num s.cfg.abortMargin
  | .srcLen => .num s.srcLen
  | .dstCap => .num s.dstCap
  | .blkN => .num s.blkN
  | .result => .num s.result
  | .hA => .num s.handle.a.toNat
  | .hS => .num s.handle.s.toNat
  | .hMws => .num s.handle.mws.toNat
  | .hStart => .num s.handle.start
  | .hRare => .prob s.handle.rare
  | .hBps => .prob s.handle.bps
  | .hLbar => .prob s.handle.lbar
  | .hEff => .real s.handle.eff
  | .lastRare => .num s.lastRare.toNat
  | .hKo => .word (koWord s.handle.k s.handle.o)

/-- A length written to a register of `LENW` bits (10_state.md R22): its low `LENW` bits. Log 14. -/
def State.asLength (s : State) (n : Nat) : Nat := n % 2 ^ s.inst.lenw

/-- A write to `CMD` starts a command (46_control_commands.md R280). -/
def State.startCommand (s : State) (w : Word32) : State :=
  { s with cmd := w, status := s.status.started }

/-- A host write of a value of the register's type (`HostValue.fits`): only the listed fields are held
(10_state.md R22 to R26), registers of access `R` ignore it. -/
def State.setReg (s : State) : Reg → HostValue → State
  | .cmd, .word w => s.startCommand w
  | .cfgKo, .word w => { s with cfg := { s.cfg with k := w.extractLsb' 0 5, o := w.extractLsb' 8 5 } }
  | .cfgS, .word w => { s with cfg := { s.cfg with s := w.extractLsb' 0 3, sAuto := w.getLsbD 31 } }
  | .cfgMws, .word w => { s with cfg := { s.cfg with mws := w.extractLsb' 0 10, mwsAuto := w.getLsbD 31 } }
  | .cfgIter, .word w => { s with cfg := { s.cfg with iter := w.extractLsb' 0 16 } }
  | .cfgPurge, .prob p => { s with cfg := { s.cfg with purge := p } }
  | .abortMargin, .num n => { s with cfg := { s.cfg with abortMargin := s.asLength n } }
  | .srcLen, .num n => { s with srcLen := s.asLength n }
  | .dstCap, .num n => { s with dstCap := s.asLength n }
  | .blkN, .num n => { s with blkN := s.asLength n }
  | _, _ => s

/-- Host-readable entries of a space (20_memory.md R62). -/
def State.readSpace (s : State) (space : Space) (a n : Nat) : HostData :=
  match space with
  | .pmf => .probs ((List.range n).map fun k => s.pmfAt (a + k))
  | .src => .bytes (s.readSrc a n)
  | .dst => .bytes (s.readDst a n)
  | .alpha => .alphas ((List.range n).map fun k => s.alphaAt (a + k))
  | .s2m => .nums ((List.range n).map fun k => s.s2mAt (a + k))
  | .dict => .words ((List.range n).map fun k => s.dictAt (a + k))
  | .jump => .nums ((List.range n).map fun k => s.jumpAt (a + k))
  | .dec => .records ((List.range n).map fun k => s.decAt (a + k))
  | .rare => .bytes []

/-- A host write of entries of the space's type: `PMF`, `SRC` and `DST` take it, the tables ignore it
(20_memory.md R62). -/
def State.writeSpace (s : State) : Space → Nat → HostData → State
  | .pmf, a, .probs l => { s with pmf := s.pmf.writeRange a l }
  | .src, a, .bytes l => { s with src := s.src.writeRange a l }
  | .dst, a, .bytes l => s.writeDst a l
  | _, _, _ => s

/-! The handle's values as numbers (42_build_tables.md R195: `ENCODE` and `DECODE` take them from the
`H_*` registers only). -/

/-- The handle's `K`. -/
def State.hK (s : State) : Nat := s.handle.k.toNat

/-- The handle's `O`. -/
def State.hO (s : State) : Nat := s.handle.o.toNat

/-- The handle's `S`. -/
def State.hS (s : State) : Nat := s.handle.s.toNat

/-- The handle's `A`. -/
def State.hA (s : State) : Nat := s.handle.a.toNat

/-- The handle's `maxWordSize`. -/
def State.hMws (s : State) : Nat := s.handle.mws.toNat

/-- `FLAG = 2^(K+O)` of the handle (00_scope.md R13). -/
def State.flag (s : State) : Nat := 2 ^ (s.hK + s.hO)

/-- The size of a block's padding, `N mod 8` (43_encode.md R203). -/
def padOf (n : Nat) : Nat := n % 8

/-- The size of a block's aligned part, `N - pad` (43_encode.md R203). -/
def alignedOf (n : Nat) : Nat := n - padOf n

/-- The length of the residual plane of a block of `n` bytes, `N_al * S div 8` (30_encoding.md R100). -/
def planeLen (n s : Nat) : Nat := alignedOf n * s / 8

end Sys2Proof.Machine
end

