-- ==== Sys2Proof/Machine/Numerics.lean ====
section
/-! DEFINITION. The arithmetic of probabilities: the four operations of an instance's `NUMERICS`
(00_scope.md R7, R11), exact over the rationals, free values for any other number system; and what the rules make
of them, sums, comparisons and the tests with a tolerance. Log 1. -/

namespace Sys2Proof

/-- `qdiv` of the reference semantics: total division, 0 for the divisor 0 (00_scope.md R11). -/
def Machine.qdiv (a b : ℚ) : ℚ := if b = 0 then 0 else a / b

/-! ### The four operations -/

/-- `a + b`. -/
def Config.Numerics.add : Config.Numerics → Prob → Prob → Prob
  | .exact, a, b => .rat (a.toRat + b.toRat)
  | .rounding n, a, b => Config.roundAdd n a b

/-- `a - b`. -/
def Config.Numerics.sub : Config.Numerics → Prob → Prob → Prob
  | .exact, a, b => .rat (a.toRat - b.toRat)
  | .rounding n, a, b => Config.roundSub n a b

/-- `a * b`. -/
def Config.Numerics.mul : Config.Numerics → Prob → Prob → Prob
  | .exact, a, b => .rat (a.toRat * b.toRat)
  | .rounding n, a, b => Config.roundMul n a b

/-- `qdiv(a, b)`. -/
def Config.Numerics.qdiv : Config.Numerics → Prob → Prob → Prob
  | .exact, a, b => .rat (Machine.qdiv a.toRat b.toRat)
  | .rounding n, a, b => Config.roundDiv n a b

/-! ### Sums: `+` and nothing else -/

/-- The places of an order of adding. -/
def Config.SumTree.places : Config.SumTree → List Nat
  | .term i => [i]
  | .plus l r => l.places ++ r.places

/-- The terms added in an order. -/
def Config.SumTree.value (num : Config.Numerics) (terms : List Prob) : Config.SumTree → Prob
  | .term i => terms.getD i (.rat 0)
  | .plus l r => num.add (l.value num terms) (r.value num terms)

/-- The order in which a system adds the terms: the instance's, if it adds every term once; else from the first to
the last. -/
def Config.addOrder (system : Nat) (terms : List Prob) : Config.SumTree :=
  if (Config.sumOrder system terms).places.Perm (List.range terms.length) then Config.sumOrder system terms
  else (List.range terms.length).tail.foldl (fun t i => .plus t (.term i)) (.term 0)

/-- `sum(...)` of the pseudocode: no term gives 0, one term itself, several their `+` in some order. Over the exact
rationals every order gives the sum (`exact_sum_any_order` in Laws/Build.lean). -/
def Config.Numerics.sum (num : Config.Numerics) (terms : List Prob) : Prob :=
  match num with
  | .exact => .rat (terms.map Prob.toRat).sum
  | .rounding n => (Config.addOrder n terms).value num terms

/-! ### Comparisons: exact on numbers (00_scope.md R11), free where a value is no number -/

/-- `a < b`. -/
def Config.Numerics.lt : Config.Numerics → Prob → Prob → Bool
  | .exact, a, b => a.toRat < b.toRat
  | .rounding _, .rat a, .rat b => a < b
  | .rounding n, a, b => Config.otherLess n a b

/-- `a = b`. -/
def Config.Numerics.eq : Config.Numerics → Prob → Prob → Bool
  | .exact, a, b => a.toRat = b.toRat
  | .rounding _, .rat a, .rat b => a = b
  | .rounding n, a, b => Config.otherEqual n a b

/-- `+infinity > p`: so for every number (40_build_alphabet.md R138: "for every finite `x`"). DESIGN CHOICE (log
31): for a value that is no number, of which R138 says nothing, a free value. -/
def Config.Numerics.belowInfinity (num : Config.Numerics) (p : Prob) : Bool :=
  match num, p with
  | .rounding n, .other c => Config.otherBelowInfinity n (.other c)
  | _, _ => true

/-- `p > +infinity`: so for no number; for a value that is no number a free value (log 31). -/
def Config.Numerics.aboveInfinity (num : Config.Numerics) (p : Prob) : Bool :=
  match num, p with
  | .rounding n, .other c => Config.otherAboveInfinity n (.other c)
  | _, _ => false

/-! ### Tests with a tolerance -/

/-- The value is the number `q` within a tolerance; one that is no number is if it equals `q`. -/
def Config.Numerics.near (num : Config.Numerics) (ε : ℚ≥0) (p : Prob) (q : ℚ) : Bool :=
  match p with
  | .rat x => |x - q| ≤ ε
  | .other c => num.eq (.other c) (.rat q)

/-- "sum to 1", within the tolerance the instance names (40_build_alphabet.md R131, D5). -/
def Config.Numerics.sumIsOne (num : Config.Numerics) (p : Prob) : Bool :=
  match num with
  | .exact => num.eq p (.rat 1)
  | .rounding n => num.near (Config.sumTolerance n) p 1

/-- `PMF[v] = 1` (40_build_alphabet.md R131, 60_exceptions.md R301). DESIGN CHOICE (log 29): with a rounding
`NUMERICS` this test has a tolerance of its own, which may be 0. -/
def Config.Numerics.entryIsOne (num : Config.Numerics) (p : Prob) : Bool :=
  match num with
  | .exact => num.eq p (.rat 1)
  | .rounding n => num.near (Config.entryTolerance n) p 1

/-- "clamp ε to 0 or 1" (41_build_dictionary.md R152): nothing over the exact rationals; in another system, where R152
says "may clamp" and not how, the instance chooses for each value whether to clamp it and to which of the two, and a
choice takes effect only on a value within the tolerance of it. DESIGN CHOICE (log 30): the choice and the tolerance
are free values, the distance is exact, and a value that is no number is within it if it compares as equal. -/
def Config.Numerics.clamp (num : Config.Numerics) (p : Prob) : Prob :=
  match num with
  | .exact => p
  | .rounding n =>
      match Config.clampTarget n p with
      | none => p
      | some t => if num.near (Config.clampTolerance n) p t.val then .rat t.val else p

end Sys2Proof
end

