-- ==== Sys2Proof/Machine/Alphabet.lean ====
section
/-! DEFINITION. `BUILD`, part 1: the configuration check and the alphabet builder (40_build_alphabet.md
R131 to R137). -/

namespace Sys2Proof.Machine

open Sys2Proof

/-- The supported `maxWordSize` values (40_build_alphabet.md R131). -/
def mwsSupported : List Nat := [3, 7, 15, 31, 63, 127, 255, 511]

/-- An invalid or degenerate PMF (40_build_alphabet.md R131, 60_exceptions.md R301). With a rounding `NUMERICS` "the
equality with 1" of R131 "becomes a tolerance the instance names", D5 says so of the sum only. DESIGN CHOICE (log
29): each of the two tests has a tolerance, that of the entry a free value of its own, which may be 0. -/
def pmfInvalid (num : Config.Numerics) (pmf : List Prob) : Bool :=
  !num.sumIsOne (num.sum pmf) || pmf.any num.entryIsOne

/-- `K` and `O` out of range (40_build_alphabet.md R131). -/
def koInvalid (c : Config.Instance) (k o : Nat) : Bool :=
  !(4 ≤ k && k ≤ c.kMax && o < k && k + o ≤ c.koMax)

/-- `CHECKCFG`: the first test that fires (40_build_alphabet.md R131, 60_exceptions.md R310). -/
def checkCfg (c : Config.Instance) (pmf : List Prob) (cfg : CfgRegs) : Option BlockError :=
  if pmfInvalid c.numerics pmf then some (.construction .invalidPmf)
  else if koInvalid c cfg.k.toNat cfg.o.toNat then some (.construction .badKo)
  else if cfg.iter = 0 then some (.construction .badIter)
  else if !cfg.mwsAuto && !mwsSupported.contains cfg.mws.toNat then some .unsupported
  else none

/-- `GROUP(PMF, S)`: every bucket of `v >> S`, with its mass (40_build_alphabet.md R133). -/
def groupPmf (num : Config.Numerics) (pmf : List Prob) (s : Nat) : List AlphaEntry :=
  (List.range (2 ^ (8 - s))).map fun g =>
    { src := BitVec.ofNat 8 (g <<< s),
      p := num.sum ((pmf.zipIdx.filter fun e => e.2 >>> s = g).map Prod.fst) }

/-- The order of `SORTALPHA`: descending probability, then ascending source symbol (40_build_alphabet.md
R134). -/
def alphaBefore (num : Config.Numerics) (a b : AlphaEntry) : Bool :=
  num.lt b.p a.p || (num.eq a.p b.p && a.src.toNat ≤ b.src.toNat)

/-- `SORTALPHA` (40_build_alphabet.md R134). -/
def sortAlpha (num : Config.Numerics) (l : List AlphaEntry) : List AlphaEntry :=
  l.insertionSort fun a b => alphaBefore num a b = true

/-- `minMarlin` (00_scope.md R7). -/
def minMarlin (o : Nat) : Nat := max (2 ^ o) 8

/-- `maxMarlin` (00_scope.md R7). -/
def maxMarlin (k : Nat) : Nat := 2 ^ k - 1

/-- The loop of `TRIM` on the kept list in reverse, its tail element first (40_build_alphabet.md R135). -/
def trimTail (num : Config.Numerics) (k o : Nat) (purge : Prob) : List AlphaEntry → Prob → List AlphaEntry × Prob
  | [], rare => ([], rare)
  | e :: rest, rare =>
      if rest.length + 1 > minMarlin o ∧ (rest.length + 1 > maxMarlin k ∨ num.lt e.p purge = true) then
        trimTail num k o purge rest (num.add rare e.p)
      else (e :: rest, rare)

/-- `TRIM`: the kept list and `rareProb` (40_build_alphabet.md R135). -/
def trim (num : Config.Numerics) (sorted : List AlphaEntry) (k o : Nat) (purge : Prob) : List AlphaEntry × Prob :=
  let t := trimTail num k o purge sorted.reverse (.rat 0)
  (t.1.reverse, t.2)

/-- `ALPHABET(PMF, K, O, S, purge)` (40_build_alphabet.md R132). -/
def alphabet (num : Config.Numerics) (pmf : List Prob) (k o s : Nat) (purge : Prob) : List AlphaEntry × Prob :=
  trim num (sortAlpha num (groupPmf num pmf s)) k o purge

end Sys2Proof.Machine
end

