-- ==== Sys2Proof/Machine/Dictionary.lean ====
section
/-! DEFINITION. `BUILD`, part 2: the dictionary (41_build_dictionary.md). -/

namespace Sys2Proof.Machine

open Sys2Proof

/-- A node of a chapter's tree (41_build_dictionary.md R150). Its id is its place in the list of nodes, in
creation order; its child at index `d` is the node of `word ++ [d]`, so the number of children says which
they are. A retired node is out of the queue (R155). -/
structure Node where
  word : List Nat
  p : Prob
  degree : Nat
  retired : Bool
deriving DecidableEq, Repr

/-- `PN` of `PNCALC`: `rareProb` is in every entry (41_build_dictionary.md R151). -/
def pnOf (num : Config.Numerics) (alpha : List AlphaEntry) (rareProb : Prob) : List Prob :=
  (List.range alpha.length).map fun s => num.add rareProb (num.sum ((alpha.drop s).map AlphaEntry.p))

/-- `Pchild` of `PNCALC` (41_build_dictionary.md R151). -/
def pchildOf (num : Config.Numerics) (alpha : List AlphaEntry) (pn : List Prob) : List Prob :=
  List.zipWith (fun e n => num.qdiv e.p n) alpha pn

/-- `NORM`: the normalised vector and the factor; a chapter never entered is built as if from state 0
(41_build_dictionary.md R152). -/
def norm (num : Config.Numerics) (pst : List Prob) : List Prob × Prob :=
  let factor := num.sum pst
  if num.eq factor (.rat 0) then (pst.mapIdx fun s _ => .rat (if s = 0 then 1 else 0), .rat 0)
  else (pst.map fun p => num.clamp (num.qdiv p factor), factor)

/-- The probabilities of the seed children, `run` the sum of `qdiv(pn[t], PN[t])` so far
(41_build_dictionary.md R153). -/
def seedProbs (num : Config.Numerics) : Prob → List Prob → List Prob → List AlphaEntry → List Prob
  | run, q :: qs, n :: ns, e :: es =>
      let run' := num.add run (num.qdiv q n)
      num.mul run' e.p :: seedProbs num run' qs ns es
  | _, _, _, _ => []

/-- `SEED`: the root, of degree `A`, its `p` decremented by one child after another, and its `A` children
(41_build_dictionary.md R153). -/
def seed (num : Config.Numerics) (pn pnSum : List Prob) (alpha : List AlphaEntry) : List Node :=
  let ps := seedProbs num (.rat 0) pn pnSum alpha
  { word := [], p := ps.foldl num.sub (.rat 1), degree := alpha.length, retired := false }
    :: ps.mapIdx fun s p => { word := [s], p := p, degree := 0, retired := false }

/-- The queue's next node with its id: the largest `p`, among equals the smallest id
(41_build_dictionary.md R154). `id` is the id of the list's first node. -/
def popBest (num : Config.Numerics) : List Node → Nat → Option (Nat × Node)
  | [], _ => none
  | n :: ns, id =>
      if n.retired then popBest num ns (id + 1)
      else
        match popBest num ns (id + 1) with
        | none => some (id, n)
        | some (j, m) => if num.lt n.p m.p then some (j, m) else some (id, n)

/-- The retire rule (41_build_dictionary.md R155, 90_conflicts.md C5). -/
def retires (a mws : Nat) (n : Node) : Bool :=
  (mws ≤ n.word.length && 0 < n.word.length) || n.word.length == 255 || n.degree == a

/-- The split of node `id`: its next child is appended, its `p` decremented (41_build_dictionary.md R155). -/
def splitNode (num : Config.Numerics) (pchild : List Prob) (nodes : List Node) (id : Nat) (n : Node) : List Node :=
  let p' := num.mul n.p (pchild.getD n.degree (.rat 0))
  nodes.set id { n with p := num.sub n.p p', degree := n.degree + 1 }
    ++ [{ word := n.word ++ [n.degree], p := p', degree := 0, retired := false }]

/-- The loop of `GROW` (41_build_dictionary.md R155): every node is in the queue or retired, so
`|queue| + retired` is the number of nodes. `none` is `AlphabetTooSmall` (R156). Each turn retires a node or
adds one, so `2 * 2^K` turns suffice (Laws/Build.lean, log 19). -/
def growLoop (num : Config.Numerics) (cap a mws : Nat) (pchild : List Prob) : Nat → List Node → Option (List Node)
  | 0, nodes => if nodes.length < cap then none else some nodes
  | fuel + 1, nodes =>
      if nodes.length < cap then
        match popBest num nodes 0 with
        | none => none
        | some (id, n) =>
            if retires a mws n then
              growLoop num cap a mws pchild fuel (nodes.set id { n with retired := true })
            else growLoop num cap a mws pchild fuel (splitNode num pchild nodes id n)
      else some nodes

/-- `GROW(K, mws, Pchild)` (41_build_dictionary.md R155). -/
def grow (num : Config.Numerics) (k a mws : Nat) (pchild : List Prob) (nodes : List Node) :
    Option (List Node) :=
  growLoop num (2 ^ k) a mws pchild (2 * 2 ^ k) nodes

/-- `EXTRACT`, after every `p` is multiplied by the factor (41_build_dictionary.md R157, R158). -/
def extract (num : Config.Numerics) (factor : Prob) (nodes : List Node) : List DictWord :=
  nodes.map fun n => { syms := n.word, p := num.mul n.p factor, state := n.degree }

/-- Lexicographic order on words (00_scope.md R10). -/
def lexLe : List Nat → List Nat → Bool
  | [], _ => true
  | _ :: _, [] => false
  | a :: as, b :: bs => a < b || (a == b && lexLe as bs)

/-- The order of `SORTWORDS`: state ascending, `p` descending, word ascending (41_build_dictionary.md
R159). -/
def wordBefore (num : Config.Numerics) (v w : DictWord) : Bool :=
  v.state < w.state || (v.state == w.state && (num.lt w.p v.p || (num.eq v.p w.p && lexLe v.syms w.syms)))

/-- `SORTWORDS`: the empty word first, the others in order (41_build_dictionary.md R159). -/
def sortWords (num : Config.Numerics) (l : List DictWord) : List DictWord :=
  l.filter (fun w => w.syms.isEmpty)
    ++ (l.filter fun w => !w.syms.isEmpty).insertionSort (fun v w => wordBefore num v w = true)

/-- The word at sorted place `t`; a list of `2^K` words has every place asked for (log 18). -/
def wordAt (l : List DictWord) (t : Nat) : DictWord := l.getD t { syms := [], p := .rat 0, state := 0 }

/-- `PACK`: slot `q * 2^O + r` gets sorted word `r * 2^(K-O) + q` (41_build_dictionary.md R160). -/
def pack (k o : Nat) (sorted : List DictWord) : List DictWord :=
  (List.range (2 ^ k)).map fun j => wordAt sorted (j % 2 ^ o * 2 ^ (k - o) + j / 2 ^ o)

/-- What the chapters of one dictionary share: the alphabet, `PN`, `Pchild`, the configuration and the
number system. -/
structure BuildParams where
  num : Config.Numerics
  alpha : List AlphaEntry
  pn : List Prob
  pchild : List Prob
  k : Nat
  o : Nat
  mws : Nat
deriving DecidableEq, Repr

/-- One chapter from its vector of state probabilities (41_build_dictionary.md R162, loop body). -/
def buildChapter (b : BuildParams) (pst : List Prob) : Option (List DictWord) :=
  let n := norm b.num pst
  (grow b.num b.k b.alpha.length b.mws b.pchild (seed b.num n.1 b.pn b.alpha)).map fun nodes =>
    pack b.k b.o (sortWords b.num (extract b.num n.2 nodes))

/-- All chapters, in the order of their numbers. -/
def buildChapters (b : BuildParams) : List (List Prob) → Option (List DictWord)
  | [] => some []
  | pst :: rest =>
      match buildChapter b pst with
      | none => none
      | some c => (buildChapters b rest).map (c ++ ·)

/-- The state a word counts for: state `A` counts as state 0 (41_build_dictionary.md R161). -/
def countedState (a st : Nat) : Nat := if st = a then 0 else st

/-- `PSTATES`: for chapter `c` and state `s` the mass of the words at positions `i` with `i mod 2^O = c`
that count for `s`, added in the order of the positions (41_build_dictionary.md R161). -/
def pstates (num : Config.Numerics) (a o : Nat) (dict : List DictWord) : List (List Prob) :=
  (List.range (2 ^ o)).map fun c =>
    let mine := (dict.zipIdx.filter fun e => e.2 % 2 ^ o = c).map Prod.fst
    (List.range a).map fun st =>
      ((mine.filter fun w => countedState a w.state = st).map DictWord.p).foldl num.add (.rat 0)

/-- The vectors every dictionary starts from (41_build_dictionary.md R162). -/
def initialPstates (num : Config.Numerics) (a o : Nat) : List (List Prob) :=
  (List.range (2 ^ o)).map fun _ => (List.range a).map fun st => if st = 0 then num.qdiv (.rat 1) (.rat (2 ^ o)) else .rat 0

/-- `iters` passes of `ITERATE` from given vectors (41_build_dictionary.md R162); the vectors after the last
pass are discarded. -/
def iterateFrom (b : BuildParams) : Nat → List (List Prob) → Option (List DictWord)
  | 0, _ => some []
  | 1, pst => buildChapters b pst
  | n + 2, pst =>
      match buildChapters b pst with
      | none => none
      | some d => iterateFrom b (n + 1) (pstates b.num b.alpha.length b.o d)

/-- The shared values of an alphabet and a configuration. -/
def buildParams (num : Config.Numerics) (alpha : List AlphaEntry) (rareProb : Prob) (k o mws : Nat) :
    BuildParams :=
  { num := num, alpha := alpha, pn := pnOf num alpha rareProb,
    pchild := pchildOf num alpha (pnOf num alpha rareProb), k := k, o := o, mws := mws }

/-- `ITERATE(alpha, rareProb, K, O, mws, iters)`; `none` is `AlphabetTooSmall` (41_build_dictionary.md
R162). -/
def iterate (num : Config.Numerics) (alpha : List AlphaEntry) (rareProb : Prob) (k o mws iters : Nat) :
    Option (List DictWord) :=
  iterateFrom (buildParams num alpha rareProb k o mws) iters (initialPstates num alpha.length o)

end Sys2Proof.Machine
end

