-- ==== Sys2Proof/Machine/Residual.lean ====
section
/-! DEFINITION. The residual plane: the group and plane operations and the commands `PEXT` and `PDEP`
(45_residual_plane.md). -/

namespace Sys2Proof.Machine

open Sys2Proof

/-- A number's low 8 bits as a byte. -/
def byteOf (n : Nat) : Byte := BitVec.ofNat 8 n

/-- The `8 * S`-bit number of a group: lane `i` contributes its low `S` bits at bit `i * S`
(45_residual_plane.md R260). -/
def packLanes (grp : List Byte) (s : Nat) : Nat :=
  ((List.range 8).map fun i => ((grp.getD i 0).toNat % 2 ^ s) <<< (i * s)).sum

/-- `PEXT8(grp, S)`: the `S` bytes of the group's number, least significant first (45_residual_plane.md
R260). -/
def pext8 (grp : List Byte) (s : Nat) : List Byte :=
  (List.range s).map fun q => byteOf ((packLanes grp s >>> (8 * q)) % 256)

/-- The number of `S` plane bytes, least significant first (45_residual_plane.md R262). -/
def packPlane (pl : List Byte) (s : Nat) : Nat :=
  ((List.range s).map fun q => (pl.getD q 0).toNat <<< (8 * q)).sum

/-- `PDEP8(grp, pl, S)`: each lane keeps its high bits and gets `S` bits of the plane
(45_residual_plane.md R262). -/
def pdep8 (grp pl : List Byte) (s : Nat) : List Byte :=
  (List.range 8).map fun i =>
    byteOf (((grp.getD i 0).toNat - (grp.getD i 0).toNat % 2 ^ s) + (packPlane pl s >>> (i * s)) % 2 ^ s)

/-- Group `g` of `n` bytes each. -/
def groupAt (l : List Byte) (n g : Nat) : List Byte := (l.drop (g * n)).take n

/-- `PEXTPLANE(a, S)` (45_residual_plane.md R264). -/
def pextPlane (a : List Byte) (s : Nat) : List Byte :=
  (List.range (a.length / 8)).flatMap fun g => pext8 (groupAt a 8 g) s

/-- `PDEPPLANE(d, pl, S)` (45_residual_plane.md R265). -/
def pdepPlane (d pl : List Byte) (s : Nat) : List Byte :=
  (List.range (d.length / 8)).flatMap fun g => pdep8 (groupAt d 8 g) (groupAt pl s g) s

/-- When `PEXT` raises `BadLength` (45_residual_plane.md R268). -/
def pextBadLength (s : State) : Bool :=
  s.inst.srcSize < s.srcLen || s.srcLen % 8 != 0 || s.inst.dstSize < s.srcLen * s.cfg.s.toNat / 8

/-- When `PDEP` raises `BadLength` (45_residual_plane.md R269). -/
def pdepBadLength (s : State) : Bool :=
  s.inst.dstSize < s.blkN || s.blkN % 8 != 0 || s.inst.srcSize < s.srcLen
    || s.srcLen != s.blkN * s.cfg.s.toNat / 8

/-- `PEXT` (45_residual_plane.md R268): `S` from `CFG_S.S` whatever `AUTO` is (R266); the per-block state starts
anew (10_state.md R20), `RCUR` counts the groups. -/
def execPext (s : State) : Host.Outcome State Fault Refusal :=
  let b := s.startBlock
  if pextBadLength s then .next (b.raise .badLength)
  else
    let plane := pextPlane (s.readSrc 0 s.srcLen) s.cfg.s.toNat
    .next ({ b.leaveDst plane with enc := { b.enc with rcur := s.srcLen / 8 } }.finish .none false
      (s.srcLen * s.cfg.s.toNat / 8))

/-- `PDEP` (45_residual_plane.md R269): the plane in `SRC` is deposited into the block in `DST`; the per-block
state starts anew (10_state.md R20), `RCUR` counts the groups. -/
def execPdep (s : State) : Host.Outcome State Fault Refusal :=
  let b := s.startBlock
  if pdepBadLength s then .next (b.raise .badLength)
  else
    let block := pdepPlane (s.readDst 0 s.blkN) (s.readSrc 0 s.srcLen) s.cfg.s.toNat
    .next ({ b.writeDst 0 block with decr := { b.decr with rcur := s.blkN / 8 } }.finish .none false s.blkN)

end Sys2Proof.Machine
end

