-- ==== Sys2Proof/Machine/Tables.lean ====
section
/-! DEFINITION. `BUILD`, part 3: efficiency, jump table, decoder table, source-to-Marlin table
(42_build_tables.md). -/

namespace Sys2Proof.Machine

open Sys2Proof

/-- The mean word length (42_build_tables.md R180, R181). -/
def lbarOf (num : Config.Numerics) (dict : List DictWord) : Prob :=
  num.sum (dict.map fun w => num.mul w.p (.rat w.syms.length))

/-- `BPS` (42_build_tables.md R180). -/
def bpsFrom (num : Config.Numerics) (k s : Nat) (rareProb lbar : Prob) : Prob :=
  num.add (num.add (num.mul (num.qdiv (.rat k) lbar) (num.sub (.rat 1) rareProb)) (.rat s))
    (num.mul (.rat (2 * k)) rareProb)

/-- Chapter `c` of a dictionary: positions `c * 2^K` to `(c+1) * 2^K - 1` (10_state.md R32). -/
def chapterOf (k : Nat) (dict : List DictWord) (c : Nat) : List DictWord :=
  (dict.drop (c * 2 ^ k)).take (2 ^ k)

/-- `pos(c, w)`, when chapter `c` has the word (00_scope.md R13). -/
def posOf (k : Nat) (dict : List DictWord) (c : Nat) (w : List Nat) : Option Nat :=
  ((chapterOf k dict c).findIdx? fun e => e.syms == w).map (c * 2 ^ k + ·)

/-- `pos(c, w)` where a finished dictionary has the word (41_build_dictionary.md R163); undefined
otherwise. Log 18. -/
def posD (k : Nat) (dict : List DictWord) (c : Nat) (w : List Nat) : Nat :=
  (posOf k dict c w).getD (Config.undefinedPos c w)

/-- The jump table while it is built: row `i`, column `m`; `none` is the builder's "undefined"
(42_build_tables.md R183). -/
abbrev JumpRows := List (List (Option Nat))

/-- `JUMP[q, t] <- v`. -/
def setCell (rows : JumpRows) (q t v : Nat) : JumpRows := rows.modify q fun row => row.set t (some v)

/-- The prefix walk of `JUMPLINK` from position `i`, the word last symbol first (42_build_tables.md R184).
-/
def linkWalk (k : Nat) (dict : List DictWord) (c : Nat) : List Nat → Nat → JumpRows → JumpRows
  | [], _, rows => rows
  | [_], _, rows => rows
  | t :: u :: rest, i, rows =>
      let q := posD k dict c (u :: rest).reverse
      linkWalk k dict c (u :: rest) q (setCell rows q t i)

/-- `JUMPLINK` from the table with every cell undefined (42_build_tables.md R183, R184). -/
def jumpLink (k a : Nat) (dict : List DictWord) : JumpRows :=
  dict.zipIdx.foldl (fun rows e => linkWalk k dict (e.2 / 2 ^ k) e.1.syms.reverse e.2 rows)
    (List.replicate dict.length (List.replicate (a + 1) none))

/-- One row of `JUMPFILL`: undefined cells restart in the next chapter with the flag, column `A` is a copy
of column 0 (42_build_tables.md R185). -/
def fillRow (k o a : Nat) (dict : List DictWord) (i : Nat) (row : List (Option Nat)) : List Nat :=
  let filled := (row.take a).mapIdx fun m c => c.getD (posD k dict (i % 2 ^ o) [m] + 2 ^ (k + o))
  filled ++ filled.take 1

/-- The finished jump table, row by row (42_build_tables.md R184, R185). -/
def jumpRows (k o a : Nat) (dict : List DictWord) : List (List Nat) :=
  (jumpLink k a dict).mapIdx (fillRow k o a dict)

/-- `DEC[i]` of a word: payload, filler 0, length byte (42_build_tables.md R188, 30_encoding.md R102). -/
def decRecord (alpha : List AlphaEntry) (mws : Nat) (w : DictWord) : List Byte :=
  (w.syms.map fun m => (alpha.getD m { src := 0, p := .rat 0 }).src)
    ++ List.replicate (mws - w.syms.length) 0 ++ [byteOf w.syms.length]

/-- `DECBUILD` (42_build_tables.md R188). -/
def decBuild (alpha : List AlphaEntry) (mws : Nat) (dict : List DictWord) : List (List Byte) :=
  dict.map (decRecord alpha mws)

/-- `S2MBUILD`: `A` everywhere, then each kept group's symbol (42_build_tables.md R190). -/
def s2mBuild (alpha : List AlphaEntry) (s : Nat) : List Nat :=
  alpha.zipIdx.foldl (fun t e => t.set (e.1.src.toNat >>> s) e.2) (List.replicate 256 alpha.length)

end Sys2Proof.Machine
end

