-- ==== Sys2Proof/Machine/Build.lean ====
section
/-! DEFINITION. `BUILD` as a whole: the automatic choice of `S` and `maxWordSize`, and the command
(40_build_alphabet.md R130, R138 to R140; 42_build_tables.md R195). -/

namespace Sys2Proof.Machine

open Sys2Proof

/-- The operands of `BUILD` that every candidate shares (40_build_alphabet.md R130, R138). -/
structure BuildInput where
  num : Config.Numerics
  pmf : List Prob
  k : Nat
  o : Nat
  purge : Prob
  iters : Nat
deriving DecidableEq, Repr

/-- The operands of `BUILD` in a state. -/
def State.buildInput (s : State) : BuildInput :=
  { num := s.inst.numerics, pmf := s.pmfAll, k := s.cfg.k.toNat, o := s.cfg.o.toNat, purge := s.cfg.purge, iters := s.cfg.iter.toNat }

/-- The alphabet of a shift. -/
def BuildInput.alphabet (b : BuildInput) (s : Nat) : List AlphaEntry × Prob :=
  Sys2Proof.Machine.alphabet b.num b.pmf b.k b.o s b.purge

/-- The dictionary of a shift and a `maxWordSize`; `none` is `AlphabetTooSmall`. -/
def BuildInput.dictionary (b : BuildInput) (s mws : Nat) : Option (List DictWord) :=
  iterate b.num (b.alphabet s).1 (b.alphabet s).2 b.k b.o mws b.iters

/-- `bpsOf(s, m)`; `none` is `+infinity` (40_build_alphabet.md R138). -/
def BuildInput.bpsOf (b : BuildInput) (s mws : Nat) : Option Prob :=
  (b.dictionary s mws).map fun d => bpsFrom b.num b.k s (b.alphabet s).2 (lbarOf b.num d)

/-- `x > y` where `none` is `+infinity`, greater than every finite value and not than itself (40_build_alphabet.md
R138). DESIGN CHOICE (log 31): how `+infinity` compares with a value that is no number is a free value. -/
def bpsWorse (num : Config.Numerics) (x y : Option Prob) : Bool :=
  match x, y with
  | none, none => false
  | none, some y => num.belowInfinity y
  | some x, none => num.aboveInfinity x
  | some x, some y => num.lt y x

/-- `x * f > y * g` in the same sense: a factor leaves `+infinity` as it is. -/
def bpsExceeds (num : Config.Numerics) (x : Option Prob) (f : Prob) (y : Option Prob) (g : Prob) : Bool :=
  bpsWorse num (x.map (num.mul · f)) (y.map (num.mul · g))

/-- The sweep of `S`: the candidates left, the best so far and its `bps` (40_build_alphabet.md R138, R139).
-/
def sweepS (num : Config.Numerics) (bps : Nat → Option Prob) : List Nat → Nat → Nat
  | [], best => best
  | s :: rest, best => if bpsWorse num (bps s) (bps (s - 1)) then best else sweepS num bps rest s

/-- The automatic choice of `maxWordSize` (40_build_alphabet.md R138, R140). -/
def chooseMws (num : Config.Numerics) (bps : Nat → Option Prob) : Nat :=
  if bpsExceeds num (bps 3) (.rat 10000) (bps 7) (.rat 10001) then
    if bpsExceeds num (bps 7) (.rat 10000) (bps 15) (.rat 10001) then 15 else 7
  else 3

/-- `AUTOSEL`'s `S` (40_build_alphabet.md R138). -/
def autoS (b : BuildInput) (cfg : CfgRegs) : Nat :=
  if cfg.sAuto then sweepS b.num (fun s => b.bpsOf s (if cfg.mwsAuto then 7 else cfg.mws.toNat)) [1, 2, 3, 4, 5] 0
  else cfg.s.toNat

/-- `AUTOSEL`'s `maxWordSize` for the shift chosen (40_build_alphabet.md R138). -/
def autoMws (b : BuildInput) (cfg : CfgRegs) (s : Nat) : Nat :=
  if cfg.mwsAuto then chooseMws b.num (b.bpsOf s) else cfg.mws.toNat

/-- The tables of a dictionary in their RAMs and the handle registers: `JUMPLINK` to `COMMIT`
(42_build_tables.md R183 to R195). Entries beyond the valid counts stay unspecified (10_state.md R31). -/
def State.commit (st : State) (b : BuildInput) (s mws : Nat) (d : List DictWord) : State :=
  let al := b.alphabet s
  let a := al.1.length
  let lbar := lbarOf b.num d
  let bps := bpsFrom b.num b.k s al.2 lbar
  { st with
    alpha := st.alpha.writeRange 0 al.1,
    s2m := st.s2m.writeRange 0 (s2mBuild al.1 s),
    dict := st.dict.writeRange 0 d,
    jump := st.jump.writeRange 0 (jumpRows b.k b.o a d).flatten,
    dec := st.dec.writeRange 0 (decBuild al.1 mws d),
    handle := { k := BitVec.ofNat 5 b.k, o := BitVec.ofNat 5 b.o, a := BitVec.ofNat 9 a, s := BitVec.ofNat 3 s,
                mws := BitVec.ofNat 10 mws, start := posD b.k d 0 [0], rare := al.2, bps := bps,
                lbar := lbar, eff := .ratio b.pmf bps },
    status := { st.status with hvalid := true } }

/-- `BUILD` after `CHECKCFG` has passed (40_build_alphabet.md R130): `st` has the old handle dropped. -/
def buildHandle (st : State) (b : BuildInput) (cfg : CfgRegs) : State :=
  let s := autoS b cfg
  let mws := autoMws b cfg s
  match b.dictionary s mws with
  | none => st.raise (.construction .alphabetTooSmall)
  | some d => (st.commit b s mws d).finish .none false 0

/-- `BUILD` (40_build_alphabet.md R130): the old handle is gone first, whatever follows. -/
def execBuild (s : State) : Host.Outcome State Fault Refusal :=
  match checkCfg s.inst s.pmfAll s.cfg with
  | some e => .next (s.dropHandle.raise e)
  | none => .next (buildHandle s.dropHandle s.buildInput s.cfg)

end Sys2Proof.Machine
end

