-- ==== Sys2Proof/Machine/Control.lean ====
section
/-! DEFINITION. `NOP`, `SRESET` and the illegal command (46_control_commands.md). -/

namespace Sys2Proof.Machine

open Sys2Proof

/-- `NOP` (46_control_commands.md R281): only the report and `RESULT` are cleared. -/
def execNop (s : State) : Host.Outcome State Fault Refusal := .next (s.finish .none false 0)

/-- `SRESET` (46_control_commands.md R282): the handle is dropped, `STATUS`, `RESULT` and `LAST_RARE`
cleared; the configuration, the length registers, `PMF`, `SRC` and `DST` are kept. -/
def execSreset (s : State) : Host.Outcome State Fault Refusal :=
  .next ({ s.dropHandle with lastRare := 0 }.finish .none false 0)

/-- A word that is no command (46_control_commands.md R283, 30_encoding.md R93): `IllegalCommand`, nothing
else changes. -/
def execIllegal (s : State) : Host.Outcome State Fault Refusal := .next (s.raise .illegalCommand)

end Sys2Proof.Machine
end

