-- ==== Sys2Proof/Machine/Frame.lean ====
section
/-! DEFINITION. The frame: its kinds by length, the offset width, the bytes of a rare entry, the bits of the
codeword stream (30_encoding.md R94 to R100). -/

namespace Sys2Proof.Machine

open Sys2Proof

/-- The offset width `OW` in bytes (30_encoding.md R99). -/
def offsetWidth (n : Nat) : Nat :=
  if n < 2 ^ 8 then 1 else if n < 2 ^ 16 then 2 else if n < 2 ^ 32 then 4 else 8

/-- `LE(v, n)`: `v` as `n` bytes, least significant first (43_encode.md R212, 20_memory.md R65). -/
def leBytes (v : Nat) : Nat → List Byte
  | 0 => []
  | n + 1 => byteOf (v % 256) :: leBytes (v / 256) n

/-- The number of little-endian bytes (44_decode.md R242). -/
def leNumber : List Byte → Nat
  | [] => 0
  | b :: bs => b.toNat + 256 * leNumber bs

/-- One entry of the rare table (30_encoding.md R99). -/
def rareBytes (ow : Nat) (e : RareEntry) : List Byte := leBytes e.offset ow ++ [e.value]

/-- Bit `n` of a stream: bit `7 - n mod 8` of byte `n div 8` (20_memory.md R66, 44_decode.md R237). -/
def streamBit (stream : List Byte) (n : Nat) : Bool := (stream.getD (n / 8) 0).getLsbD (7 - n % 8)

/-- A number from its bits, most significant first. -/
def bitsNumber (bits : List Bool) : Nat := bits.foldl (fun v b => 2 * v + b.toNat) 0

/-- Codeword `u` of a stream of `K`-bit codewords (44_decode.md R237). -/
def codewordAt (k : Nat) (stream : List Byte) (u : Nat) : Nat :=
  bitsNumber ((List.range k).map fun n => streamBit stream (u * k + n))

/-- How many codewords a reader takes from a stream of `len` bytes (30_encoding.md R98). -/
def unitsOf (k len : Nat) : Nat := 8 * len / k

end Sys2Proof.Machine
end

