-- ==== Sys2Proof/Machine/DecodeBlock.lean ====
section
/-! DEFINITION. `DECODE` (44_decode.md). The bytes of `DST[0..N)` are worked on as a sequence of `N` bytes
and written at the end: nobody sees them before (20_memory.md R73). -/

namespace Sys2Proof.Machine

open Sys2Proof

/-- The sections of a coded frame (44_decode.md R233). -/
structure Sections where
  pad : Nat
  aligned : Nat
  rc : Nat
  ow : Nat
  /-- `M`, the end of the stream and the start of the rare table -/
  m : Nat
  /-- the start of the plane, `M + RS` -/
  planeAt : Nat
  units : Nat
deriving DecidableEq, Repr

/-- `DEC.PARSE` (44_decode.md R233). -/
def parseFrame (k s n : Nat) (f : List Byte) : Except FrameCause Sections :=
  let pad := padOf n
  let pl := planeLen n s
  if f.length < pad + 1 + pl then .error .lengthMismatch
  else
    let rc := (f.getD pad 0).toNat
    let rs := rc * (offsetWidth n + 1)
    if f.length < pad + 1 + pl + rs then .error .rareOverrun
    else
      let m := f.length - rs - pl
      .ok { pad := pad, aligned := alignedOf n, rc := rc, ow := offsetWidth n, m := m, planeAt := m + rs,
            units := unitsOf k (m - pad - 1) }

/-- What `DECODE` carries: the decoder registers, the count of symbols emitted so far and the block so far. The
register `SYMS` holds `LENW` bits of the count (10_state.md R37); that it could overflow only on a frame with far
too many symbols, which the count check rejects (44_decode.md R234, R239), log 27. -/
structure DecWork where
  regs : DecRegs
  count : Nat
  out : List Byte
deriving DecidableEq, Repr

/-- `DEC.SEED`: the padding, then the most probable source symbol (44_decode.md R235). -/
def decSeed (s : State) (f : List Byte) (c : Sections) : List Byte :=
  f.take c.pad ++ List.replicate c.aligned (s.alphaAt 0).src

/-- The payload bytes of one word, `k` the index of the next: the first symbol of all (`SYMS + k = 0`) is
dropped, nothing is written beyond the block (44_decode.md R237, R238). -/
def writeWord (pad aligned syms : Nat) : List Byte → Nat → List Byte → List Byte
  | [], _, out => out
  | b :: bs, k, out =>
      let q := syms + k
      writeWord pad aligned syms bs (k + 1) (if 0 < q ∧ q ≤ aligned then out.set (pad + q - 1) b else out)

/-- The key after a codeword (30_encoding.md R104). -/
def nextKey (s : State) (v cw : Nat) : Nat := (v * 2 ^ s.hK + cw) % s.flag

/-- `DEC.STEP(u)` (44_decode.md R237). Log 27. -/
def decStep (s : State) (c : Sections) (stream : List Byte) (w : DecWork) (u : Nat) : DecWork :=
  let v := nextKey s w.regs.v (codewordAt s.hK stream u)
  let rec' := s.decAt v
  let len := (rec'.getD s.hMws 0).toNat
  { regs := { w.regs with v := v, ucur := (u + 1) * s.hK, syms := (w.count + len) % 2 ^ s.inst.lenw },
    count := w.count + len,
    out := writeWord c.pad c.aligned w.count (rec'.take len) 0 w.out }

/-- The codeword loop (44_decode.md R230). -/
def decUnits (s : State) (c : Sections) (stream : List Byte) (w : DecWork) : DecWork :=
  (List.range c.units).foldl (decStep s c stream) w

/-- `DEC.RESID` (44_decode.md R241). -/
def decResid (s : State) (f : List Byte) (c : Sections) (w : DecWork) : DecWork :=
  { w with
    regs := { w.regs with rcur := c.aligned / 8 },
    out := w.out.take c.pad ++ pdepPlane (w.out.drop c.pad) (f.drop c.planeAt) s.hS }

/-- `DEC.PATCH` over the entries left, the bytes of the rare table before them dropped (44_decode.md R242).
-/
def decPatch (ow n : Nat) : Nat → List Byte → DecWork → Except DecWork DecWork
  | 0, _, w => .ok w
  | left + 1, table, w =>
      let offset := leNumber (table.take ow)
      if n ≤ offset then .error w
      else
        decPatch ow n left (table.drop (ow + 1))
          { w with regs := { w.regs with pcur := w.regs.pcur + 1 }, out := w.out.set offset (table.getD ow 0) }

/-- The decoder registers at the start of the loop (44_decode.md R230). -/
def decStart (s : State) (f : List Byte) (c : Sections) : DecWork :=
  { regs := DecRegs.zero, count := 0, out := decSeed s f c }

/-- The end of `DECODE` with a block (44_decode.md R243). -/
def endDecode (s : State) (block : List Byte) (kind : FrameKind) (rare : Nat) : State :=
  { s.writeDst 0 block with lastRare := BitVec.ofNat 8 rare }.finish kind false s.blkN

/-- `raise FrameError(cause)`: `DST[0..N)` is unspecified (44_decode.md R243, 60_exceptions.md R311). Log
11. -/
def frameError (s : State) (cause : FrameCause) : State := (s.freeDst 0 s.blkN).raiseBlock (.frame cause)

/-- `DEC.RESID` and `DEC.PATCH` after the count check (44_decode.md R230, R239). -/
def decFinish (s : State) (n : Nat) (f : List Byte) (c : Sections) (w : DecWork) : State :=
  if w.count ≠ c.aligned + 1 then frameError { s with decr := w.regs } .symbolCount
  else
    match decPatch c.ow n c.rc (f.drop c.m) (decResid s f c w) with
    | .error w' => frameError { s with decr := w'.regs } .rareOffset
    | .ok w' => endDecode { s with decr := w'.regs } w'.out .coded c.rc

/-- A frame that is not told by its length alone (44_decode.md R230, R233). -/
def decodeCoded (s : State) (n : Nat) (f : List Byte) : State :=
  match parseFrame s.hK s.hS n f with
  | .error cause => frameError s cause
  | .ok c => decFinish s n f c (decUnits s c ((f.take c.m).drop (c.pad + 1)) (decStart s f c))

/-- `DEC.KIND`: raw, constant, too long, else coded (44_decode.md R231). -/
def decodeFrame (s : State) (n : Nat) (f : List Byte) : State :=
  if f.length = n then endDecode s f (if n = 0 then .empty else .raw) 0
  else if f.length = 1 then endDecode s (List.replicate n (f.getD 0 0)) .constant 0
  else if n < f.length then frameError s .lengthMismatch
  else decodeCoded s n f

/-- The checks of `DECODE`, in order (44_decode.md R232). -/
def decodeCheck (s : State) : Option BlockError :=
  if !s.status.hvalid then some .noHandle
  else if s.inst.srcSize < s.srcLen || s.inst.dstSize < s.blkN then some .badLength
  else none

/-- `DECODE` (44_decode.md R230); the per-block state starts anew whatever follows (10_state.md R20). -/
def execDecode (s : State) : Host.Outcome State Fault Refusal :=
  match decodeCheck s with
  | some e => .next (s.startBlock.raiseBlock e)
  | none => .next (decodeFrame s.startBlock s.blkN (s.readSrc 0 s.srcLen))

end Sys2Proof.Machine
end

