-- ==== Sys2Proof/Machine/Encode.lean ====
section
/-! DEFINITION. `ENCODE` (43_encode.md). -/

namespace Sys2Proof.Machine

open Sys2Proof

/-- What the Marlin loop carries: the encoder registers, the staged stream (43_encode.md R210) and `RARE`.
-/
structure EncWork where
  regs : EncRegs
  stream : List Byte
  rare : Memory RareEntry
deriving DecidableEq, Repr

/-- How a step of the Marlin loop goes on: with the next byte, or to raw storage (43_encode.md R205). -/
inductive Marlin where
  | go (w : EncWork)
  | toRaw (w : EncWork)
deriving DecidableEq, Repr

/-- The draining of whole bytes from `VAL`, `n` valid bits in it: the bytes, `VAL` and `NBITS` after
(43_encode.md R210). At most `n / 8` bytes drain. -/
def drain : Nat → BitVec 32 → Nat → List Byte × BitVec 32 × Nat
  | 0, v, n => ([], v, n)
  | fuel + 1, v, n =>
      if n < 8 then ([], v, n)
      else
        let r := drain fuel (BitVec.ofNat 32 (v.toNat % 2 ^ (n - 8))) (n - 8)
        (byteOf ((v.toNat >>> (n - 8)) % 256) :: r.1, r.2)

/-- `EMIT(c)`: the codeword is folded into the 32-bit value register, whole bytes drain (43_encode.md R210).
-/
def emit (k c : Nat) (w : EncWork) : EncWork :=
  let n := w.regs.nbits + k
  let r := drain (n / 8) ((w.regs.val <<< k) ||| BitVec.ofNat 32 c) n
  { w with
    regs := { w.regs with val := r.2.1, nbits := r.2.2, ocur := w.regs.ocur + r.1.length },
    stream := w.stream ++ r.1 }

/-- `code(i) = i mod 2^K` (00_scope.md R13). -/
def codeOf (k i : Nat) : Nat := i % 2 ^ k

/-- The transition on Marlin symbol `m`: emission on the flag, the flag stripped (43_encode.md R205, R206).
-/
def encTransition (s : State) (m : Nat) (w : EncWork) : EncWork :=
  let e := s.jumpAt (w.regs.j * (s.hA + 1) + m)
  let w' := if s.flag ≤ e then emit s.hK (codeOf s.hK w.regs.j) w else w
  { w' with regs := { w'.regs with j := e % s.flag, icur := w.regs.icur + 1 } }

/-- A rare byte is recorded, its offset counted in the whole block (43_encode.md R207). -/
def recordRare (pad : Nat) (x : Byte) (w : EncWork) : EncWork :=
  { w with
    rare := w.rare.writeRange w.regs.rcnt [{ offset := pad + w.regs.icur, value := x }],
    regs := { w.regs with rcnt := w.regs.rcnt + 1 } }

/-- `ENC.STEP` for the byte `x` (43_encode.md R205): the early abort test on the budget left, signed
(R208), the rare path (R207), the transition. -/
def encStep (s : State) (pad budget : Nat) (x : Byte) (w : EncWork) : Marlin :=
  if (budget : Int) - w.regs.ocur < s.cfg.abortMargin then .toRaw w
  else if s.s2mAt (x.toNat >>> s.hS) = s.hA then
    if w.regs.rcnt = 255 then .toRaw w else .go (encTransition s 0 (recordRare pad x w))
  else .go (encTransition s (s.s2mAt (x.toNat >>> s.hS)) w)

/-- The Marlin loop over the aligned part (43_encode.md R200). -/
def encLoop (s : State) (pad budget : Nat) : List Byte → EncWork → Marlin
  | [], w => .go w
  | x :: xs, w =>
      match encStep s pad budget x w with
      | .go w' => encLoop s pad budget xs w'
      | .toRaw w' => .toRaw w'

/-- The encoder registers at the start of the loop, `RARE` as it stands (43_encode.md R204). -/
def encStart (s : State) : EncWork :=
  { regs := { EncRegs.zero with j := s.handle.start }, stream := [], rare := s.rare }

/-- The last byte of the stream: the bits left in `VAL`, zero bits below them (43_encode.md R209). -/
def fillBytes (r : EncRegs) : List Byte :=
  if r.nbits = 0 then [] else [byteOf ((r.val.toNat <<< (8 - r.nbits)) % 256)]

/-- The stream is closed: zero fill, nothing left in `VAL` (43_encode.md R209). -/
def closeStream (w : EncWork) : EncWork :=
  { w with
    regs := { w.regs with val := 0, nbits := 0, ocur := w.regs.ocur + (fillBytes w.regs).length },
    stream := w.stream ++ fillBytes w.regs }

/-- `ENC.FLUSH`: the unfinished word's codeword, then the fill (43_encode.md R209). -/
def encFlush (s : State) (w : EncWork) : EncWork := closeStream (emit s.hK (codeOf s.hK w.regs.j) w)

/-- The rare table of a frame (43_encode.md R212). -/
def rareTable (ow : Nat) (w : EncWork) : List Byte :=
  (List.range w.regs.rcnt).flatMap fun r => rareBytes ow (rareRead w.rare r)

/-- The assembled frame of a block (43_encode.md R212, 30_encoding.md R96). -/
def codedFrame (s : State) (b : List Byte) (w : EncWork) : List Byte :=
  b.take (padOf b.length) ++ [byteOf w.regs.rcnt] ++ w.stream ++ rareTable (offsetWidth b.length) w
    ++ pextPlane (b.drop (padOf b.length)) s.hS

/-- The largest stream that could still give a frame shorter than the block (43_encode.md R208). -/
def encBudget (n s : Nat) : Nat := n - padOf n - 1 - planeLen n s

/-- The end of `ENCODE` with a frame: it is written to `DST`, the bytes of `DST` at and beyond it are unspecified
(43_encode.md R213, R216). Log 10. -/
def endEncode (s : State) (frame : List Byte) (kind : FrameKind) (rawfb : Bool) (rare : Nat) : State :=
  { s.leaveDst frame with lastRare := BitVec.ofNat 8 rare }.finish kind rawfb frame.length

/-- The block is stored raw (43_encode.md R200, R214). -/
def storeRaw (s : State) (b : List Byte) : State := endEncode s b .raw true 0

/-- The scratch registers and `RARE` as the loop left them. -/
def State.withEnc (s : State) (w : EncWork) : State := { s with enc := w.regs, rare := w.rare }

/-- `ENC.FLUSH` and `ENC.FRAME` after the loop: coded if the frame is shorter than the block, else raw
(43_encode.md R209, R212, R214 (d)). -/
def encodeCoded (s : State) (b : List Byte) (w : EncWork) : State :=
  let f := encFlush s w
  let frame := codedFrame s b f
  let done := s.withEnc { f with regs := { f.regs with rcur := alignedOf b.length / 8 } }
  if frame.length < b.length then endEncode done frame .coded false f.regs.rcnt else storeRaw done b

/-- A block that is neither empty nor constant (43_encode.md R200, R203). -/
def encodeBlock (s : State) (b : List Byte) : State :=
  if alignedOf b.length = 0 then storeRaw s b
  else
    match encLoop s (padOf b.length) (encBudget b.length s.hS) (b.drop (padOf b.length)) (encStart s) with
    | .go w => encodeCoded s b w
    | .toRaw w => storeRaw (s.withEnc w) b

/-- Every byte equals the first (43_encode.md R202). -/
def allEqual : List Byte → Bool
  | [] => true
  | v :: rest => rest.all (· == v)

/-- The checks of `ENCODE`, in order (43_encode.md R201). -/
def encodeCheck (s : State) : Option BlockError :=
  if !s.status.hvalid then some .noHandle
  else if s.inst.srcSize < s.srcLen || s.inst.dstSize < s.dstCap then some .badLength
  else if s.dstCap < s.srcLen then some .insufficientBuffer
  else none

/-- `ENCODE` of a block past the checks: the empty and the constant block end in `ENC.PRE` (43_encode.md
R202). -/
def encodeFrame (s : State) (b : List Byte) : State :=
  match b with
  | [] => endEncode s [] .empty false 0
  | v :: rest => if allEqual (v :: rest) then endEncode s [v] .constant false 0 else encodeBlock s (v :: rest)

/-- `ENCODE` (43_encode.md R200); the per-block state starts anew whatever follows (10_state.md R20). -/
def execEncode (s : State) : Host.Outcome State Fault Refusal :=
  match encodeCheck s with
  | some e => .next (s.startBlock.raiseBlock e)
  | none => .next (encodeFrame s.startBlock (s.readSrc 0 s.srcLen))

end Sys2Proof.Machine
end

