-- ==== Sys2Proof/Machine/HostPort.lean ====
section
/-! DEFINITION. The host's accesses (20_memory.md R62, R63, R74; 70_reset_and_hazards.md R340, R343, R350).
Each takes the state with the action already taken off the list of pending actions. -/

namespace Sys2Proof.Machine

open Sys2Proof

/-- The state with what the host's access returned. -/
def State.withReply (s : State) (r : Option (HostValue ⊕ HostData)) : State := { s with reply := r }

/-- The reset input (70_reset_and_hazards.md R340, R341, R343): the reset state of the same instance, every
RAM unspecified anew, a running command abandoned. What the host does next is not the block's. -/
def State.hardReset (s : State) : State := State.resetOf s.inst s.fresh s.host

/-- `WR` (30_encoding.md R106): a register the host can write takes a value of its type, another ignores the
write (10_state.md section 2). -/
def hostWriteReg (n : Nat) (v : HostValue) (s : State) : Host.Outcome State Fault Refusal :=
  match Reg.ofNumber n with
  | none => .refused .beyondEnd
  | some r =>
      if r.hostWritable then
        if v.fits s.inst.numerics r then .next ((s.setReg r v).withReply none) else .refused .wrongType
      else .next (s.withReply none)

/-- `RD` (30_encoding.md R106). -/
def hostReadReg (n : Nat) (s : State) : Host.Outcome State Fault Refusal :=
  match Reg.ofNumber n with
  | none => .refused .beyondEnd
  | some r => .next (s.withReply (some (.inl (s.regValue r))))

/-- `WRM` (30_encoding.md R106; 20_memory.md R62, R63). -/
def hostWriteRam (space : Space) (a : Nat) (d : HostData) (s : State) : Host.Outcome State Fault Refusal :=
  if !space.hostAccess then .refused .rareNotAccessible
  else if !space.holds s.inst a d.count then .refused .beyondEnd
  else if space.hostWritable then
    if d.fits s.inst.numerics space then .next ((s.writeSpace space a d).withReply none) else .refused .wrongType
  else .next (s.withReply none)

/-- `RDM` (30_encoding.md R106; 20_memory.md R62, R63). -/
def hostReadRam (space : Space) (a n : Nat) (s : State) : Host.Outcome State Fault Refusal :=
  if !space.hostAccess then .refused .rareNotAccessible
  else if !space.holds s.inst a n then .refused .beyondEnd
  else .next (s.withReply (some (.inr (s.readSpace space a n))))

/-- A host action while `BUSY = 0`. -/
def hostAct (a : HostAction) (s : State) : Host.Outcome State Fault Refusal :=
  match a with
  | .writeReg n v => hostWriteReg n v s
  | .readReg n => hostReadReg n s
  | .writeRam space addr d => hostWriteRam space addr d s
  | .readRam space addr n => hostReadRam space addr n s
  | .reset => .next s.hardReset

/-- A host action while `BUSY = 1`: a `STATUS` read and the reset input have their meaning, everything else
is the busy hazard (70_reset_and_hazards.md R350, R343). DESIGN CHOICE (log 28): a `STATUS` read while `BUILD` or
`SRESET` runs answers the `HVALID` from before the command, although their first statement clears it. -/
def hostActBusy (a : HostAction) (s : State) : Host.Outcome State Fault Refusal :=
  if a.busyOk then hostAct a s else .refused .busyHazard

end Sys2Proof.Machine
end

