-- ==== Sys2Proof/Machine/Step.lean ====
section
/-! DEFINITION. One step of the machine (46_control_commands.md R280; 20_memory.md R73). -/

namespace Sys2Proof.Machine

open Sys2Proof

/-- The running command, the word latched by `CMD`, start to end; a word that is no command ends with
`IllegalCommand` (46_control_commands.md R280, R283). -/
def runCommand (s : State) : Host.Outcome State Fault Refusal :=
  match Sys2Proof.decode s.cmd with
  | .ok i => exec i s
  | .error _ => execIllegal s

/-- One step. While `BUSY = 1` the running command runs to its end, unless the host's next action comes
early; while `BUSY = 0` the host's next action happens, and without one the block waits
(70_reset_and_hazards.md R340). Logs 4, 5, 6. -/
def step (s : State) : Host.Outcome State Fault Refusal :=
  if s.status.busy then
    match s.host with
    | [] => runCommand s
    | e :: rest => if e.early then hostActBusy e.action { s with host := rest } else runCommand s
  else
    match s.host with
    | [] => .next s
    | e :: rest => hostAct e.action { s with host := rest }

/-- `s` with an instruction where the step fetches it: the word in `CMD`'s latch, the command started, no
early host action in its way. -/
def State.withFetchWord (s : State) (nbits w : Nat) : State :=
  { s.startCommand (Sys2Proof.commandWord nbits w) with host := s.host.dropWhile fun e => e.early }

end Sys2Proof.Machine
end

