-- ==== Sys2Proof/Machine/HostScript.lean ====
section
/-! DEFINITION. The host script notation (30_encoding.md R106) as lists of host actions: the pseudo-commands
and their expansions. Every action waits for `BUSY = 0`. -/

namespace Sys2Proof.Machine

open Sys2Proof

/-- One script line. -/
def scriptLine (a : HostAction) : HostEvent := { early := false, action := a }

/-- `WR` of a 32-bit register. -/
def wrWord (n : Nat) (w : Word32) : HostEvent := scriptLine (.writeReg n (.word w))

/-- `WR` of a length register. -/
def wrNum (n v : Nat) : HostEvent := scriptLine (.writeReg n (.num v))

/-- `CMD <mnemonic>`: the command word to register 0; the next line waits for `DONE` by itself. -/
def cmdLine (i : Instr) : HostEvent := wrWord 0 (Sys2Proof.encode i)

/-- A field that may be `auto`: bit 31 (30_encoding.md R106). -/
def autoField : Option Nat → Word32
  | some v => BitVec.ofNat 32 v
  | none => BitVec.ofNat 32 (2 ^ 31)

/-- `SETCFG K=k O=o S=s MWS=m ITER=n PURGE=t`; `none` is `auto`. -/
def setCfg (k o : Nat) (s mws : Option Nat) (iter : Nat) (purge : Prob) : List HostEvent :=
  [wrWord 2 (BitVec.ofNat 32 (k ||| (o <<< 8))), wrWord 3 (autoField s), wrWord 4 (autoField mws),
   wrWord 5 (BitVec.ofNat 32 iter), scriptLine (.writeReg 6 (.prob purge))]

/-- `LOADSRC <sequence>`. -/
def loadSrc (bs : List Byte) : List HostEvent :=
  [scriptLine (.writeRam .src 0 (.bytes bs)), wrNum 8 bs.length]

end Sys2Proof.Machine
end

