-- ==== Sys2Proof/Safety.lean ====
section
/-! DEFINITION. The terms claims use: the well-formed state, the well-formed dictionary and handle
(41_build_dictionary.md R163, 42_build_tables.md R191), the host that keeps the rules. -/

namespace Sys2Proof.Machine

open Sys2Proof

/-! ### `STATUS` at the end of a command -/

/-- `DONE = 1`, no error, the kind and the raw-fallback flag given; every other field 0 (10_state.md R27). -/
def Status.success (hvalid : Bool) (kind : FrameKind) (rawfb : Bool) : Status :=
  { busy := false, done := true, report := none, hvalid := hvalid, rawfb := rawfb, kind := kind }

/-- `DONE = 1` and the error; `KIND` and `RAWFB` 0 (60_exceptions.md R311). -/
def Status.error (hvalid : Bool) (e : BlockError) : Status :=
  { busy := false, done := true, report := some e, hvalid := hvalid, rawfb := false, kind := .none }

/-- The five table RAMs are unspecified: nothing is known of them, every read is a free value of the epoch. -/
abbrev State.tablesUnspecified (s : State) (epoch : Nat) : Prop :=
  s.alpha = .unspecified epoch ∧ s.s2m = .unspecified epoch ∧ s.dict = .unspecified epoch
    ∧ s.jump = .unspecified epoch ∧ s.dec = .unspecified epoch

/-- The errors with their `ECODE`, their `ESUB` and the commands that raise them (60_exceptions.md R300). An illegal
command word is no command. -/
def errorTable : List (BlockError × Nat × Nat × List Instr) :=
  [(.construction .invalidPmf, 1, 1, [.build]), (.construction .badKo, 1, 2, [.build]),
   (.construction .alphabetTooSmall, 1, 3, [.build]), (.construction .badIter, 1, 4, [.build]),
   (.insufficientBuffer, 2, 0, [.encode]),
   (.frame .lengthMismatch, 4, 1, [.decode]), (.frame .rareOverrun, 4, 2, [.decode]),
   (.frame .rareOffset, 4, 3, [.decode]), (.frame .symbolCount, 4, 4, [.decode]),
   (.unsupported, 5, 0, [.build]), (.noHandle, 6, 0, [.encode, .decode]), (.illegalCommand, 7, 0, []),
   (.badLength, 8, 0, [.encode, .decode, .pext, .pdep])]

/-- The content of the 22 registers by number, each field at its place (10_state.md R22); `CMD` reads 0. -/
def State.registerContents (s : State) : List HostValue :=
  let st := s.status
  [.word 0,
   .word (BitVec.ofNat 32 (st.busy.toNat + 2 ^ 1 * st.done.toNat + 2 ^ 2 * st.report.isSome.toNat
     + 2 ^ 3 * st.hvalid.toNat + 2 ^ 4 * st.rawfb.toNat + 2 ^ 5 * st.kind.code.toNat + 2 ^ 8 * st.ecode.toNat
     + 2 ^ 16 * st.esub.toNat)),
   .word (BitVec.ofNat 32 (s.cfg.k.toNat + 2 ^ 8 * s.cfg.o.toNat)),
   .word (BitVec.ofNat 32 (s.cfg.s.toNat + 2 ^ 31 * s.cfg.sAuto.toNat)),
   .word (BitVec.ofNat 32 (s.cfg.mws.toNat + 2 ^ 31 * s.cfg.mwsAuto.toNat)),
   .word (BitVec.ofNat 32 s.cfg.iter.toNat),
   .prob s.cfg.purge, .num s.cfg.abortMargin, .num s.srcLen, .num s.dstCap, .num s.blkN, .num s.result,
   .num s.handle.a.toNat, .num s.handle.s.toNat, .num s.handle.mws.toNat, .num s.handle.start,
   .prob s.handle.rare, .prob s.handle.bps, .prob s.handle.lbar, .real s.handle.eff, .num s.lastRare.toNat,
   .word (BitVec.ofNat 32 (s.handle.k.toNat + 2 ^ 8 * s.handle.o.toNat))]

/-- The `n` entries from `a` on of each RAM space the host can read (10_state.md R30, 20_memory.md R62). -/
def State.ramContents (s : State) (a n : Nat) : List (Space × HostData) :=
  let places := (List.range n).map (a + ·)
  [(.pmf, .probs (places.map s.pmfAt)), (.src, .bytes (places.map s.srcAt)), (.dst, .bytes (places.map s.dstAt)),
   (.alpha, .alphas (places.map s.alphaAt)), (.s2m, .nums (places.map s.s2mAt)),
   (.dict, .words (places.map s.dictAt)), (.jump, .nums (places.map s.jumpAt)),
   (.dec, .records (places.map s.decAt))]

/-! ### The state invariant -/

/-- Every RAM space is in canonical form. -/
abbrev State.memoryWf (s : State) : Prop :=
  s.pmf.wf ∧ s.src.wf ∧ s.dst.wf ∧ s.alpha.wf ∧ s.s2m.wf ∧ s.dict.wf ∧ s.jump.wf ∧ s.dec.wf ∧ s.rare.wf

/-- Every epoch of unspecified contents has been handed out before. -/
abbrev State.epochsWf (s : State) : Prop :=
  s.pmf.epoch < s.fresh ∧ s.src.epoch < s.fresh ∧ s.dst.epoch < s.fresh ∧ s.alpha.epoch < s.fresh
    ∧ s.s2m.epoch < s.fresh ∧ s.dict.epoch < s.fresh ∧ s.jump.epoch < s.fresh ∧ s.dec.epoch < s.fresh
    ∧ s.rare.epoch < s.fresh

/-- `STATUS` is one of the words a command or its start leaves: `BUSY` and `DONE` exclude each other, an
error report goes with `KIND = 0` and `RAWFB = 0`, `RAWFB` goes with a raw frame (10_state.md R27,
43_encode.md R200, 60_exceptions.md R311). -/
abbrev Status.wf (st : Status) : Prop :=
  (st.busy = true → st.done = false) ∧ (st.report.isSome = true → st.kind = .none ∧ st.rawfb = false)
    ∧ (st.rawfb = true → st.kind = .raw)

/-- The length registers hold `LENW` bits (10_state.md R22). -/
abbrev State.lengthsWf (s : State) : Prop :=
  s.cfg.abortMargin < 2 ^ s.inst.lenw ∧ s.srcLen < 2 ^ s.inst.lenw ∧ s.dstCap < 2 ^ s.inst.lenw
    ∧ s.blkN < 2 ^ s.inst.lenw ∧ s.result < 2 ^ s.inst.lenw

/-- The encoder registers hold their widths between commands (10_state.md R36, R38, R40; `VAL` has its 32 bits
by its type): `J` a position of the instance, the cursors lengths, `NBITS` below 8, `RCNT` 8 bits. -/
abbrev State.encWf (s : State) : Prop :=
  s.enc.j < 2 ^ s.inst.koMax ∧ s.enc.nbits < 8 ∧ s.enc.icur < 2 ^ s.inst.lenw ∧ s.enc.ocur < 2 ^ s.inst.lenw
    ∧ s.enc.rcnt ≤ 255 ∧ s.enc.rcur < 2 ^ s.inst.lenw

/-- The decoder registers hold their widths between commands (10_state.md R37, R40). -/
abbrev State.decWf (s : State) : Prop :=
  s.decr.v < 2 ^ s.inst.koMax ∧ s.decr.ucur < 2 ^ (s.inst.lenw + 3) ∧ s.decr.syms < 2 ^ s.inst.lenw
    ∧ s.decr.rcur < 2 ^ s.inst.lenw ∧ s.decr.pcur ≤ 255

/-- The handle registers without a handle are 0 (10_state.md R29); with one, `K` and `K + O` are in the range of
the instance (40_build_alphabet.md R131) and `START` is a position (42_build_tables.md R187). -/
abbrev State.handleRegsWf (s : State) : Prop :=
  (s.status.hvalid = false → s.handle = HandleRegs.zero)
    ∧ (s.status.hvalid = true → s.hK ≤ s.inst.kMax ∧ s.hK + s.hO ≤ s.inst.koMax
        ∧ s.handle.start < 2 ^ (s.hK + s.hO))

/-- The probabilities the host wrote are values of the instance's `NUMERICS`, and an exact instance holds rational
numbers only (00_scope.md R11). -/
abbrev State.probsWf (s : State) : Prop :=
  (s.inst.numerics.has s.cfg.purge = true ∧ ∀ c ∈ s.pmf.cells, s.inst.numerics.has c.2 = true)
    ∧ (s.inst.numerics = .exact →
        (s.handle.rare.isNumber = true ∧ s.handle.bps.isNumber = true ∧ s.handle.lbar.isNumber = true)
        ∧ (∀ c ∈ s.alpha.cells, c.2.p.isNumber = true) ∧ ∀ c ∈ s.dict.cells, c.2.p.isNumber = true)

/-- The invariant of the machine. -/
abbrev State.wf (s : State) : Prop :=
  s.inst.ok ∧ s.memoryWf ∧ s.epochsWf ∧ s.status.wf ∧ s.handleRegsWf ∧ s.lengthsWf ∧ s.encWf ∧ s.decWf
    ∧ s.probsWf

/-- Every entry of a memory lies below a bound. -/
abbrev Memory.below {α : Type} (m : Memory α) (n : Nat) : Prop := ∀ c ∈ m.cells, c.1 < n

/-- Every entry of every RAM space lies inside its space (10_state.md R30, 20_memory.md R64). -/
abbrev State.inBounds (s : State) : Prop :=
  s.pmf.below (Space.size s.inst .pmf) ∧ s.src.below (Space.size s.inst .src)
    ∧ s.dst.below (Space.size s.inst .dst) ∧ s.alpha.below (Space.size s.inst .alpha)
    ∧ s.s2m.below (Space.size s.inst .s2m) ∧ s.dict.below (Space.size s.inst .dict)
    ∧ s.jump.below (Space.size s.inst .jump) ∧ s.dec.below (Space.size s.inst .dec)
    ∧ s.rare.below (Space.size s.inst .rare)

/-! ### Probabilities -/

/-- Values compared as rational numbers: every value where the `NUMERICS` is exact, those that are numbers where it
is not (00_scope.md R11). -/
abbrev asRationals (num : Config.Numerics) (l : List Prob) : Prop :=
  num = .exact ∨ ∀ p ∈ l, p.isNumber = true

/-- A value the host can write: a rational number that is not negative or, where the `NUMERICS` is not exact, a
value that is no number (00_scope.md R11). -/
abbrev State.takes (s : State) (p : Prob) : Prop :=
  (∃ q : ℚ, 0 ≤ q ∧ p = .rat q) ∨ (s.inst.numerics ≠ .exact ∧ ∃ c, p = .other c)

/-! ### The well-formed dictionary and handle -/

/-- The record at a position; the empty word of state 0 beyond the dictionary. -/
def recordAt (d : List DictWord) (i : Nat) : DictWord := d.getD i { syms := [], p := .rat 0, state := 0 }

/-- The word at a position. -/
def symsAt (d : List DictWord) (i : Nat) : List Nat := (recordAt d i).syms

/-- Some word of a chapter is `w`. -/
abbrev hasWord (ch : List DictWord) (w : List Nat) : Prop := ∃ e ∈ ch, e.syms = w

/-- 41_build_dictionary.md R163 (a) to (d) for one chapter: (a) `2^K` pairwise distinct words over symbols
below `A`, no longer than `min(mws, 255)`; (b) slot 0 is the empty word, of state `A`; (c) every one-symbol
word; (d) every prefix, and a word has the child `t < A` exactly when `t` is below its state. -/
abbrev ChapterWf (k a mws : Nat) (ch : List DictWord) : Prop :=
  ch.length = 2 ^ k ∧ (ch.map DictWord.syms).Nodup
    ∧ (∀ e ∈ ch, e.syms.length ≤ min mws 255 ∧ ∀ x ∈ e.syms, x < a)
    ∧ ((recordAt ch 0).syms = [] ∧ (recordAt ch 0).state = a)
    ∧ (∀ x < a, hasWord ch [x])
    ∧ (∀ e ∈ ch, e.syms ≠ [] → hasWord ch e.syms.dropLast)
    ∧ (∀ e ∈ ch, e.state ≤ a ∧ ∀ t < a, (hasWord ch (e.syms ++ [t]) ↔ t < e.state))

/-- 41_build_dictionary.md R163 (a) to (d) for a dictionary. -/
abbrev DictWf (k o a mws : Nat) (d : List DictWord) : Prop :=
  d.length = 2 ^ (k + o) ∧ ∀ c < 2 ^ o, ChapterWf k a mws (chapterOf k d c)

/-- `j` is the position of the word `w` in chapter `c` (00_scope.md R13). -/
abbrev IsPos (k : Nat) (d : List DictWord) (c : Nat) (w : List Nat) (j : Nat) : Prop :=
  j < d.length ∧ j / 2 ^ k = c ∧ symsAt d j = w

/-- The entry of a finished jump table for position `i` and symbol `m < A` (42_build_tables.md R186): the
child word in the same chapter, without the flag, if the row's word is not empty and the child is there; else
the one-symbol word in the next chapter, with the flag. -/
abbrev JumpEntryOk (k o : Nat) (d : List DictWord) (i m e : Nat) : Prop :=
  (symsAt d i ≠ [] ∧ IsPos k d (i / 2 ^ k) (symsAt d i ++ [m]) e)
    ∨ ((symsAt d i = [] ∨ ∀ j < d.length, ¬ IsPos k d (i / 2 ^ k) (symsAt d i ++ [m]) j)
        ∧ ∃ j < d.length, IsPos k d (i % 2 ^ o) [m] j ∧ e = j + 2 ^ (k + o))

/-- A finished jump table (42_build_tables.md R186), read by row and column. -/
abbrev JumpOk (k o a : Nat) (d : List DictWord) (jump : Nat → Nat → Nat) : Prop :=
  ∀ i < d.length, (∀ m < a, JumpEntryOk k o d i m (jump i m)) ∧ jump i a = jump i 0

/-- The source symbol of a Marlin symbol. -/
def srcOf (alpha : List AlphaEntry) (x : Nat) : Byte := (alpha.getD x { src := 0, p := .rat 0 }).src

/-- `S2M` as 42_build_tables.md R190 gives it from the alphabet. -/
abbrev S2mOk (alpha : List AlphaEntry) (s : Nat) (s2m : Nat → Nat) : Prop :=
  ∀ g < 256,
    (∃ x < alpha.length, (srcOf alpha x).toNat >>> s = g ∧ s2m g = x)
      ∨ ((∀ e ∈ alpha, e.src.toNat >>> s ≠ g) ∧ s2m g = alpha.length)

/-- The source symbols of an alphabet are distinct multiples of `2^S` (40_build_alphabet.md R137). -/
abbrev AlphaOk (alpha : List AlphaEntry) (s : Nat) : Prop :=
  (alpha.map AlphaEntry.src).Nodup ∧ ∀ e ∈ alpha, 2 ^ s ∣ e.src.toNat

/-- The alphabet in `ALPHA`. -/
def State.alphaList (s : State) : List AlphaEntry := (List.range s.hA).map s.alphaAt

/-- The dictionary in `DICT`. -/
def State.dictList (s : State) : List DictWord := (List.range (2 ^ (s.hK + s.hO))).map s.dictAt

/-- The well-formed handle `WF(h)` of 42_build_tables.md R191, in the RAMs and handle registers; `K` is one
the instance accepts (40_build_alphabet.md R131). -/
abbrev State.HandleWf (s : State) : Prop :=
  4 ≤ s.hK ∧ s.hK ≤ s.inst.kMax ∧ s.hO < s.hK ∧ s.hK + s.hO ≤ s.inst.koMax ∧ s.hS ≤ 7
    ∧ 2 ≤ s.hA ∧ s.hA ≤ min 256 (2 ^ s.hK - 1) ∧ s.hMws ∈ mwsSupported
    ∧ AlphaOk s.alphaList s.hS
    ∧ S2mOk s.alphaList s.hS s.s2mAt
    ∧ DictWf s.hK s.hO s.hA s.hMws s.dictList
    ∧ JumpOk s.hK s.hO s.hA s.dictList (fun i m => s.jumpAt (i * (s.hA + 1) + m))
    ∧ (∀ i < 2 ^ (s.hK + s.hO), s.decAt i = decRecord s.alphaList s.hMws (s.dictAt i))
    ∧ IsPos s.hK s.dictList 0 [0] s.handle.start

/-! ### The host -/

/-- The words over `a` symbols of length at most `m` (41_build_dictionary.md R156). -/
def wordCount (a m : Nat) : Nat := ((List.range (m + 1)).map fun l => a ^ l).sum

/-- No host action comes while the running command is still busy. -/
abbrev State.hostWaits (s : State) : Prop := ∀ e ∈ s.host.head?, e.early = false

/-- The host waits for `BUSY = 0` before every action and makes no action without a meaning (R350 of
70_reset_and_hazards.md, R62 and R63 of 20_memory.md). -/
abbrev State.hostObeys (s : State) : Prop := ∀ e ∈ s.host, e.early = false ∧ e.action.wf s.inst = true

/-- The checks of `ENCODE` pass (43_encode.md R201). -/
abbrev State.canEncode (s : State) : Prop :=
  s.status.hvalid = true ∧ s.srcLen ≤ s.inst.srcSize ∧ s.dstCap ≤ s.inst.dstSize ∧ s.srcLen ≤ s.dstCap

/-- The checks of `DECODE` pass (44_decode.md R232). -/
abbrev State.canDecode (s : State) : Prop :=
  s.status.hvalid = true ∧ s.srcLen ≤ s.inst.srcSize ∧ s.blkN ≤ s.inst.dstSize

/-- The block `ENCODE` reads, or the frame `DECODE` reads: `SRC[0..SRC_LEN)`. -/
def State.source (s : State) : List Byte := s.readSrc 0 s.srcLen

/-! ### Streams, words and frames, said without the encoder -/

/-- `bits(c)`: the `K` bits of a codeword, most significant first (30_encoding.md R98). -/
def bitsOf (k c : Nat) : List Bool := (List.range k).map fun n => c.testBit (k - 1 - n)

/-- The stream of a codeword sequence: its bit string, zero bits behind it, cut into bytes from the front,
the first bit of each byte its bit 7 (30_encoding.md R98, 20_memory.md R66). -/
def streamOf (k : Nat) (cws : List Nat) : List Byte :=
  (List.range ((cws.length * k + 7) / 8)).map fun j =>
    byteOf (bitsNumber ((List.range 8).map fun n => (cws.flatMap (bitsOf k)).getD (8 * j + n) false))

/-- The positions of a codeword sequence: the low `O` bits of the codeword before give the chapter, `prev` is
the codeword before the first (30_encoding.md R104, 43_encode.md R217). -/
def positionsOf (k o : Nat) : Nat → List Nat → List Nat
  | _, [] => []
  | prev, cw :: cws => (prev % 2 ^ o * 2 ^ k + cw) :: positionsOf k o cw cws

/-- The Marlin symbols a codeword sequence stands for: the words at its positions, one after another. -/
def State.wordsOf (s : State) (cws : List Nat) : List Nat :=
  (positionsOf s.hK s.hO 0 cws).flatMap fun i => (s.dictAt i).syms

/-- A byte that is rare for the handle (43_encode.md R207). -/
def State.isRare (s : State) (x : Byte) : Bool := s.s2mAt (x.toNat >>> s.hS) == s.hA

/-- The aligned part of the block in `SRC` (43_encode.md R203). -/
def State.alignedPart (s : State) : List Byte := s.source.drop (padOf s.srcLen)

/-- The Marlin symbols of the aligned part, symbol 0 for a rare byte (43_encode.md R205, R207). -/
def State.symbols (s : State) : List Nat :=
  s.alignedPart.map fun x => if s.isRare x then 0 else s.s2mAt (x.toNat >>> s.hS)

/-- The rare bytes of the aligned part with their offsets in the whole block (43_encode.md R207). -/
def State.rares (s : State) : List RareEntry :=
  (s.alignedPart.zipIdx.filter fun e => s.isRare e.1).map fun e =>
    { offset := padOf s.srcLen + e.2, value := e.1 }

/-- What a reader takes from a stream of `K`-bit codewords: as many as fit whole, the bits of the bytes in
order; the bits left over are ignored (30_encoding.md R98). -/
abbrev ReadsAs (k : Nat) (stream : List Byte) (cws : List Nat) : Prop :=
  cws.length = 8 * stream.length / k ∧ (∀ c ∈ cws, c < 2 ^ k)
    ∧ cws.flatMap (bitsOf k) = (stream.flatMap fun b => bitsOf 8 b.toNat).take (cws.length * k)

/-- The layout of a coded frame of a block of `n` bytes around a stream (30_encoding.md R96). -/
def frameWith (n : Nat) (padding stream : List Byte) (rares : List RareEntry) (plane : List Byte) : List Byte :=
  padding ++ [byteOf rares.length] ++ stream ++ rares.flatMap (rareBytes (offsetWidth n)) ++ plane

/-- The frame of a codeword sequence. -/
def frameOf (k n : Nat) (padding : List Byte) (cws : List Nat) (rares : List RareEntry) (plane : List Byte) :
    List Byte := frameWith n padding (streamOf k cws) rares plane

/-- Rare entries applied to a block, in order (44_decode.md R242). -/
def patched (rares : List RareEntry) (block : List Byte) : List Byte :=
  rares.foldl (fun b e => b.set e.offset e.value) block

/-! ### The configuration `BUILD` accepts (40_build_alphabet.md R131) -/

/-- The PMF sums to 1 and no entry is 1, over the exact rationals or within the tolerances of the instance's
`NUMERICS`. That the entry test has a tolerance too, a free value of its own, is the model's choice (log 29). -/
abbrev State.pmfOk (s : State) : Prop :=
  s.inst.numerics.sumIsOne (s.inst.numerics.sum s.pmfAll) = true
    ∧ ∀ v < 256, s.inst.numerics.entryIsOne (s.pmfAt v) = false

/-- `K` and `O` are in the range of the instance. -/
abbrev State.koOk (s : State) : Prop :=
  4 ≤ s.cfg.k.toNat ∧ s.cfg.k.toNat ≤ s.inst.kMax ∧ s.cfg.o.toNat < s.cfg.k.toNat
    ∧ s.cfg.k.toNat + s.cfg.o.toNat ≤ s.inst.koMax

/-- A supplied `maxWordSize` is a supported one. -/
abbrev State.mwsOk (s : State) : Prop :=
  s.cfg.mwsAuto = true ∨ s.cfg.mws.toNat ∈ [3, 7, 15, 31, 63, 127, 255, 511]

/-- `CHECKCFG` passes. -/
abbrev State.configOk (s : State) : Prop := s.pmfOk ∧ s.koOk ∧ s.cfg.iter ≠ 0 ∧ s.mwsOk

/-! ### Outcomes of `ENCODE` and `DECODE` -/

/-- The bytes of the block in `SRC` are not all equal. -/
abbrev State.notConstant (s : State) : Prop := ∃ i < s.srcLen, s.srcAt i ≠ s.srcAt 0

/-- What `ENCODE` may change: the report, `RESULT`, `LAST_RARE`, `DST`, and the per-block state. `RESULT` is at
most `DST_CAP`, and the bytes of `DST` at and beyond `RESULT` are unspecified anew (43_encode.md R216, V3 of
93_implementation_defined.md, log 10). -/
abbrev State.encodedFrom (t s : State) : Prop :=
  t = { s with status := t.status, result := t.result, lastRare := t.lastRare, dst := t.dst, rare := t.rare,
               enc := t.enc, decr := t.decr, fresh := t.fresh }
    ∧ t.result ≤ s.dstCap ∧ t.dst.below t.result ∧ t.dst.epoch = s.fresh

/-- `t` is `s` after the block in `SRC` was stored raw (43_encode.md R214). -/
abbrev State.storedRaw (t s : State) : Prop :=
  t.status = Status.success s.status.hvalid .raw true ∧ t.result = s.srcLen ∧ t.lastRare = 0
    ∧ t.readDst 0 s.srcLen = s.source ∧ t.encodedFrom s

/-- `t` is `s` after the block in `SRC` was stored as a coded frame (43_encode.md R212, R213). -/
abbrev State.storedCoded (t s : State) (frame : List Byte) : Prop :=
  t.status = Status.success s.status.hvalid .coded false ∧ t.result = frame.length
    ∧ t.lastRare.toNat = s.rares.length ∧ t.readDst 0 frame.length = frame ∧ t.encodedFrom s

/-- The coded frame of the block in `SRC` for a codeword sequence (30_encoding.md R96, 43_encode.md R212). -/
def State.codedWith (s : State) (cws : List Nat) : List Byte :=
  frameOf s.hK s.srcLen (s.source.take (padOf s.srcLen)) cws s.rares (pextPlane s.alignedPart s.hS)

/-- Each word but the last is the longest the dictionary gives: extended by the first symbol of the next word
it is no word of its chapter (43_encode.md R205, 42_build_tables.md R186). -/
abbrev State.greedy (s : State) (cws : List Nat) : Prop :=
  let places := positionsOf s.hK s.hO 0 cws
  ∀ e ∈ places.zip places.tail, ∀ j < 2 ^ (s.hK + s.hO), j / 2 ^ s.hK = e.1 / 2 ^ s.hK →
    (s.dictAt j).syms ≠ (s.dictAt e.1).syms ++ (s.dictAt e.2).syms.take 1

/-- The codewords spell the block: each has `K` bits, its word is not empty, the words one after another are the
implicit symbol 0 and the symbols of the aligned part (43_encode.md R217), and each word is as long as it can
be. -/
abbrev State.spells (s : State) (cws : List Nat) : Prop :=
  (∀ c ∈ cws, c < 2 ^ s.hK) ∧ (∀ i ∈ positionsOf s.hK s.hO 0 cws, (s.dictAt i).syms ≠ [])
    ∧ s.wordsOf cws = 0 :: s.symbols ∧ s.greedy cws

/-- How many codewords of a spelling have been emitted before byte `t` of the aligned part is read: those whose
words together are no longer than `t`. The implicit symbol counts, and a word is emitted when the symbol after it
is read (43_encode.md R205). -/
def State.emittedBefore (s : State) (cws : List Nat) (t : Nat) : Nat :=
  ((List.range cws.length).filter fun n => (s.wordsOf (cws.take (n + 1))).length ≤ t).length

/-- The early abort of a spelling: before some byte the budget `N_al - 1 - PL` left by the whole bytes drained so
far is below `ABORT_MARGIN` (43_encode.md R205, R208). -/
abbrev State.aborts (s : State) (cws : List Nat) : Prop :=
  ∃ t < alignedOf s.srcLen,
    (alignedOf s.srcLen : Int) - 1 - planeLen s.srcLen s.hS - (s.emittedBefore cws t * s.hK / 8 : Nat)
      < s.cfg.abortMargin

/-- What `DECODE` may change: the report, `RESULT`, `LAST_RARE`, `DST` below `BLK_N`, and the per-block
registers. -/
abbrev State.decodedFrom (t s : State) : Prop :=
  t = { s with status := t.status, result := t.result, lastRare := t.lastRare, dst := t.dst, enc := t.enc,
               decr := t.decr, fresh := t.fresh }
    ∧ ∀ a, s.blkN ≤ a → t.dstAt a = s.dstAt a

/-- `t` is `s` after `DECODE` left the block (44_decode.md R243). -/
abbrev State.decodedTo (t s : State) (kind : FrameKind) (rare : Nat) (block : List Byte) : Prop :=
  t.status = Status.success s.status.hvalid kind false ∧ t.result = s.blkN ∧ t.lastRare.toNat = rare
    ∧ t.readDst 0 s.blkN = block ∧ t.decodedFrom s

/-- `t` is `s` after `DECODE` raised `FrameError` (44_decode.md R234, R243). -/
abbrev State.rejectedFrame (t s : State) (cause : FrameCause) : Prop :=
  t.status = Status.error s.status.hvalid (.frame cause) ∧ t.result = 0 ∧ t.lastRare = 0 ∧ t.decodedFrom s

end Sys2Proof.Machine
end

