-- ==== Sys2Proof/Certificates/Slice0/Obligations.lean ====
section
/-! DEFINITION. The statements for the provers. Each docstring names the rule of the spec a statement
formalises; "log <n>" is notes/assumptions/<n>.md. A state is any state of any instance, with any `NUMERICS`,
unless a premise says otherwise. -/

open Sys2Proof Sys2Proof.Machine

/-! ### The command word and the step -/

/-- 30_encoding.md R91: the seven command words, written as the table has them; a word with `RSV` not 0 and a
word with another `OPC` are refused by name. -/
def Obligations.CommandWordsDecode : Prop :=
  (∀ row ∈ ([(0x00000000#32, .nop), (0x00000001#32, .sreset), (0x00000010#32, .build),
             (0x00000020#32, .encode), (0x00000021#32, .decode), (0x00000030#32, .pext),
             (0x00000031#32, .pdep)] : List (Word32 × Instr)), decode row.1 = .ok row.2)
    ∧ decode 0x00000120#32 = .error .reservedBits ∧ decode 0x00000042#32 = .error .unknownOpcode

/-- 30_encoding.md R91, R93: the decoder and the encoder agree in both directions over all 32-bit words, and a
word is a command exactly when it is one of the seven numbers. -/
def Obligations.OneWordPerCommand : Prop :=
  (∀ (w : Word32) (i : Instr), decode w = .ok i ↔ w = encode i)
    ∧ ∀ w : Word32, (∃ i, decode w = .ok i) ↔ w.toNat ∈ [0x00, 0x01, 0x10, 0x20, 0x21, 0x30, 0x31]

/-- 46_control_commands.md R280, 70_reset_and_hazards.md R340 (that a command is one step of its own after the
`CMD` write is the model's choice, log 4): while `BUSY = 1` and the host waits, the step is the meaning of the
command in `CMD`; while `BUSY = 0` and the host does nothing, the block waits. -/
def Obligations.StepRunsDecodedCommand : Prop :=
  (∀ (s : State) (i : Instr), s.status.busy = true → s.hostWaits → decode s.cmd = .ok i → step s = exec i s)
    ∧ ∀ s : State, s.status.busy = false → s.host = [] → step s = .next s

/-- 46_control_commands.md R280: a `CMD` write while `BUSY = 0` sets `BUSY` and clears `DONE`, and the next
step runs the command (the two steps are the model's choice, log 4, and so is `HVALID` as before until the command
ends, log 28). -/
def Obligations.CmdWriteStartsCommand : Prop :=
  ∀ (s : State) (early : Bool) (w : Word32) (rest : List HostEvent),
    s.status.busy = false → s.host = { early := early, action := .writeReg 0 (.word w) } :: rest →
    ∃ m, step s = .next m
      ∧ m = { s with cmd := w, status := { s.status with busy := true, done := false }, host := rest,
                     reply := none }
      ∧ ∀ i, decode w = .ok i → m.hostWaits → step m = exec i m

/-- 46_control_commands.md R281: `NOP` clears the report and `RESULT`; everything else stands. The word of
`STATUS` is `DONE | (HVALID << 3)`. -/
def Obligations.NopClearsReport : Prop :=
  decode 0x00000000#32 = .ok .nop
    ∧ ∀ s : State, ∃ t, exec .nop s = .next t
        ∧ t = { s with status := Status.success s.status.hvalid .none false, result := 0 }
        ∧ t.status.word = if s.status.hvalid then 0x0000000A#32 else 0x00000002#32

/-- 46_control_commands.md R282: `SRESET` drops the handle (its registers 0, the table RAMs unspecified),
clears `LAST_RARE`, `RESULT` and `STATUS` but for `DONE`; everything else stands. -/
def Obligations.SresetDropsHandle : Prop :=
  decode 0x00000001#32 = .ok .sreset
    ∧ ∀ s : State, ∃ t, exec .sreset s = .next t
        ∧ t.status.word = 0x00000002#32 ∧ t.lastRare = 0 ∧ t.result = 0 ∧ t.handle = HandleRegs.zero
        ∧ t.tablesUnspecified s.fresh ∧ t.fresh = s.fresh + 1
        ∧ t = { s with status := t.status, result := t.result, handle := t.handle, lastRare := t.lastRare,
                       alpha := t.alpha, s2m := t.s2m, dict := t.dict, jump := t.jump, dec := t.dec,
                       fresh := t.fresh }

/-- 46_control_commands.md R283: a word with `RSV` not 0 or an `OPC` that is none of the seven runs nothing
and reports `IllegalCommand`, code 7; everything but `STATUS` and `RESULT` stands. -/
def Obligations.IllegalCommandReported : Prop :=
  ∀ s : State, s.status.busy = true → s.hostWaits →
    (s.cmd.toNat / 256 ≠ 0 ∨ s.cmd.toNat % 256 ∉ [0x00, 0x01, 0x10, 0x20, 0x21, 0x30, 0x31]) →
    ∃ t, step s = .next t
      ∧ t = { s with status := Status.error s.status.hvalid .illegalCommand, result := 0 }
      ∧ t.status.word = if s.status.hvalid then 0x0000070E#32 else 0x00000706#32

/-- 46_control_commands.md R280, 10_state.md R20: every command, in every state, ends in a next state with
`BUSY = 0` and `DONE = 1`, and changes no configuration register, no length register, not `PMF`, not `SRC`,
and nothing on the host's side. -/
def Obligations.EveryCommandEndsDone : Prop :=
  ∀ (i : Instr) (s : State), ∃ t, exec i s = .next t ∧ t.status.busy = false ∧ t.status.done = true
    ∧ t.inst = s.inst ∧ t.cmd = s.cmd ∧ t.cfg = s.cfg ∧ t.srcLen = s.srcLen ∧ t.dstCap = s.dstCap
    ∧ t.blkN = s.blkN ∧ t.pmf = s.pmf ∧ t.src = s.src ∧ t.host = s.host ∧ t.reply = s.reply

/-! ### Registers, buffers and the host -/

/-- 10_state.md R22, 70_reset_and_hazards.md R341: what the host reads from the 22 registers after reset, in
the order of their numbers (`CFG_KO` is `K = 8`, `O = 2`; bit 31 is `AUTO`); the working registers are 0, no
RAM entry is known. -/
def Obligations.RegistersAtReset : Prop :=
  Reg.all.map State.reset.regValue =
      [.word 0, .word 0, .word 0x00000208#32, .word 0x80000000#32, .word 0x80000000#32, .word 3,
       .prob (.rat 0),
       .num 16, .num 0, .num 0, .num 0, .num 0, .num 0, .num 0, .num 0, .num 0, .prob (.rat 0),
       .prob (.rat 0), .prob (.rat 0), .real .zero, .num 0, .word 0]
    ∧ State.reset.enc = { j := 0, val := 0, nbits := 0, icur := 0, ocur := 0, rcnt := 0, rcur := 0 }
    ∧ State.reset.decr = { v := 0, ucur := 0, syms := 0, rcur := 0, pcur := 0 }
    ∧ State.reset.pmf.cells = [] ∧ State.reset.src.cells = [] ∧ State.reset.dst.cells = []
    ∧ State.reset.alpha.cells = [] ∧ State.reset.s2m.cells = [] ∧ State.reset.dict.cells = []
    ∧ State.reset.jump.cells = [] ∧ State.reset.dec.cells = [] ∧ State.reset.rare.cells = []

/-- 10_state.md section 2, R22 to R26: a word written to `CFG_KO`, `CFG_S`, `CFG_MWS` or `CFG_ITER` reads back
with its listed fields only, every other bit 0; no other register and nothing else changes. -/
def Obligations.ConfigWritesKeepListedFields : Prop :=
  ∀ (s : State) (early : Bool) (rest : List HostEvent) (n : Nat) (w mask : Word32),
    s.status.busy = false →
    (n, mask) ∈ [(2, 0x00001F1F#32), (3, 0x80000007#32), (4, 0x800003FF#32), (5, 0x0000FFFF#32)] →
    s.host = { early := early, action := .writeReg n (.word w) } :: rest →
    ∃ t r, step s = .next t ∧ Reg.ofNumber n = some r ∧ t.regValue r = .word (w &&& mask)
      ∧ (∀ r', r' ≠ r → t.regValue r' = s.regValue r')
      ∧ t = { s with cfg := t.cfg, host := rest, reply := none }

/-- 10_state.md R22: `ABORT_MARGIN`, `SRC_LEN`, `DST_CAP` and `BLK_N` (numbers 7 to 10) read back a length of
`LENW` bits the host wrote, `CFG_PURGE` (number 6) a probability; no other register and nothing else changes. Which
values another `NUMERICS` than the exact one has is the model's reading of 00_scope.md R11 (log 1). -/
def Obligations.LengthAndPurgeWritesReadBack : Prop :=
  ∀ (s : State) (early : Bool) (rest : List HostEvent) (n : Nat) (v : HostValue),
    s.status.busy = false →
    ((7 ≤ n ∧ n ≤ 10 ∧ ∃ x, x < 2 ^ s.inst.lenw ∧ v = .num x) ∨ (n = 6 ∧ ∃ p, s.takes p ∧ v = .prob p)) →
    s.host = { early := early, action := .writeReg n v } :: rest →
    ∃ t r, step s = .next t ∧ Reg.ofNumber n = some r ∧ t.regValue r = v
      ∧ (∀ r', r' ≠ r → t.regValue r' = s.regValue r')
      ∧ t = { s with cfg := t.cfg, srcLen := t.srcLen, dstCap := t.dstCap, blkN := t.blkN, host := rest,
                     reply := none }

/-- 20_memory.md R62, R74, 10_state.md R22: while `BUSY = 0` a write to a read-only register (number 1 and 11
to 21) or inside a table RAM is ignored, and a read of any register or inside any RAM but `RARE` answers its content
(the register's fields at their places, the space's entries from the address on) and changes nothing else. -/
def Obligations.IgnoredWritesAndReadsChangeNothing : Prop :=
  ∀ (s : State) (early : Bool) (rest : List HostEvent), s.status.busy = false →
    (∀ n v, (n = 1 ∨ (11 ≤ n ∧ n ≤ 21)) → s.host = { early := early, action := .writeReg n v } :: rest →
        step s = .next { s with host := rest, reply := none })
    ∧ (∀ space a d, space ∈ [Space.alpha, .s2m, .dict, .jump, .dec] → a + d.count ≤ space.size s.inst →
        s.host = { early := early, action := .writeRam space a d } :: rest →
        step s = .next { s with host := rest, reply := none })
    ∧ (∀ n v, s.registerContents[n]? = some v → s.host = { early := early, action := .readReg n } :: rest →
        step s = .next { s with host := rest, reply := some (.inl v) }
          ∧ ∃ r, Reg.ofNumber n = some r ∧ s.regValue r = v)
    ∧ (∀ space a n d, (space, d) ∈ s.ramContents a n → a + n ≤ space.size s.inst →
        s.host = { early := early, action := .readRam space a n } :: rest →
        step s = .next { s with host := rest, reply := some (.inr d) } ∧ s.readSpace space a n = d)

/-- 20_memory.md R62, 00_scope.md R12: entries the host writes to `SRC`, `DST` and `PMF` while `BUSY = 0` read
back; every other entry reads as before, and nothing else changes. Which probabilities another `NUMERICS` than the
exact one has is the model's reading of R11 (log 1). -/
def Obligations.BufferWritesReadBack : Prop :=
  ∀ (s : State) (early : Bool) (rest : List HostEvent) (a : Nat), s.status.busy = false →
    (∀ l : List Byte, a + l.length ≤ s.inst.srcSize →
        s.host = { early := early, action := .writeRam .src a (.bytes l) } :: rest →
        ∃ t, step s = .next t ∧ t = { s with src := t.src, host := rest, reply := none }
          ∧ t.readSrc a l.length = l ∧ ∀ x, (x < a ∨ a + l.length ≤ x) → t.srcAt x = s.srcAt x)
    ∧ (∀ l : List Byte, a + l.length ≤ s.inst.dstSize →
        s.host = { early := early, action := .writeRam .dst a (.bytes l) } :: rest →
        ∃ t, step s = .next t ∧ t = { s with dst := t.dst, host := rest, reply := none }
          ∧ t.readDst a l.length = l ∧ ∀ x, (x < a ∨ a + l.length ≤ x) → t.dstAt x = s.dstAt x)
    ∧ (∀ l : List Prob, (∀ p ∈ l, s.takes p) → a + l.length ≤ 256 →
        s.host = { early := early, action := .writeRam .pmf a (.probs l) } :: rest →
        ∃ t, step s = .next t ∧ t = { s with pmf := t.pmf, host := rest, reply := none }
          ∧ (∀ k, ∀ h : k < l.length, t.pmfAt (a + k) = l[k])
          ∧ ∀ x, (x < a ∨ a + l.length ≤ x) → t.pmfAt x = s.pmfAt x)

/-- 20_memory.md R62, R63: while `BUSY = 0` an access to a register number above 21 or beyond the end of a RAM
space is refused, and so is any access to `RARE`. That a host write of data of another type than the register or
space holds, a negative probability included (10_state.md R22, 00_scope.md R11), is refused too is the model's
reading (logs 1, 7). -/
def Obligations.AccessBeyondEndStops : Prop :=
  ∀ (s : State) (early : Bool) (rest : List HostEvent), s.status.busy = false →
    (∀ n v, 22 ≤ n →
        (s.host = { early := early, action := .writeReg n v } :: rest
          ∨ s.host = { early := early, action := .readReg n } :: rest) → step s = .refused .beyondEnd)
    ∧ (∀ space a d n, space ≠ .rare →
        (s.host = { early := early, action := .writeRam space a d } :: rest ∧ space.size s.inst < a + d.count
          ∨ s.host = { early := early, action := .readRam space a n } :: rest ∧ space.size s.inst < a + n) →
        step s = .refused .beyondEnd)
    ∧ (∀ a d n,
        (s.host = { early := early, action := .writeRam .rare a d } :: rest
          ∨ s.host = { early := early, action := .readRam .rare a n } :: rest) →
        step s = .refused .rareNotAccessible)
    ∧ (∀ n v, s.host = { early := early, action := .writeReg n v } :: rest →
        ((n = 0 ∨ (2 ≤ n ∧ n ≤ 5)) ∧ (∀ w, v ≠ .word w) ∨ (7 ≤ n ∧ n ≤ 10) ∧ (∀ x, v ≠ .num x)
          ∨ n = 6 ∧ ∀ p, s.takes p → v ≠ .prob p) →
        step s = .refused .wrongType)
    ∧ (∀ space a d, s.host = { early := early, action := .writeRam space a d } :: rest →
        a + d.count ≤ space.size s.inst →
        ((space = .src ∨ space = .dst) ∧ (∀ l, d ≠ .bytes l)
          ∨ space = .pmf ∧ ∀ l : List Prob, (∀ p ∈ l, s.takes p) → d ≠ .probs l) →
        step s = .refused .wrongType)

/-- 70_reset_and_hazards.md R350: while `BUSY = 1` the host may read `STATUS` (`BUSY[0]` reads 1, the running
command is not touched) and nothing else; every other access is refused. The reset input is no access (R340,
R343). That the rest of the word read is as before the command, `HVALID` while `BUILD` or `SRESET` runs included, is
the model's choice (log 28). -/
def Obligations.BusyHazardRefused : Prop :=
  ∀ (s : State) (a : HostAction) (rest : List HostEvent), s.status.busy = true →
    s.host = { early := true, action := a } :: rest →
    (a = .readReg 1 → step s = .next { s with host := rest, reply := some (.inl (.word s.status.word)) }
        ∧ s.status.word.getLsbD 0 = true)
    ∧ (a ≠ .readReg 1 → a ≠ .reset → step s = .refused .busyHazard)

/-- 70_reset_and_hazards.md R340, R341, R343: the reset input, from any state and in the middle of a command,
gives every register its reset value, abandons the command without `DONE`, zeroes the working registers and
leaves every RAM unspecified anew. -/
def Obligations.ResetInputResets : Prop :=
  ∀ (s : State) (e : HostEvent) (rest : List HostEvent), s.host = e :: rest → e.action = .reset →
    (s.status.busy = true → e.early = true) →
    ∃ t, step s = .next t ∧ (∀ r, t.regValue r = State.reset.regValue r)
      ∧ t.status.busy = false ∧ t.status.done = false ∧ t.enc = EncRegs.zero ∧ t.decr = DecRegs.zero
      ∧ t.pmf = .unspecified s.fresh ∧ t.src = .unspecified s.fresh ∧ t.dst = .unspecified s.fresh
      ∧ t.rare = .unspecified s.fresh ∧ t.tablesUnspecified s.fresh ∧ t.inst = s.inst ∧ t.host = rest

/-- 60_exceptions.md R300, 70_reset_and_hazards.md R350, 20_memory.md R62, R63: a host that waits for
`BUSY = 0` and makes no access without a meaning is never stopped, step after step. -/
def Obligations.ObedientHostNeverStopped : Prop :=
  ∀ s : State, s.hostObeys → ∃ t, step s = .next t ∧ t.hostObeys

/-! ### What no command does -/

/-- 20_memory.md R64: no command writes `DST` beyond the length its rule allows. `DECODE` and `PDEP` leave `DST` at
and beyond `BLK_N` as it was, `NOP`, `SRESET` and `BUILD` all of it. `ENCODE` and `PEXT`, if they do not end in an
error, leave no byte known at or beyond `DST_CAP` or the plane length: there the model follows R216 of
43_encode.md and V3 of 93_implementation_defined.md, which call `DST` at and beyond `RESULT` unspecified (log 10);
an error of theirs leaves `DST` as it was. -/
def Obligations.CommandWritesInsideItsBuffer : Prop :=
  ∀ (i : Instr) (s t : State), exec i s = .next t →
    (∀ limit : Nat,
      (i = .encode ∧ limit = s.dstCap ∨ i = .pext ∧ limit = s.srcLen * s.cfg.s.toNat / 8) →
      (t.status.report = none → t.dst.below limit ∧ t.dst.epoch = s.fresh)
        ∧ (t.status.report ≠ none → t.dst = s.dst))
    ∧ (i = .decode ∨ i = .pdep → ∀ a, s.blkN ≤ a → t.dstAt a = s.dstAt a)
    ∧ (i = .nop ∨ i = .sreset ∨ i = .build → t.dst = s.dst)

/-- 20_memory.md R64: no command reads `SRC` at or beyond `SRC_LEN`: two states that differ only there end
alike. -/
def Obligations.CommandReadsSourceBelowLength : Prop :=
  ∀ (i : Instr) (s t : State) (m : Memory Byte), exec i s = .next t →
    (∀ a < s.srcLen, ({ s with src := m } : State).srcAt a = s.srcAt a) →
    exec i { s with src := m } = .next { t with src := m }

/-- 70_reset_and_hazards.md R353, 42_build_tables.md R195: `ENCODE` and `DECODE` take nothing from the
configuration registers but `ABORT_MARGIN` (`DECODE` not even that) and nothing from `PMF`. 10_state.md R20, R42:
the per-block registers are initialised at the start of every `ENCODE`, `DECODE`, `PEXT` and `PDEP`, so nothing an
earlier block left in them is seen. -/
def Obligations.HandleNotDisturbedByConfig : Prop :=
  ∀ (s t : State) (c : CfgRegs) (p : Memory Prob),
    (exec .encode s = .next t → c.abortMargin = s.cfg.abortMargin →
        exec .encode { s with cfg := c, pmf := p } = .next { t with cfg := c, pmf := p })
    ∧ (exec .decode s = .next t →
        exec .decode { s with cfg := c, pmf := p } = .next { t with cfg := c, pmf := p })
    ∧ ∀ (i : Instr) (e : EncRegs) (d : DecRegs), i ∈ [Instr.encode, .decode, .pext, .pdep] →
        exec i { s with enc := e, decr := d } = exec i s

/-- 60_exceptions.md R311, R300, 10_state.md R22: what an error leaves behind, for every command and error: the word
of `STATUS` with `DONE`, `ERR`, `HVALID` and the codes of the error, which is one the command raises; `RESULT`,
`KIND` and `RAWFB` 0; a failed `BUILD` leaves no handle, every other one the handle and the tables as they were;
`DST` is touched by a `FrameError` only, and then below `BLK_N` only; `LAST_RARE` is 0 after `ENCODE` and `DECODE`.
-/
def Obligations.ErrorLeavesStateAsStated : Prop :=
  ∀ (i : Instr) (s t : State) (e : BlockError), exec i s = .next t → t.status.report = some e →
    (∃ ecode esub raisers, (e, ecode, esub, raisers) ∈ errorTable ∧ i ∈ raisers
      ∧ t.status.word = BitVec.ofNat 32
          (2 ^ 1 + 2 ^ 2 + 2 ^ 3 * t.status.hvalid.toNat + 2 ^ 8 * ecode + 2 ^ 16 * esub))
    ∧ t.result = 0 ∧ t.status.kind = .none ∧ t.status.rawfb = false ∧ t.status.busy = false
    ∧ t.status.done = true
    ∧ (i = .build → t.status.hvalid = false ∧ t.handle = HandleRegs.zero ∧ t.tablesUnspecified s.fresh)
    ∧ (i ≠ .build → t.status.hvalid = s.status.hvalid ∧ t.handle = s.handle ∧ t.alpha = s.alpha
        ∧ t.s2m = s.s2m ∧ t.dict = s.dict ∧ t.jump = s.jump ∧ t.dec = s.dec)
    ∧ (i = .encode ∨ i = .decode → t.lastRare = 0)
    ∧ ((∀ c, e ≠ .frame c) → t.dst = s.dst) ∧ (∀ a, s.blkN ≤ a → t.dstAt a = s.dstAt a)
    ∧ t.cfg = s.cfg ∧ t.pmf = s.pmf ∧ t.src = s.src

/-- 20_memory.md R78, R62: nothing but `BUILD`, `SRESET` and the reset input changes the handle registers,
`HVALID` or a table RAM; and only `BUILD` makes a handle. While `BUSY = 1` the command runs unless the host's next
action comes early, and a reset takes effect only if it does. -/
def Obligations.TablesChangeOnlyByBuild : Prop :=
  ∀ s t : State, step s = .next t →
    ((s.status.busy = true ∧ s.hostWaits ∧ (decode s.cmd = .ok .build ∨ decode s.cmd = .ok .sreset))
      ∨ (∃ e rest, s.host = e :: rest ∧ e.action = .reset ∧ (s.status.busy = true → e.early = true))
      ∨ (t.status.hvalid = s.status.hvalid ∧ t.handle = s.handle ∧ t.alpha = s.alpha ∧ t.s2m = s.s2m
          ∧ t.dict = s.dict ∧ t.jump = s.jump ∧ t.dec = s.dec))
    ∧ (s.status.hvalid = false → t.status.hvalid = true →
        s.status.busy = true ∧ s.hostWaits ∧ decode s.cmd = .ok .build)

/-! ### Invariants of every step -/

/-- Every step from a well-formed state leads to a well-formed state (`State.wf` of Safety.lean): RAMs in canonical
form, `STATUS` one of the words the rules leave (10_state.md R27, 60_exceptions.md R311), the handle registers 0
without a handle (10_state.md R29) and in their ranges with one, lengths below `2^LENW`, every encoder and decoder
register within its width (10_state.md R36, R37, R38, R40; `J` and `V` positions of the instance), probabilities the
host wrote values of the `NUMERICS`, with the exact one every probability a rational number (00_scope.md R11, log
1). That `SYMS` holds the low `LENW` bits of the count is the model's reading (log 27). -/
def Obligations.StepKeepsWellFormed : Prop := ∀ s t : State, s.wf → step s = .next t → t.wf

/-- Every entry of every RAM stays inside its space (10_state.md R30, 20_memory.md R64). -/
def Obligations.StepKeepsBounds : Prop :=
  ∀ s t : State, s.inst.ok → s.inBounds → step s = .next t → t.inBounds

/-- 42_build_tables.md R191, 70_reset_and_hazards.md R351: whenever `HVALID = 1` the handle is well formed, and
every step keeps it so. -/
def Obligations.StepKeepsHandleWellFormed : Prop :=
  ∀ s t : State, s.inst.ok → (s.status.hvalid = true → s.HandleWf) → step s = .next t →
    t.status.hvalid = true → t.HandleWf

/-- The reset state meets the three invariants. The instance of `State.reset` is the model's choice (log 2). -/
def Obligations.ResetMeetsInvariants : Prop :=
  State.reset.wf ∧ State.reset.inBounds ∧ (State.reset.status.hvalid = true → State.reset.HandleWf)

/-! ### `BUILD` -/

/-- 40_build_alphabet.md R131: the four tests in their order, the first that fires ends `BUILD`, with the old
handle gone (R130) and everything else as it was (`LAST_RARE` is left open here: what `BUILD` does to it is log
17). With the exact `NUMERICS` the first test is the equality with 1, else a tolerance, for a sum that is a number and
for an entry that is one; that the test of an entry has a tolerance, of its own, and that a tolerance is the largest
distance from 1 is the model's choice (log 29). -/
def Obligations.BuildRejectsInOrder : Prop :=
  (∀ (s : State) (e : BlockError),
    ((¬ s.pmfOk ∧ e = .construction .invalidPmf)
      ∨ (s.pmfOk ∧ ¬ s.koOk ∧ e = .construction .badKo)
      ∨ (s.pmfOk ∧ s.koOk ∧ s.cfg.iter = 0 ∧ e = .construction .badIter)
      ∨ (s.pmfOk ∧ s.koOk ∧ s.cfg.iter ≠ 0 ∧ ¬ s.mwsOk ∧ e = .unsupported)) →
    ∃ t, exec .build s = .next t
      ∧ t = { s with status := Status.error false e, result := 0, handle := HandleRegs.zero, alpha := t.alpha,
                     s2m := t.s2m, dict := t.dict, jump := t.jump, dec := t.dec, fresh := t.fresh,
                     lastRare := t.lastRare }
      ∧ t.tablesUnspecified s.fresh)
    ∧ (∀ s : State, s.inst.numerics = .exact →
        (s.pmfOk ↔ (s.pmfAll.map Prob.toRat).sum = 1 ∧ ¬ ∃ v < 256, (s.pmfAt v).toRat = 1))
    ∧ ∀ (n : Nat) (q : ℚ),
        ((Config.Numerics.rounding n).sumIsOne (.rat q) = true ↔ |q - 1| ≤ (Config.sumTolerance n : ℚ))
        ∧ ((Config.Numerics.rounding n).entryIsOne (.rat q) = true ↔ |q - 1| ≤ (Config.entryTolerance n : ℚ))

/-- 41_build_dictionary.md R156: past `CHECKCFG`, with `S`, `mws` as `AUTOSEL` chooses them and `A` the length
of the alphabet, `BUILD` ends with `ConstructionError(AlphabetTooSmall)` exactly when
`1 + A + .. + A^min(mws,255)` is below `2^K`; otherwise it ends with a handle. The rule's last example says
otherwise at the boundary; the model takes its formula (log 23). What `BUILD` does to `LAST_RARE` is left open here
(log 17). -/
def Obligations.BuildFailsExactlyWithoutEnoughWords : Prop :=
  ∀ s : State, s.configOk →
    let b := s.buildInput
    let sh := autoS b s.cfg
    let words := wordCount (b.alphabet sh).1.length (min (autoMws b s.cfg sh) 255)
    (words < 2 ^ s.cfg.k.toNat →
      ∃ t, exec .build s = .next t
        ∧ t = { s with status := Status.error false (.construction .alphabetTooSmall), result := 0,
                       handle := HandleRegs.zero, alpha := t.alpha, s2m := t.s2m, dict := t.dict,
                       jump := t.jump, dec := t.dec, fresh := t.fresh, lastRare := t.lastRare }
        ∧ t.tablesUnspecified s.fresh)
    ∧ (2 ^ s.cfg.k.toNat ≤ words →
      ∃ t, exec .build s = .next t
        ∧ t = { s with status := Status.success true .none false, result := 0, handle := t.handle,
                       alpha := t.alpha, s2m := t.s2m, dict := t.dict, jump := t.jump, dec := t.dec,
                       fresh := t.fresh, lastRare := t.lastRare })

/-- 42_build_tables.md R195, R180, R187: the handle registers a successful `BUILD` writes, `DICT` holding the
dictionary: `K` and `O` of the configuration, the resolved `S` and `maxWordSize`, `A`, the position of the
word `[0]` in chapter 0, `rareProb`; `H_EFF` is kept as the expression entropy over `bps` (log 9); with the exact
`NUMERICS` the mean word length over all chapters and the estimate `bps` are the rationals of R180. The host reads
these values in the registers 12 to 21, `H_KO` as `K` and `O` at bits 0 and 8 (10_state.md R22). -/
def Obligations.BuildWritesHandleRegisters : Prop :=
  ∀ s t : State, exec .build s = .next t → t.status.hvalid = true →
    let b := s.buildInput
    let sh := autoS b s.cfg
    let mws := autoMws b s.cfg sh
    let al := b.alphabet sh
    let lbar : ℚ := (t.dictList.map fun w => w.p.toRat * (w.syms.length : ℚ)).sum
    let ratio : ℚ := if lbar = 0 then 0 else (t.hK : ℚ) / lbar
    let bps : ℚ := ratio * (1 - al.2.toRat) + (t.hS : ℚ) + 2 * (t.hK : ℚ) * al.2.toRat
    t.handle.k = s.cfg.k ∧ t.handle.o = s.cfg.o ∧ t.hS = sh ∧ t.hMws = mws ∧ t.hA = al.1.length
    ∧ t.alphaList = al.1 ∧ b.dictionary sh mws = some t.dictList
    ∧ IsPos t.hK t.dictList 0 [0] t.handle.start ∧ t.handle.start < 2 ^ t.hK
    ∧ t.handle.rare = al.2 ∧ t.handle.eff = .ratio s.pmfAll t.handle.bps
    ∧ (s.inst.numerics = .exact → t.handle.lbar = .rat lbar ∧ t.handle.bps = .rat bps)
    ∧ (Reg.all.drop 12).map t.regValue =
        [.num al.1.length, .num sh, .num mws, .num t.handle.start, .prob al.2, .prob t.handle.bps,
         .prob t.handle.lbar, .real (.ratio s.pmfAll t.handle.bps), .num t.lastRare.toNat,
         .word (BitVec.ofNat 32 (s.cfg.k.toNat + 2 ^ 8 * s.cfg.o.toNat))]

/-- 42_build_tables.md R191: every successful `BUILD` leaves a well-formed handle. -/
def Obligations.BuildLeavesWellFormedHandle : Prop :=
  ∀ s t : State, s.inst.ok → exec .build s = .next t → t.status.hvalid = true → t.HandleWf

/-- 40_build_alphabet.md R137, R133, R134: with the exact `NUMERICS`, for a PMF of 256 entries that sum to 1, the
kept symbols are distinct multiples of `2^S`, in order of descending probability and then ascending symbol, each
with the mass of its bucket, and their masses and `rareProb` sum to 1. With any `NUMERICS` and any PMF the symbols
are distinct multiples of `2^S`, and in that order if the masses of the buckets are numbers; with `S = 0` a bucket's
mass is its entry, untouched by any arithmetic. That another `NUMERICS` than the exact one compares numbers exactly
and leaves a sum of one term alone is the model's reading of 00_scope.md R11 (DEDUCED, log 1). -/
def Obligations.AlphabetProperties : Prop :=
  (∀ (num : Config.Numerics) (pmf : List Prob) (k o s : Nat) (purge : Prob), s ≤ 7 →
    let al := alphabet num pmf k o s purge
    AlphaOk al.1 s
    ∧ (asRationals num ((groupPmf num pmf s).map AlphaEntry.p) →
        al.1.Pairwise fun a b =>
          b.p.toRat < a.p.toRat ∨ (a.p.toRat = b.p.toRat ∧ a.src.toNat < b.src.toNat))
    ∧ (num ≠ .exact → pmf.length = 256 → s = 0 → ∀ e ∈ al.1, pmf[e.src.toNat]? = some e.p))
  ∧ ∀ (pmf : List Prob) (k o s : Nat) (purge : Prob), pmf.length = 256 → (pmf.map Prob.toRat).sum = 1 → s ≤ 7 →
    let al := alphabet .exact pmf k o s purge
    (∀ e ∈ al.1, e.p = .rat (((List.range 256).filter fun v => v >>> s = e.src.toNat >>> s).map
        fun v => (pmf.getD v (.rat 0)).toRat).sum)
    ∧ (al.1.map fun e => e.p.toRat).sum + al.2.toRat = 1

/-- 40_build_alphabet.md R135: `TRIM` keeps a beginning of the sorted list, the loop's test holds at every
length it went through and fails at the length it kept, and `rareProb` is the mass of what it dropped, added from
the tail on (with the exact `NUMERICS` its sum, 00_scope.md R11). That the test compares numbers exactly with any
`NUMERICS` is the model's reading of R11 (DEDUCED, log 1). -/
def Obligations.TrimStopsWhereItsTestFails : Prop :=
  ∀ (num : Config.Numerics) (sorted : List AlphaEntry) (k o : Nat) (purge : Prob),
    let t := trim num sorted k o purge
    let test := fun n : Nat => max (2 ^ o) 8 < n
      ∧ (2 ^ k - 1 < n ∨ num.lt (sorted.getD (n - 1) { src := 0, p := .rat 0 }).p purge = true)
    let dropped := (sorted.drop t.1.length).map AlphaEntry.p
    t.1 = sorted.take t.1.length ∧ ¬ test t.1.length
    ∧ (∀ n, t.1.length < n → n ≤ sorted.length → test n)
    ∧ t.2 = dropped.reverse.foldl num.add (.rat 0)
    ∧ (num = .exact → t.2 = .rat (dropped.map Prob.toRat).sum)
    ∧ ∀ p q : Prob, asRationals num [p, q] → (num.lt p q = true ↔ p.toRat < q.toRat)

/-- 40_build_alphabet.md R136: the bounds on `A`: between `max(2^O, 8)` and `2^K - 1` when there are enough
buckets, else all `2^(8-S)` of them; always from 2 to `min(256, 2^K - 1)`. -/
def Obligations.AlphabetBounds : Prop :=
  ∀ (num : Config.Numerics) (pmf : List Prob) (k o s : Nat) (purge : Prob), 4 ≤ k → o < k → s ≤ 7 →
    let a := (alphabet num pmf k o s purge).1.length
    (max (2 ^ o) 8 ≤ 2 ^ (8 - s) → max (2 ^ o) 8 ≤ a ∧ a ≤ 2 ^ k - 1)
    ∧ (2 ^ (8 - s) < max (2 ^ o) 8 → a = 2 ^ (8 - s))
    ∧ 2 ≤ a ∧ a ≤ min 256 (2 ^ k - 1)

/-- 40_build_alphabet.md R138, R139, R140, for exact `NUMERICS`: an estimate is the rational `bps` of R180 of
42_build_tables.md or, where the dictionary cannot be built, `+infinity` (here `none`), greater than every rational
and not than itself. A supplied `S` or `maxWordSize` is taken as it is. An automatic `S` ends the sweep from 0, with
the supplied `maxWordSize` or 7, at the last shift up to 5 before the first whose estimate is worse than that of the
shift below; an automatic `maxWordSize` escalates from 3 to 7 and from 7 to 15, each time if the smaller one's
estimate times 10000 exceeds the larger one's times 10001. -/
def Obligations.AutomaticChoice : Prop :=
  ∀ (b : BuildInput) (cfg : CfgRegs), b.num = .exact →
    let exceeds := fun (x : Option Prob) (f : ℚ) (y : Option Prob) (g : ℚ) =>
      ∃ q, y = some q ∧ ∀ p, x = some p → q.toRat * g < p.toRat * f
    let m0 := if cfg.mwsAuto then 7 else cfg.mws.toNat
    let sh := autoS b cfg
    (cfg.sAuto = false → sh = cfg.s.toNat)
    ∧ (cfg.sAuto = true → sh ≤ 5
        ∧ (∀ s, 1 ≤ s → s ≤ sh → ¬ exceeds (b.bpsOf s m0) 1 (b.bpsOf (s - 1) m0) 1)
        ∧ (sh < 5 → exceeds (b.bpsOf (sh + 1) m0) 1 (b.bpsOf sh m0) 1))
    ∧ (∀ s, cfg.mwsAuto = false → autoMws b cfg s = cfg.mws.toNat)
    ∧ (∀ s, cfg.mwsAuto = true →
        let gain := fun x y => exceeds (b.bpsOf s x) 10000 (b.bpsOf s y) 10001
        let m := autoMws b cfg s
        (¬ gain 3 7 → m = 3) ∧ (gain 3 7 → ¬ gain 7 15 → m = 7) ∧ (gain 3 7 → gain 7 15 → m = 15))
    ∧ ∀ s mws,
        (b.dictionary s mws = none → b.bpsOf s mws = none)
        ∧ ∀ d, b.dictionary s mws = some d →
            let lbar : ℚ := (d.map fun w => w.p.toRat * (w.syms.length : ℚ)).sum
            let ratio : ℚ := if lbar = 0 then 0 else (b.k : ℚ) / lbar
            let rare := (b.alphabet s).2.toRat
            b.bpsOf s mws = some (.rat (ratio * (1 - rare) + (s : ℚ) + 2 * (b.k : ℚ) * rare))

/-- 41_build_dictionary.md R153, R154, R155: `SEED` gives the queue the root and its `A` children in the order of
their ids, child `s` of mass `(Σ_{t≤s} pn[t]/PN[t]) · alpha[s].p` and the root 1 less them all (exact `NUMERICS`, 0
for the divisor 0); the node `GROW` takes is one still in the queue and, where every `p` is a number, of the largest
`p` and among those the one with the smallest id; `GROW` ends with the nodes it has when there are `2^K`, fails on
an empty queue, and otherwise goes on after retiring the node it took (of length `mws` or more and not empty, of
length 255, or of degree `A`) or after splitting it: a new node, the next id, for the next symbol, of mass `p ·
Pchild[degree]`, taken from the node's own (any `NUMERICS`). That numbers compare exactly with any `NUMERICS` is the
model's reading of 00_scope.md R11 (DEDUCED, log 1). -/
def Obligations.QueueTakesLargestThenOldest : Prop :=
  (∀ (num : Config.Numerics) (nodes : List Node),
    (popBest num nodes 0 = none ↔ ∀ n ∈ nodes, n.retired = true)
    ∧ (∀ id n, popBest num nodes 0 = some (id, n) → nodes[id]? = some n ∧ n.retired = false)
    ∧ (asRationals num (nodes.map Node.p) → ∀ id n, popBest num nodes 0 = some (id, n) ↔
        nodes[id]? = some n ∧ n.retired = false
          ∧ ∀ (j : Nat) (m : Node), nodes[j]? = some m → m.retired = false →
              m.p.toRat < n.p.toRat ∨ (m.p.toRat = n.p.toRat ∧ id ≤ j)))
  ∧ (∀ (pn pnSum : List Prob) (alpha : List AlphaEntry),
      pn.length = alpha.length → pnSum.length = alpha.length →
      let mass := fun s => ((List.range (s + 1)).map fun t =>
          let d := (pnSum.getD t (.rat 0)).toRat
          if d = 0 then 0 else (pn.getD t (.rat 0)).toRat / d).sum
            * (alpha.getD s { src := 0, p := .rat 0 }).p.toRat
      let start := seed .exact pn pnSum alpha
      start.length = alpha.length + 1
      ∧ start[0]? = some { word := [], p := .rat (1 - ((List.range alpha.length).map mass).sum),
                           degree := alpha.length, retired := false }
      ∧ ∀ s < alpha.length,
          start[s + 1]? = some { word := [s], p := .rat (mass s), degree := 0, retired := false })
  ∧ ∀ (num : Config.Numerics) (k a mws : Nat) (pchild : List Prob) (nodes : List Node),
      (2 ^ k ≤ nodes.length → grow num k a mws pchild nodes = some nodes)
      ∧ (nodes.length < 2 ^ k → (∀ n ∈ nodes, n.retired = true) → grow num k a mws pchild nodes = none)
      ∧ ∀ id n, nodes.length < 2 ^ k → popBest num nodes 0 = some (id, n) →
          ((mws ≤ n.word.length ∧ 0 < n.word.length) ∨ n.word.length = 255 ∨ n.degree = a →
            grow num k a mws pchild nodes = grow num k a mws pchild (nodes.set id { n with retired := true }))
          ∧ (¬ (mws ≤ n.word.length ∧ 0 < n.word.length) → n.word.length ≠ 255 → n.degree ≠ a →
            let p' := num.mul n.p (pchild.getD n.degree (.rat 0))
            grow num k a mws pchild nodes = grow num k a mws pchild
              (nodes.set id { n with p := num.sub n.p p', degree := n.degree + 1 }
                ++ [{ word := n.word ++ [n.degree], p := p', degree := 0, retired := false }]))

/-- 41_build_dictionary.md R159: for distinct words, `SORTWORDS` orders them: the empty word first, then state
ascending, `p` descending, words in lexicographic order; where some `p` is no number, the first two of these. That
numbers compare exactly with any `NUMERICS` is the model's reading of 00_scope.md R11 (DEDUCED, log 1). -/
def Obligations.SortedWordsInOrder : Prop :=
  ∀ (num : Config.Numerics) (l : List DictWord), (l.map DictWord.syms).Nodup →
    (sortWords num l).Perm l
    ∧ (sortWords num l).Pairwise (fun v w => v.syms = [] ∨ (w.syms ≠ [] ∧ v.state ≤ w.state))
    ∧ (asRationals num (l.map DictWord.p) →
        (sortWords num l).Pairwise (fun v w => v.syms = [] ∨ (w.syms ≠ []
          ∧ (v.state < w.state ∨ (v.state = w.state
              ∧ (w.p.toRat < v.p.toRat ∨ (v.p.toRat = w.p.toRat ∧ v.syms < w.syms)))))))

/-- 41_build_dictionary.md R160: sorted word `t = r * 2^(K-O) + q` goes to slot `q * 2^O + r`, every slot is
filled, and the first word is at slot 0. -/
def Obligations.PackFillsByResidue : Prop :=
  ∀ (k o : Nat) (sorted : List DictWord), o ≤ k → sorted.length = 2 ^ k →
    (pack k o sorted).length = 2 ^ k ∧ (pack k o sorted).Perm sorted
    ∧ (∀ t < 2 ^ k, recordAt (pack k o sorted) (t % 2 ^ (k - o) * 2 ^ o + t / 2 ^ (k - o)) = recordAt sorted t)
    ∧ recordAt (pack k o sorted) 0 = recordAt sorted 0

/-- 41_build_dictionary.md R151, R152, R161, R163 (e), (f), (g), for exact `NUMERICS`: `PN[s]` is `rareProb` and the
mass of the symbols from `s` on, `Pchild[s]` the quotient (0 for the divisor 0); `NORM` divides by the sum, and gives
`[1, 0, .., 0]` and the factor 0 where the sum is 0; `PSTATES` adds the masses of the words at the positions of
residue `c` whose state is `s`, state `A` counted as 0; the words of a chapter have the mass of the vector it was
built from; and for a PMF of 256 non-negative entries that sum to 1, in every finished dictionary every `p` is
non-negative and all of them sum to exactly 1. -/
def Obligations.DictionaryMassIsOne : Prop :=
  (∀ (alpha : List AlphaEntry) (rareProb : Prob),
      let pn := pnOf .exact alpha rareProb
      let pchild := pchildOf .exact alpha pn
      pn.length = alpha.length ∧ pchild.length = alpha.length
      ∧ ∀ (s : Nat) (h : s < alpha.length),
          let tail := rareProb.toRat + ((alpha.drop s).map fun e => e.p.toRat).sum
          pn[s]? = some (.rat tail) ∧ pchild[s]? = some (.rat (if tail = 0 then 0 else alpha[s].p.toRat / tail)))
  ∧ (∀ pst : List Prob,
      let sum := (pst.map Prob.toRat).sum
      (norm .exact pst).2 = .rat sum ∧ (norm .exact pst).1.length = pst.length
      ∧ (sum = 0 → ∀ s < pst.length, (norm .exact pst).1[s]? = some (.rat (if s = 0 then 1 else 0)))
      ∧ (sum ≠ 0 → ∀ (s : Nat) (h : s < pst.length), (norm .exact pst).1[s]? = some (.rat (pst[s].toRat / sum))))
  ∧ (∀ (a o c st : Nat) (d : List DictWord), c < 2 ^ o → st < a →
      (pstates .exact a o d).length = 2 ^ o ∧ ((pstates .exact a o d).getD c []).length = a
      ∧ ((pstates .exact a o d).getD c [])[st]? = some (.rat (((List.range d.length).filter fun i =>
          i % 2 ^ o = c ∧ ((recordAt d i).state = st ∨ (st = 0 ∧ (recordAt d i).state = a))).map
            fun i => (recordAt d i).p.toRat).sum))
  ∧ (∀ (b : BuildParams) (pst : List Prob) (ch : List DictWord), b.num = .exact → b.o ≤ b.k →
      b.alpha.length < 2 ^ b.k → buildChapter b pst = some ch →
      ch.length = 2 ^ b.k ∧ (ch.map fun w => w.p.toRat).sum = (pst.map Prob.toRat).sum)
  ∧ ∀ (b : BuildInput) (s mws : Nat) (d : List DictWord), b.num = .exact → b.pmf.length = 256 →
      (b.pmf.map Prob.toRat).sum = 1 → (∀ p ∈ b.pmf, 0 ≤ p.toRat) → 4 ≤ b.k → b.o < b.k → 1 ≤ b.iters → s ≤ 7 →
      b.dictionary s mws = some d → (∀ w ∈ d, ∃ q : ℚ, 0 ≤ q ∧ w.p = .rat q) ∧ (d.map fun w => w.p.toRat).sum = 1

/-- 41_build_dictionary.md R163 (a) to (d): the structure of every finished dictionary, with every `NUMERICS`
(R164). -/
def Obligations.DictionaryStructure : Prop :=
  ∀ (b : BuildInput) (s mws : Nat) (d : List DictWord), 4 ≤ b.k → b.o < b.k → 1 ≤ b.iters → s ≤ 7 →
    mws ∈ [3, 7, 15, 31, 63, 127, 255, 511] → b.dictionary s mws = some d →
    DictWf b.k b.o (b.alphabet s).1.length mws d

/-- 42_build_tables.md R186, R187: for every dictionary of that structure the finished jump table has every
cell defined, as R186 says; the start position is that of the word `[0]` in chapter 0. -/
def Obligations.JumpTableFinished : Prop :=
  ∀ (k o a mws : Nat) (d : List DictWord), 0 < a → DictWf k o a mws d →
    (jumpRows k o a d).length = d.length ∧ (∀ row ∈ jumpRows k o a d, row.length = a + 1)
    ∧ JumpOk k o a d (fun i m => ((jumpRows k o a d).getD i []).getD m 0)
    ∧ IsPos k d 0 [0] (posD k d 0 [0])

/-- 42_build_tables.md R188, R189, 30_encoding.md R102: every decoder record has `mws + 1` bytes: the source
symbols of the word, filler 0, the length; a length byte is at most `min(mws, 255)` and is 0 exactly at the
keys `c * 2^K`, those of the empty words. -/
def Obligations.DecoderRecords : Prop :=
  ∀ (alpha : List AlphaEntry) (k o a mws : Nat) (d : List DictWord), DictWf k o a mws d →
    let dec := decBuild alpha mws d
    dec.length = 2 ^ (k + o) ∧ ∀ i < 2 ^ (k + o),
      let rec' := dec.getD i []
      let len := (rec'.getD mws 0).toNat
      rec'.length = mws + 1 ∧ len = (symsAt d i).length ∧ len ≤ min mws 255
      ∧ rec'.take len = (symsAt d i).map (srcOf alpha)
      ∧ (∀ q, len ≤ q → q < mws → rec'.getD q 1 = 0)
      ∧ (len = 0 ↔ 2 ^ k ∣ i)

/-- 42_build_tables.md R190: `S2M` gives each kept group its symbol and every other index the sentinel `A`. -/
def Obligations.SourceToMarlinTable : Prop :=
  ∀ (alpha : List AlphaEntry) (s : Nat), AlphaOk alpha s → s ≤ 7 → alpha.length ≤ 256 →
    (s2mBuild alpha s).length = 256 ∧ S2mOk alpha s (fun g => (s2mBuild alpha s).getD g 0)

/-! ### `ENCODE` -/

/-- 43_encode.md R201, 44_decode.md R232: the checks of `ENCODE` and of `DECODE` in their order; an error leaves
everything but `STATUS`, `RESULT`, `LAST_RARE` and the per-block state as it was (60_exceptions.md R311). -/
def Obligations.BlockChecksInOrder : Prop :=
  ∀ (s : State) (e : BlockError),
    ((s.status.hvalid = false ∧ e = .noHandle)
        ∨ (s.status.hvalid = true ∧ (s.inst.srcSize < s.srcLen ∨ s.inst.dstSize < s.dstCap) ∧ e = .badLength)
        ∨ (s.status.hvalid = true ∧ s.srcLen ≤ s.inst.srcSize ∧ s.dstCap ≤ s.inst.dstSize
            ∧ s.dstCap < s.srcLen ∧ e = .insufficientBuffer) →
      ∃ t, exec .encode s = .next t
        ∧ t = { s with status := Status.error s.status.hvalid e, result := 0, lastRare := 0, rare := t.rare,
                       enc := t.enc, decr := t.decr })
    ∧ ((s.status.hvalid = false ∧ e = .noHandle)
        ∨ (s.status.hvalid = true ∧ (s.inst.srcSize < s.srcLen ∨ s.inst.dstSize < s.blkN) ∧ e = .badLength) →
      ∃ t, exec .decode s = .next t
        ∧ t = { s with status := Status.error s.status.hvalid e, result := 0, lastRare := 0, rare := t.rare,
                       enc := t.enc, decr := t.decr })

/-- 43_encode.md R202: the empty block gives the empty frame, a block of one value the frame of one byte; `DST` at
and beyond `RESULT` is unspecified, also beyond `DST_CAP`, which is the model's reading of R216 (log 10). -/
def Obligations.EncodeEmptyAndConstant : Prop :=
  ∀ s : State, s.canEncode →
    (s.srcLen = 0 → ∃ t, exec .encode s = .next t ∧ t.status = Status.success true .empty false
        ∧ t.result = 0 ∧ t.lastRare = 0 ∧ t.encodedFrom s)
    ∧ (0 < s.srcLen → ¬ s.notConstant →
        ∃ t, exec .encode s = .next t ∧ t.status = Status.success true .constant false
          ∧ t.result = 1 ∧ t.dstAt 0 = s.srcAt 0 ∧ t.lastRare = 0 ∧ t.encodedFrom s)

/-- 43_encode.md R214 (a), (b), R208: a block that is not constant is stored raw when it has no aligned part,
when the budget is below `ABORT_MARGIN` at the first byte, and when more than 255 of its aligned bytes are
rare. An abort before a later byte is in EncodeChoosesFrame. `DST` at and beyond `RESULT` is unspecified (R216, log
10). -/
def Obligations.EncodeStoresRaw : Prop :=
  ∀ s : State, s.canEncode → s.notConstant →
    (s.srcLen < 8
      ∨ (8 ≤ s.srcLen
          ∧ s.srcLen - s.srcLen % 8 - 1 - (s.srcLen - s.srcLen % 8) * s.hS / 8 < s.cfg.abortMargin)
      ∨ 255 < s.rares.length) →
    ∃ t, exec .encode s = .next t ∧ t.storedRaw s

/-- 43_encode.md R216, R213, 20_memory.md R64: the frames `ENCODE` can leave, told apart by `KIND`, with the word of
`STATUS` for each (10_state.md R22, 30_encoding.md R95); `RESULT` is at most `N` and `DST_CAP`, and `DST` at and
beyond `RESULT` is unspecified (log 10). 10_state.md R38: with `START` a position of the handle, `J` holds one too
at the end, of `K + O` bits and without the flag. -/
def Obligations.EncodeFrames : Prop :=
  ∀ s : State, s.canEncode → 1 ≤ s.hK → ∃ t, exec .encode s = .next t ∧ t.encodedFrom s
    ∧ t.result ≤ s.srcLen ∧ t.status.report = none ∧ t.status.hvalid = true
    ∧ (s.handle.start < 2 ^ (s.hK + s.hO) → t.enc.j < 2 ^ (s.hK + s.hO))
    ∧ ((t.status.kind = .empty ∧ t.status.word = 0x0000002A#32 ∧ t.status.rawfb = false ∧ t.lastRare = 0
          ∧ s.srcLen = 0 ∧ t.result = 0)
      ∨ (t.status.kind = .constant ∧ t.status.word = 0x0000004A#32 ∧ t.status.rawfb = false ∧ t.lastRare = 0
          ∧ 1 ≤ s.srcLen ∧ t.result = 1 ∧ t.dstAt 0 = s.srcAt 0)
      ∨ (t.status.kind = .raw ∧ t.status.word = 0x0000007A#32 ∧ t.status.rawfb = true ∧ t.lastRare = 0
          ∧ 2 ≤ s.srcLen ∧ t.result = s.srcLen ∧ t.readDst 0 s.srcLen = s.source)
      ∨ (t.status.kind = .coded ∧ t.status.word = 0x0000008A#32 ∧ t.status.rawfb = false
          ∧ t.lastRare.toNat = s.rares.length ∧ 2 ≤ t.result ∧ t.result + 1 ≤ s.srcLen))

/-- 43_encode.md R217, R212, 30_encoding.md R96, R98: with a well-formed handle, whatever `ABORT_MARGIN` is, a
coded frame in `DST` is the layout of R96 for the sequence of `K`-bit codewords whose words are not empty, spell the
implicit symbol 0 and the symbols of the aligned part, and are each as long as the dictionary allows (R205); `DST`
at and beyond it is unspecified (R216, log 10). -/
def Obligations.CodedFrameSpellsBlock : Prop :=
  ∀ s t : State, s.inst.ok → s.HandleWf → s.canEncode → exec .encode s = .next t →
    t.status.kind = .coded → ∃ cws, s.spells cws ∧ t.storedCoded s (s.codedWith cws)

/-- 43_encode.md R200, R205, R208, R212, R214: with a well-formed handle, exactly when a block that is not constant
and has an aligned part is coded. It has one spelling in which each word is the longest the dictionary gives; it is
coded in that spelling if at most 255 of its bytes are rare, before no byte the budget left is below `ABORT_MARGIN`,
and the frame is shorter than the block, and stored raw otherwise. With `ABORT_MARGIN = 0` the length of the frame
and the 255 rare bytes alone decide. `DST` at and beyond `RESULT` is unspecified (R216, log 10). -/
def Obligations.EncodeChoosesFrame : Prop :=
  ∀ s : State, s.inst.ok → s.HandleWf → s.canEncode → s.notConstant → 8 ≤ s.srcLen →
    ∃ cws t, s.spells cws ∧ (∀ other, s.spells other → other = cws) ∧ exec .encode s = .next t
      ∧ (s.rares.length ≤ 255 → ¬ s.aborts cws → (s.codedWith cws).length < s.srcLen →
          t.storedCoded s (s.codedWith cws))
      ∧ (255 < s.rares.length ∨ s.aborts cws ∨ s.srcLen ≤ (s.codedWith cws).length → t.storedRaw s)
      ∧ (s.cfg.abortMargin = 0 → s.rares.length ≤ 255 → (s.codedWith cws).length < s.srcLen →
          t.storedCoded s (s.codedWith cws))

/-- 43_encode.md R210, R209: for every codeword width the bit register holds, the bytes `EMIT` drains and the
flush adds are the stream of 30_encoding.md R98, and `OCUR` counts them. -/
def Obligations.EmittedBytesAreTheStream : Prop :=
  ∀ (k : Nat) (cws : List Nat) (regs : EncRegs) (rare : Memory RareEntry), k ≤ 25 → (∀ c ∈ cws, c < 2 ^ k) →
    regs.val = 0 → regs.nbits = 0 → regs.ocur = 0 →
    let w := closeStream (cws.foldl (fun w c => emit k c w) { regs := regs, stream := [], rare := rare })
    w.stream = streamOf k cws ∧ w.regs.ocur = w.stream.length ∧ w.regs.nbits = 0 ∧ w.regs.val = 0

/-- 30_encoding.md R98, 44_decode.md R237: a reader of a codeword stream finds the codewords again; what it
finds beyond them is at most one codeword, of value 0, and none for `K >= 8`. -/
def Obligations.StreamReadsBack : Prop :=
  ∀ (k : Nat) (cws : List Nat), 1 ≤ k → (∀ c ∈ cws, c < 2 ^ k) →
    let stream := streamOf k cws
    let units := unitsOf k stream.length
    stream.length = (cws.length * k + 7) / 8 ∧ cws.length ≤ units
    ∧ (8 ≤ k → units = cws.length) ∧ (4 ≤ k → units ≤ cws.length + 1)
    ∧ (∀ u, ∀ h : u < cws.length, codewordAt k stream u = cws[u])
    ∧ ∀ u, cws.length ≤ u → u < units → codewordAt k stream u = 0

/-! ### `DECODE` -/

/-- 44_decode.md R231: a frame of the block's length is copied, a frame of one byte gives a block of that byte,
any other frame longer than the block is a `LengthMismatch`, and so is an empty frame for a block that is not. Each
with its word of `STATUS` (10_state.md R22, 30_encoding.md R95, 60_exceptions.md R300). -/
def Obligations.DecodeByLength : Prop :=
  ∀ s : State, s.canDecode →
    (s.srcLen = s.blkN → ∃ t, exec .decode s = .next t
        ∧ t.decodedTo s (if s.blkN = 0 then .empty else .raw) 0 s.source
        ∧ t.status.word = if s.blkN = 0 then 0x0000002A#32 else 0x0000006A#32)
    ∧ (s.srcLen = 1 → s.blkN ≠ 1 → ∃ t, exec .decode s = .next t
        ∧ t.decodedTo s .constant 0 (List.replicate s.blkN (s.srcAt 0))
        ∧ t.status.word = 0x0000004A#32)
    ∧ (s.srcLen ≠ 1 → s.blkN < s.srcLen → ∃ t, exec .decode s = .next t
        ∧ t.rejectedFrame s .lengthMismatch ∧ t.status.word = 0x0001040E#32)
    ∧ (s.srcLen = 0 → 0 < s.blkN → ∃ t, exec .decode s = .next t
        ∧ t.rejectedFrame s .lengthMismatch ∧ t.status.word = 0x0001040E#32)

/-- 44_decode.md R233: the two tests of the parser on a frame that is neither raw nor constant nor too long. -/
def Obligations.DecodeRejectsLayout : Prop :=
  ∀ s : State, s.canDecode → s.srcLen ≠ 1 → s.srcLen < s.blkN →
    let pad := s.blkN % 8
    let pl := (s.blkN - pad) * s.hS / 8
    let ow := if s.blkN < 2 ^ 8 then 1 else if s.blkN < 2 ^ 16 then 2 else if s.blkN < 2 ^ 32 then 4 else 8
    (s.srcLen < pad + 1 + pl → ∃ t, exec .decode s = .next t ∧ t.rejectedFrame s .lengthMismatch)
    ∧ (pad + 1 + pl ≤ s.srcLen → s.srcLen < pad + 1 + pl + (s.srcAt pad).toNat * (ow + 1) →
        ∃ t, exec .decode s = .next t ∧ t.rejectedFrame s .rareOverrun)

/-- 44_decode.md R237, R238, R239, R241, R242, R243, 30_encoding.md R98: with a well-formed handle, a frame laid
out by R96 around any stream is decoded from the words at the positions of the `K`-bit codewords a reader takes from
the stream, whatever its leftover and fill bits are: the wrong number of symbols is a `SymbolCount` error, then a
rare offset beyond the block a `RareOffset` error; else the block is the padding, the source symbols of all but the
first Marlin symbol with the plane deposited, and the rare entries over it. -/
def Obligations.DecodeReadsFrame : Prop :=
  ∀ (s : State) (padding stream : List Byte) (cws : List Nat) (rares : List RareEntry) (plane : List Byte),
    s.inst.ok → s.HandleWf → s.canDecode → padding.length = s.blkN % 8 → ReadsAs s.hK stream cws →
    rares.length ≤ 255 → (∀ r ∈ rares, r.offset < 256 ^ offsetWidth s.blkN) →
    plane.length = planeLen s.blkN s.hS → s.source = frameWith s.blkN padding stream rares plane →
    s.srcLen ≠ 1 → s.srcLen < s.blkN →
    let count := (s.wordsOf cws).length
    let wanted := s.blkN - s.blkN % 8 + 1
    (count ≠ wanted → ∃ t, exec .decode s = .next t ∧ t.rejectedFrame s .symbolCount)
    ∧ (count = wanted → (∃ r ∈ rares, s.blkN ≤ r.offset) →
        ∃ t, exec .decode s = .next t ∧ t.rejectedFrame s .rareOffset)
    ∧ (count = wanted → (∀ r ∈ rares, r.offset < s.blkN) →
        ∃ t, exec .decode s = .next t
          ∧ t.decodedTo s .coded rares.length
              (patched rares (padding
                ++ pdepPlane ((s.wordsOf cws).tail.map (srcOf s.alphaList)) plane s.hS)))

/-- 44_decode.md R245, R234, 20_memory.md R64: for every content of `SRC` and every length `DECODE` ends, with
the block's length or with a `FrameError`, and writes below `BLK_N` only; whatever the handle. 10_state.md R37: the
key `V` has `K + O` bits at the end. -/
def Obligations.DecodeRobust : Prop :=
  ∀ s : State, s.canDecode → ∃ t, exec .decode s = .next t ∧ t.decodedFrom s
    ∧ t.decr.v < 2 ^ (s.hK + s.hO)
    ∧ ((t.status.report = none ∧ t.result = s.blkN ∧ t.status.kind ≠ .none)
      ∨ ∃ c, t.rejectedFrame s c)

/-- 44_decode.md R244: the round trip, for every well-formed handle, block and `ABORT_MARGIN`: a later state `u`
with the same handle and tables, the frame of `ENCODE` in its `SRC` and `BLK_N = N` decodes to the block. -/
def Obligations.RoundTrip : Prop :=
  ∀ s t u : State, s.inst.ok → s.HandleWf → s.canEncode → exec .encode s = .next t →
    u.inst = s.inst → u.status.hvalid = true → u.handle = s.handle → u.alpha = s.alpha → u.dec = s.dec →
    u.srcLen = t.result → u.source = t.readDst 0 t.result → u.blkN = s.srcLen →
    ∃ v, exec .decode u = .next v ∧ v.status.report = none ∧ v.result = s.srcLen
      ∧ v.readDst 0 s.srcLen = s.source

/-! ### The residual plane -/

/-- 45_residual_plane.md R260, R262, every bit of both group operations: bit `j < S` of `grp[i]` is bit
`(i*S + j) mod 8` of the extracted byte `(i*S + j) div 8`; a deposit takes the low `S` bits of a lane from
there and keeps the high ones. -/
def Obligations.GroupBitPositions : Prop :=
  ∀ (grp pl : List Byte) (s i j : Nat), grp.length = 8 → pl.length = s → s ≤ 7 → i < 8 → j < 8 →
    (pext8 grp s).length = s ∧ (pdep8 grp pl s).length = 8
    ∧ (j < s →
        ((pext8 grp s).getD ((i * s + j) / 8) 0).getLsbD ((i * s + j) % 8) = (grp.getD i 0).getLsbD j
        ∧ ((pdep8 grp pl s).getD i 0).getLsbD j = (pl.getD ((i * s + j) / 8) 0).getLsbD ((i * s + j) % 8))
    ∧ (s ≤ j → ((pdep8 grp pl s).getD i 0).getLsbD j = (grp.getD i 0).getLsbD j)

/-- 45_residual_plane.md R263: the three laws of the group operations. -/
def Obligations.ResidualLaws : Prop :=
  ∀ (g h pl : List Byte) (s : Nat), g.length = 8 → h.length = 8 → pl.length = s → s ≤ 7 →
    (∀ i < 8, ((pdep8 h (pext8 g s) s).getD i 0).toNat =
        ((h.getD i 0).toNat - (h.getD i 0).toNat % 2 ^ s) + (g.getD i 0).toNat % 2 ^ s)
    ∧ ((∀ i < 8, (h.getD i 0).toNat >>> s = (g.getD i 0).toNat >>> s) → pdep8 h (pext8 g s) s = g)
    ∧ pext8 (pdep8 h pl s) s = pl

/-- 45_residual_plane.md R265: `PDEPPLANE` works group by group, and puts back the plane of a sequence that
agrees in the high bits. -/
def Obligations.PlaneLaw : Prop :=
  ∀ (d a pl : List Byte) (s : Nat), 8 ∣ d.length → s ≤ 7 → pl.length = d.length * s / 8 →
    (∀ g < d.length / 8,
        groupAt (pdepPlane d pl s) 8 g = pdep8 (groupAt d 8 g) (groupAt pl s g) s)
    ∧ (a.length = d.length → (∀ i < d.length, (d.getD i 0).toNat >>> s = (a.getD i 0).toNat >>> s) →
        pdepPlane d (pextPlane a s) s = a)

/-- 45_residual_plane.md R268, R264, R266: `PEXT` raises `BadLength` on the lengths the rule names, else writes
the plane of `SRC[0..SRC_LEN)` for `CFG_S.S` to `DST`; `HVALID`, the handle and `LAST_RARE` stand. What the per-block
registers hold after it is left open; that `DST` at and beyond `RESULT` is unspecified is the model's reading of V3 of
93_implementation_defined.md (log 10), not of R268. -/
def Obligations.PextResult : Prop :=
  ∀ s : State,
    let n := s.srcLen
    let sh := s.cfg.s.toNat
    ((s.inst.srcSize < n ∨ n % 8 ≠ 0 ∨ s.inst.dstSize < n * sh / 8) →
      ∃ t, exec .pext s = .next t
        ∧ t = { s with status := Status.error s.status.hvalid .badLength, result := 0, enc := t.enc,
                       decr := t.decr })
    ∧ (n ≤ s.inst.srcSize → n % 8 = 0 → n * sh / 8 ≤ s.inst.dstSize →
      ∃ t, exec .pext s = .next t
        ∧ t = { s with status := Status.success s.status.hvalid .none false, result := n * sh / 8, dst := t.dst,
                       enc := t.enc, decr := t.decr, fresh := t.fresh }
        ∧ (∀ g < n / 8, t.readDst (g * sh) sh = pext8 (s.readSrc (8 * g) 8) sh)
        ∧ t.dst.below (n * sh / 8) ∧ t.dst.epoch = s.fresh)

/-- 45_residual_plane.md R269, R265, R266: `PDEP` raises `BadLength` on the lengths the rule names, else
deposits the plane in `SRC` into the block in `DST`, group by group, and leaves `DST` beyond the block; `HVALID`, the
handle and `LAST_RARE` stand. What the per-block registers hold after it is left open. -/
def Obligations.PdepResult : Prop :=
  ∀ s : State,
    let n := s.blkN
    let sh := s.cfg.s.toNat
    ((s.inst.dstSize < n ∨ n % 8 ≠ 0 ∨ s.inst.srcSize < s.srcLen ∨ s.srcLen ≠ n * sh / 8) →
      ∃ t, exec .pdep s = .next t
        ∧ t = { s with status := Status.error s.status.hvalid .badLength, result := 0, enc := t.enc,
                       decr := t.decr })
    ∧ (n ≤ s.inst.dstSize → n % 8 = 0 → s.srcLen ≤ s.inst.srcSize → s.srcLen = n * sh / 8 →
      ∃ t, exec .pdep s = .next t
        ∧ t = { s with status := Status.success s.status.hvalid .none false, result := n, dst := t.dst,
                       enc := t.enc, decr := t.decr }
        ∧ (∀ g < n / 8, t.readDst (8 * g) 8 = pdep8 (s.readDst (8 * g) 8) (s.readSrc (g * sh) sh) sh)
        ∧ ∀ a, n ≤ a → t.dstAt a = s.dstAt a)
end

