-- ==== Sys2Proof/Laws/Memory.lean ====
section
/-! SUPPORT. Memories: reading after writing, and the canonical form kept by every memory operation. -/

namespace Sys2Proof.Machine

open Sys2Proof

variable {α : Type}

theorem cellAt_append (l r : List (Nat × α)) (a : Nat) :
    cellAt (l ++ r) a = (cellAt l a).or (cellAt r a) := by
  induction l with
  | nil => simp [cellAt]
  | cons c l ih =>
    by_cases h : a = c.1
    · simp [cellAt, h]
    · simp [cellAt, h, ih]

theorem cellAt_filter_of_pos (p : Nat → Bool) (l : List (Nat × α)) (a : Nat) (h : p a = true) :
    cellAt (l.filter fun c => p c.1) a = cellAt l a := by
  induction l with
  | nil => rfl
  | cons c l ih =>
    by_cases hc : a = c.1
    · subst hc; simp [cellAt, h]
    · by_cases hp : p c.1 = true
      · simp [hp, cellAt, hc, ih]
      · simp [hp, cellAt, hc, ih]

theorem cellAt_filter_of_neg (p : Nat → Bool) (l : List (Nat × α)) (a : Nat) (h : p a = false) :
    cellAt (l.filter fun c => p c.1) a = none := by
  induction l with
  | nil => rfl
  | cons c l ih =>
    by_cases hp : p c.1 = true
    · have hc : a ≠ c.1 := by rintro rfl; simp [hp] at h
      simp [hp, cellAt, hc, ih]
    · simp [hp, ih]

theorem cellAt_cellsFrom (vs : List α) (a x : Nat) :
    cellAt (cellsFrom a vs) x = if a ≤ x then vs[x - a]? else none := by
  induction vs generalizing a with
  | nil => simp [cellsFrom, cellAt]
  | cons v vs ih =>
    rw [cellsFrom, cellAt, ih]
    by_cases h : x = a
    · subst h; simp
    · by_cases h2 : a ≤ x
      · have h3 : x - a = (x - (a + 1)) + 1 := by omega
        simp [h, h2, show a + 1 ≤ x by omega, h3]
      · simp [h, h2, show ¬ a + 1 ≤ x by omega]

/-- Reading after `MemWrite`: an address written has its value, every other address reads as before. -/
theorem Memory.read_writeRange (free : Nat → Nat → α) (m : Memory α) (a : Nat) (vs : List α) (x : Nat) :
    (m.writeRange a vs).read free x =
      if a ≤ x ∧ x < a + vs.length then (vs[x - a]?).getD (free m.epoch x) else m.read free x := by
  simp only [Memory.read, Memory.writeRange, cellAt_append, cellAt_cellsFrom]
  rcases Nat.lt_or_ge x a with h | h
  · have h1 := cellAt_filter_of_pos (fun b => decide (b < a)) m.cells x (by simpa using h)
    have h2 := cellAt_filter_of_neg (fun b => decide (a + vs.length ≤ b)) m.cells x
      (by simp; omega)
    simp [h1, h2, show ¬ a ≤ x by omega]
  · have h1 := cellAt_filter_of_neg (fun b => decide (b < a)) m.cells x (by simp; omega)
    rcases Nat.lt_or_ge x (a + vs.length) with h3 | h3
    · have h2 := cellAt_filter_of_neg (fun b => decide (a + vs.length ≤ b)) m.cells x
        (by simp; omega)
      simp [h1, h2, h, h3]
    · have h2 := cellAt_filter_of_pos (fun b => decide (a + vs.length ≤ b)) m.cells x
        (by simpa using h3)
      have h4 : vs.length ≤ x - a := by omega
      simp [h1, h2, h, show ¬ x < a + vs.length by omega, List.getElem?_eq_none h4]

theorem Memory.read_writeRange_inside (free : Nat → Nat → α) (m : Memory α) (a : Nat) (vs : List α) (k : Nat)
    (h : k < vs.length) : (m.writeRange a vs).read free (a + k) = vs[k] := by
  rw [Memory.read_writeRange]; simp [h]

theorem Memory.read_writeRange_outside (free : Nat → Nat → α) (m : Memory α) (a : Nat) (vs : List α) (x : Nat)
    (h : x < a ∨ a + vs.length ≤ x) : (m.writeRange a vs).read free x = m.read free x := by
  rw [Memory.read_writeRange, if_neg (by omega)]

@[simp] theorem Memory.writeRange_epoch (m : Memory α) (a : Nat) (vs : List α) :
    (m.writeRange a vs).epoch = m.epoch := rfl

@[simp] theorem Memory.unspecified_epoch (e : Nat) : (Memory.unspecified e : Memory α).epoch = e := rfl

@[simp] theorem Memory.unspecified_cells (e : Nat) : (Memory.unspecified e : Memory α).cells = [] := rfl

theorem Memory.read_unspecified (free : Nat → Nat → α) (e a : Nat) :
    (Memory.unspecified e : Memory α).read free a = free e a := rfl

theorem mem_cellsFrom {vs : List α} {a : Nat} {c : Nat × α} (h : c ∈ cellsFrom a vs) :
    a ≤ c.1 ∧ c.1 < a + vs.length ∧ c.2 ∈ vs := by
  induction vs generalizing a with
  | nil => simp [cellsFrom] at h
  | cons v vs ih =>
    rcases List.mem_cons.1 h with rfl | h
    · simp
    · have := ih h
      refine ⟨by omega, by simp; omega, List.mem_cons_of_mem _ this.2.2⟩

theorem cellsFrom_rising (vs : List α) (a : Nat) :
    ((cellsFrom a vs).map Prod.fst).Pairwise (· < ·) := by
  induction vs generalizing a with
  | nil => simp [cellsFrom]
  | cons v vs ih =>
    simp only [cellsFrom, List.map_cons, List.pairwise_cons]
    refine ⟨?_, ih (a + 1)⟩
    intro x hx
    obtain ⟨c, hc, rfl⟩ := List.mem_map.1 hx
    have := mem_cellsFrom hc
    omega

theorem Memory.wf_unspecified (e : Nat) : (Memory.unspecified e : Memory α).wf := List.Pairwise.nil

/-- `MemWrite` keeps the canonical form. -/
theorem Memory.wf_writeRange {m : Memory α} (h : m.wf) (a : Nat) (vs : List α) : (m.writeRange a vs).wf := by
  have hf : ∀ p : Nat × α → Bool, ((m.cells.filter p).map Prod.fst).Pairwise (· < ·) := fun p =>
    List.Pairwise.sublist (List.Sublist.map _ List.filter_sublist) h
  simp only [Memory.wf, Memory.writeRange, List.map_append]
  rw [List.pairwise_append, List.pairwise_append]
  refine ⟨⟨hf _, cellsFrom_rising vs a, ?_⟩, hf _, ?_⟩
  · intro x hx y hy
    obtain ⟨c, hc, rfl⟩ := List.mem_map.1 hx
    obtain ⟨d, hd, rfl⟩ := List.mem_map.1 hy
    have h1 := (List.mem_filter.1 hc).2
    have h2 := mem_cellsFrom hd
    simp at h1; omega
  · intro x hx y hy
    obtain ⟨d, hd, rfl⟩ := List.mem_map.1 hy
    have h2 := (List.mem_filter.1 hd).2
    simp at h2
    rcases List.mem_append.1 hx with hx | hx
    · obtain ⟨c, hc, rfl⟩ := List.mem_map.1 hx
      have h1 := (List.mem_filter.1 hc).2
      simp at h1; omega
    · obtain ⟨c, hc, rfl⟩ := List.mem_map.1 hx
      have h1 := mem_cellsFrom hc
      omega

/-- `MemWrite` inside a bound keeps the entries below it. -/
theorem Memory.below_writeRange {m : Memory α} {n : Nat} (h : m.below n) (a : Nat) (vs : List α)
    (hn : a + vs.length ≤ n) : (m.writeRange a vs).below n := by
  intro c hc
  simp only [Memory.writeRange, List.mem_append, List.mem_filter] at hc
  rcases hc with (hc | hc) | hc
  · exact h c hc.1
  · have := mem_cellsFrom hc; omega
  · exact h c hc.1

theorem Memory.below_unspecified (e n : Nat) : (Memory.unspecified e : Memory α).below n := by
  intro c hc; simp at hc

/-- The cells after `MemWrite` come from the old ones or from the values written. -/
theorem Memory.mem_writeRange {m : Memory α} {a : Nat} {vs : List α} {c : Nat × α}
    (h : c ∈ (m.writeRange a vs).cells) : c ∈ m.cells ∨ c.2 ∈ vs := by
  simp only [Memory.writeRange, List.mem_append, List.mem_filter] at h
  rcases h with (h | h) | h
  · exact .inl h.1
  · exact .inr (mem_cellsFrom h).2.2
  · exact .inl h.1

@[simp] theorem State.readSrc_length (s : State) (a n : Nat) : (s.readSrc a n).length = n := by
  simp [State.readSrc]

@[simp] theorem State.readDst_length (s : State) (a n : Nat) : (s.readDst a n).length = n := by
  simp [State.readDst]

@[simp] theorem State.source_length (s : State) : s.source.length = s.srcLen := by simp [State.source]

end Sys2Proof.Machine
end

