-- ==== Sys2Proof/Laws/State.lean ====
section
/-! SUPPORT. What each update of the state leaves in each field: one lemma per field per update, by rfl. -/

namespace Sys2Proof.Machine

open Sys2Proof

variable (s : State)

/-! ### State.writeDst -/

@[simp] theorem State.writeDst_inst (a : Nat) (bs : List Byte) : (s.writeDst a bs).inst = s.inst := rfl
@[simp] theorem State.writeDst_cmd (a : Nat) (bs : List Byte) : (s.writeDst a bs).cmd = s.cmd := rfl
@[simp] theorem State.writeDst_status (a : Nat) (bs : List Byte) : (s.writeDst a bs).status = s.status := rfl
@[simp] theorem State.writeDst_cfg (a : Nat) (bs : List Byte) : (s.writeDst a bs).cfg = s.cfg := rfl
@[simp] theorem State.writeDst_srcLen (a : Nat) (bs : List Byte) : (s.writeDst a bs).srcLen = s.srcLen := rfl
@[simp] theorem State.writeDst_dstCap (a : Nat) (bs : List Byte) : (s.writeDst a bs).dstCap = s.dstCap := rfl
@[simp] theorem State.writeDst_blkN (a : Nat) (bs : List Byte) : (s.writeDst a bs).blkN = s.blkN := rfl
@[simp] theorem State.writeDst_result (a : Nat) (bs : List Byte) : (s.writeDst a bs).result = s.result := rfl
@[simp] theorem State.writeDst_handle (a : Nat) (bs : List Byte) : (s.writeDst a bs).handle = s.handle := rfl
@[simp] theorem State.writeDst_lastRare (a : Nat) (bs : List Byte) : (s.writeDst a bs).lastRare = s.lastRare := rfl
@[simp] theorem State.writeDst_pmf (a : Nat) (bs : List Byte) : (s.writeDst a bs).pmf = s.pmf := rfl
@[simp] theorem State.writeDst_src (a : Nat) (bs : List Byte) : (s.writeDst a bs).src = s.src := rfl
@[simp] theorem State.writeDst_dst (a : Nat) (bs : List Byte) : (s.writeDst a bs).dst = s.dst.writeRange a bs := rfl
@[simp] theorem State.writeDst_alpha (a : Nat) (bs : List Byte) : (s.writeDst a bs).alpha = s.alpha := rfl
@[simp] theorem State.writeDst_s2m (a : Nat) (bs : List Byte) : (s.writeDst a bs).s2m = s.s2m := rfl
@[simp] theorem State.writeDst_dict (a : Nat) (bs : List Byte) : (s.writeDst a bs).dict = s.dict := rfl
@[simp] theorem State.writeDst_jump (a : Nat) (bs : List Byte) : (s.writeDst a bs).jump = s.jump := rfl
@[simp] theorem State.writeDst_dec (a : Nat) (bs : List Byte) : (s.writeDst a bs).dec = s.dec := rfl
@[simp] theorem State.writeDst_rare (a : Nat) (bs : List Byte) : (s.writeDst a bs).rare = s.rare := rfl
@[simp] theorem State.writeDst_enc (a : Nat) (bs : List Byte) : (s.writeDst a bs).enc = s.enc := rfl
@[simp] theorem State.writeDst_decr (a : Nat) (bs : List Byte) : (s.writeDst a bs).decr = s.decr := rfl
@[simp] theorem State.writeDst_host (a : Nat) (bs : List Byte) : (s.writeDst a bs).host = s.host := rfl
@[simp] theorem State.writeDst_reply (a : Nat) (bs : List Byte) : (s.writeDst a bs).reply = s.reply := rfl
@[simp] theorem State.writeDst_fresh (a : Nat) (bs : List Byte) : (s.writeDst a bs).fresh = s.fresh := rfl

/-! ### State.leaveDst -/

@[simp] theorem State.leaveDst_inst (bs : List Byte) : (s.leaveDst bs).inst = s.inst := rfl
@[simp] theorem State.leaveDst_cmd (bs : List Byte) : (s.leaveDst bs).cmd = s.cmd := rfl
@[simp] theorem State.leaveDst_status (bs : List Byte) : (s.leaveDst bs).status = s.status := rfl
@[simp] theorem State.leaveDst_cfg (bs : List Byte) : (s.leaveDst bs).cfg = s.cfg := rfl
@[simp] theorem State.leaveDst_srcLen (bs : List Byte) : (s.leaveDst bs).srcLen = s.srcLen := rfl
@[simp] theorem State.leaveDst_dstCap (bs : List Byte) : (s.leaveDst bs).dstCap = s.dstCap := rfl
@[simp] theorem State.leaveDst_blkN (bs : List Byte) : (s.leaveDst bs).blkN = s.blkN := rfl
@[simp] theorem State.leaveDst_result (bs : List Byte) : (s.leaveDst bs).result = s.result := rfl
@[simp] theorem State.leaveDst_handle (bs : List Byte) : (s.leaveDst bs).handle = s.handle := rfl
@[simp] theorem State.leaveDst_lastRare (bs : List Byte) : (s.leaveDst bs).lastRare = s.lastRare := rfl
@[simp] theorem State.leaveDst_pmf (bs : List Byte) : (s.leaveDst bs).pmf = s.pmf := rfl
@[simp] theorem State.leaveDst_src (bs : List Byte) : (s.leaveDst bs).src = s.src := rfl
@[simp] theorem State.leaveDst_dst (bs : List Byte) : (s.leaveDst bs).dst = .filled s.fresh bs := rfl
@[simp] theorem State.leaveDst_alpha (bs : List Byte) : (s.leaveDst bs).alpha = s.alpha := rfl
@[simp] theorem State.leaveDst_s2m (bs : List Byte) : (s.leaveDst bs).s2m = s.s2m := rfl
@[simp] theorem State.leaveDst_dict (bs : List Byte) : (s.leaveDst bs).dict = s.dict := rfl
@[simp] theorem State.leaveDst_jump (bs : List Byte) : (s.leaveDst bs).jump = s.jump := rfl
@[simp] theorem State.leaveDst_dec (bs : List Byte) : (s.leaveDst bs).dec = s.dec := rfl
@[simp] theorem State.leaveDst_rare (bs : List Byte) : (s.leaveDst bs).rare = s.rare := rfl
@[simp] theorem State.leaveDst_enc (bs : List Byte) : (s.leaveDst bs).enc = s.enc := rfl
@[simp] theorem State.leaveDst_decr (bs : List Byte) : (s.leaveDst bs).decr = s.decr := rfl
@[simp] theorem State.leaveDst_host (bs : List Byte) : (s.leaveDst bs).host = s.host := rfl
@[simp] theorem State.leaveDst_reply (bs : List Byte) : (s.leaveDst bs).reply = s.reply := rfl
@[simp] theorem State.leaveDst_fresh (bs : List Byte) : (s.leaveDst bs).fresh = s.fresh + 1 := rfl

/-! ### State.startBlock -/

@[simp] theorem State.startBlock_inst : (s.startBlock).inst = s.inst := rfl
@[simp] theorem State.startBlock_cmd : (s.startBlock).cmd = s.cmd := rfl
@[simp] theorem State.startBlock_status : (s.startBlock).status = s.status := rfl
@[simp] theorem State.startBlock_cfg : (s.startBlock).cfg = s.cfg := rfl
@[simp] theorem State.startBlock_srcLen : (s.startBlock).srcLen = s.srcLen := rfl
@[simp] theorem State.startBlock_dstCap : (s.startBlock).dstCap = s.dstCap := rfl
@[simp] theorem State.startBlock_blkN : (s.startBlock).blkN = s.blkN := rfl
@[simp] theorem State.startBlock_result : (s.startBlock).result = s.result := rfl
@[simp] theorem State.startBlock_handle : (s.startBlock).handle = s.handle := rfl
@[simp] theorem State.startBlock_lastRare : (s.startBlock).lastRare = s.lastRare := rfl
@[simp] theorem State.startBlock_pmf : (s.startBlock).pmf = s.pmf := rfl
@[simp] theorem State.startBlock_src : (s.startBlock).src = s.src := rfl
@[simp] theorem State.startBlock_dst : (s.startBlock).dst = s.dst := rfl
@[simp] theorem State.startBlock_alpha : (s.startBlock).alpha = s.alpha := rfl
@[simp] theorem State.startBlock_s2m : (s.startBlock).s2m = s.s2m := rfl
@[simp] theorem State.startBlock_dict : (s.startBlock).dict = s.dict := rfl
@[simp] theorem State.startBlock_jump : (s.startBlock).jump = s.jump := rfl
@[simp] theorem State.startBlock_dec : (s.startBlock).dec = s.dec := rfl
@[simp] theorem State.startBlock_rare : (s.startBlock).rare = s.rare := rfl
@[simp] theorem State.startBlock_enc : (s.startBlock).enc = { EncRegs.zero with j := s.handle.start } := rfl
@[simp] theorem State.startBlock_decr : (s.startBlock).decr = DecRegs.zero := rfl
@[simp] theorem State.startBlock_host : (s.startBlock).host = s.host := rfl
@[simp] theorem State.startBlock_reply : (s.startBlock).reply = s.reply := rfl
@[simp] theorem State.startBlock_fresh : (s.startBlock).fresh = s.fresh := rfl

/-! ### State.freeDst -/

@[simp] theorem State.freeDst_inst (lo hi : Nat) : (s.freeDst lo hi).inst = s.inst := rfl
@[simp] theorem State.freeDst_cmd (lo hi : Nat) : (s.freeDst lo hi).cmd = s.cmd := rfl
@[simp] theorem State.freeDst_status (lo hi : Nat) : (s.freeDst lo hi).status = s.status := rfl
@[simp] theorem State.freeDst_cfg (lo hi : Nat) : (s.freeDst lo hi).cfg = s.cfg := rfl
@[simp] theorem State.freeDst_srcLen (lo hi : Nat) : (s.freeDst lo hi).srcLen = s.srcLen := rfl
@[simp] theorem State.freeDst_dstCap (lo hi : Nat) : (s.freeDst lo hi).dstCap = s.dstCap := rfl
@[simp] theorem State.freeDst_blkN (lo hi : Nat) : (s.freeDst lo hi).blkN = s.blkN := rfl
@[simp] theorem State.freeDst_result (lo hi : Nat) : (s.freeDst lo hi).result = s.result := rfl
@[simp] theorem State.freeDst_handle (lo hi : Nat) : (s.freeDst lo hi).handle = s.handle := rfl
@[simp] theorem State.freeDst_lastRare (lo hi : Nat) : (s.freeDst lo hi).lastRare = s.lastRare := rfl
@[simp] theorem State.freeDst_pmf (lo hi : Nat) : (s.freeDst lo hi).pmf = s.pmf := rfl
@[simp] theorem State.freeDst_src (lo hi : Nat) : (s.freeDst lo hi).src = s.src := rfl
@[simp] theorem State.freeDst_dst (lo hi : Nat) : (s.freeDst lo hi).dst = s.dst.writeRange lo ((List.range (hi - lo)).map fun k => Config.freeByte .dst s.fresh (lo + k)) := rfl
@[simp] theorem State.freeDst_alpha (lo hi : Nat) : (s.freeDst lo hi).alpha = s.alpha := rfl
@[simp] theorem State.freeDst_s2m (lo hi : Nat) : (s.freeDst lo hi).s2m = s.s2m := rfl
@[simp] theorem State.freeDst_dict (lo hi : Nat) : (s.freeDst lo hi).dict = s.dict := rfl
@[simp] theorem State.freeDst_jump (lo hi : Nat) : (s.freeDst lo hi).jump = s.jump := rfl
@[simp] theorem State.freeDst_dec (lo hi : Nat) : (s.freeDst lo hi).dec = s.dec := rfl
@[simp] theorem State.freeDst_rare (lo hi : Nat) : (s.freeDst lo hi).rare = s.rare := rfl
@[simp] theorem State.freeDst_enc (lo hi : Nat) : (s.freeDst lo hi).enc = s.enc := rfl
@[simp] theorem State.freeDst_decr (lo hi : Nat) : (s.freeDst lo hi).decr = s.decr := rfl
@[simp] theorem State.freeDst_host (lo hi : Nat) : (s.freeDst lo hi).host = s.host := rfl
@[simp] theorem State.freeDst_reply (lo hi : Nat) : (s.freeDst lo hi).reply = s.reply := rfl
@[simp] theorem State.freeDst_fresh (lo hi : Nat) : (s.freeDst lo hi).fresh = s.fresh + 1 := rfl

/-! ### State.dropHandle -/

@[simp] theorem State.dropHandle_inst : (s.dropHandle).inst = s.inst := rfl
@[simp] theorem State.dropHandle_cmd : (s.dropHandle).cmd = s.cmd := rfl
@[simp] theorem State.dropHandle_status : (s.dropHandle).status = { s.status with hvalid := false } := rfl
@[simp] theorem State.dropHandle_cfg : (s.dropHandle).cfg = s.cfg := rfl
@[simp] theorem State.dropHandle_srcLen : (s.dropHandle).srcLen = s.srcLen := rfl
@[simp] theorem State.dropHandle_dstCap : (s.dropHandle).dstCap = s.dstCap := rfl
@[simp] theorem State.dropHandle_blkN : (s.dropHandle).blkN = s.blkN := rfl
@[simp] theorem State.dropHandle_result : (s.dropHandle).result = s.result := rfl
@[simp] theorem State.dropHandle_handle : (s.dropHandle).handle = HandleRegs.zero := rfl
@[simp] theorem State.dropHandle_lastRare : (s.dropHandle).lastRare = s.lastRare := rfl
@[simp] theorem State.dropHandle_pmf : (s.dropHandle).pmf = s.pmf := rfl
@[simp] theorem State.dropHandle_src : (s.dropHandle).src = s.src := rfl
@[simp] theorem State.dropHandle_dst : (s.dropHandle).dst = s.dst := rfl
@[simp] theorem State.dropHandle_alpha : (s.dropHandle).alpha = .unspecified s.fresh := rfl
@[simp] theorem State.dropHandle_s2m : (s.dropHandle).s2m = .unspecified s.fresh := rfl
@[simp] theorem State.dropHandle_dict : (s.dropHandle).dict = .unspecified s.fresh := rfl
@[simp] theorem State.dropHandle_jump : (s.dropHandle).jump = .unspecified s.fresh := rfl
@[simp] theorem State.dropHandle_dec : (s.dropHandle).dec = .unspecified s.fresh := rfl
@[simp] theorem State.dropHandle_rare : (s.dropHandle).rare = s.rare := rfl
@[simp] theorem State.dropHandle_enc : (s.dropHandle).enc = s.enc := rfl
@[simp] theorem State.dropHandle_decr : (s.dropHandle).decr = s.decr := rfl
@[simp] theorem State.dropHandle_host : (s.dropHandle).host = s.host := rfl
@[simp] theorem State.dropHandle_reply : (s.dropHandle).reply = s.reply := rfl
@[simp] theorem State.dropHandle_fresh : (s.dropHandle).fresh = s.fresh + 1 := rfl

/-! ### State.finish -/

@[simp] theorem State.finish_inst (kind : FrameKind) (rawfb : Bool) (n : Nat) : (s.finish kind rawfb n).inst = s.inst := rfl
@[simp] theorem State.finish_cmd (kind : FrameKind) (rawfb : Bool) (n : Nat) : (s.finish kind rawfb n).cmd = s.cmd := rfl
@[simp] theorem State.finish_status (kind : FrameKind) (rawfb : Bool) (n : Nat) : (s.finish kind rawfb n).status = s.status.finished kind rawfb := rfl
@[simp] theorem State.finish_cfg (kind : FrameKind) (rawfb : Bool) (n : Nat) : (s.finish kind rawfb n).cfg = s.cfg := rfl
@[simp] theorem State.finish_srcLen (kind : FrameKind) (rawfb : Bool) (n : Nat) : (s.finish kind rawfb n).srcLen = s.srcLen := rfl
@[simp] theorem State.finish_dstCap (kind : FrameKind) (rawfb : Bool) (n : Nat) : (s.finish kind rawfb n).dstCap = s.dstCap := rfl
@[simp] theorem State.finish_blkN (kind : FrameKind) (rawfb : Bool) (n : Nat) : (s.finish kind rawfb n).blkN = s.blkN := rfl
@[simp] theorem State.finish_result (kind : FrameKind) (rawfb : Bool) (n : Nat) : (s.finish kind rawfb n).result = n := rfl
@[simp] theorem State.finish_handle (kind : FrameKind) (rawfb : Bool) (n : Nat) : (s.finish kind rawfb n).handle = s.handle := rfl
@[simp] theorem State.finish_lastRare (kind : FrameKind) (rawfb : Bool) (n : Nat) : (s.finish kind rawfb n).lastRare = s.lastRare := rfl
@[simp] theorem State.finish_pmf (kind : FrameKind) (rawfb : Bool) (n : Nat) : (s.finish kind rawfb n).pmf = s.pmf := rfl
@[simp] theorem State.finish_src (kind : FrameKind) (rawfb : Bool) (n : Nat) : (s.finish kind rawfb n).src = s.src := rfl
@[simp] theorem State.finish_dst (kind : FrameKind) (rawfb : Bool) (n : Nat) : (s.finish kind rawfb n).dst = s.dst := rfl
@[simp] theorem State.finish_alpha (kind : FrameKind) (rawfb : Bool) (n : Nat) : (s.finish kind rawfb n).alpha = s.alpha := rfl
@[simp] theorem State.finish_s2m (kind : FrameKind) (rawfb : Bool) (n : Nat) : (s.finish kind rawfb n).s2m = s.s2m := rfl
@[simp] theorem State.finish_dict (kind : FrameKind) (rawfb : Bool) (n : Nat) : (s.finish kind rawfb n).dict = s.dict := rfl
@[simp] theorem State.finish_jump (kind : FrameKind) (rawfb : Bool) (n : Nat) : (s.finish kind rawfb n).jump = s.jump := rfl
@[simp] theorem State.finish_dec (kind : FrameKind) (rawfb : Bool) (n : Nat) : (s.finish kind rawfb n).dec = s.dec := rfl
@[simp] theorem State.finish_rare (kind : FrameKind) (rawfb : Bool) (n : Nat) : (s.finish kind rawfb n).rare = s.rare := rfl
@[simp] theorem State.finish_enc (kind : FrameKind) (rawfb : Bool) (n : Nat) : (s.finish kind rawfb n).enc = s.enc := rfl
@[simp] theorem State.finish_decr (kind : FrameKind) (rawfb : Bool) (n : Nat) : (s.finish kind rawfb n).decr = s.decr := rfl
@[simp] theorem State.finish_host (kind : FrameKind) (rawfb : Bool) (n : Nat) : (s.finish kind rawfb n).host = s.host := rfl
@[simp] theorem State.finish_reply (kind : FrameKind) (rawfb : Bool) (n : Nat) : (s.finish kind rawfb n).reply = s.reply := rfl
@[simp] theorem State.finish_fresh (kind : FrameKind) (rawfb : Bool) (n : Nat) : (s.finish kind rawfb n).fresh = s.fresh := rfl

/-! ### State.raise -/

@[simp] theorem State.raise_inst (e : BlockError) : (s.raise e).inst = s.inst := rfl
@[simp] theorem State.raise_cmd (e : BlockError) : (s.raise e).cmd = s.cmd := rfl
@[simp] theorem State.raise_status (e : BlockError) : (s.raise e).status = s.status.failed e := rfl
@[simp] theorem State.raise_cfg (e : BlockError) : (s.raise e).cfg = s.cfg := rfl
@[simp] theorem State.raise_srcLen (e : BlockError) : (s.raise e).srcLen = s.srcLen := rfl
@[simp] theorem State.raise_dstCap (e : BlockError) : (s.raise e).dstCap = s.dstCap := rfl
@[simp] theorem State.raise_blkN (e : BlockError) : (s.raise e).blkN = s.blkN := rfl
@[simp] theorem State.raise_result (e : BlockError) : (s.raise e).result = 0 := rfl
@[simp] theorem State.raise_handle (e : BlockError) : (s.raise e).handle = s.handle := rfl
@[simp] theorem State.raise_lastRare (e : BlockError) : (s.raise e).lastRare = s.lastRare := rfl
@[simp] theorem State.raise_pmf (e : BlockError) : (s.raise e).pmf = s.pmf := rfl
@[simp] theorem State.raise_src (e : BlockError) : (s.raise e).src = s.src := rfl
@[simp] theorem State.raise_dst (e : BlockError) : (s.raise e).dst = s.dst := rfl
@[simp] theorem State.raise_alpha (e : BlockError) : (s.raise e).alpha = s.alpha := rfl
@[simp] theorem State.raise_s2m (e : BlockError) : (s.raise e).s2m = s.s2m := rfl
@[simp] theorem State.raise_dict (e : BlockError) : (s.raise e).dict = s.dict := rfl
@[simp] theorem State.raise_jump (e : BlockError) : (s.raise e).jump = s.jump := rfl
@[simp] theorem State.raise_dec (e : BlockError) : (s.raise e).dec = s.dec := rfl
@[simp] theorem State.raise_rare (e : BlockError) : (s.raise e).rare = s.rare := rfl
@[simp] theorem State.raise_enc (e : BlockError) : (s.raise e).enc = s.enc := rfl
@[simp] theorem State.raise_decr (e : BlockError) : (s.raise e).decr = s.decr := rfl
@[simp] theorem State.raise_host (e : BlockError) : (s.raise e).host = s.host := rfl
@[simp] theorem State.raise_reply (e : BlockError) : (s.raise e).reply = s.reply := rfl
@[simp] theorem State.raise_fresh (e : BlockError) : (s.raise e).fresh = s.fresh := rfl

/-! ### State.raiseBlock -/

@[simp] theorem State.raiseBlock_inst (e : BlockError) : (s.raiseBlock e).inst = s.inst := rfl
@[simp] theorem State.raiseBlock_cmd (e : BlockError) : (s.raiseBlock e).cmd = s.cmd := rfl
@[simp] theorem State.raiseBlock_status (e : BlockError) : (s.raiseBlock e).status = s.status.failed e := rfl
@[simp] theorem State.raiseBlock_cfg (e : BlockError) : (s.raiseBlock e).cfg = s.cfg := rfl
@[simp] theorem State.raiseBlock_srcLen (e : BlockError) : (s.raiseBlock e).srcLen = s.srcLen := rfl
@[simp] theorem State.raiseBlock_dstCap (e : BlockError) : (s.raiseBlock e).dstCap = s.dstCap := rfl
@[simp] theorem State.raiseBlock_blkN (e : BlockError) : (s.raiseBlock e).blkN = s.blkN := rfl
@[simp] theorem State.raiseBlock_result (e : BlockError) : (s.raiseBlock e).result = 0 := rfl
@[simp] theorem State.raiseBlock_handle (e : BlockError) : (s.raiseBlock e).handle = s.handle := rfl
@[simp] theorem State.raiseBlock_lastRare (e : BlockError) : (s.raiseBlock e).lastRare = 0 := rfl
@[simp] theorem State.raiseBlock_pmf (e : BlockError) : (s.raiseBlock e).pmf = s.pmf := rfl
@[simp] theorem State.raiseBlock_src (e : BlockError) : (s.raiseBlock e).src = s.src := rfl
@[simp] theorem State.raiseBlock_dst (e : BlockError) : (s.raiseBlock e).dst = s.dst := rfl
@[simp] theorem State.raiseBlock_alpha (e : BlockError) : (s.raiseBlock e).alpha = s.alpha := rfl
@[simp] theorem State.raiseBlock_s2m (e : BlockError) : (s.raiseBlock e).s2m = s.s2m := rfl
@[simp] theorem State.raiseBlock_dict (e : BlockError) : (s.raiseBlock e).dict = s.dict := rfl
@[simp] theorem State.raiseBlock_jump (e : BlockError) : (s.raiseBlock e).jump = s.jump := rfl
@[simp] theorem State.raiseBlock_dec (e : BlockError) : (s.raiseBlock e).dec = s.dec := rfl
@[simp] theorem State.raiseBlock_rare (e : BlockError) : (s.raiseBlock e).rare = s.rare := rfl
@[simp] theorem State.raiseBlock_enc (e : BlockError) : (s.raiseBlock e).enc = s.enc := rfl
@[simp] theorem State.raiseBlock_decr (e : BlockError) : (s.raiseBlock e).decr = s.decr := rfl
@[simp] theorem State.raiseBlock_host (e : BlockError) : (s.raiseBlock e).host = s.host := rfl
@[simp] theorem State.raiseBlock_reply (e : BlockError) : (s.raiseBlock e).reply = s.reply := rfl
@[simp] theorem State.raiseBlock_fresh (e : BlockError) : (s.raiseBlock e).fresh = s.fresh := rfl

/-! ### State.startCommand -/

@[simp] theorem State.startCommand_inst (w : Word32) : (s.startCommand w).inst = s.inst := rfl
@[simp] theorem State.startCommand_cmd (w : Word32) : (s.startCommand w).cmd = w := rfl
@[simp] theorem State.startCommand_status (w : Word32) : (s.startCommand w).status = s.status.started := rfl
@[simp] theorem State.startCommand_cfg (w : Word32) : (s.startCommand w).cfg = s.cfg := rfl
@[simp] theorem State.startCommand_srcLen (w : Word32) : (s.startCommand w).srcLen = s.srcLen := rfl
@[simp] theorem State.startCommand_dstCap (w : Word32) : (s.startCommand w).dstCap = s.dstCap := rfl
@[simp] theorem State.startCommand_blkN (w : Word32) : (s.startCommand w).blkN = s.blkN := rfl
@[simp] theorem State.startCommand_result (w : Word32) : (s.startCommand w).result = s.result := rfl
@[simp] theorem State.startCommand_handle (w : Word32) : (s.startCommand w).handle = s.handle := rfl
@[simp] theorem State.startCommand_lastRare (w : Word32) : (s.startCommand w).lastRare = s.lastRare := rfl
@[simp] theorem State.startCommand_pmf (w : Word32) : (s.startCommand w).pmf = s.pmf := rfl
@[simp] theorem State.startCommand_src (w : Word32) : (s.startCommand w).src = s.src := rfl
@[simp] theorem State.startCommand_dst (w : Word32) : (s.startCommand w).dst = s.dst := rfl
@[simp] theorem State.startCommand_alpha (w : Word32) : (s.startCommand w).alpha = s.alpha := rfl
@[simp] theorem State.startCommand_s2m (w : Word32) : (s.startCommand w).s2m = s.s2m := rfl
@[simp] theorem State.startCommand_dict (w : Word32) : (s.startCommand w).dict = s.dict := rfl
@[simp] theorem State.startCommand_jump (w : Word32) : (s.startCommand w).jump = s.jump := rfl
@[simp] theorem State.startCommand_dec (w : Word32) : (s.startCommand w).dec = s.dec := rfl
@[simp] theorem State.startCommand_rare (w : Word32) : (s.startCommand w).rare = s.rare := rfl
@[simp] theorem State.startCommand_enc (w : Word32) : (s.startCommand w).enc = s.enc := rfl
@[simp] theorem State.startCommand_decr (w : Word32) : (s.startCommand w).decr = s.decr := rfl
@[simp] theorem State.startCommand_host (w : Word32) : (s.startCommand w).host = s.host := rfl
@[simp] theorem State.startCommand_reply (w : Word32) : (s.startCommand w).reply = s.reply := rfl
@[simp] theorem State.startCommand_fresh (w : Word32) : (s.startCommand w).fresh = s.fresh := rfl

/-! ### State.withReply -/

@[simp] theorem State.withReply_inst (r : Option (HostValue ⊕ HostData)) : (s.withReply r).inst = s.inst := rfl
@[simp] theorem State.withReply_cmd (r : Option (HostValue ⊕ HostData)) : (s.withReply r).cmd = s.cmd := rfl
@[simp] theorem State.withReply_status (r : Option (HostValue ⊕ HostData)) : (s.withReply r).status = s.status := rfl
@[simp] theorem State.withReply_cfg (r : Option (HostValue ⊕ HostData)) : (s.withReply r).cfg = s.cfg := rfl
@[simp] theorem State.withReply_srcLen (r : Option (HostValue ⊕ HostData)) : (s.withReply r).srcLen = s.srcLen := rfl
@[simp] theorem State.withReply_dstCap (r : Option (HostValue ⊕ HostData)) : (s.withReply r).dstCap = s.dstCap := rfl
@[simp] theorem State.withReply_blkN (r : Option (HostValue ⊕ HostData)) : (s.withReply r).blkN = s.blkN := rfl
@[simp] theorem State.withReply_result (r : Option (HostValue ⊕ HostData)) : (s.withReply r).result = s.result := rfl
@[simp] theorem State.withReply_handle (r : Option (HostValue ⊕ HostData)) : (s.withReply r).handle = s.handle := rfl
@[simp] theorem State.withReply_lastRare (r : Option (HostValue ⊕ HostData)) : (s.withReply r).lastRare = s.lastRare := rfl
@[simp] theorem State.withReply_pmf (r : Option (HostValue ⊕ HostData)) : (s.withReply r).pmf = s.pmf := rfl
@[simp] theorem State.withReply_src (r : Option (HostValue ⊕ HostData)) : (s.withReply r).src = s.src := rfl
@[simp] theorem State.withReply_dst (r : Option (HostValue ⊕ HostData)) : (s.withReply r).dst = s.dst := rfl
@[simp] theorem State.withReply_alpha (r : Option (HostValue ⊕ HostData)) : (s.withReply r).alpha = s.alpha := rfl
@[simp] theorem State.withReply_s2m (r : Option (HostValue ⊕ HostData)) : (s.withReply r).s2m = s.s2m := rfl
@[simp] theorem State.withReply_dict (r : Option (HostValue ⊕ HostData)) : (s.withReply r).dict = s.dict := rfl
@[simp] theorem State.withReply_jump (r : Option (HostValue ⊕ HostData)) : (s.withReply r).jump = s.jump := rfl
@[simp] theorem State.withReply_dec (r : Option (HostValue ⊕ HostData)) : (s.withReply r).dec = s.dec := rfl
@[simp] theorem State.withReply_rare (r : Option (HostValue ⊕ HostData)) : (s.withReply r).rare = s.rare := rfl
@[simp] theorem State.withReply_enc (r : Option (HostValue ⊕ HostData)) : (s.withReply r).enc = s.enc := rfl
@[simp] theorem State.withReply_decr (r : Option (HostValue ⊕ HostData)) : (s.withReply r).decr = s.decr := rfl
@[simp] theorem State.withReply_host (r : Option (HostValue ⊕ HostData)) : (s.withReply r).host = s.host := rfl
@[simp] theorem State.withReply_reply (r : Option (HostValue ⊕ HostData)) : (s.withReply r).reply = r := rfl
@[simp] theorem State.withReply_fresh (r : Option (HostValue ⊕ HostData)) : (s.withReply r).fresh = s.fresh := rfl

/-! ### State.withEnc -/

@[simp] theorem State.withEnc_inst (w : EncWork) : (s.withEnc w).inst = s.inst := rfl
@[simp] theorem State.withEnc_cmd (w : EncWork) : (s.withEnc w).cmd = s.cmd := rfl
@[simp] theorem State.withEnc_status (w : EncWork) : (s.withEnc w).status = s.status := rfl
@[simp] theorem State.withEnc_cfg (w : EncWork) : (s.withEnc w).cfg = s.cfg := rfl
@[simp] theorem State.withEnc_srcLen (w : EncWork) : (s.withEnc w).srcLen = s.srcLen := rfl
@[simp] theorem State.withEnc_dstCap (w : EncWork) : (s.withEnc w).dstCap = s.dstCap := rfl
@[simp] theorem State.withEnc_blkN (w : EncWork) : (s.withEnc w).blkN = s.blkN := rfl
@[simp] theorem State.withEnc_result (w : EncWork) : (s.withEnc w).result = s.result := rfl
@[simp] theorem State.withEnc_handle (w : EncWork) : (s.withEnc w).handle = s.handle := rfl
@[simp] theorem State.withEnc_lastRare (w : EncWork) : (s.withEnc w).lastRare = s.lastRare := rfl
@[simp] theorem State.withEnc_pmf (w : EncWork) : (s.withEnc w).pmf = s.pmf := rfl
@[simp] theorem State.withEnc_src (w : EncWork) : (s.withEnc w).src = s.src := rfl
@[simp] theorem State.withEnc_dst (w : EncWork) : (s.withEnc w).dst = s.dst := rfl
@[simp] theorem State.withEnc_alpha (w : EncWork) : (s.withEnc w).alpha = s.alpha := rfl
@[simp] theorem State.withEnc_s2m (w : EncWork) : (s.withEnc w).s2m = s.s2m := rfl
@[simp] theorem State.withEnc_dict (w : EncWork) : (s.withEnc w).dict = s.dict := rfl
@[simp] theorem State.withEnc_jump (w : EncWork) : (s.withEnc w).jump = s.jump := rfl
@[simp] theorem State.withEnc_dec (w : EncWork) : (s.withEnc w).dec = s.dec := rfl
@[simp] theorem State.withEnc_rare (w : EncWork) : (s.withEnc w).rare = w.rare := rfl
@[simp] theorem State.withEnc_enc (w : EncWork) : (s.withEnc w).enc = w.regs := rfl
@[simp] theorem State.withEnc_decr (w : EncWork) : (s.withEnc w).decr = s.decr := rfl
@[simp] theorem State.withEnc_host (w : EncWork) : (s.withEnc w).host = s.host := rfl
@[simp] theorem State.withEnc_reply (w : EncWork) : (s.withEnc w).reply = s.reply := rfl
@[simp] theorem State.withEnc_fresh (w : EncWork) : (s.withEnc w).fresh = s.fresh := rfl

/-! ### State.commit -/

@[simp] theorem State.commit_inst (b : BuildInput) (sh mws : Nat) (d : List DictWord) : (s.commit b sh mws d).inst = s.inst := rfl
@[simp] theorem State.commit_cmd (b : BuildInput) (sh mws : Nat) (d : List DictWord) : (s.commit b sh mws d).cmd = s.cmd := rfl
@[simp] theorem State.commit_status (b : BuildInput) (sh mws : Nat) (d : List DictWord) : (s.commit b sh mws d).status = { s.status with hvalid := true } := rfl
@[simp] theorem State.commit_cfg (b : BuildInput) (sh mws : Nat) (d : List DictWord) : (s.commit b sh mws d).cfg = s.cfg := rfl
@[simp] theorem State.commit_srcLen (b : BuildInput) (sh mws : Nat) (d : List DictWord) : (s.commit b sh mws d).srcLen = s.srcLen := rfl
@[simp] theorem State.commit_dstCap (b : BuildInput) (sh mws : Nat) (d : List DictWord) : (s.commit b sh mws d).dstCap = s.dstCap := rfl
@[simp] theorem State.commit_blkN (b : BuildInput) (sh mws : Nat) (d : List DictWord) : (s.commit b sh mws d).blkN = s.blkN := rfl
@[simp] theorem State.commit_result (b : BuildInput) (sh mws : Nat) (d : List DictWord) : (s.commit b sh mws d).result = s.result := rfl
@[simp] theorem State.commit_lastRare (b : BuildInput) (sh mws : Nat) (d : List DictWord) : (s.commit b sh mws d).lastRare = s.lastRare := rfl
@[simp] theorem State.commit_pmf (b : BuildInput) (sh mws : Nat) (d : List DictWord) : (s.commit b sh mws d).pmf = s.pmf := rfl
@[simp] theorem State.commit_src (b : BuildInput) (sh mws : Nat) (d : List DictWord) : (s.commit b sh mws d).src = s.src := rfl
@[simp] theorem State.commit_dst (b : BuildInput) (sh mws : Nat) (d : List DictWord) : (s.commit b sh mws d).dst = s.dst := rfl
@[simp] theorem State.commit_alpha (b : BuildInput) (sh mws : Nat) (d : List DictWord) : (s.commit b sh mws d).alpha = s.alpha.writeRange 0 (b.alphabet sh).1 := rfl
@[simp] theorem State.commit_s2m (b : BuildInput) (sh mws : Nat) (d : List DictWord) : (s.commit b sh mws d).s2m = s.s2m.writeRange 0 (s2mBuild (b.alphabet sh).1 sh) := rfl
@[simp] theorem State.commit_dict (b : BuildInput) (sh mws : Nat) (d : List DictWord) : (s.commit b sh mws d).dict = s.dict.writeRange 0 d := rfl
@[simp] theorem State.commit_jump (b : BuildInput) (sh mws : Nat) (d : List DictWord) : (s.commit b sh mws d).jump = s.jump.writeRange 0 (jumpRows b.k b.o (b.alphabet sh).1.length d).flatten := rfl
@[simp] theorem State.commit_dec (b : BuildInput) (sh mws : Nat) (d : List DictWord) : (s.commit b sh mws d).dec = s.dec.writeRange 0 (decBuild (b.alphabet sh).1 mws d) := rfl
@[simp] theorem State.commit_rare (b : BuildInput) (sh mws : Nat) (d : List DictWord) : (s.commit b sh mws d).rare = s.rare := rfl
@[simp] theorem State.commit_enc (b : BuildInput) (sh mws : Nat) (d : List DictWord) : (s.commit b sh mws d).enc = s.enc := rfl
@[simp] theorem State.commit_decr (b : BuildInput) (sh mws : Nat) (d : List DictWord) : (s.commit b sh mws d).decr = s.decr := rfl
@[simp] theorem State.commit_host (b : BuildInput) (sh mws : Nat) (d : List DictWord) : (s.commit b sh mws d).host = s.host := rfl
@[simp] theorem State.commit_reply (b : BuildInput) (sh mws : Nat) (d : List DictWord) : (s.commit b sh mws d).reply = s.reply := rfl
@[simp] theorem State.commit_fresh (b : BuildInput) (sh mws : Nat) (d : List DictWord) : (s.commit b sh mws d).fresh = s.fresh := rfl

/-! ### endEncode -/

@[simp] theorem endEncode_inst (frame : List Byte) (kind : FrameKind) (rawfb : Bool) (rare : Nat) : (endEncode s frame kind rawfb rare).inst = s.inst := rfl
@[simp] theorem endEncode_cmd (frame : List Byte) (kind : FrameKind) (rawfb : Bool) (rare : Nat) : (endEncode s frame kind rawfb rare).cmd = s.cmd := rfl
@[simp] theorem endEncode_status (frame : List Byte) (kind : FrameKind) (rawfb : Bool) (rare : Nat) : (endEncode s frame kind rawfb rare).status = s.status.finished kind rawfb := rfl
@[simp] theorem endEncode_cfg (frame : List Byte) (kind : FrameKind) (rawfb : Bool) (rare : Nat) : (endEncode s frame kind rawfb rare).cfg = s.cfg := rfl
@[simp] theorem endEncode_srcLen (frame : List Byte) (kind : FrameKind) (rawfb : Bool) (rare : Nat) : (endEncode s frame kind rawfb rare).srcLen = s.srcLen := rfl
@[simp] theorem endEncode_dstCap (frame : List Byte) (kind : FrameKind) (rawfb : Bool) (rare : Nat) : (endEncode s frame kind rawfb rare).dstCap = s.dstCap := rfl
@[simp] theorem endEncode_blkN (frame : List Byte) (kind : FrameKind) (rawfb : Bool) (rare : Nat) : (endEncode s frame kind rawfb rare).blkN = s.blkN := rfl
@[simp] theorem endEncode_result (frame : List Byte) (kind : FrameKind) (rawfb : Bool) (rare : Nat) : (endEncode s frame kind rawfb rare).result = frame.length := rfl
@[simp] theorem endEncode_handle (frame : List Byte) (kind : FrameKind) (rawfb : Bool) (rare : Nat) : (endEncode s frame kind rawfb rare).handle = s.handle := rfl
@[simp] theorem endEncode_lastRare (frame : List Byte) (kind : FrameKind) (rawfb : Bool) (rare : Nat) : (endEncode s frame kind rawfb rare).lastRare = BitVec.ofNat 8 rare := rfl
@[simp] theorem endEncode_pmf (frame : List Byte) (kind : FrameKind) (rawfb : Bool) (rare : Nat) : (endEncode s frame kind rawfb rare).pmf = s.pmf := rfl
@[simp] theorem endEncode_src (frame : List Byte) (kind : FrameKind) (rawfb : Bool) (rare : Nat) : (endEncode s frame kind rawfb rare).src = s.src := rfl
@[simp] theorem endEncode_dst (frame : List Byte) (kind : FrameKind) (rawfb : Bool) (rare : Nat) : (endEncode s frame kind rawfb rare).dst = .filled s.fresh frame := rfl
@[simp] theorem endEncode_alpha (frame : List Byte) (kind : FrameKind) (rawfb : Bool) (rare : Nat) : (endEncode s frame kind rawfb rare).alpha = s.alpha := rfl
@[simp] theorem endEncode_s2m (frame : List Byte) (kind : FrameKind) (rawfb : Bool) (rare : Nat) : (endEncode s frame kind rawfb rare).s2m = s.s2m := rfl
@[simp] theorem endEncode_dict (frame : List Byte) (kind : FrameKind) (rawfb : Bool) (rare : Nat) : (endEncode s frame kind rawfb rare).dict = s.dict := rfl
@[simp] theorem endEncode_jump (frame : List Byte) (kind : FrameKind) (rawfb : Bool) (rare : Nat) : (endEncode s frame kind rawfb rare).jump = s.jump := rfl
@[simp] theorem endEncode_dec (frame : List Byte) (kind : FrameKind) (rawfb : Bool) (rare : Nat) : (endEncode s frame kind rawfb rare).dec = s.dec := rfl
@[simp] theorem endEncode_rare (frame : List Byte) (kind : FrameKind) (rawfb : Bool) (rare : Nat) : (endEncode s frame kind rawfb rare).rare = s.rare := rfl
@[simp] theorem endEncode_enc (frame : List Byte) (kind : FrameKind) (rawfb : Bool) (rare : Nat) : (endEncode s frame kind rawfb rare).enc = s.enc := rfl
@[simp] theorem endEncode_decr (frame : List Byte) (kind : FrameKind) (rawfb : Bool) (rare : Nat) : (endEncode s frame kind rawfb rare).decr = s.decr := rfl
@[simp] theorem endEncode_host (frame : List Byte) (kind : FrameKind) (rawfb : Bool) (rare : Nat) : (endEncode s frame kind rawfb rare).host = s.host := rfl
@[simp] theorem endEncode_reply (frame : List Byte) (kind : FrameKind) (rawfb : Bool) (rare : Nat) : (endEncode s frame kind rawfb rare).reply = s.reply := rfl
@[simp] theorem endEncode_fresh (frame : List Byte) (kind : FrameKind) (rawfb : Bool) (rare : Nat) : (endEncode s frame kind rawfb rare).fresh = s.fresh + 1 := rfl

/-! ### endDecode -/

@[simp] theorem endDecode_inst (block : List Byte) (kind : FrameKind) (rare : Nat) : (endDecode s block kind rare).inst = s.inst := rfl
@[simp] theorem endDecode_cmd (block : List Byte) (kind : FrameKind) (rare : Nat) : (endDecode s block kind rare).cmd = s.cmd := rfl
@[simp] theorem endDecode_status (block : List Byte) (kind : FrameKind) (rare : Nat) : (endDecode s block kind rare).status = s.status.finished kind false := rfl
@[simp] theorem endDecode_cfg (block : List Byte) (kind : FrameKind) (rare : Nat) : (endDecode s block kind rare).cfg = s.cfg := rfl
@[simp] theorem endDecode_srcLen (block : List Byte) (kind : FrameKind) (rare : Nat) : (endDecode s block kind rare).srcLen = s.srcLen := rfl
@[simp] theorem endDecode_dstCap (block : List Byte) (kind : FrameKind) (rare : Nat) : (endDecode s block kind rare).dstCap = s.dstCap := rfl
@[simp] theorem endDecode_blkN (block : List Byte) (kind : FrameKind) (rare : Nat) : (endDecode s block kind rare).blkN = s.blkN := rfl
@[simp] theorem endDecode_result (block : List Byte) (kind : FrameKind) (rare : Nat) : (endDecode s block kind rare).result = s.blkN := rfl
@[simp] theorem endDecode_handle (block : List Byte) (kind : FrameKind) (rare : Nat) : (endDecode s block kind rare).handle = s.handle := rfl
@[simp] theorem endDecode_lastRare (block : List Byte) (kind : FrameKind) (rare : Nat) : (endDecode s block kind rare).lastRare = BitVec.ofNat 8 rare := rfl
@[simp] theorem endDecode_pmf (block : List Byte) (kind : FrameKind) (rare : Nat) : (endDecode s block kind rare).pmf = s.pmf := rfl
@[simp] theorem endDecode_src (block : List Byte) (kind : FrameKind) (rare : Nat) : (endDecode s block kind rare).src = s.src := rfl
@[simp] theorem endDecode_dst (block : List Byte) (kind : FrameKind) (rare : Nat) : (endDecode s block kind rare).dst = s.dst.writeRange 0 block := rfl
@[simp] theorem endDecode_alpha (block : List Byte) (kind : FrameKind) (rare : Nat) : (endDecode s block kind rare).alpha = s.alpha := rfl
@[simp] theorem endDecode_s2m (block : List Byte) (kind : FrameKind) (rare : Nat) : (endDecode s block kind rare).s2m = s.s2m := rfl
@[simp] theorem endDecode_dict (block : List Byte) (kind : FrameKind) (rare : Nat) : (endDecode s block kind rare).dict = s.dict := rfl
@[simp] theorem endDecode_jump (block : List Byte) (kind : FrameKind) (rare : Nat) : (endDecode s block kind rare).jump = s.jump := rfl
@[simp] theorem endDecode_dec (block : List Byte) (kind : FrameKind) (rare : Nat) : (endDecode s block kind rare).dec = s.dec := rfl
@[simp] theorem endDecode_rare (block : List Byte) (kind : FrameKind) (rare : Nat) : (endDecode s block kind rare).rare = s.rare := rfl
@[simp] theorem endDecode_enc (block : List Byte) (kind : FrameKind) (rare : Nat) : (endDecode s block kind rare).enc = s.enc := rfl
@[simp] theorem endDecode_decr (block : List Byte) (kind : FrameKind) (rare : Nat) : (endDecode s block kind rare).decr = s.decr := rfl
@[simp] theorem endDecode_host (block : List Byte) (kind : FrameKind) (rare : Nat) : (endDecode s block kind rare).host = s.host := rfl
@[simp] theorem endDecode_reply (block : List Byte) (kind : FrameKind) (rare : Nat) : (endDecode s block kind rare).reply = s.reply := rfl
@[simp] theorem endDecode_fresh (block : List Byte) (kind : FrameKind) (rare : Nat) : (endDecode s block kind rare).fresh = s.fresh := rfl

/-! ### frameError -/

@[simp] theorem frameError_inst (c : FrameCause) : (frameError s c).inst = s.inst := rfl
@[simp] theorem frameError_cmd (c : FrameCause) : (frameError s c).cmd = s.cmd := rfl
@[simp] theorem frameError_status (c : FrameCause) : (frameError s c).status = s.status.failed (.frame c) := rfl
@[simp] theorem frameError_cfg (c : FrameCause) : (frameError s c).cfg = s.cfg := rfl
@[simp] theorem frameError_srcLen (c : FrameCause) : (frameError s c).srcLen = s.srcLen := rfl
@[simp] theorem frameError_dstCap (c : FrameCause) : (frameError s c).dstCap = s.dstCap := rfl
@[simp] theorem frameError_blkN (c : FrameCause) : (frameError s c).blkN = s.blkN := rfl
@[simp] theorem frameError_result (c : FrameCause) : (frameError s c).result = 0 := rfl
@[simp] theorem frameError_handle (c : FrameCause) : (frameError s c).handle = s.handle := rfl
@[simp] theorem frameError_lastRare (c : FrameCause) : (frameError s c).lastRare = 0 := rfl
@[simp] theorem frameError_pmf (c : FrameCause) : (frameError s c).pmf = s.pmf := rfl
@[simp] theorem frameError_src (c : FrameCause) : (frameError s c).src = s.src := rfl
@[simp] theorem frameError_alpha (c : FrameCause) : (frameError s c).alpha = s.alpha := rfl
@[simp] theorem frameError_s2m (c : FrameCause) : (frameError s c).s2m = s.s2m := rfl
@[simp] theorem frameError_dict (c : FrameCause) : (frameError s c).dict = s.dict := rfl
@[simp] theorem frameError_jump (c : FrameCause) : (frameError s c).jump = s.jump := rfl
@[simp] theorem frameError_dec (c : FrameCause) : (frameError s c).dec = s.dec := rfl
@[simp] theorem frameError_rare (c : FrameCause) : (frameError s c).rare = s.rare := rfl
@[simp] theorem frameError_enc (c : FrameCause) : (frameError s c).enc = s.enc := rfl
@[simp] theorem frameError_decr (c : FrameCause) : (frameError s c).decr = s.decr := rfl
@[simp] theorem frameError_host (c : FrameCause) : (frameError s c).host = s.host := rfl
@[simp] theorem frameError_reply (c : FrameCause) : (frameError s c).reply = s.reply := rfl
@[simp] theorem frameError_fresh (c : FrameCause) : (frameError s c).fresh = s.fresh + 1 := rfl

/-! ### What the start of a block leaves to be read -/

@[simp] theorem State.startBlock_hK : s.startBlock.hK = s.hK := rfl
@[simp] theorem State.startBlock_hO : s.startBlock.hO = s.hO := rfl
@[simp] theorem State.startBlock_hS : s.startBlock.hS = s.hS := rfl
@[simp] theorem State.startBlock_hA : s.startBlock.hA = s.hA := rfl
@[simp] theorem State.startBlock_hMws : s.startBlock.hMws = s.hMws := rfl
@[simp] theorem State.startBlock_flag : s.startBlock.flag = s.flag := rfl
@[simp] theorem State.startBlock_srcAt (a : Nat) : s.startBlock.srcAt a = s.srcAt a := rfl
@[simp] theorem State.startBlock_dstAt (a : Nat) : s.startBlock.dstAt a = s.dstAt a := rfl
@[simp] theorem State.startBlock_s2mAt (a : Nat) : s.startBlock.s2mAt a = s.s2mAt a := rfl
@[simp] theorem State.startBlock_jumpAt (a : Nat) : s.startBlock.jumpAt a = s.jumpAt a := rfl
@[simp] theorem State.startBlock_dictAt (a : Nat) : s.startBlock.dictAt a = s.dictAt a := rfl
@[simp] theorem State.startBlock_decAt (a : Nat) : s.startBlock.decAt a = s.decAt a := rfl
@[simp] theorem State.startBlock_alphaAt (a : Nat) : s.startBlock.alphaAt a = s.alphaAt a := rfl
@[simp] theorem State.startBlock_pmfAt (a : Nat) : s.startBlock.pmfAt a = s.pmfAt a := rfl
@[simp] theorem State.startBlock_readSrc (a n : Nat) : s.startBlock.readSrc a n = s.readSrc a n := rfl
@[simp] theorem State.startBlock_readDst (a n : Nat) : s.startBlock.readDst a n = s.readDst a n := rfl

/-! ### STATUS -/

variable (st : Status)

@[simp] theorem Status.started_busy : (st.started).busy = true := rfl
@[simp] theorem Status.started_done : (st.started).done = false := rfl
@[simp] theorem Status.started_report : (st.started).report = st.report := rfl
@[simp] theorem Status.started_hvalid : (st.started).hvalid = st.hvalid := rfl
@[simp] theorem Status.started_rawfb : (st.started).rawfb = st.rawfb := rfl
@[simp] theorem Status.started_kind : (st.started).kind = st.kind := rfl
@[simp] theorem Status.finished_busy (kind : FrameKind) (rawfb : Bool) : (st.finished kind rawfb).busy = false := rfl
@[simp] theorem Status.finished_done (kind : FrameKind) (rawfb : Bool) : (st.finished kind rawfb).done = true := rfl
@[simp] theorem Status.finished_report (kind : FrameKind) (rawfb : Bool) : (st.finished kind rawfb).report = none := rfl
@[simp] theorem Status.finished_hvalid (kind : FrameKind) (rawfb : Bool) : (st.finished kind rawfb).hvalid = st.hvalid := rfl
@[simp] theorem Status.finished_rawfb (kind : FrameKind) (rawfb : Bool) : (st.finished kind rawfb).rawfb = rawfb := rfl
@[simp] theorem Status.finished_kind (kind : FrameKind) (rawfb : Bool) : (st.finished kind rawfb).kind = kind := rfl
@[simp] theorem Status.failed_busy (e : BlockError) : (st.failed e).busy = false := rfl
@[simp] theorem Status.failed_done (e : BlockError) : (st.failed e).done = true := rfl
@[simp] theorem Status.failed_report (e : BlockError) : (st.failed e).report = some e := rfl
@[simp] theorem Status.failed_hvalid (e : BlockError) : (st.failed e).hvalid = st.hvalid := rfl
@[simp] theorem Status.failed_rawfb (e : BlockError) : (st.failed e).rawfb = false := rfl
@[simp] theorem Status.failed_kind (e : BlockError) : (st.failed e).kind = .none := rfl

end Sys2Proof.Machine
end

