-- ==== Sys2Proof/Laws/Ops.lean ====
section
/-! SUPPORT. What the shared operations do: buffers, plane and frame lengths, the bit register, the loops of
`ENCODE` and `DECODE`. -/

namespace Sys2Proof.Machine

open Sys2Proof

/-! ### Buffers -/

theorem State.dstAt_writeDst_inside (s : State) (a k : Nat) (bs : List Byte) (h : k < bs.length) :
    (s.writeDst a bs).dstAt (a + k) = bs[k] := Memory.read_writeRange_inside _ _ _ _ _ h

theorem State.dstAt_writeDst_outside (s : State) (a x : Nat) (bs : List Byte)
    (h : x < a ∨ a + bs.length ≤ x) : (s.writeDst a bs).dstAt x = s.dstAt x :=
  Memory.read_writeRange_outside _ _ _ _ _ h

theorem State.dstAt_freeDst_outside (s : State) (lo hi x : Nat) (h : x < lo ∨ (lo ≤ x ∧ hi ≤ x)) :
    (s.freeDst lo hi).dstAt x = s.dstAt x :=
  Memory.read_writeRange_outside _ _ _ _ _ (by simp; omega)

theorem State.readDst_writeDst (s : State) (bs : List Byte) : (s.writeDst 0 bs).readDst 0 bs.length = bs := by
  apply List.ext_getElem
  · simp
  · intro k h1 h2
    have := State.dstAt_writeDst_inside s 0 k bs h2
    simpa [State.readDst] using this

/-- A space filled from address 0 on: the values below, nothing known beyond. -/
theorem Memory.filled_below {α : Type} (epoch : Nat) (vs : List α) : (Memory.filled epoch vs).below vs.length := by
  have key : ∀ (vs : List α) (a : Nat), ∀ c ∈ cellsFrom a vs, c.1 < a + vs.length := by
    intro vs
    induction vs with
    | nil => intro a c hc; simp [cellsFrom] at hc
    | cons v vs ih =>
      intro a c hc
      rw [cellsFrom, List.mem_cons] at hc
      rcases hc with rfl | hc
      · simp
      · have := ih (a + 1) c hc
        simp only [List.length_cons]
        omega
  intro c hc
  have := key vs 0 c (by simpa [Memory.filled, Memory.writeRange, Memory.unspecified] using hc)
  simpa using this

theorem State.dstAt_leaveDst (s : State) (bs : List Byte) (k : Nat) (h : k < bs.length) :
    (s.leaveDst bs).dstAt k = bs[k] := by
  have := Memory.read_writeRange_inside (Config.freeByte .dst) (Memory.unspecified s.fresh) 0 bs k h
  rw [Nat.zero_add] at this
  exact this

/-- What `ENCODE` leaves in `DST`: the frame, and nothing known beyond it. -/
theorem dstAt_endEncode_inside (s : State) (frame : List Byte) (kind : FrameKind) (rawfb : Bool) (rare k : Nat)
    (h : k < frame.length) : (endEncode s frame kind rawfb rare).dstAt k = frame[k] :=
  State.dstAt_leaveDst s frame k h

theorem endEncode_below (s : State) (frame : List Byte) (kind : FrameKind) (rawfb : Bool) (rare : Nat) :
    (endEncode s frame kind rawfb rare).dst.below frame.length := Memory.filled_below _ _

theorem dstAt_endDecode_inside (s : State) (block : List Byte) (kind : FrameKind) (rare k : Nat)
    (h : k < block.length) : (endDecode s block kind rare).dstAt k = block[k] := by
  have h2 := State.dstAt_writeDst_inside s 0 k block h
  rw [Nat.zero_add] at h2
  exact h2

theorem dstAt_endDecode_outside (s : State) (block : List Byte) (kind : FrameKind) (rare a : Nat)
    (h : block.length ≤ a) : (endDecode s block kind rare).dstAt a = s.dstAt a :=
  State.dstAt_writeDst_outside s 0 a block (.inr (by simpa using h))

theorem dstAt_frameError_outside (s : State) (c : FrameCause) (a : Nat) (h : s.blkN ≤ a) :
    (frameError s c).dstAt a = s.dstAt a :=
  State.dstAt_freeDst_outside s 0 s.blkN a (.inr ⟨Nat.zero_le a, h⟩)

/-! ### The residual plane -/

@[simp] theorem pext8_length (g : List Byte) (s : Nat) : (pext8 g s).length = s := by simp [pext8]

@[simp] theorem pdep8_length (g pl : List Byte) (s : Nat) : (pdep8 g pl s).length = 8 := by simp [pdep8]

@[simp] theorem pextPlane_length (a : List Byte) (s : Nat) : (pextPlane a s).length = a.length / 8 * s := by
  simp [pextPlane, List.length_flatMap]

@[simp] theorem pdepPlane_length (d pl : List Byte) (s : Nat) :
    (pdepPlane d pl s).length = d.length / 8 * 8 := by
  simp [pdepPlane, List.length_flatMap]

theorem padOf_le (n : Nat) : padOf n ≤ n := Nat.mod_le n 8

theorem alignedOf_dvd (n : Nat) : 8 ∣ alignedOf n := by simp [alignedOf, padOf]; omega

theorem pad_add_aligned (n : Nat) : padOf n + alignedOf n = n := by
  have := padOf_le n; simp only [alignedOf]; omega

/-- The plane of a block of `n` bytes has `PL` bytes (30_encoding.md R100). -/
theorem planeLen_eq (n s : Nat) : planeLen n s = alignedOf n / 8 * s := by
  obtain ⟨q, hq⟩ := alignedOf_dvd n
  rw [planeLen, hq, Nat.mul_div_cancel_left q (by decide), Nat.mul_assoc,
    Nat.mul_div_cancel_left _ (by decide)]

/-! ### Little-endian numbers -/

@[simp] theorem leBytes_length (v n : Nat) : (leBytes v n).length = n := by
  induction n generalizing v with
  | zero => rfl
  | succ n ih => simp [leBytes, ih]

@[simp] theorem byteOf_toNat (n : Nat) : (byteOf n).toNat = n % 256 := by simp [byteOf]

theorem leNumber_leBytes (n v : Nat) : leNumber (leBytes v n) = v % 256 ^ n := by
  induction n generalizing v with
  | zero => simp [leBytes, leNumber, Nat.mod_one]
  | succ n ih =>
    rw [leBytes, leNumber, ih, byteOf_toNat, Nat.mod_mod, Nat.pow_succ, Nat.mul_comm (256 ^ n) 256,
      Nat.mod_mul]

/-! ### The bit register -/

/-- `EMIT` drains every whole byte: what it drains and what is left in `NBITS` (43_encode.md R210). -/
theorem drain_counts (v : BitVec 32) (n : Nat) :
    (drain (n / 8) v n).1.length = n / 8 ∧ (drain (n / 8) v n).2.2 = n % 8 := by
  have key : ∀ f v n, n / 8 = f → (drain f v n).1.length = f ∧ (drain f v n).2.2 = n % 8 := by
    intro f
    induction f with
    | zero => intro v n h; simp [drain]; omega
    | succ f ih =>
      intro v n h
      have hn : ¬ n < 8 := by omega
      have := ih (BitVec.ofNat 32 (v.toNat % 2 ^ (n - 8))) (n - 8) (by omega)
      simp only [drain, if_neg hn, List.length_cons]
      refine ⟨by omega, ?_⟩
      rw [this.2]; omega
  exact key _ v n rfl

theorem emit_nbits (k c : Nat) (w : EncWork) : (emit k c w).regs.nbits = (w.regs.nbits + k) % 8 :=
  (drain_counts _ _).2

theorem emit_nbits_lt (k c : Nat) (w : EncWork) : (emit k c w).regs.nbits < 8 := by
  rw [emit_nbits]; omega

theorem emit_ocur (k c : Nat) (w : EncWork) :
    (emit k c w).regs.ocur = w.regs.ocur + (w.regs.nbits + k) / 8 := by
  rw [← (drain_counts ((w.regs.val <<< k) ||| BitVec.ofNat 32 c) (w.regs.nbits + k)).1]; rfl

theorem emit_stream_length (k c : Nat) (w : EncWork) :
    (emit k c w).stream.length = w.stream.length + (w.regs.nbits + k) / 8 := by
  rw [← (drain_counts ((w.regs.val <<< k) ||| BitVec.ofNat 32 c) (w.regs.nbits + k)).1]
  simp [emit]

@[simp] theorem emit_rare (k c : Nat) (w : EncWork) : (emit k c w).rare = w.rare := rfl

@[simp] theorem emit_rcnt (k c : Nat) (w : EncWork) : (emit k c w).regs.rcnt = w.regs.rcnt := rfl

@[simp] theorem emit_icur (k c : Nat) (w : EncWork) : (emit k c w).regs.icur = w.regs.icur := rfl

@[simp] theorem emit_j (k c : Nat) (w : EncWork) : (emit k c w).regs.j = w.regs.j := rfl

/-! ### The Marlin loop -/

/-- Where a step or the whole loop of `ENCODE` has left its work, whichever way it goes on. -/
def Marlin.work : Marlin → EncWork
  | .go w => w
  | .toRaw w => w

/-- Say once what a step of the loop can do: give up with its work as it is, make a transition, or record a rare
byte while fewer than 255 are recorded and make the transition on symbol 0. -/
theorem encStep_cases (s : State) (pad budget : Nat) (x : Byte) (w : EncWork) :
    encStep s pad budget x w = .toRaw w ∨ (∃ m, encStep s pad budget x w = .go (encTransition s m w))
      ∨ (w.regs.rcnt ≠ 255 ∧ encStep s pad budget x w = .go (encTransition s 0 (recordRare pad x w))) := by
  unfold encStep
  by_cases h1 : (budget : Int) - w.regs.ocur < s.cfg.abortMargin
  · exact .inl (if_pos h1)
  rw [if_neg h1]
  by_cases h2 : s.s2mAt (x.toNat >>> s.hS) = s.hA
  · rw [if_pos h2]
    by_cases h3 : w.regs.rcnt = 255
    · exact .inl (if_pos h3)
    · exact .inr (.inr ⟨h3, if_neg h3⟩)
  · exact .inr (.inl ⟨_, if_neg h2⟩)

/-- Whatever holds at the start and is kept by a transition and by recording a rare byte while fewer than 255 are
recorded holds where the loop ends. -/
theorem encLoop_keeps (s : State) (pad budget : Nat) (P : EncWork → Prop)
    (hT : ∀ m w, P w → P (encTransition s m w))
    (hR : ∀ x w, w.regs.rcnt ≠ 255 → P w → P (recordRare pad x w)) (xs : List Byte) (w : EncWork) (h : P w) :
    P (encLoop s pad budget xs w).work := by
  induction xs generalizing w with
  | nil => exact h
  | cons x xs ih =>
    rcases encStep_cases s pad budget x w with e | ⟨m, e⟩ | ⟨hx, e⟩ <;> simp only [encLoop, e]
    · exact h
    · exact ih _ (hT m w h)
    · exact ih _ (hT 0 _ (hR x w hx h))

@[simp] theorem encTransition_rare (s : State) (m : Nat) (w : EncWork) : (encTransition s m w).rare = w.rare := by
  simp only [encTransition]; split <;> rfl

@[simp] theorem encTransition_rcnt (s : State) (m : Nat) (w : EncWork) :
    (encTransition s m w).regs.rcnt = w.regs.rcnt := by
  simp only [encTransition]; split <;> rfl

theorem encTransition_nbits_lt (s : State) (m : Nat) (w : EncWork) (h : w.regs.nbits < 8) :
    (encTransition s m w).regs.nbits < 8 := by
  simp only [encTransition]; split
  · exact emit_nbits_lt _ _ _
  · exact h

/-! ### The codeword loop -/

@[simp] theorem writeWord_length (pad aligned syms : Nat) (bs : List Byte) (k : Nat) (out : List Byte) :
    (writeWord pad aligned syms bs k out).length = out.length := by
  induction bs generalizing k out with
  | nil => rfl
  | cons b bs ih => rw [writeWord, ih]; split <;> simp

@[simp] theorem decStep_length (s : State) (c : Sections) (stream : List Byte) (w : DecWork) (u : Nat) :
    (decStep s c stream w u).out.length = w.out.length := by simp [decStep]

@[simp] theorem decStep_pcur (s : State) (c : Sections) (stream : List Byte) (w : DecWork) (u : Nat) :
    (decStep s c stream w u).regs.pcur = w.regs.pcur := rfl

/-- Whatever every codeword keeps, the loop of `DECODE` keeps. -/
theorem decUnits_keeps (s : State) (c : Sections) (stream : List Byte) (P : DecWork → Prop)
    (hS : ∀ w u, P w → P (decStep s c stream w u)) (w : DecWork) (h : P w) : P (decUnits s c stream w) := by
  unfold decUnits
  generalize List.range c.units = l
  induction l generalizing w with
  | nil => exact h
  | cons u l ih => exact ih _ (hS _ _ h)

/-- Whatever one patch keeps, `DEC.PATCH` keeps, whether it raises or not; it applies at most as many entries
as the table has. -/
theorem decPatch_keeps (ow n : Nat) (left : Nat) (table : List Byte) (w : DecWork) :
    (∀ w', decPatch ow n left table w = .ok w' →
        w'.out.length = w.out.length ∧ w'.regs.pcur = w.regs.pcur + left)
      ∧ (∀ w', decPatch ow n left table w = .error w' → w'.regs.pcur ≤ w.regs.pcur + left) := by
  induction left generalizing table w with
  | zero => constructor <;> intro w' h <;> simp [decPatch] at h; subst h; simp
  | succ left ih =>
    rw [decPatch]
    dsimp only
    split
    · constructor
      · intro w' h; cases h
      · intro w' h; cases h; omega
    · have := ih (table.drop (ow + 1))
        { w with
          regs := { w.regs with pcur := w.regs.pcur + 1 },
          out := w.out.set (leNumber (table.take ow)) (table.getD ow 0) }
      constructor
      · intro w' h
        have := this.1 w' h
        simp only [List.length_set] at this
        omega
      · intro w' h
        have := this.2 w' h
        simp only at this
        omega

/-- What the parser gives when it raises nothing (44_decode.md R233). -/
theorem parseFrame_ok {k sh n : Nat} {f : List Byte} {c : Sections} (h : parseFrame k sh n f = .ok c) :
    c.rc ≤ 255 ∧ c.pad = padOf n ∧ c.aligned = alignedOf n ∧ c.pad ≤ f.length := by
  have hb := (f.getD (padOf n) 0).isLt
  simp only [parseFrame] at h
  by_cases h1 : f.length < padOf n + 1 + planeLen n sh
  · simp [h1] at h
  rw [if_neg h1] at h
  split at h
  · cases h
  · cases h
    exact ⟨by simp only [Nat.reducePow] at hb; dsimp only; omega, rfl, rfl, by dsimp only; omega⟩

/-! ### The ends of `ENCODE` and `DECODE` -/

/-- Say once how `ENCODE` past its checks can end: with a frame no longer than the block, the scratch within its
widths. -/
theorem encodeFrame_ends (s : State) (hn : s.enc.nbits < 8) (hc : s.enc.rcnt ≤ 255) (hr : s.rare.wf)
    (b : List Byte) :
    ∃ frame kind raw rare enc rr,
      encodeFrame s b = endEncode { s with enc := enc, rare := rr } frame kind raw rare
        ∧ frame.length ≤ b.length ∧ enc.nbits < 8 ∧ enc.rcnt ≤ 255 ∧ rr.wf ∧ rr.epoch = s.rare.epoch
        ∧ (raw = true → kind = .raw) := by
  have L : ∀ pad bud xs, let w := (encLoop s pad bud xs (encStart s)).work
      w.regs.nbits < 8 ∧ w.regs.rcnt ≤ 255 ∧ w.rare.wf ∧ w.rare.epoch = s.rare.epoch := by
    intro pad bud xs
    apply encLoop_keeps (P := fun w =>
      w.regs.nbits < 8 ∧ w.regs.rcnt ≤ 255 ∧ w.rare.wf ∧ w.rare.epoch = s.rare.epoch)
    · intro m w ⟨a, b, c, d⟩
      exact ⟨encTransition_nbits_lt _ _ _ a, by simpa using b, by simpa using c, by simpa using d⟩
    · intro x w hx ⟨a, b, c, d⟩
      exact ⟨a, by simp [recordRare]; omega, Memory.wf_writeRange c _ _, by simpa [recordRare] using d⟩
    · exact ⟨Nat.zero_lt_succ _, Nat.zero_le _, hr, rfl⟩
  have short : ∀ (frame : List Byte) kind raw, frame.length ≤ b.length → (raw = true → kind = .raw) →
      ∃ f k r n enc rr, endEncode s frame kind raw 0 = endEncode { s with enc := enc, rare := rr } f k r n
        ∧ f.length ≤ b.length ∧ enc.nbits < 8 ∧ enc.rcnt ≤ 255 ∧ rr.wf ∧ rr.epoch = s.rare.epoch
        ∧ (r = true → k = .raw) :=
    fun frame kind raw hl hk => ⟨frame, kind, raw, 0, s.enc, s.rare, rfl, hl, hn, hc, hr, rfl, hk⟩
  cases b with
  | nil => exact short _ _ _ (Nat.le_refl _) (by simp)
  | cons v rest =>
    unfold encodeFrame
    dsimp only
    by_cases ha : allEqual (v :: rest) = true
    · rw [if_pos ha]
      exact short _ _ _ (by simp) (by simp)
    rw [if_neg ha, encodeBlock]
    by_cases h0 : alignedOf (v :: rest).length = 0
    · rw [if_pos h0]
      exact short _ _ _ (Nat.le_refl _) (by simp)
    rw [if_neg h0]
    have key := L (padOf (v :: rest).length) (encBudget (v :: rest).length s.hS)
      ((v :: rest).drop (padOf (v :: rest).length))
    generalize encLoop s _ _ _ (encStart s) = m at key ⊢
    cases m with
    | toRaw w =>
      obtain ⟨k1, k2, k3, k4⟩ := key
      exact ⟨_, _, _, _, w.regs, w.rare, rfl, Nat.le_refl _, k1, k2, k3, k4, by simp⟩
    | go w =>
      obtain ⟨-, k2, k3, k4⟩ := key
      dsimp only [encodeCoded]
      split
      · exact ⟨_, _, _, _, _, _, rfl, by omega, by simp [encFlush, closeStream], k2, k3, k4,
          by simp⟩
      · exact ⟨_, _, _, _, _, _, rfl, Nat.le_refl _, by simp [encFlush, closeStream], k2, k3, k4, by simp⟩

/-- Say once how `DECODE` past its checks can end: with a block of `BLK_N` bytes, or with a `FrameError`; the
scratch within its widths. -/
theorem decodeFrame_ends (s : State) (hw : s.decr.pcur ≤ 255) (f : List Byte) :
    (∃ block kind rare dr, decodeFrame s s.blkN f = endDecode { s with decr := dr } block kind rare
        ∧ dr.pcur ≤ 255 ∧ block.length = s.blkN)
       ∨ ∃ c dr, decodeFrame s s.blkN f = frameError { s with decr := dr } c ∧ dr.pcur ≤ 255 := by
  unfold decodeFrame
  split
  · exact .inl ⟨_, _, _, s.decr, rfl, hw, by assumption⟩
  split
  · exact .inl ⟨_, _, _, s.decr, rfl, hw, by simp⟩
  split
  · exact .inr ⟨_, s.decr, rfl, hw⟩
  unfold decodeCoded
  split
  · exact .inr ⟨_, s.decr, rfl, hw⟩
  rename_i c hc
  obtain ⟨hrc, hpad, hal, hlen⟩ := parseFrame_ok hc
  have hpa := pad_add_aligned s.blkN
  have h8 := alignedOf_dvd s.blkN
  have hu := decUnits_keeps s c ((f.take c.m).drop (c.pad + 1))
    (fun w => w.regs.pcur = 0 ∧ w.out.length = s.blkN)
    (fun w u h => ⟨by simpa using h.1, by simpa using h.2⟩) (decStart s f c)
    ⟨rfl, by simp [decStart, decSeed]; omega⟩
  generalize decUnits s c ((f.take c.m).drop (c.pad + 1)) (decStart s f c) = w at hu ⊢
  obtain ⟨h0, hl⟩ := hu
  unfold decFinish
  split
  · exact .inr ⟨_, _, rfl, by omega⟩
  have hp := decPatch_keeps c.ow s.blkN c.rc (f.drop c.m) (decResid s f c w)
  have h0' : (decResid s f c w).regs.pcur = 0 := h0
  have hl' : (decResid s f c w).out.length = s.blkN := by simp [decResid, hl]; omega
  split
  · exact .inr ⟨_, _, rfl, by have := hp.2 _ (by assumption); omega⟩
  · rename_i w' hw'
    have := hp.1 _ hw'
    exact .inl ⟨_, _, _, _, rfl, by omega, by omega⟩

/-! ### Register words as sums of their fields (10_state.md R22) -/

theorem koWord_eq (k o : BitVec 5) : koWord k o = BitVec.ofNat 32 (k.toNat + 2 ^ 8 * o.toNat) := by
  revert k o; decide +kernel

theorem autoWord_eq {n : Nat} (h : n ≤ 31) (f : BitVec n) (auto : Bool) :
    autoWord f auto = BitVec.ofNat 32 (f.toNat + 2 ^ 31 * auto.toNat) := by
  have hf : f.toNat < 2 ^ 31 := f.isLt.trans_le (Nat.pow_le_pow_right (by decide) h)
  apply BitVec.eq_of_toNat_eq
  cases auto
  · simp [autoWord, fieldAt, flagAt]
  · have e := Nat.two_pow_add_eq_or_of_lt hf 1
    rw [Nat.mul_one, Nat.or_comm] at e
    simp only [autoWord, fieldAt, flagAt, BitVec.toNat_or, BitVec.toNat_ofNat, pow_zero, Nat.mul_one,
      if_true, Bool.toNat_true]
    rw [Nat.mod_eq_of_lt (by omega : f.toNat < 2 ^ 32), Nat.mod_eq_of_lt (by decide : 2 ^ 31 < 2 ^ 32), ← e,
      Nat.add_comm, Nat.mod_eq_of_lt (by omega)]

/-- The word of `STATUS`, field by field. -/
theorem Status.word_eq (st : Status) : st.word = BitVec.ofNat 32 (st.busy.toNat + 2 ^ 1 * st.done.toNat
    + 2 ^ 2 * st.report.isSome.toNat + 2 ^ 3 * st.hvalid.toNat + 2 ^ 4 * st.rawfb.toNat + 2 ^ 5 * st.kind.code.toNat
    + 2 ^ 8 * st.ecode.toNat + 2 ^ 16 * st.esub.toNat) := by
  obtain ⟨b, d, r, h, f, k⟩ := st
  rcases r with _ | e
  · cases b <;> cases d <;> cases h <;> cases f <;> cases k <;> rfl
  · rcases e with c | _ | c | _ | _ | _ | _ <;> (try cases c) <;> cases b <;> cases d <;> cases h <;> cases f
      <;> cases k <;> rfl

end Sys2Proof.Machine
end

