-- ==== Sys2Proof/Laws/Build.lean ====
section
/-! SUPPORT. `BUILD`: the operations of the exact rationals, sums in any number system, what a pop and a split can
do, the fuel of `GROW` is enough. -/

namespace Sys2Proof.Machine

open Sys2Proof

/-! ### The number systems (00_scope.md R11) -/

@[simp] theorem exact_add (a b : Prob) : Config.Numerics.exact.add a b = .rat (a.toRat + b.toRat) := rfl
@[simp] theorem exact_sub (a b : Prob) : Config.Numerics.exact.sub a b = .rat (a.toRat - b.toRat) := rfl
@[simp] theorem exact_mul (a b : Prob) : Config.Numerics.exact.mul a b = .rat (a.toRat * b.toRat) := rfl
@[simp] theorem exact_qdiv (a b : Prob) : Config.Numerics.exact.qdiv a b = .rat (qdiv a.toRat b.toRat) := rfl
@[simp] theorem exact_sum (l : List Prob) : Config.Numerics.exact.sum l = .rat (l.map Prob.toRat).sum := rfl
@[simp] theorem exact_lt (a b : Prob) : Config.Numerics.exact.lt a b = decide (a.toRat < b.toRat) := rfl
@[simp] theorem exact_eq (a b : Prob) : Config.Numerics.exact.eq a b = decide (a.toRat = b.toRat) := rfl
@[simp] theorem exact_clamp (p : Prob) : Config.Numerics.exact.clamp p = p := rfl
@[simp] theorem exact_sumIsOne (p : Prob) : Config.Numerics.exact.sumIsOne p = decide (p.toRat = 1) := rfl
@[simp] theorem exact_entryIsOne (p : Prob) : Config.Numerics.exact.entryIsOne p = decide (p.toRat = 1) := rfl
@[simp] theorem toRat_rat (q : ℚ) : (Prob.rat q).toRat = q := rfl

/-- Every value of an exact instance and every number is below `+infinity` and none above it. -/
@[simp] theorem exact_belowInfinity (p : Prob) : Config.Numerics.exact.belowInfinity p = true := rfl
@[simp] theorem exact_aboveInfinity (p : Prob) : Config.Numerics.exact.aboveInfinity p = false := rfl
@[simp] theorem belowInfinity_rat (num : Config.Numerics) (q : ℚ) : num.belowInfinity (.rat q) = true := by
  cases num <;> rfl
@[simp] theorem aboveInfinity_rat (num : Config.Numerics) (q : ℚ) : num.aboveInfinity (.rat q) = false := by
  cases num <;> rfl

/-- What a clamp over another system can do: nothing, or give 0 or 1 for a value within the tolerance of it. -/
theorem rounding_clamp_cases (n : Nat) (p : Prob) :
    (Config.Numerics.rounding n).clamp p = p
      ∨ ∃ t : Fin 2, (Config.Numerics.rounding n).near (Config.clampTolerance n) p t.val = true
          ∧ (Config.Numerics.rounding n).clamp p = .rat t.val := by
  cases ht : Config.clampTarget n p with
  | none => exact .inl (by simp [Config.Numerics.clamp, ht])
  | some t =>
    by_cases h : (Config.Numerics.rounding n).near (Config.clampTolerance n) p t.val = true
    · exact .inr ⟨t, h, by simp [Config.Numerics.clamp, ht, h]⟩
    · exact .inl (by simp [Config.Numerics.clamp, ht, h])

/-- Total division of the rationals: Lean's own, for it too gives 0 for the divisor 0. -/
theorem qdiv_eq_div (a b : ℚ) : qdiv a b = a / b := by
  unfold qdiv; split
  · next h => rw [h, div_zero]
  · rfl

/-- Values compared as rational numbers compare exactly, whatever the system. -/
theorem lt_iff {num : Config.Numerics} {a b : Prob} (h : asRationals num [a, b]) :
    num.lt a b = true ↔ a.toRat < b.toRat := by
  cases num with
  | exact => simp
  | rounding n =>
    have h := h.resolve_left (by simp)
    cases a <;> cases b <;> simp [Prob.isNumber, Config.Numerics.lt] at h ⊢

/-- Over the exact rationals adding in some order adds up the terms at its places. -/
theorem exact_value (terms : List Prob) (t : Config.SumTree) :
    (t.value .exact terms).toRat = (t.places.map fun i => (terms.getD i (.rat 0)).toRat).sum := by
  induction t with
  | term i => simp [Config.SumTree.value, Config.SumTree.places]
  | plus l r hl hr => simp [Config.SumTree.value, Config.SumTree.places, hl, hr]

/-- Over the exact rationals every order of adding gives the sum. -/
theorem exact_sum_any_order (terms : List Prob) (t : Config.SumTree) (h : t.places.Perm (List.range terms.length)) :
    (t.value .exact terms).toRat = (Config.Numerics.exact.sum terms).toRat := by
  rw [exact_value, (h.map _).sum_eq, exact_sum, toRat_rat]
  congr 1
  apply List.ext_getElem <;> simp +contextual

/-- An order of adding has a place. -/
theorem places_pos (t : Config.SumTree) : 0 < t.places.length := by
  induction t with
  | term i => simp [Config.SumTree.places]
  | plus l r hl hr => simp only [Config.SumTree.places, List.length_append]; omega

/-- An order of adding one term is that term. -/
theorem places_singleton (t : Config.SumTree) (i : Nat) (h : t.places = [i]) : t = .term i := by
  cases t with
  | term j => simpa [Config.SumTree.places] using h
  | plus l r =>
    have h1 := places_pos l
    have h2 := places_pos r
    have := congrArg List.length h
    simp only [Config.SumTree.places, List.length_append, List.length_singleton] at this
    omega

/-- A sum of one term is the term: no operation touches it. -/
theorem rounding_sum_singleton (n : Nat) (p : Prob) : (Config.Numerics.rounding n).sum [p] = p := by
  simp only [Config.Numerics.sum, Config.addOrder]
  split
  · next h => rw [places_singleton _ 0 (List.perm_singleton.1 h)]; rfl
  · rfl

/-- A sum of no term is 0. -/
theorem sum_nil (num : Config.Numerics) : num.sum [] = .rat 0 := by
  cases num with
  | exact => rfl
  | rounding n =>
    simp only [Config.Numerics.sum, Config.addOrder]
    split
    · next h => exact absurd (places_pos (Config.sumOrder n [])) (by simp [h.length_eq])
    · rfl

/-! ### The queue -/

/-- Say once what a pop of a longer list is: the head is passed over, taken, or beaten by the rest. -/
theorem popBest_cons (num : Config.Numerics) (x : Node) (xs : List Node) (id : Nat) :
    (x.retired = true ∧ popBest num (x :: xs) id = popBest num xs (id + 1))
      ∨ (x.retired = false ∧ (∀ j y, popBest num xs (id + 1) = some (j, y) → num.lt x.p y.p = false)
          ∧ popBest num (x :: xs) id = some (id, x))
      ∨ (x.retired = false ∧ ∃ j y, popBest num xs (id + 1) = some (j, y) ∧ num.lt x.p y.p = true
          ∧ popBest num (x :: xs) id = some (j, y)) := by
  cases hx : x.retired with
  | true => exact .inl ⟨rfl, by simp [popBest, hx]⟩
  | false =>
    cases hr : popBest num xs (id + 1) with
    | none => exact .inr (.inl ⟨rfl, by simp, by simp [popBest, hx, hr]⟩)
    | some e =>
      cases hp : num.lt x.p e.2.p with
      | true => exact .inr (.inr ⟨rfl, e.1, e.2, rfl, hp, by simp [popBest, hx, hr, hp]⟩)
      | false =>
        refine .inr (.inl ⟨rfl, ?_, by simp [popBest, hx, hr, hp]⟩)
        rintro j y ⟨⟩
        exact hp

/-- Where no node is popped every node is retired. -/
theorem popBest_none (num : Config.Numerics) (nodes : List Node) (base : Nat) (h : popBest num nodes base = none) :
    ∀ m ∈ nodes, m.retired = true := by
  induction nodes generalizing base with
  | nil => simp
  | cons x xs ih =>
    rcases popBest_cons num x xs base with ⟨hx, e⟩ | ⟨-, -, e⟩ | ⟨-, j, y, -, -, e⟩ <;> rw [h] at e
    · exact List.forall_mem_cons.2 ⟨hx, ih _ e.symm⟩
    · exact absurd e.symm (by simp)
    · exact absurd e.symm (by simp)

/-- A popped node is a queued node of the list, at the id given. -/
theorem popBest_spec (num : Config.Numerics) (nodes : List Node) (base id : Nat) (n : Node)
    (h : popBest num nodes base = some (id, n)) :
    base ≤ id ∧ nodes[id - base]? = some n ∧ n.retired = false := by
  induction nodes generalizing base id n with
  | nil => simp [popBest] at h
  | cons x xs ih =>
    have tail : popBest num xs (base + 1) = some (id, n) →
        base ≤ id ∧ (x :: xs)[id - base]? = some n ∧ n.retired = false := by
      intro e
      obtain ⟨h1, h2, h3⟩ := ih _ _ _ e
      have : id - base = id - (base + 1) + 1 := by omega
      exact ⟨by omega, by rw [this]; simpa using h2, h3⟩
    rcases popBest_cons num x xs base with ⟨-, e⟩ | ⟨hx, -, e⟩ | ⟨-, j, y, hy, -, e⟩ <;> rw [h] at e
    · exact tail e.symm
    · cases e; exact ⟨Nat.le_refl _, by simp, hx⟩
    · cases e; exact tail hy

/-- Over numbers no queued node has a larger `p` than the popped one (41_build_dictionary.md R154). -/
theorem popBest_largest (num : Config.Numerics) (nodes : List Node) (base id : Nat) (n : Node)
    (hn : asRationals num (nodes.map Node.p)) (h : popBest num nodes base = some (id, n)) :
    ∀ m ∈ nodes, m.retired = false → m.p.toRat ≤ n.p.toRat := by
  induction nodes generalizing base id n with
  | nil => simp [popBest] at h
  | cons x xs ih =>
    have hxs : asRationals num (xs.map Node.p) :=
      hn.imp_right fun hn p hp => hn p (List.mem_cons_of_mem _ hp)
    have pair : ∀ j y, popBest num xs (base + 1) = some (j, y) → asRationals num [x.p, y.p] := fun j y hy =>
      hn.imp_right fun hn p hp => hn p (by
        have := List.mem_of_getElem? (popBest_spec num xs _ _ _ hy).2.1
        simp only [List.mem_cons, List.not_mem_nil, or_false] at hp
        rcases hp with rfl | rfl
        · exact List.mem_cons_self
        · exact List.mem_cons_of_mem _ (List.mem_map_of_mem this))
    rcases popBest_cons num x xs base with ⟨hx, e⟩ | ⟨-, hle, e⟩ | ⟨-, j, y, hy, hlt, e⟩ <;> rw [h] at e
    · exact List.forall_mem_cons.2 ⟨fun hr => by simp [hx] at hr, ih _ _ _ hxs e.symm⟩
    · cases e
      refine List.forall_mem_cons.2 ⟨fun _ => le_rfl, fun m hm hr => ?_⟩
      cases hp : popBest num xs (base + 1) with
      | none => simp [popBest_none num _ _ hp m hm] at hr
      | some z =>
        have := (lt_iff (pair _ _ hp)).not.1 (by simp [hle _ _ hp])
        exact (ih _ _ _ hxs hp m hm hr).trans (not_lt.1 this)
    · cases e
      exact List.forall_mem_cons.2 ⟨fun _ => ((lt_iff (pair _ _ hy)).1 hlt).le, ih _ _ _ hxs hy⟩

/-- A split adds one node. -/
@[simp] theorem splitNode_length (num : Config.Numerics) (pchild : List Prob) (nodes : List Node) (id : Nat) (n : Node) :
    (splitNode num pchild nodes id n).length = nodes.length + 1 := by simp [splitNode]

/-- The nodes still in the queue. -/
def queued (nodes : List Node) : Nat := nodes.countP fun n => !n.retired

theorem queued_set_retired (nodes : List Node) (id : Nat) (n : Node) (h : nodes[id]? = some n)
    (hr : n.retired = false) : queued (nodes.set id { n with retired := true }) + 1 = queued nodes := by
  induction nodes generalizing id with
  | nil => simp at h
  | cons x xs ih =>
    cases id with
    | zero => simp at h; subst h; simp [queued, hr]
    | succ id =>
      have := ih id (by simpa using h)
      simp only [queued, List.set_cons_succ, List.countP_cons] at this ⊢
      omega

theorem queued_split (num : Config.Numerics) (pchild : List Prob) (nodes : List Node) (id : Nat) (n : Node) (h : nodes[id]? = some n)
    (hr : n.retired = false) : queued (splitNode num pchild nodes id n) = queued nodes + 1 := by
  have key : ∀ m : Node, m.retired = false → queued (nodes.set id m) = queued nodes := by
    intro m hm
    induction nodes generalizing id with
    | nil => simp
    | cons x xs ih =>
      cases id with
      | zero => simp at h; subst h; simp [queued, hr, hm]
      | succ id =>
        have := ih id (by simpa using h)
        simp only [queued, List.set_cons_succ, List.countP_cons] at this ⊢
        omega
  simp only [splitNode, queued, List.countP_append] at *
  have := key { n with p := num.sub n.p (num.mul n.p (pchild.getD n.degree (.rat 0))), degree := n.degree + 1 } hr
  rw [this]
  simp

theorem queued_le_length (nodes : List Node) : queued nodes ≤ nodes.length := List.countP_le_length

/-- One more turn of fuel changes nothing once there is enough: the loop has ended before the fuel does. -/
theorem growLoop_fuel (num : Config.Numerics) (cap a mws : Nat) (pchild : List Prob) (fuel : Nat) (nodes : List Node)
    (h : 2 * (cap - nodes.length) + queued nodes ≤ fuel) :
    growLoop num cap a mws pchild (fuel + 1) nodes = growLoop num cap a mws pchild fuel nodes := by
  induction fuel generalizing nodes with
  | zero =>
    have h0 : ¬ nodes.length < cap := by omega
    simp [growLoop, h0]
  | succ fuel ih =>
    rw [growLoop]
    conv_rhs => rw [growLoop]
    by_cases hl : nodes.length < cap
    · rw [if_pos hl, if_pos hl]
      cases hp : popBest num nodes 0 with
      | none => rfl
      | some x =>
        obtain ⟨id, n⟩ := x
        obtain ⟨-, h2, h3⟩ := popBest_spec num _ _ _ _ hp
        rw [Nat.sub_zero] at h2
        dsimp only
        by_cases hr : retires a mws n = true
        · rw [if_pos hr, if_pos hr]
          apply ih
          have := queued_set_retired nodes id n h2 h3
          simp only [List.length_set]
          omega
        · rw [if_neg hr, if_neg hr]
          apply ih
          have := queued_split num pchild nodes id n h2 h3
          simp only [splitNode_length]
          omega
    · rw [if_neg hl, if_neg hl]

/-- The fuel `GROW` runs with is enough: every larger amount gives the same (log 19). -/
theorem grow_fuel_sufficient (num : Config.Numerics) (k a mws : Nat) (pchild : List Prob) (nodes : List Node) (extra : Nat) :
    growLoop num (2 ^ k) a mws pchild (2 * 2 ^ k + extra) nodes = grow num k a mws pchild nodes := by
  induction extra with
  | zero => rfl
  | succ extra ih =>
    rw [← ih, ← Nat.add_assoc]
    by_cases hl : nodes.length < 2 ^ k
    · apply growLoop_fuel
      have := queued_le_length nodes
      omega
    · have key : ∀ f, growLoop num (2 ^ k) a mws pchild f nodes = some nodes := by
        intro f; cases f <;> simp [growLoop, hl]
      rw [key, key]

end Sys2Proof.Machine
end

