-- ==== Sys2Proof/Laws/Step.lean ====
section
/-! SUPPORT. What a step can do: a command always ends in a next state; a host action that has a meaning does
too; the inversion of `step`. -/

namespace Sys2Proof.Machine

open Sys2Proof

/-- Every command ends in a next state: the block's errors are values (60_exceptions.md R300). -/
theorem exec_next (i : Instr) (s : State) : ∃ t, exec i s = .next t := by
  cases i
  · exact ⟨_, rfl⟩
  · exact ⟨_, rfl⟩
  · change ∃ t, execBuild s = .next t
    unfold execBuild; split <;> exact ⟨_, rfl⟩
  · change ∃ t, execEncode s = .next t
    unfold execEncode; split <;> exact ⟨_, rfl⟩
  · change ∃ t, execDecode s = .next t
    unfold execDecode; split <;> exact ⟨_, rfl⟩
  · change ∃ t, execPext s = .next t
    unfold execPext; split <;> exact ⟨_, rfl⟩
  · change ∃ t, execPdep s = .next t
    unfold execPdep; split <;> exact ⟨_, rfl⟩

theorem runCommand_next (s : State) : ∃ t, runCommand s = .next t := by
  unfold runCommand; split
  · exact exec_next _ _
  · exact ⟨_, rfl⟩

/-- Say once what a step to a next state is: the block waits, the running command ends, or a host action
happens, early or not. -/
theorem step_cases {s t : State} (h : step s = .next t) :
    (s.status.busy = false ∧ s.host = [] ∧ t = s)
      ∨ (s.status.busy = true ∧ runCommand s = .next t)
      ∨ (∃ e rest, s.host = e :: rest ∧ s.status.busy = false ∧ hostAct e.action { s with host := rest } = .next t)
      ∨ (∃ e rest, s.host = e :: rest ∧ s.status.busy = true ∧ e.action.busyOk = true
          ∧ hostAct e.action { s with host := rest } = .next t) := by
  unfold step at h
  cases hb : s.status.busy with
  | true =>
    rw [hb, if_pos rfl] at h
    split at h
    · exact .inr (.inl ⟨rfl, h⟩)
    · rename_i e rest hh
      split at h
      · unfold hostActBusy at h
        split at h
        · exact .inr (.inr (.inr ⟨e, rest, hh, rfl, ‹_›, h⟩))
        · cases h
      · exact .inr (.inl ⟨rfl, h⟩)
  | false =>
    rw [hb, if_neg (by decide)] at h
    split at h
    · cases h; exact .inl ⟨rfl, ‹_›, rfl⟩
    · rename_i e rest hh
      exact .inr (.inr (.inl ⟨e, rest, hh, rfl, h⟩))

/-- Say once what a host action to a next state is. -/
theorem hostAct_cases {a : HostAction} {s t : State} (h : hostAct a s = .next t) :
    (∃ n r v, a = .writeReg n v ∧ Reg.ofNumber n = some r ∧ r.hostWritable = true ∧ v.fits s.inst.numerics r = true
        ∧ t = (s.setReg r v).withReply none)
      ∨ (∃ n r v, a = .writeReg n v ∧ Reg.ofNumber n = some r ∧ r.hostWritable = false ∧ t = s.withReply none)
      ∨ (∃ n r, a = .readReg n ∧ Reg.ofNumber n = some r ∧ t = s.withReply (some (.inl (s.regValue r))))
      ∨ (∃ space x d, a = .writeRam space x d ∧ space.hostAccess = true ∧ space.holds s.inst x d.count = true
          ∧ space.hostWritable = true ∧ d.fits s.inst.numerics space = true ∧ t = (s.writeSpace space x d).withReply none)
      ∨ (∃ space x d, a = .writeRam space x d ∧ space.hostAccess = true ∧ space.holds s.inst x d.count = true
          ∧ space.hostWritable = false ∧ t = s.withReply none)
      ∨ (∃ space x n, a = .readRam space x n ∧ space.hostAccess = true ∧ space.holds s.inst x n = true
          ∧ t = s.withReply (some (.inr (s.readSpace space x n))))
      ∨ (a = .reset ∧ t = s.hardReset) := by
  cases a with
  | writeReg n v =>
    simp only [hostAct, hostWriteReg] at h
    split at h
    · cases h
    · rename_i r hr
      cases hw : r.hostWritable with
      | true =>
        rw [hw, if_pos rfl] at h
        split at h
        · cases h; exact .inl ⟨n, r, v, rfl, hr, hw, ‹_›, rfl⟩
        · cases h
      | false =>
        rw [hw, if_neg (by decide)] at h
        cases h; exact .inr (.inl ⟨n, r, v, rfl, hr, hw, rfl⟩)
  | readReg n =>
    simp only [hostAct, hostReadReg] at h
    split at h
    · cases h
    · cases h; exact .inr (.inr (.inl ⟨n, _, rfl, ‹_›, rfl⟩))
  | writeRam space x d =>
    simp only [hostAct, hostWriteRam] at h
    split at h
    · cases h
    · rename_i ha
      split at h
      · cases h
      · rename_i hi
        cases hw : space.hostWritable with
        | true =>
          rw [hw, if_pos rfl] at h
          split at h
          · cases h
            exact .inr (.inr (.inr (.inl ⟨space, x, d, rfl, by simpa using ha, by simpa using hi, hw, ‹_›, rfl⟩)))
          · cases h
        | false =>
          rw [hw, if_neg (by decide)] at h
          cases h
          exact .inr (.inr (.inr (.inr (.inl
            ⟨space, x, d, rfl, by simpa using ha, by simpa using hi, hw, rfl⟩))))
  | readRam space x n =>
    simp only [hostAct, hostReadRam] at h
    split at h
    · cases h
    · rename_i ha
      split at h
      · cases h
      · rename_i hi
        cases h
        exact .inr (.inr (.inr (.inr (.inr (.inl ⟨space, x, n, rfl, by simpa using ha, by simpa using hi, rfl⟩)))))
  | reset =>
    cases h
    exact .inr (.inr (.inr (.inr (.inr (.inr ⟨rfl, rfl⟩)))))

end Sys2Proof.Machine
end

