-- ==== Sys2Proof/Laws/PerInstr.lean ====
section
/-! SUPPORT. Statements about every command, one lemma per constructor of `Instr`. -/

namespace Sys2Proof.Laws

open Sys2Proof

/-- The command is well formed and its word, taken as a row of the opcode table, reads back as it. -/
def TableWord.Statement (i : Instr) : Prop :=
  i.wf = true ∧ decodeTableWord 32 (encode i).toNat = some i

theorem TableWord.nop : TableWord.Statement .nop := ⟨by decide, by decide⟩
theorem TableWord.sreset : TableWord.Statement .sreset := ⟨by decide, by decide⟩
theorem TableWord.build : TableWord.Statement .build := ⟨by decide, by decide⟩
theorem TableWord.encode : TableWord.Statement .encode := ⟨by decide, by decide⟩
theorem TableWord.decode : TableWord.Statement .decode := ⟨by decide, by decide⟩
theorem TableWord.pext : TableWord.Statement .pext := ⟨by decide, by decide⟩
theorem TableWord.pdep : TableWord.Statement .pdep := ⟨by decide, by decide⟩

end Sys2Proof.Laws
end

