-- ==== Sys2Proof/Tests/Slice0.lean ====
section
/-! SUPPORT. Tests: well-formedness, the command words, at most two steps per command with the values of
95_test_vectors.md, and for every statement with hypotheses a witness that meets them. -/

namespace Sys2Proof.Tests

set_option Elab.async false

open Sys2Proof Sys2Proof.Machine

/-! ### Well-formedness: one ill-formed term for each check -/

theorem test_wf_unknown_register :
    (HostAction.writeReg 22 (.word 0)).wf Config.suggested = false
      ∧ (HostAction.readReg 22).wf Config.suggested = false := by decide

theorem test_wf_wrong_value_type :
    (HostAction.writeReg 8 (.word 0)).wf Config.suggested = false
      ∧ (HostAction.writeReg 2 (.num 0)).wf Config.suggested = false := by decide

theorem test_wf_negative_probability :
    (HostAction.writeReg 6 (.prob (.rat (-1)))).wf Config.suggested = false
      ∧ (HostAction.writeRam .pmf 0 (.probs [.rat 1, .rat (-1)])).wf Config.suggested = false := by decide +kernel

/-- A value that is no number is one of another number system only. -/
theorem test_wf_other_value : (HostAction.writeReg 6 (.prob (.other 1))).wf Config.suggested = false
    ∧ (HostAction.writeReg 6 (.prob (.other 1))).wf { Config.suggested with numerics := .rounding 1 } = true := by
  decide +kernel

theorem test_wf_rare_space :
    (HostAction.writeRam .rare 0 (.nums [])).wf Config.suggested = false
      ∧ (HostAction.readRam .rare 0 1).wf Config.suggested = false := by decide

theorem test_wf_beyond_end :
    (HostAction.writeRam .pmf 255 (.probs [.rat 0, .rat 0])).wf Config.suggested = false
      ∧ (HostAction.readRam .dst 1048576 1).wf Config.suggested = false := by decide +kernel

theorem test_wf_wrong_data_type :
    (HostAction.writeRam .src 0 (.probs [.rat 0])).wf Config.suggested = false := by decide

theorem test_wf_busy : (HostAction.writeReg 0 (.word 0)).busyOk = false
    ∧ (HostAction.readReg 11).busyOk = false ∧ (HostAction.readReg 1).busyOk = true := by decide

theorem test_wf_accepts :
    (HostAction.writeReg 6 (.prob (.rat (1 / 50)))).wf Config.suggested = true
      ∧ (HostAction.writeRam .pmf 255 (.probs [.rat 1])).wf Config.suggested = true
      ∧ (HostAction.writeReg 1 (.num 7)).wf Config.suggested = true := by decide +kernel

/-! ### The command words, bits 31 to 0 written out from 30_encoding.md R90, R91 -/

theorem test_decode_nop : decode 0b00000000000000000000000000000000#32 = .ok .nop := by decide
theorem test_decode_sreset : decode 0b00000000000000000000000000000001#32 = .ok .sreset := by decide
theorem test_decode_build : decode 0b00000000000000000000000000010000#32 = .ok .build := by decide
theorem test_decode_encode : decode 0b00000000000000000000000000100000#32 = .ok .encode := by decide
theorem test_decode_decode : decode 0b00000000000000000000000000100001#32 = .ok .decode := by decide
theorem test_decode_pext : decode 0b00000000000000000000000000110000#32 = .ok .pext := by decide
theorem test_decode_pdep : decode 0b00000000000000000000000000110001#32 = .ok .pdep := by decide

theorem test_decode_reserved_bits : decode 0b00000000000000000000000100100000#32 = .error .reservedBits
    ∧ decode 0b10000000000000000000000000010000#32 = .error .reservedBits := by decide

theorem test_decode_unknown : decode 0b00000000000000000000000001000010#32 = .error .unknownOpcode
    ∧ decode 0b00000000000000000000000000000010#32 = .error .unknownOpcode := by decide

/-! ### Helpers -/

/-- The state a command leaves. -/
def after (i : Instr) (s : State) : State :=
  match exec i s with
  | .next t => t
  | .fault _ => s
  | .refused _ => s

theorem exec_after (i : Instr) (s : State) : exec i s = .next (after i s) := by
  obtain ⟨t, h⟩ := exec_next i s
  simp [after, h]

/-- Bytes from numbers. -/
def bytes (l : List Nat) : List Byte := l.map (BitVec.ofNat 8)

/-- One host action, waiting for `BUSY = 0`. -/
def act (a : HostAction) : List HostEvent := [{ early := false, action := a }]

/-- Reset, with host actions pending. -/
def pending (h : List HostEvent) : State := { State.reset with host := h }

/-- A command started, nothing pending. -/
def running (w : Word32) (s : State) : State := { s.startCommand w with host := [] }

/-- Reset with lengths, `CFG_S.S` and the buffers' first bytes. -/
def plane (sh : BitVec 3) (src dst : List Byte) (srcLen blkN : Nat) : State :=
  { State.reset with
    cfg := { State.reset.cfg with s := sh }, src := .filled 0 src, dst := .filled 0 dst, srcLen := srcLen,
    blkN := blkN }

/-- The group of 95_test_vectors.md section 2.6. -/
def group26 : List Byte := bytes [0x00, 0xFF, 0xA5, 0x5A, 0x01, 0x80, 0x3C, 0xC3]

/-- Eight bytes `FF`. -/
def ones : List Byte := List.replicate 8 0xFF

/-- H1's PMF (95_test_vectors.md section 2.1). -/
def h1Pmf : List Prob := [40, 20, 12, 8, 6, 6, 4, 4].flatMap fun x : ℚ => List.replicate 32 (.rat (x / 3200))

/-- A state with a PMF and a configuration, `S` and `mws` supplied. -/
def config (pmf : List Prob) (k o : BitVec 5) (sh : BitVec 3) (mws : BitVec 10) (iter : BitVec 16) : State :=
  { State.reset with
    pmf := .filled 0 pmf,
    cfg := { State.reset.cfg with k := k, o := o, s := sh, sAuto := false, mws := mws, mwsAuto := false,
                                  iter := iter } }

/-- H1's configuration. -/
def h1Config : State := config h1Pmf 4 1 5 3 3

/-- A word with its state; its `p` plays no part in coding (42_build_tables.md R191). -/
def word (syms : List Nat) (state : Nat) : DictWord := { syms := syms, p := .rat 0, state := state }

/-- H1's final dictionary, words and states (95_test_vectors.md section 2.1). -/
def h1Dict : List DictWord :=
  [word [] 8, word [2, 0] 0, word [0, 1] 0, word [1, 1] 0, word [1, 0] 0, word [6] 0, word [3] 0, word [7] 0,
   word [0, 0, 0] 0, word [0, 0] 1, word [4] 0, word [2] 1, word [5] 0, word [1] 2, word [0, 2] 0, word [0] 3]
  ++ [word [] 8, word [4, 0] 0, word [0] 0, word [5, 0] 0, word [1, 0] 0, word [2, 1] 0, word [6] 0,
   word [3] 1, word [7] 0, word [4] 1, word [2, 0] 0, word [5] 1, word [3, 0] 0, word [1] 2, word [1, 1] 0,
   word [2] 2]

/-- H1's alphabet. -/
def h1Alpha : List AlphaEntry :=
  [{ src := 0, p := .rat (2 / 5) }, { src := 32, p := .rat (1 / 5) }, { src := 64, p := .rat (3 / 25) }, { src := 96, p := .rat (2 / 25) },
   { src := 128, p := .rat (3 / 50) }, { src := 160, p := .rat (3 / 50) }, { src := 192, p := .rat (1 / 25) },
   { src := 224, p := .rat (1 / 25) }]

/-- The handle H1, its tables made from its dictionary. -/
def h1 : State :=
  { State.reset with
    status := { Status.reset with hvalid := true },
    handle := { HandleRegs.zero with k := 4, o := 1, a := 8, s := 5, mws := 3, start := 15 },
    alpha := .filled 0 h1Alpha, s2m := .filled 0 (s2mBuild h1Alpha 5), dict := .filled 0 h1Dict,
    jump := .filled 0 (jumpRows 4 1 8 h1Dict).flatten, dec := .filled 0 (decBuild h1Alpha 3 h1Dict) }

/-- H1 with bytes in `SRC`, the lengths and the margin. -/
def h1With (src : List Byte) (cap blkN margin : Nat) : State :=
  { h1 with src := .filled 0 src, srcLen := src.length, dstCap := cap, blkN := blkN,
            cfg := { h1.cfg with abortMargin := margin } }

/-- Block E3 of 95_test_vectors.md section 2.1 and its frame. -/
def e3 : List Byte :=
  bytes [0, 31, 64, 0, 0, 0, 32, 0, 0, 0, 0, 0, 0, 0, 0, 0, 96, 0, 0, 0, 1, 2, 3, 4]

def e3Frame : List Byte :=
  bytes [0x00, 0x81, 0x22, 0x88, 0x86, 0x88, 0xF0, 0xE0, 0x03, 0, 0, 0, 0, 0, 0, 0, 0, 0, 0, 0x10, 0xC4, 0x20]

/-- Block E1: its frame would be as long as the block. -/
def e1 : List Byte := bytes [0, 0, 0, 0, 0, 32, 0, 0]

/-! ### Steps of the commands, expected values from spec/ -/

/-- 95_test_vectors.md P2 line "CMD NOP": `STATUS` is `DONE | HVALID << 3` after an error. -/
theorem test_nop : (after .nop { h1 with status := Status.error true (.frame .symbolCount), result := 7 }).status.word
      = 0x0000000A#32
    ∧ (after .nop { h1 with result := 7, lastRare := 3 }).result = 0
    ∧ (after .nop { h1 with result := 7, lastRare := 3 }).lastRare = 3 := by decide +kernel

theorem test_sreset : (after .sreset h1).status.word = 0x00000002#32 ∧ (after .sreset h1).hA = 0
    ∧ (after .sreset h1).jump.cells = [] ∧ (after .sreset h1).cfg.k = 8 := by decide +kernel

/-- 95_test_vectors.md P3: `WR CMD <- 0x00000120` on a valid handle. -/
theorem test_illegal : (match step (running 0x00000120#32 h1) with
      | .next t => (t.status.word, t.hA)
      | .fault _ => (0, 0)
      | .refused _ => (0, 0)) = (0x0000070E#32, 8) := by decide +kernel

/-- 95_test_vectors.md section 2.1: the handle registers and the dictionary of H1. -/
theorem test_build_h1 :
    let t := after .build h1Config
    t.status.word = 0x0000000A#32 ∧ t.handle.k = 4 ∧ t.handle.o = 1 ∧ t.hA = 8 ∧ t.hS = 5 ∧ t.hMws = 3
      ∧ t.handle.start = 15 ∧ t.handle.rare = .rat 0 ∧ t.handle.bps = .rat (10974095 / 1413569)
      ∧ t.handle.lbar = .rat (2827138 / 1953125)
      ∧ t.dictList.map (fun w => (w.syms, w.state)) = h1Dict.map fun w => (w.syms, w.state) := by decide +kernel

/-- 95_test_vectors.md section 2.8, B8: 15 words for 16 slots. -/
theorem test_build_b8 : (after .build (config h1Pmf 4 0 7 3 1)).status.word = 0x00030106#32 := by decide +kernel

/-- A PMF of eight plateaus of eight values, each half the one before. -/
def stairPmf : List Prob :=
  ([64, 32, 16, 8, 4, 2, 1, 1].flatMap fun x : ℚ => List.replicate 8 (.rat (x / 1024))) ++ List.replicate 192 (.rat 0)

/-- The operands of a `BUILD` of that PMF. -/
def stair : BuildInput := { num := .exact, pmf := stairPmf, k := 4, o := 0, purge := .rat 0, iters := 1 }

/-- The reference model of 97_reference_model.md: `bpsOf(s, 7)` is 25/4, 45/8, 193/32 for `s = 0, 1, 2`, so the sweep
stops at 1; `bpsOf(1, m)` is 45/8 for 3, 7 and 15. -/
theorem test_autosel_sweep : autoS stair CfgRegs.reset = 1 ∧ autoMws stair CfgRegs.reset 1 = 3 := by
  decide +kernel

theorem test_autosel_bps : stair.bpsOf 1 3 = some (.rat (45 / 8)) ∧ stair.bpsOf 1 7 = some (.rat (45 / 8)) := by decide +kernel

/-- 95_test_vectors.md section 2.5, the corner: `+infinity` for 3, then 15. -/
theorem test_autosel_infinity :
    let s := { h1Config with cfg := { h1Config.cfg with o := 0, s := 7, mwsAuto := true } }
    let t := after .build s
    s.buildInput.bpsOf 7 3 = none ∧ t.status.word = 0x0000000A#32 ∧ t.hS = 7 ∧ t.hMws = 15 ∧ t.hA = 2
      ∧ t.handle.start = 7 := by decide +kernel

/-- 95_test_vectors.md section 2.1, E3. -/
theorem test_encode_e3 :
    let t := after .encode (h1With e3 24 0 0)
    t.status.word = 0x0000008A#32 ∧ t.readDst 0 t.result = e3Frame := by decide +kernel

/-- 43_encode.md R208: before the last of the 24 bytes 9 codewords of 4 bits are out, 4 bytes of a budget of 8. -/
theorem test_encode_margin : (after .encode (h1With e3 24 0 4)).status.word = 0x0000008A#32
    ∧ (after .encode (h1With e3 24 0 5)).status.word = 0x0000007A#32 := by decide +kernel

/-- The spelling of 43_encode.md R212, and the same two margins. -/
theorem test_spelling_e3 :
    let cws := [8, 1, 2, 2, 8, 8, 8, 6, 8, 8, 15]
    (h1With e3 24 0 4).spells cws ∧ (h1With e3 24 0 4).emittedBefore cws 23 = 9
      ∧ ¬ (h1With e3 24 0 4).aborts cws ∧ (h1With e3 24 0 5).aborts cws := by decide +kernel

/-- 95_test_vectors.md section 2.1, E1: raw. -/
theorem test_encode_e1 :
    let t := after .encode (h1With e1 8 0 0)
    t.status.word = 0x0000007A#32 ∧ t.readDst 0 t.result = e1 := by decide +kernel

/-- 95_test_vectors.md section 2.1, D1. -/
theorem test_decode_d1 :
    let t := after .decode (h1With e3Frame 0 24 16)
    t.status.word = 0x0000008A#32 ∧ t.readDst 0 24 = e3 := by decide +kernel

/-- 44_decode.md R233, R239: an empty stream parses and fails the count check. -/
theorem test_decode_symbol_count :
    (after .decode (h1With (bytes [0] ++ e3Frame.drop 7) 0 24 16)).status.word = 0x0004040E#32 := by
  decide +kernel

/-- 95_test_vectors.md section 2.6, `S = 3`. -/
theorem test_pext : (after .pext (plane 3 group26 [] 8 0)).readDst 0 3 = bytes [0x78, 0x15, 0x70]
    ∧ (after .pext (plane 3 group26 [] 8 0)).result = 3 := by decide +kernel

/-- 95_test_vectors.md section 2.6, the `BadLength` corner and `S = 7`. -/
theorem test_pext_lengths : (after .pext (plane 3 group26 [] 12 0)).status.word = 0x00000806#32
    ∧ (after .pext (plane 7 group26 [] 8 0)).readDst 0 7 = bytes [0x80, 0x7F, 0x49, 0x1B, 0x00, 0xF0, 0x86] := by
  decide +kernel

theorem test_pdep : (after .pdep (plane 3 (bytes [0x78, 0x15, 0x70]) ones 3 8)).readDst 0 8
    = bytes [0xF8, 0xFF, 0xFD, 0xFA, 0xF9, 0xF8, 0xFC, 0xFB] := by decide +kernel

theorem test_pdep_lengths : (after .pdep (plane 3 [] [] 5 16)).status.word = 0x00000806#32
    ∧ (after .pdep (plane 4 (bytes [0xF0, 0xA5, 0x01, 0x3C]) ones 4 8)).readDst 0 8
        = bytes [0xF0, 0xFF, 0xF5, 0xFA, 0xF1, 0xF0, 0xFC, 0xF3] := by decide +kernel

/-- 10_state.md R20: what an earlier block left in the working registers is gone when a block ends early. -/
theorem test_registers_start_anew :
    let s := { h1With [] 0 0 0 with enc := { EncRegs.zero with ocur := 9 }, decr := { DecRegs.zero with syms := 9 } }
    (after .encode s).enc = { EncRegs.zero with j := 15 } ∧ (after .decode s).decr = DecRegs.zero := by decide +kernel

/-- 30_encoding.md R98: the leftover bits of a stream are ignored. -/
theorem test_leftover_bits : ReadsAs 12 (bytes [0xAB, 0xCD]) [0xABC] ∧ codewordAt 12 (bytes [0xAB, 0xCD]) 0 = 0xABC
    ∧ ¬ ReadsAs 12 (bytes [0xAB, 0xCD]) [0xABC, 0xD] := by decide +kernel

/-! ### Memory -/

/-- A write over the middle of a space keeps the canonical form and leaves the rest. -/
theorem test_write_range :
    let m := ((Memory.filled 0 (bytes [1, 2, 3, 4])).writeRange 1 (bytes [9, 8])).writeRange 7 (bytes [5])
    m.cells = [(0, 1), (1, 9), (2, 8), (3, 4), (7, 5)] ∧ m.wf := by decide

/-! ### A well-formed handle: the one of 96_test_vectors_more.md section 2 -/

/-- Its words and states. -/
def h4Dict : List DictWord :=
  [word [] 2, word [1, 0, 0, 0, 0, 0, 0] 0, word [1, 1, 0] 0, word [0, 0, 0, 0, 0, 0] 0, word [1, 0] 1,
   word [1, 0, 0] 1, word [1, 0, 0, 0] 1, word [0] 1]
  ++ [word [1, 0, 0, 0, 0] 1, word [0, 0] 1, word [1, 0, 0, 0, 0, 0] 1, word [0, 0, 0] 1, word [0, 0, 0, 0] 1,
   word [1, 1] 1, word [0, 0, 0, 0, 0] 1, word [1] 2]

/-- Its alphabet. -/
def h4Alpha : List AlphaEntry := [{ src := 0, p := .rat (4 / 5) }, { src := 128, p := .rat (1 / 5) }]

/-- A row of its jump table by column 0; `FLAG = 16`. -/
def h4Row (a b : Nat) : List Nat := [a, b, a]

/-- Its default row. -/
def h4Default : List Nat := h4Row (7 + 16) (15 + 16)

/-- Its jump table. -/
def h4Rows : List (List Nat) :=
  [h4Default, h4Default, h4Default, h4Default, h4Row 5 31, h4Row 6 31, h4Row 8 31, h4Row 9 31]
  ++ [h4Row 10 31, h4Row 11 31, h4Row 1 31, h4Row 12 31, h4Row 14 31, h4Row 2 31, h4Row 3 31, h4Row 4 13]

/-- Its source-to-Marlin table. -/
def h4S2m : List Nat := [0, 1] ++ List.replicate 254 2

/-- 96_test_vectors_more.md section 2: jump table, source-to-Marlin table, start. -/
theorem test_tables_h4 : jumpRows 4 0 2 h4Dict = h4Rows ∧ s2mBuild h4Alpha 7 = h4S2m
    ∧ posD 4 h4Dict 0 [0] = 7 := by decide +kernel

/-- 96_test_vectors_more.md section 2: two decoder records. -/
theorem test_records_h4 : (decBuild h4Alpha 7 h4Dict).getD 1 [] = bytes [128, 0, 0, 0, 0, 0, 0, 7]
    ∧ (decBuild h4Alpha 7 h4Dict).getD 2 [] = bytes [128, 128, 0, 0, 0, 0, 0, 3] := by decide +kernel

/-- The handle in the RAMs and registers. -/
def h4 : State :=
  { State.reset with
    status := { Status.reset with hvalid := true },
    handle := { HandleRegs.zero with k := 4, o := 0, a := 2, s := 7, mws := 7, start := 7 },
    alpha := .filled 0 h4Alpha, s2m := .filled 0 h4S2m, dict := .filled 0 h4Dict,
    jump := .filled 0 h4Rows.flatten, dec := .filled 0 (decBuild h4Alpha 7 h4Dict) }

/-- The handle with bytes in `SRC`, the lengths and the margin. -/
def h4With (src : List Byte) (cap blkN margin : Nat) : State :=
  { h4 with src := .filled 0 src, srcLen := src.length, dstCap := cap, blkN := blkN,
            cfg := { h4.cfg with abortMargin := margin } }

theorem filled_read {α : Type} (free : Nat → Nat → α) (e : Nat) (l : List α) (x : α) (k : Nat)
    (h : k < l.length) : (Memory.filled e l).read free k = l.getD k x := by
  have := Memory.read_writeRange_inside free (Memory.unspecified e) 0 l k h
  rw [Nat.zero_add] at this
  simpa [Memory.filled, h] using this

theorem filled_list {α : Type} (free : Nat → Nat → α) (e : Nat) (l : List α) (x : α) :
    (List.range l.length).map ((Memory.filled e l).read free) = l := by
  apply List.ext_getElem
  · simp
  · intro k h1 h2
    simp [filled_read free e l x k h2, h2]

theorem h4_alphaList : h4.alphaList = h4Alpha := filled_list _ 0 h4Alpha { src := 0, p := .rat 0 }

theorem h4_dictList : h4.dictList = h4Dict := filled_list _ 0 h4Dict (word [] 0)

theorem h4_s2m : S2mOk h4Alpha 7 (fun g => h4S2m.getD g 0) := by decide +kernel

theorem h4_dict : DictWf 4 0 2 7 h4Dict := by
  refine ⟨by decide +kernel, fun c hc => ?_⟩
  have : c = 0 := by omega
  subst this
  decide +kernel

set_option synthInstance.maxSize 1000 in
theorem h4_jump_links : ∀ i < 16, ∀ m < 2,
    JumpEntryOk 4 0 h4Dict i m (h4Rows.flatten.getD (i * 3 + m) 0) := by decide +kernel

theorem h4_jump_last : ∀ i < 16, h4Rows.flatten.getD (i * 3 + 2) 0 = h4Rows.flatten.getD (i * 3) 0 := by
  decide +kernel

theorem h4_jumpAt (x : Nat) (h : x < 48) : h4.jumpAt x = h4Rows.flatten.getD x 0 :=
  filled_read _ 0 h4Rows.flatten 0 x (by rw [show h4Rows.flatten.length = 48 by decide +kernel]; exact h)

theorem h4_handleWf : h4.HandleWf := by
  have hs : ∀ g < 256, h4.s2mAt g = h4S2m.getD g 0 := fun g hg =>
    filled_read _ 0 h4S2m 0 g (by rw [show h4S2m.length = 256 by decide +kernel]; exact hg)
  have ha : AlphaOk h4Alpha 7 := by decide +kernel
  have hd : ∀ i < 2 ^ (4 + 0), h4.decAt i = decRecord h4Alpha 7 (h4.dictAt i) := by decide +kernel
  have hp : IsPos 4 h4Dict 0 [0] 7 := by decide +kernel
  have hj : JumpOk 4 0 2 h4Dict (fun i m => h4.jumpAt (i * 3 + m)) := by
    intro i (hi : i < 16)
    refine ⟨fun m (hm : m < 2) => ?_, ?_⟩ <;> dsimp only
    · rw [h4_jumpAt _ (by omega)]
      exact h4_jump_links i hi m hm
    · rw [h4_jumpAt _ (by omega), h4_jumpAt _ (by omega)]
      exact h4_jump_last i hi
  have regs : (4 ≤ h4.hK ∧ h4.hK ≤ h4.inst.kMax ∧ h4.hO < h4.hK ∧ h4.hK + h4.hO ≤ h4.inst.koMax ∧ h4.hS ≤ 7)
      ∧ 2 ≤ h4.hA ∧ h4.hA ≤ min 256 (2 ^ h4.hK - 1) ∧ h4.hMws ∈ mwsSupported := by decide +kernel
  obtain ⟨⟨r1, r2, r3, r4, r5⟩, r6, r7, r8⟩ := regs
  refine ⟨r1, r2, r3, r4, r5, r6, r7, r8, h4_alphaList ▸ ha, ?_, h4_dictList ▸ h4_dict, h4_dictList ▸ hj,
    h4_alphaList ▸ hd, h4_dictList ▸ hp⟩
  rw [h4_alphaList]
  intro g hg
  rw [hs g hg]
  exact h4_s2m g hg

theorem h4With_handleWf (src : List Byte) (cap blkN margin : Nat) : (h4With src cap blkN margin).HandleWf :=
  h4_handleWf

/-- A block of 64 bytes, all of symbol 0, its codewords and its frame. -/
def e64 : List Byte := (List.range 64).map (BitVec.ofNat 8)

def cws64 : List Nat := List.replicate 10 3 ++ [14]

def frame64 : List Byte := frameOf 4 64 [] cws64 [] (pextPlane e64 7)

/-- The frame without its last codeword. -/
def short64 : List Byte := frameOf 4 64 [] (List.replicate 10 3) [] (pextPlane e64 7)

/-- A frame of 128 bytes with a rare entry beyond the block. -/
def e128 : List Byte := (List.range 128).map (BitVec.ofNat 8)

def cws128 : List Nat := List.replicate 21 3 ++ [11]

def beyond128 : List Byte := frameOf 4 128 [] cws128 [{ offset := 200, value := 1 }] (pextPlane e128 7)

/-! ### Witnesses: for each statement with hypotheses, a state and operands that meet them together -/

theorem witness_StepRunsDecodedCommand :
    ((running 0x10#32 .reset).status.busy = true ∧ (running 0x10#32 .reset).hostWaits
        ∧ decode (running 0x10#32 .reset).cmd = .ok .build)
      ∧ State.reset.status.busy = false ∧ State.reset.host = [] := by
  refine ⟨⟨rfl, ?_, by decide⟩, rfl, rfl⟩
  intro e h
  cases h

theorem witness_CmdWriteStartsCommand :
    (pending (act (.writeReg 0 (.word 0x30#32)))).status.busy = false
      ∧ (pending (act (.writeReg 0 (.word 0x30#32)))).host
          = { early := false, action := .writeReg 0 (.word 0x30#32) } :: [] := ⟨rfl, rfl⟩

/-- Both kinds of illegal word, at the smallest `RSV` and next to a legal `OPC`. -/
theorem witness_IllegalCommandReported :
    ((running 0x100#32 .reset).status.busy = true ∧ (running 0x100#32 .reset).host.head? = none
        ∧ (running 0x100#32 .reset).cmd.toNat / 256 ≠ 0)
      ∧ (running 0x02#32 .reset).status.busy = true
      ∧ (running 0x02#32 .reset).cmd.toNat % 256 ∉ [0x00, 0x01, 0x10, 0x20, 0x21, 0x30, 0x31] := by
  decide

/-- Numbers 2 and 5, the ends of the range. -/
theorem witness_ConfigWritesKeepListedFields :
    State.reset.status.busy = false
      ∧ ((2, 0x00001F1F#32) : Nat × Word32) ∈ [(2, 0x00001F1F#32), (3, 0x80000007#32), (4, 0x800003FF#32),
          (5, 0x0000FFFF#32)]
      ∧ (pending (act (.writeReg 2 (.word 0xFFFFFFFF#32)))).host
          = { early := false, action := .writeReg 2 (.word 0xFFFFFFFF#32) } :: []
      ∧ (pending (act (.writeReg 5 (.word 7)))).host
          = { early := false, action := .writeReg 5 (.word 7) } :: [] := by decide

/-- The largest length, at numbers 7 and 10, and the probability 0. -/
theorem witness_LengthAndPurgeWritesReadBack :
    State.reset.status.busy = false
      ∧ (7 ≤ 7 ∧ 7 ≤ 10 ∧ 2 ^ 64 - 1 < 2 ^ State.reset.inst.lenw)
      ∧ (pending (act (.writeReg 7 (.num (2 ^ 64 - 1))))).host
          = { early := false, action := .writeReg 7 (.num (2 ^ 64 - 1)) } :: []
      ∧ (pending (act (.writeReg 10 (.num 0)))).host = { early := false, action := .writeReg 10 (.num 0) } :: []
      ∧ (0 : ℚ) ≤ 0 ∧ { Config.suggested with numerics := .rounding 1 }.numerics ≠ .exact
      ∧ (pending (act (.writeReg 6 (.prob (.rat 0))))).host = { early := false, action := .writeReg 6 (.prob (.rat 0)) } :: [] := by
  decide +kernel

/-- Registers 1, 11 and 21, the last entry of a table, reads of the last register and at both ends of a space. -/
theorem witness_IgnoredWritesAndReadsChangeNothing :
    State.reset.status.busy = false
      ∧ (∀ n ∈ [1, 11, 21], (pending (act (.writeReg n (.word 5)))).host
          = { early := false, action := .writeReg n (.word 5) } :: [])
      ∧ 255 + (HostData.nums [7]).count ≤ Space.size Config.suggested .s2m
      ∧ State.reset.registerContents[0]? = some (.word 0) ∧ State.reset.registerContents[21]? = some (.word 0)
      ∧ State.reset.registerContents[2]? = some (.word 0x208#32)
      ∧ (pending (act (.readReg 21))).host = { early := false, action := .readReg 21 } :: []
      ∧ (Space.alpha, HostData.alphas []) ∈ State.reset.ramContents 256 0
      ∧ (pending (act (.readRam .alpha 256 0))).host = { early := false, action := .readRam .alpha 256 0 } :: []
      ∧ 256 + 0 ≤ Space.size Config.suggested .alpha ∧ 255 + 1 ≤ Space.size Config.suggested .pmf := by
  decide +kernel

theorem witness_BufferWritesReadBack :
    State.reset.status.busy = false ∧ 1048574 + (bytes [1, 2]).length ≤ State.reset.inst.srcSize
      ∧ 0 + (bytes []).length ≤ State.reset.inst.dstSize
      ∧ (∀ p ∈ [Prob.rat 1], p = .rat 1) ∧ (0 : ℚ) ≤ 1 ∧ 255 + [Prob.rat 1].length ≤ 256
      ∧ (pending (act (.writeRam .src 1048574 (.bytes (bytes [1, 2]))))).host
          = { early := false, action := .writeRam .src 1048574 (.bytes (bytes [1, 2])) } :: [] := by
  decide +kernel

/-- The first number and the first entry beyond the end; a number for a word register at both ends, a word for a
length register at both ends, a negative probability, bytes for `PMF` and probabilities for `SRC`. -/
theorem witness_AccessBeyondEndStops :
    State.reset.status.busy = false ∧ 22 ≤ 22
      ∧ (pending (act (.readReg 22))).host = { early := false, action := .readReg 22 } :: []
      ∧ Space.size Config.suggested .pmf < 256 + 1
      ∧ (pending (act (.readRam .pmf 256 1))).host = { early := false, action := .readRam .pmf 256 1 } :: []
      ∧ (pending (act (.readRam .rare 0 1))).host = { early := false, action := .readRam .rare 0 1 } :: []
      ∧ (∀ n ∈ [0, 2, 5], (pending (act (.writeReg n (.num 1)))).host
          = { early := false, action := .writeReg n (.num 1) } :: [])
      ∧ (∀ n ∈ [7, 10], (pending (act (.writeReg n (.word 1)))).host
          = { early := false, action := .writeReg n (.word 1) } :: [])
      ∧ (pending (act (.writeReg 6 (.prob (.rat (-1)))))).host = { early := false, action := .writeReg 6 (.prob (.rat (-1))) } :: []
      ∧ 0 + (HostData.bytes [1]).count ≤ Space.size Config.suggested .pmf
      ∧ 0 + (HostData.probs [.rat 1]).count ≤ Space.size Config.suggested .src := by
  decide +kernel

/-- A write of the wrong type is refused. -/
theorem test_wrong_type : (∀ a ∈ [HostAction.writeReg 0 (.num 1), .writeReg 10 (.word 1), .writeReg 6 (.prob (.rat (-1))),
      .writeRam .pmf 0 (.probs [.rat (-1)]), .writeRam .src 0 (.probs [.rat 1])],
    step (pending (act a)) = .refused .wrongType) := by
  intro a ha
  fin_cases ha <;> rfl

theorem witness_BusyHazardRefused :
    (running 0 .reset).status.busy = true
      ∧ HostAction.readReg 11 ≠ .readReg 1 ∧ HostAction.readReg 11 ≠ .reset
      ∧ ({ running 0 .reset with host := [{ early := true, action := .readReg 1 }] } : State).host
          = { early := true, action := .readReg 1 } :: [] := by decide

theorem witness_ResetInputResets :
    (pending (act .reset)).host = { early := false, action := .reset } :: []
      ∧ (pending (act .reset)).status.busy = false
      ∧ ({ running 0x20#32 h4 with host := [{ early := true, action := .reset }] } : State).status.busy = true := by
  decide

theorem witness_ObedientHostNeverStopped :
    (pending [{ early := false, action := .writeReg 6 (.prob (.rat (1 / 50))) },
      { early := false, action := .writeReg 0 (.word 0x10#32) }]).hostObeys := by decide +kernel

/-- `PEXT` of one group, `S = 3`, without and with an error; `ENCODE` of one byte, and without a handle; `PDEP` of
one group. -/
theorem witness_CommandWritesInsideItsBuffer :
    exec .pext (plane 3 group26 ones 8 0) = .next (after .pext (plane 3 group26 ones 8 0))
      ∧ (after .pext (plane 3 group26 ones 8 0)).status.report = none
      ∧ (after .pext (plane 3 group26 ones 12 0)).status.report ≠ none
      ∧ (after .encode (h1With (bytes [7]) 1 0 0)).status.report = none
      ∧ (after .encode State.reset).status.report ≠ none
      ∧ exec .pdep (plane 3 group26 ones 3 8) = .next (after .pdep (plane 3 group26 ones 3 8)) :=
  ⟨exec_after _ _, rfl, by decide, by decide +kernel, by decide, exec_after _ _⟩

/-- Memories that differ at `SRC_LEN`. -/
theorem witness_CommandReadsSourceBelowLength :
    exec .pext (plane 3 group26 [] 8 0) = .next (after .pext (plane 3 group26 [] 8 0))
      ∧ ∀ a < (plane 3 group26 [] 8 0).srcLen,
          ({ plane 3 group26 [] 8 0 with src := .filled 0 (group26 ++ [1]) } : State).srcAt a
            = (plane 3 group26 [] 8 0).srcAt a := ⟨exec_after _ _, by decide +kernel⟩

theorem witness_HandleNotDisturbedByConfig :
    exec .encode (h4With e64 64 0 0) = .next (after .encode (h4With e64 64 0 0))
      ∧ ({ CfgRegs.reset with k := 9, abortMargin := 0 } : CfgRegs).abortMargin
          = (h4With e64 64 0 0).cfg.abortMargin
      ∧ exec .decode (h4With frame64 0 64 0) = .next (after .decode (h4With frame64 0 64 0))
      ∧ Instr.pdep ∈ [Instr.encode, .decode, .pext, .pdep] :=
  ⟨exec_after _ _, rfl, exec_after _ _, by decide⟩

/-- One error of each command that has one. -/
theorem witness_ErrorLeavesStateAsStated :
    (after .encode .reset).status.report = some .noHandle
      ∧ (after .decode (h4With short64 0 64 0)).status.report = some (.frame .symbolCount)
      ∧ (after .build (config h1Pmf 3 0 5 3 3)).status.report = some (.construction .badKo)
      ∧ (after .pext (plane 3 group26 [] 12 0)).status.report = some .badLength := by decide +kernel

/-- A started command whose step is the meaning of its word. -/
theorem step_running (i : Instr) (s : State) :
    step (running (encode i) s) = .next (after i (running (encode i) s)) := by
  have hd : decode (encode i) = .ok i := by cases i <;> decide
  change runCommand (running (encode i) s) = _
  unfold runCommand
  rw [show (running (encode i) s).cmd = encode i from rfl, hd]
  exact exec_after _ _

theorem witness_TablesChangeOnlyByBuild :
    step (running (encode .build) h1Config) = .next (after .build (running (encode .build) h1Config))
      ∧ (running (encode .build) h1Config).status.hvalid = false
      ∧ (after .build (running (encode .build) h1Config)).status.hvalid = true :=
  ⟨step_running _ _, rfl, by decide +kernel⟩

/-- 70_reset_and_hazards.md R350: an early `STATUS` read while `BUILD` is latched leaves the handle. -/
theorem test_early_status_read :
    let s := { running (encode .build) h4 with host := [{ early := true, action := .readReg 1 }] }
    step s = .next { s with host := [], reply := some (.inl (.word s.status.word)) } := rfl

theorem witness_StepKeepsWellFormed :
    (running (encode .encode) (h4With e64 64 0 0)).wf
      ∧ step (running (encode .encode) (h4With e64 64 0 0))
          = .next (after .encode (running (encode .encode) (h4With e64 64 0 0))) := by
  refine ⟨⟨?_, ?_, ?_, ?_, ?_, ?_, ?_, ?_, ?_⟩, step_running _ _⟩ <;> decide +kernel

theorem witness_StepKeepsBounds :
    (running (encode .encode) (h4With e64 64 0 0)).inst.ok
      ∧ (running (encode .encode) (h4With e64 64 0 0)).inBounds
      ∧ step (running (encode .encode) (h4With e64 64 0 0))
          = .next (after .encode (running (encode .encode) (h4With e64 64 0 0))) :=
  ⟨by decide +kernel, by decide +kernel, step_running _ _⟩

theorem witness_StepKeepsHandleWellFormed :
    (running (encode .encode) (h4With e64 64 0 0)).inst.ok
      ∧ (running (encode .encode) (h4With e64 64 0 0)).HandleWf
      ∧ step (running (encode .encode) (h4With e64 64 0 0))
          = .next (after .encode (running (encode .encode) (h4With e64 64 0 0)))
      ∧ (after .encode (running (encode .encode) (h4With e64 64 0 0))).status.hvalid = true :=
  ⟨by decide +kernel, h4_handleWf, step_running _ _, by decide +kernel⟩

/-- Each clause next to the value that passes: B1, B2, B3, B4, B6, B7 of 95_test_vectors.md section 2.8. -/
theorem witness_BuildRejectsInOrder :
    ¬ (config (List.replicate 256 (.rat 0)) 4 1 5 3 3).pmfOk
      ∧ ¬ (config (List.replicate 255 (.rat 0) ++ [.rat 1]) 4 1 5 3 3).pmfOk
      ∧ ((config h1Pmf 3 0 5 3 0).pmfOk ∧ ¬ (config h1Pmf 3 0 5 3 0).koOk)
      ∧ ¬ (config h1Pmf 8 8 5 3 3).koOk ∧ ¬ (config h1Pmf 17 0 5 3 3).koOk
      ∧ ((config h1Pmf 4 3 5 3 0).koOk ∧ (config h1Pmf 4 3 5 3 0).cfg.iter = 0)
      ∧ ((config h1Pmf 4 1 5 5 1).koOk ∧ (config h1Pmf 4 1 5 5 1).cfg.iter ≠ 0
          ∧ ¬ (config h1Pmf 4 1 5 5 1).mwsOk)
      ∧ (config h1Pmf 4 1 5 5 1).inst.numerics = .exact := by decide +kernel

/-- 15 words for 16 slots (B8 of 95_test_vectors.md section 2.8), and H1. -/
theorem witness_BuildFailsExactlyWithoutEnoughWords :
    ((config h1Pmf 4 0 7 3 1).configOk
        ∧ wordCount ((config h1Pmf 4 0 7 3 1).buildInput.alphabet 7).1.length (min 3 255) = 15)
      ∧ (config h1Pmf 4 0 7 7 1).configOk
      ∧ wordCount ((config h1Pmf 4 0 7 7 1).buildInput.alphabet 7).1.length (min 7 255) = 255
      ∧ autoS (config h1Pmf 4 0 7 3 1).buildInput (config h1Pmf 4 0 7 3 1).cfg = 7
      ∧ autoMws (config h1Pmf 4 0 7 3 1).buildInput (config h1Pmf 4 0 7 3 1).cfg 7 = 3 := by decide +kernel

theorem witness_BuildWritesHandleRegisters :
    exec .build (config h1Pmf 4 0 7 7 1) = .next (after .build (config h1Pmf 4 0 7 7 1))
      ∧ (after .build (config h1Pmf 4 0 7 7 1)).status.hvalid = true
      ∧ (config h1Pmf 4 0 7 7 1).inst.numerics = .exact := ⟨exec_after _ _, by decide +kernel, rfl⟩

theorem witness_BuildLeavesWellFormedHandle :
    (config h1Pmf 4 0 7 7 1).inst.ok
      ∧ exec .build (config h1Pmf 4 0 7 7 1) = .next (after .build (config h1Pmf 4 0 7 7 1))
      ∧ (after .build (config h1Pmf 4 0 7 7 1)).status.hvalid = true :=
  ⟨by decide +kernel, exec_after _ _, by decide +kernel⟩

theorem witness_AlphabetProperties : h1Pmf.length = 256 ∧ (h1Pmf.map Prob.toRat).sum = 1 ∧ 0 ≤ 7 ∧ 7 ≤ 7
    ∧ asRationals .exact ((groupPmf .exact h1Pmf 5).map AlphaEntry.p) ∧ Config.Numerics.rounding 1 ≠ .exact := by decide +kernel

/-- 8 buckets for `max(2^O, 8) = 8`; 4 buckets for 8; and the extreme `S = 7`. -/
theorem witness_AlphabetBounds :
    (4 ≤ 4 ∧ 3 < 4 ∧ 5 ≤ 7 ∧ max (2 ^ 3) 8 ≤ 2 ^ (8 - 5)) ∧ 2 ^ (8 - 6) < max (2 ^ 3) 8
      ∧ 2 ^ (8 - 7) < max (2 ^ 0) 8 := by decide

/-- A supplied `S` and `maxWordSize`, and an automatic `S` whose sweep ends below 5 (test_autosel_sweep); an
automatic `maxWordSize` that stays 3 and one that becomes 15; a candidate that can be built and one that cannot. -/
theorem witness_AutomaticChoice : stair.num = .exact ∧ CfgRegs.reset.sAuto = true ∧ CfgRegs.reset.mwsAuto = true
      ∧ h1Config.cfg.sAuto = false ∧ h1Config.cfg.mwsAuto = false ∧ h1Config.buildInput.num = .exact
      ∧ (stair.bpsOf 1 3 = some (.rat (45 / 8)) ∧ stair.bpsOf 1 7 = some (.rat (45 / 8)))
      ∧ (config h1Pmf 4 0 7 3 1).buildInput.dictionary 7 3 = none
      ∧ ((config h1Pmf 4 0 7 3 1).buildInput.dictionary 7 7).isSome = true := by
  refine ⟨rfl, rfl, rfl, rfl, rfl, rfl, test_autosel_bps, ?_, ?_⟩ <;> decide +kernel

/-- A tree of one node: nothing left to do, nothing left to take, the node to retire and the node to split. -/
theorem witness_QueueTakesLargestThenOldest :
    let n : Node := { word := [0], p := .rat 1, degree := 0, retired := false }
    popBest .exact [n] 0 = some (0, n) ∧ asRationals (.rounding 1) ([n].map Node.p) ∧ 2 ^ 0 ≤ [n].length ∧ [n].length < 2 ^ 1
      ∧ (∀ x ∈ [{ n with retired := true }], x.retired = true)
      ∧ (1 ≤ n.word.length ∧ 0 < n.word.length) ∧ ¬ (2 ≤ n.word.length ∧ 0 < n.word.length)
      ∧ n.word.length ≠ 255 ∧ n.degree ≠ 2
      ∧ [Prob.rat 1, .rat 0].length = h4Alpha.length := by decide +kernel

theorem witness_TrimStopsWhereItsTestFails : asRationals (.rounding 1) [.rat 0, .rat 1] := by decide +kernel

theorem witness_SortedWordsInOrder : ((h1Dict.take 16).map DictWord.syms).Nodup
    ∧ asRationals (.rounding 1) ((h1Dict.take 16).map DictWord.p) := by decide +kernel

theorem witness_PackFillsByResidue : 1 ≤ 4 ∧ (h1Dict.take 16).length = 2 ^ 4 := by decide +kernel

/-- The dictionary of 96_test_vectors_more.md section 2 after one pass, and its one chapter; a vector of sum 0. -/
theorem witness_DictionaryMassIsOne :
    let b : BuildInput := { num := .exact, pmf := h1Pmf, k := 4, o := 0, purge := .rat 0, iters := 1 }
    let c := buildParams .exact (b.alphabet 7).1 (b.alphabet 7).2 4 0 7
    b.num = .exact ∧ b.pmf.length = 256 ∧ (b.pmf.map Prob.toRat).sum = 1 ∧ (∀ p ∈ b.pmf, 0 ≤ p.toRat) ∧ 4 ≤ b.k ∧ b.o < b.k
      ∧ 1 ≤ b.iters
      ∧ 7 ≤ 7 ∧ b.dictionary 7 7 = some ((b.dictionary 7 7).getD [])
      ∧ c.num = .exact ∧ c.o ≤ c.k ∧ c.alpha.length < 2 ^ c.k
      ∧ buildChapter c [.rat 1, .rat 0] = some ((buildChapter c [.rat 1, .rat 0]).getD [])
      ∧ 0 < h4Alpha.length ∧ ([.rat 0, .rat 0].map Prob.toRat).sum = 0 ∧ ([.rat 1, .rat 0].map Prob.toRat).sum ≠ 0 ∧ 0 < 2 ^ 0 := by
  decide +kernel

theorem witness_DictionaryStructure :
    let b : BuildInput := { num := .exact, pmf := h1Pmf, k := 4, o := 0, purge := .rat 0, iters := 1 }
    4 ≤ b.k ∧ b.o < b.k ∧ 1 ≤ b.iters ∧ 7 ≤ 7 ∧ 7 ∈ [3, 7, 15, 31, 63, 127, 255, 511]
      ∧ b.dictionary 7 7 = some ((b.dictionary 7 7).getD []) := by decide +kernel

theorem witness_JumpTableFinished : 0 < 2 ∧ DictWf 4 0 2 7 h4Dict := ⟨by decide, h4_dict⟩

theorem witness_DecoderRecords : DictWf 4 0 2 7 h4Dict := h4_dict

theorem witness_SourceToMarlinTable : AlphaOk h4Alpha 7 ∧ 7 ≤ 7 ∧ h4Alpha.length ≤ 256 := by decide +kernel

/-- Each check at the first value that fails it. -/
theorem witness_BlockChecksInOrder :
    State.reset.status.hvalid = false
      ∧ (h4With [] 1048577 0 0).status.hvalid = true
      ∧ (h4With [] 1048577 0 0).inst.dstSize < (h4With [] 1048577 0 0).dstCap
      ∧ ((h4With e64 63 0 0).srcLen ≤ (h4With e64 63 0 0).inst.srcSize
          ∧ (h4With e64 63 0 0).dstCap ≤ (h4With e64 63 0 0).inst.dstSize
          ∧ (h4With e64 63 0 0).dstCap < (h4With e64 63 0 0).srcLen)
      ∧ (h4With [] 0 1048577 0).inst.dstSize < (h4With [] 0 1048577 0).blkN := by decide +kernel

/-- Blocks of 0, 1 and 3 equal bytes. -/
theorem witness_EncodeEmptyAndConstant :
    ((h4With [] 0 0 0).canEncode ∧ (h4With [] 0 0 0).srcLen = 0)
      ∧ ((h4With (bytes [7]) 1 0 0).canEncode ∧ 0 < (h4With (bytes [7]) 1 0 0).srcLen
          ∧ ¬ (h4With (bytes [7]) 1 0 0).notConstant)
      ∧ (h4With (bytes [7, 7, 7]) 5 0 0).canEncode ∧ ¬ (h4With (bytes [7, 7, 7]) 5 0 0).notConstant := by
  decide +kernel

/-- A handle that keeps no group: every byte is rare. -/
def allRare (src : List Byte) : State :=
  { h4With src src.length 0 0 with handle := { h4.handle with a := 0 }, s2m := .filled 0 (List.replicate 2 0) }

/-- 2 and 7 bytes; 8 bytes with a budget of 0 and a margin of 1; 256 rare bytes. -/
theorem witness_EncodeStoresRaw :
    ((h4With (bytes [1, 2]) 2 0 0).canEncode ∧ (h4With (bytes [1, 2]) 2 0 0).notConstant
        ∧ (h4With (bytes [1, 2]) 2 0 0).srcLen < 8)
      ∧ ((h4With e1 8 0 1).canEncode ∧ (h4With e1 8 0 1).notConstant ∧ 8 ≤ (h4With e1 8 0 1).srcLen
          ∧ (h4With e1 8 0 1).srcLen - (h4With e1 8 0 1).srcLen % 8 - 1
              - ((h4With e1 8 0 1).srcLen - (h4With e1 8 0 1).srcLen % 8) * (h4With e1 8 0 1).hS / 8
              < (h4With e1 8 0 1).cfg.abortMargin)
      ∧ (allRare ((List.range 256).map (BitVec.ofNat 8))).canEncode
      ∧ (allRare ((List.range 256).map (BitVec.ofNat 8))).notConstant
      ∧ 255 < (allRare ((List.range 256).map (BitVec.ofNat 8))).rares.length := by decide +kernel

theorem witness_EncodeFrames : (h4With e64 64 0 0).canEncode ∧ 1 ≤ (h4With e64 64 0 0).hK := by decide +kernel

theorem witness_CodedFrameSpellsBlock :
    (h4With e64 64 0 0).inst.ok ∧ (h4With e64 64 0 0).HandleWf ∧ (h4With e64 64 0 0).canEncode
      ∧ exec .encode (h4With e64 64 0 0) = .next (after .encode (h4With e64 64 0 0))
      ∧ (after .encode (h4With e64 64 0 0)).status.kind = .coded :=
  ⟨by decide +kernel, h4With_handleWf _ _ _ _, by decide +kernel, exec_after _ _, by decide +kernel⟩

/-- Coded in 63 bytes of 64 without a margin; raw with a margin of 4 (a budget of 7, before byte 48 four of its
bytes are used); 8 bytes that cannot be shortened. -/
theorem witness_EncodeChoosesFrame :
    let s := h4With e64 64 0 0
    let r := h4With e1 8 0 0
    (s.inst.ok ∧ s.HandleWf ∧ s.canEncode ∧ s.notConstant ∧ 8 ≤ s.srcLen)
      ∧ (s.rares.length ≤ 255 ∧ s.cfg.abortMargin = 0 ∧ ¬ s.aborts cws64 ∧ s.spells cws64
          ∧ (s.codedWith cws64).length = 63)
      ∧ ((h4With e64 64 0 4).spells cws64 ∧ (h4With e64 64 0 4).aborts cws64)
      ∧ r.canEncode ∧ r.notConstant ∧ 8 ≤ r.srcLen ∧ r.spells [3, 11] ∧ (r.codedWith [3, 11]).length = 9 := by
  refine ⟨⟨?_, h4With_handleWf _ _ _ _, ?_⟩, ?_⟩ <;> decide +kernel

/-- The widest codewords the register takes. -/
theorem witness_EmittedBytesAreTheStream : 25 ≤ 25 ∧ (∀ c ∈ [2 ^ 25 - 1, 0], c < 2 ^ 25)
    ∧ EncRegs.zero.val = 0 ∧ EncRegs.zero.nbits = 0 ∧ EncRegs.zero.ocur = 0 := by decide

/-- Widths on both sides of 8, with a zero fill that holds a codeword for 4. -/
theorem witness_StreamReadsBack : (1 ≤ 4 ∧ ∀ c ∈ [15], c < 2 ^ 4) ∧ unitsOf 4 (streamOf 4 [15]).length = 2
    ∧ (1 ≤ 8 ∧ ∀ c ∈ [255], c < 2 ^ 8) ∧ unitsOf 8 (streamOf 8 [255]).length = 1 := by decide +kernel

/-- Raw with 0 and 1 byte, constant for 0 and 2 bytes, 2 bytes for a block of 1. -/
theorem witness_DecodeByLength :
    ((h4With [] 0 0 0).canDecode ∧ (h4With [] 0 0 0).srcLen = (h4With [] 0 0 0).blkN)
      ∧ ((h4With (bytes [7]) 0 1 0).canDecode ∧ (h4With (bytes [7]) 0 1 0).srcLen = (h4With (bytes [7]) 0 1 0).blkN)
      ∧ ((h4With (bytes [7]) 0 0 0).srcLen = 1 ∧ (h4With (bytes [7]) 0 0 0).blkN ≠ 1)
      ∧ ((h4With (bytes [7]) 0 2 0).srcLen = 1 ∧ (h4With (bytes [7]) 0 2 0).blkN ≠ 1)
      ∧ ((h4With [] 0 1 0).canDecode ∧ (h4With [] 0 1 0).srcLen = 0 ∧ 0 < (h4With [] 0 1 0).blkN)
      ∧ (h4With (bytes [7, 8]) 0 1 0).canDecode ∧ (h4With (bytes [7, 8]) 0 1 0).srcLen ≠ 1
      ∧ (h4With (bytes [7, 8]) 0 1 0).blkN < (h4With (bytes [7, 8]) 0 1 0).srcLen := by decide +kernel

/-- `pad + 1 + PL = 57` for a block of 64 bytes: 56 bytes, and 57 bytes with a rare count of 1. -/
theorem witness_DecodeRejectsLayout :
    ((h4With (frame64.take 56) 0 64 0).canDecode ∧ (h4With (frame64.take 56) 0 64 0).srcLen ≠ 1
        ∧ (h4With (frame64.take 56) 0 64 0).srcLen < 64 % 8 + 1 + (64 - 64 % 8) * 7 / 8)
      ∧ (h4With (bytes [1] ++ frame64.drop 7) 0 64 0).canDecode
      ∧ 64 % 8 + 1 + (64 - 64 % 8) * 7 / 8 ≤ (h4With (bytes [1] ++ frame64.drop 7) 0 64 0).srcLen
      ∧ (h4With (bytes [1] ++ frame64.drop 7) 0 64 0).srcLen < 64 % 8 + 1 + (64 - 64 % 8) * 7 / 8
          + ((h4With (bytes [1] ++ frame64.drop 7) 0 64 0).srcAt 0).toNat * (1 + 1) := by decide +kernel

/-- All three outcomes: 65 symbols of 65, the zero fill read as a twelfth codeword; 60 of 65; 129 of 129 with a rare
offset of 200. -/
theorem witness_DecodeReadsFrame :
    let s := h4With frame64 0 64 0
    let short := h4With short64 0 64 0
    let beyond := h4With beyond128 0 128 0
    (s.inst.ok ∧ s.HandleWf ∧ s.canDecode ∧ ([] : List Byte).length = 64 % 8
        ∧ ReadsAs s.hK (streamOf 4 cws64) (cws64 ++ [0]) ∧ (pextPlane e64 7).length = planeLen 64 7
        ∧ s.source = frameWith 64 [] (streamOf 4 cws64) [] (pextPlane e64 7) ∧ s.srcLen ≠ 1 ∧ s.srcLen < 64
        ∧ (s.wordsOf (cws64 ++ [0])).length = 64 - 64 % 8 + 1)
      ∧ (short.canDecode ∧ ReadsAs 4 (streamOf 4 (List.replicate 10 3)) (List.replicate 10 3)
          ∧ short.source = frameWith 64 [] (streamOf 4 (List.replicate 10 3)) [] (pextPlane e64 7)
          ∧ (short.wordsOf (List.replicate 10 3)).length ≠ 64 - 64 % 8 + 1)
      ∧ beyond.canDecode ∧ ReadsAs 4 (streamOf 4 cws128) cws128 ∧ beyond.srcLen < 128
      ∧ 200 < 256 ^ offsetWidth 128 ∧ (pextPlane e128 7).length = planeLen 128 7
      ∧ (beyond.wordsOf cws128).length = 128 - 128 % 8 + 1 ∧ 128 ≤ 200 := by
  refine ⟨⟨?_, h4With_handleWf _ _ _ _, ?_⟩, ?_, ?_⟩ <;> decide +kernel

theorem witness_DecodeRobust : (h4With short64 0 64 0).canDecode := by decide +kernel

/-- The frame of 63 bytes, carried to a later state of the same handle. -/
theorem witness_RoundTrip :
    let s := h4With e64 64 0 0
    let t := after .encode s
    let u := h4With frame64 0 64 16
    s.inst.ok ∧ s.HandleWf ∧ s.canEncode ∧ exec .encode s = .next t ∧ u.inst = s.inst ∧ u.status.hvalid = true
      ∧ u.handle = s.handle ∧ u.alpha = s.alpha ∧ u.dec = s.dec ∧ u.srcLen = t.result
      ∧ u.source = t.readDst 0 t.result ∧ u.blkN = s.srcLen :=
  ⟨by decide +kernel, h4With_handleWf _ _ _ _, by decide +kernel, exec_after _ _, rfl, rfl, rfl, rfl, rfl,
    by decide +kernel, by decide +kernel, rfl⟩

theorem witness_GroupBitPositions :
    group26.length = 8 ∧ (bytes [0x78, 0x15, 0x70]).length = 3 ∧ 3 ≤ 7 ∧ 7 < 8 ∧ 2 < 3 ∧ 3 ≤ 7 := by decide

/-- `h` agrees with the group in the high 5 bits. -/
theorem witness_ResidualLaws :
    group26.length = 8 ∧ (bytes [0, 0xF8, 0xA0, 0x58, 0, 0x80, 0x38, 0xC0]).length = 8
      ∧ (bytes [0x78, 0x15, 0x70]).length = 3 ∧ 3 ≤ 7
      ∧ ∀ i < 8, ((bytes [0, 0xF8, 0xA0, 0x58, 0, 0x80, 0x38, 0xC0]).getD i 0).toNat >>> 3
          = (group26.getD i 0).toNat >>> 3 := by decide

theorem witness_PlaneLaw :
    8 ∣ (group26 ++ ones).length ∧ 3 ≤ 7 ∧ (pextPlane (group26 ++ ones) 3).length = (group26 ++ ones).length * 3 / 8
      ∧ ∀ i < (group26 ++ ones).length,
          ((group26 ++ ones).getD i 0).toNat >>> 3 = ((group26 ++ ones).getD i 0).toNat >>> 3 := by decide +kernel

/-- 8 bytes pass, 12 are no whole groups, and nothing at all passes. -/
theorem witness_PextResult :
    ((plane 3 group26 [] 8 0).srcLen ≤ (plane 3 group26 [] 8 0).inst.srcSize
        ∧ (plane 3 group26 [] 8 0).srcLen % 8 = 0
        ∧ (plane 3 group26 [] 8 0).srcLen * 3 / 8 ≤ (plane 3 group26 [] 8 0).inst.dstSize)
      ∧ (plane 3 group26 [] 12 0).srcLen % 8 ≠ 0 ∧ (plane 0 [] [] 0 0).srcLen % 8 = 0
      ∧ (plane 0 [] [] 1048584 0).inst.srcSize < (plane 0 [] [] 1048584 0).srcLen := by decide +kernel

/-- The lengths 3 and 8 fit `S = 3`; 5 for 16 do not. -/
theorem witness_PdepResult :
    ((plane 3 [] ones 3 8).blkN ≤ (plane 3 [] ones 3 8).inst.dstSize ∧ (plane 3 [] ones 3 8).blkN % 8 = 0
        ∧ (plane 3 [] ones 3 8).srcLen ≤ (plane 3 [] ones 3 8).inst.srcSize
        ∧ (plane 3 [] ones 3 8).srcLen = (plane 3 [] ones 3 8).blkN * 3 / 8)
      ∧ (plane 3 [] ones 5 16).srcLen ≠ (plane 3 [] ones 5 16).blkN * 3 / 8
      ∧ (plane 3 [] ones 0 12).blkN % 8 ≠ 0 := by decide +kernel

end Sys2Proof.Tests
end

section
/-! Proofs for 40_build_alphabet.md: how many entries `GROUP`, `SORTALPHA` and `TRIM` leave (R133 to R136). -/

namespace Sys2Proof.Proofs

open Sys2Proof Sys2Proof.Machine

/-! ### The lengths of `GROUP` and `SORTALPHA` -/

@[simp] theorem length_groupPmf (num : Config.Numerics) (pmf : List Prob) (s : Nat) :
    (groupPmf num pmf s).length = 2 ^ (8 - s) := by
  simp [groupPmf]

@[simp] theorem length_sortAlpha (num : Config.Numerics) (l : List AlphaEntry) :
    (sortAlpha num l).length = l.length :=
  List.length_insertionSort _ l

/-! ### The length `TRIM` stops at -/

section Trim

variable (num : Config.Numerics) (k o : Nat) (purge : Prob)

theorem length_trimTail_le (l : List AlphaEntry) (rare : Prob) :
    (trimTail num k o purge l rare).1.length ≤ l.length := by
  induction l generalizing rare with
  | nil => simp [trimTail]
  | cons e rest ih =>
    rw [trimTail]
    split
    · exact (ih _).trans (Nat.le_succ _)
    · exact le_rfl

theorem trimTail_of_length_le_minMarlin (l : List AlphaEntry) (rare : Prob) (h : l.length ≤ minMarlin o) :
    trimTail num k o purge l rare = (l, rare) := by
  cases l with
  | nil => rfl
  | cons e rest => rw [trimTail, if_neg fun test => test.1.not_ge h]

theorem minMarlin_le_length_trimTail (l : List AlphaEntry) (rare : Prob) (h : minMarlin o ≤ l.length) :
    minMarlin o ≤ (trimTail num k o purge l rare).1.length := by
  induction l generalizing rare with
  | nil => exact h
  | cons e rest ih =>
    rw [trimTail]
    split
    next test => exact ih _ (Nat.le_of_lt_succ test.1)
    next => exact h

/-- The loop's test fails where it stops, so a list still above `maxMarlin` is not above `minMarlin`. -/
theorem length_trimTail_le_max (l : List AlphaEntry) (rare : Prob) :
    (trimTail num k o purge l rare).1.length ≤ max (minMarlin o) (maxMarlin k) := by
  induction l generalizing rare with
  | nil => simp [trimTail]
  | cons e rest ih =>
    rw [trimTail]
    split
    next => exact ih _
    next test =>
      rw [le_max_iff, List.length_cons]
      by_contra! above
      exact test ⟨above.1, .inl above.2⟩

end Trim

/-! ### The length of the alphabet -/

section Alphabet

variable (num : Config.Numerics) (pmf : List Prob) (k o s : Nat) (purge : Prob)

theorem length_alphabet :
    (alphabet num pmf k o s purge).1.length
      = (trimTail num k o purge (sortAlpha num (groupPmf num pmf s)).reverse (.rat 0)).1.length :=
  List.length_reverse

theorem length_alphabet_le_buckets : (alphabet num pmf k o s purge).1.length ≤ 2 ^ (8 - s) := by
  simpa [length_alphabet] using
    length_trimTail_le num k o purge (sortAlpha num (groupPmf num pmf s)).reverse (.rat 0)

theorem length_alphabet_of_buckets_le_minMarlin (few : 2 ^ (8 - s) ≤ minMarlin o) :
    (alphabet num pmf k o s purge).1.length = 2 ^ (8 - s) := by
  rw [length_alphabet, trimTail_of_length_le_minMarlin num k o purge _ _ (by simpa using few)]
  simp

theorem minMarlin_le_length_alphabet (enough : minMarlin o ≤ 2 ^ (8 - s)) :
    minMarlin o ≤ (alphabet num pmf k o s purge).1.length := by
  rw [length_alphabet]
  exact minMarlin_le_length_trimTail num k o purge _ _ (by simpa using enough)

theorem length_alphabet_le_max :
    (alphabet num pmf k o s purge).1.length ≤ max (minMarlin o) (maxMarlin k) := by
  rw [length_alphabet]
  exact length_trimTail_le_max num k o purge _ _

end Alphabet

/-- `CHECKCFG`'s bounds on `K` and `O` (R131) leave room between the two limits of `TRIM`. -/
theorem minMarlin_le_maxMarlin {k o : Nat} (hk : 4 ≤ k) (ho : o < k) : minMarlin o ≤ maxMarlin k := by
  have overlap : 2 ^ o < 2 ^ k := Nat.pow_lt_pow_right (by decide) ho
  have word : 2 ^ 4 ≤ 2 ^ k := Nat.pow_le_pow_right (by decide) hk
  simp only [minMarlin, maxMarlin]
  omega

/-- Settles O33: from `2^(8-S)` buckets `TRIM` drops none below `minMarlin` and all above `maxMarlin`. -/
theorem alphabetBounds : Obligations.AlphabetBounds := by
  unfold Obligations.AlphabetBounds
  intro num pmf k o s purge hk ho hs a
  have atMostBuckets : a ≤ 2 ^ (8 - s) := length_alphabet_le_buckets num pmf k o s purge
  have atMostMax : a ≤ maxMarlin k :=
    (length_alphabet_le_max num pmf k o s purge).trans (max_le (minMarlin_le_maxMarlin hk ho) le_rfl)
  have keepsMin : minMarlin o ≤ 2 ^ (8 - s) → minMarlin o ≤ a := minMarlin_le_length_alphabet num pmf k o s purge
  have keepsAll : 2 ^ (8 - s) ≤ minMarlin o → a = 2 ^ (8 - s) :=
    length_alphabet_of_buckets_le_minMarlin num pmf k o s purge
  have atLeastTwo : 2 ≤ a := by
    rcases le_total (minMarlin o) (2 ^ (8 - s)) with enough | few
    · exact (le_max_of_le_right (by decide)).trans (keepsMin enough)
    · exact (keepsAll few).symm ▸ Nat.le_self_pow (by omega) 2
  have atMost256 : a ≤ 256 := atMostBuckets.trans (Nat.pow_le_pow_right (n := 2) (j := 8) (by decide) (by omega))
  exact ⟨fun enough => ⟨keepsMin enough, atMostMax⟩, fun few => keepsAll few.le, atLeastTwo,
    le_min atMost256 atMostMax⟩

end Sys2Proof.Proofs
end

section
/-! Proofs for 42_build_tables.md: what `S2MBUILD` writes (R190). -/

namespace Sys2Proof.Proofs

open Sys2Proof Sys2Proof.Machine

/-! ### A table written entry by entry -/

section TableWrites

variable {α : Type} (place value : α → Nat)

theorem length_foldl_set (l : List α) (t : List Nat) :
    (l.foldl (fun t e => t.set (place e) (value e)) t).length = t.length := by
  induction l generalizing t with
  | nil => rfl
  | cons e rest ih => rw [List.foldl_cons, ih, List.length_set]

theorem getD_foldl_set_of_not_mem (l : List α) (t : List Nat) (g : Nat) (untouched : g ∉ l.map place) :
    (l.foldl (fun t e => t.set (place e) (value e)) t).getD g 0 = t.getD g 0 := by
  induction l generalizing t with
  | nil => rfl
  | cons e rest ih =>
    obtain ⟨notHere, notLater⟩ := not_or.mp (mt List.mem_cons.mpr untouched)
    rw [List.foldl_cons, ih _ notLater]
    simp [List.getD_eq_getElem?_getD, List.getElem?_set_ne (Ne.symm notHere)]

/-- No later write touches a place when all places written are distinct. -/
theorem getD_foldl_set_of_mem (l : List α) (t : List Nat) (distinct : (l.map place).Nodup) (e : α) (he : e ∈ l)
    (inside : place e < t.length) :
    (l.foldl (fun t e => t.set (place e) (value e)) t).getD (place e) 0 = value e := by
  induction l generalizing t with
  | nil => exact absurd he List.not_mem_nil
  | cons d rest ih =>
    obtain ⟨fresh, distinctRest⟩ := List.nodup_cons.mp distinct
    rw [List.foldl_cons]
    rcases List.mem_cons.mp he with rfl | later
    · rw [getD_foldl_set_of_not_mem place value rest _ _ fresh]
      simp [List.getD_eq_getElem?_getD, inside]
    · exact ih _ distinctRest later (by rwa [List.length_set])

end TableWrites

/-! ### The groups of an alphabet -/

/-- The group `src >> S` of an alphabet entry, its index in `S2M` (R190). -/
def groupOf (s : Nat) (e : AlphaEntry) : Nat := e.src.toNat >>> s

theorem groupOf_lt (s : Nat) (e : AlphaEntry) : groupOf s e < 256 :=
  (Nat.shiftRight_le _ s).trans_lt e.src.isLt

/-- R137: distinct multiples of `2^S` lie in distinct groups. -/
theorem nodup_map_groupOf {alpha : List AlphaEntry} {s : Nat} (ok : AlphaOk alpha s) :
    (alpha.map (groupOf s)).Nodup := by
  obtain ⟨distinct, multiples⟩ := ok
  refine (distinct.of_map _).map_on fun d hd e he sameGroup => ?_
  have sameQuotient : d.src.toNat / 2 ^ s = e.src.toNat / 2 ^ s := by
    simpa only [groupOf, Nat.shiftRight_eq_div_pow] using sameGroup
  have sameSrc : d.src = e.src :=
    BitVec.eq_of_toNat_eq (Nat.div_left_inj (multiples d hd) (multiples e he) |>.mp sameQuotient)
  exact List.inj_on_of_nodup_map distinct hd he sameSrc

theorem srcOf_eq_src_getElem {alpha : List AlphaEntry} {x : Nat} (hx : x < alpha.length) :
    srcOf alpha x = alpha[x].src := by
  simp [srcOf, hx]

/-! ### `S2MBUILD` -/

section S2mBuild

variable (alpha : List AlphaEntry) (s : Nat)

theorem s2mBuild_eq_foldl_groupOf :
    s2mBuild alpha s
      = alpha.zipIdx.foldl (fun t e => t.set ((groupOf s ∘ Prod.fst) e) e.2) (List.replicate 256 alpha.length) := rfl

theorem map_groupOf_zipIdx : alpha.zipIdx.map (groupOf s ∘ Prod.fst) = alpha.map (groupOf s) := by
  rw [← List.map_map, List.zipIdx_map_fst]

@[simp] theorem length_s2mBuild : (s2mBuild alpha s).length = 256 := by
  rw [s2mBuild_eq_foldl_groupOf, length_foldl_set _ Prod.snd, List.length_replicate]

theorem s2mBuild_of_trimmed {g : Nat} (hg : g < 256) (trimmed : g ∉ alpha.map (groupOf s)) :
    (s2mBuild alpha s).getD g 0 = alpha.length := by
  have untouched : g ∉ alpha.zipIdx.map (groupOf s ∘ Prod.fst) := by rwa [map_groupOf_zipIdx]
  rw [s2mBuild_eq_foldl_groupOf, getD_foldl_set_of_not_mem _ Prod.snd _ _ _ untouched,
    List.getD_replicate _ hg]

theorem s2mBuild_of_kept (ok : AlphaOk alpha s) {x : Nat} (hx : x < alpha.length) :
    (s2mBuild alpha s).getD (groupOf s alpha[x]) 0 = x := by
  have distinct : (alpha.zipIdx.map (groupOf s ∘ Prod.fst)).Nodup := by
    rw [map_groupOf_zipIdx]
    exact nodup_map_groupOf ok
  have written : (alpha[x], x) ∈ alpha.zipIdx := List.mk_mem_zipIdx_iff_getElem?.mpr (List.getElem?_eq_getElem hx)
  have inside : groupOf s alpha[x] < (List.replicate 256 alpha.length).length := by
    rw [List.length_replicate]
    exact groupOf_lt s alpha[x]
  exact getD_foldl_set_of_mem (groupOf s ∘ Prod.fst) Prod.snd _ _ distinct _ written inside

end S2mBuild

/-- Settles O42: an index is the group of one kept symbol, whose write stands, or of none, and holds `A`. -/
theorem sourceToMarlinTable : Obligations.SourceToMarlinTable := by
  unfold Obligations.SourceToMarlinTable
  intro alpha s ok _ _
  refine ⟨length_s2mBuild alpha s, fun g hg => ?_⟩
  by_cases kept : g ∈ alpha.map (groupOf s)
  · obtain ⟨e, he, rfl⟩ := List.mem_map.mp kept
    obtain ⟨x, hx, rfl⟩ := List.mem_iff_getElem.mp he
    exact .inl ⟨x, hx, by rw [srcOf_eq_src_getElem hx, groupOf], s2mBuild_of_kept alpha s ok hx⟩
  · have trimmed : ∀ e ∈ alpha, groupOf s e ≠ g := fun e he same => kept (List.mem_map.mpr ⟨e, he, same⟩)
    exact .inr ⟨trimmed, s2mBuild_of_trimmed alpha s hg kept⟩

end Sys2Proof.Proofs
end

section
/-! Proofs for the checks of 43_encode.md R201 and 44_decode.md R232, and what a failed check leaves (R311). -/

namespace Sys2Proof.Proofs

open Sys2Proof Sys2Proof.Machine

variable {s : State} {e : BlockError}

/-! ### The checks, one equation per error -/

theorem encodeCheck_of_no_handle (noHandle : s.status.hvalid = false) : encodeCheck s = some .noHandle := by
  simp [encodeCheck, noHandle]

theorem encodeCheck_of_bad_length (handle : s.status.hvalid = true)
    (long : s.inst.srcSize < s.srcLen ∨ s.inst.dstSize < s.dstCap) : encodeCheck s = some .badLength := by
  simp [encodeCheck, handle, long]

theorem encodeCheck_of_small_buffer (handle : s.status.hvalid = true) (srcFits : s.srcLen ≤ s.inst.srcSize)
    (dstFits : s.dstCap ≤ s.inst.dstSize) (small : s.dstCap < s.srcLen) :
    encodeCheck s = some .insufficientBuffer := by
  simp [encodeCheck, handle, srcFits.not_gt, dstFits.not_gt, small]

theorem decodeCheck_of_no_handle (noHandle : s.status.hvalid = false) : decodeCheck s = some .noHandle := by
  simp [decodeCheck, noHandle]

theorem decodeCheck_of_bad_length (handle : s.status.hvalid = true)
    (long : s.inst.srcSize < s.srcLen ∨ s.inst.dstSize < s.blkN) : decodeCheck s = some .badLength := by
  simp [decodeCheck, handle, long]

/-! ### A failed check ends the command -/

theorem exec_encode_of_check (failed : encodeCheck s = some e) :
    exec .encode s = .next (s.startBlock.raiseBlock e) := by
  change execEncode s = _
  rw [execEncode, failed]

theorem exec_decode_of_check (failed : decodeCheck s = some e) :
    exec .decode s = .next (s.startBlock.raiseBlock e) := by
  change execDecode s = _
  rw [execDecode, failed]

/-- R20 and R311 together: the per-block state is the one `startBlock` gives, whatever it was. -/
theorem startBlock_raiseBlock (s : State) (e : BlockError) :
    s.startBlock.raiseBlock e
      = { s with status := Status.error s.status.hvalid e, result := 0, lastRare := 0,
                 rare := (s.startBlock.raiseBlock e).rare, enc := (s.startBlock.raiseBlock e).enc,
                 decr := (s.startBlock.raiseBlock e).decr } := rfl

/-- Settles O43: each premise names the first check that fails, and that check's error ends the command. -/
theorem blockChecksInOrder : Obligations.BlockChecksInOrder := by
  unfold Obligations.BlockChecksInOrder
  intro s e
  constructor
  · intro failing
    have failed : encodeCheck s = some e := by
      rcases failing with ⟨noHandle, rfl⟩ | ⟨handle, long, rfl⟩ | ⟨handle, srcFits, dstFits, small, rfl⟩
      · exact encodeCheck_of_no_handle noHandle
      · exact encodeCheck_of_bad_length handle long
      · exact encodeCheck_of_small_buffer handle srcFits dstFits small
    exact ⟨_, exec_encode_of_check failed, startBlock_raiseBlock s e⟩
  · intro failing
    have failed : decodeCheck s = some e := by
      rcases failing with ⟨noHandle, rfl⟩ | ⟨handle, long, rfl⟩
      · exact decodeCheck_of_no_handle noHandle
      · exact decodeCheck_of_bad_length handle long
    exact ⟨_, exec_decode_of_check failed, startBlock_raiseBlock s e⟩

end Sys2Proof.Proofs
end

section
/-! Proofs for the group operations of 45_residual_plane.md: the two packed numbers bit by bit (R260, R262). -/

namespace Sys2Proof.Proofs

open Sys2Proof Sys2Proof.Machine

/-! ### A number packed from fields of `w` bits each -/

/-- The bits of field `i` lie below those of the fields that follow it. -/
theorem field_bit_lt {i n w j : Nat} (hi : i < n) (hj : j < w) : i * w + j < n * w :=
  calc i * w + j < i * w + w := Nat.add_lt_add_left hj _
    _ = (i + 1) * w := (Nat.succ_mul i w).symm
    _ ≤ n * w := Nat.mul_le_mul_right w hi

section PackedFields

variable (field : Nat → Nat) (w : Nat)

theorem sum_fields_lt (fits : ∀ i, field i < 2 ^ w) (n : Nat) :
    ((List.range n).map fun i => field i <<< (i * w)).sum < 2 ^ (n * w) := by
  induction n with
  | zero => simp
  | succ n ih =>
    rw [List.sum_range_succ, Nat.shiftLeft_eq]
    calc _ < 2 ^ (n * w) + field n * 2 ^ (n * w) := Nat.add_lt_add_right ih _
      _ = (field n + 1) * 2 ^ (n * w) := by ring
      _ ≤ 2 ^ w * 2 ^ (n * w) := Nat.mul_le_mul_right _ (fits n)
      _ = 2 ^ ((n + 1) * w) := by ring

/-- The fields do not overlap, so bit `j` of field `i` stands at bit `i * w + j`. -/
theorem testBit_sum_fields (fits : ∀ i, field i < 2 ^ w) {n i j : Nat} (hi : i < n) (hj : j < w) :
    ((List.range n).map fun i => field i <<< (i * w)).sum.testBit (i * w + j) = (field i).testBit j := by
  induction n with
  | zero => exact absurd hi (Nat.not_lt_zero i)
  | succ n ih =>
    rw [List.sum_range_succ, Nat.shiftLeft_eq, Nat.add_comm, Nat.mul_comm (field n),
      Nat.testBit_two_pow_mul_add _ (sum_fields_lt field w fits n)]
    rcases Nat.lt_succ_iff_lt_or_eq.mp hi with below | rfl
    · rw [if_pos (field_bit_lt below hj), ih below]
    · rw [if_neg (Nat.le_add_right _ j).not_gt, Nat.add_sub_cancel_left]

end PackedFields

/-! ### The two packed numbers -/

section PackedNumbers

variable (grp pl : List Byte) {s i j : Nat}

/-- R260: bit `j` of the `S` low bits of lane `i` is bit `i * S + j` of the group's number. -/
theorem testBit_packLanes (hi : i < 8) (hj : j < s) :
    (packLanes grp s).testBit (i * s + j) = (grp.getD i 0).getLsbD j := by
  have fits : ∀ i, (grp.getD i 0).toNat % 2 ^ s < 2 ^ s := fun i => Nat.mod_lt _ (Nat.two_pow_pos s)
  rw [packLanes, testBit_sum_fields (fun i => (grp.getD i 0).toNat % 2 ^ s) s fits hi hj,
    Nat.testBit_mod_two_pow, decide_eq_true hj, Bool.true_and, BitVec.testBit_toNat]

/-- R262: bit `m` of the plane's number is bit `m mod 8` of plane byte `m div 8`. -/
theorem testBit_packPlane {m : Nat} (hm : m < s * 8) :
    (packPlane pl s).testBit m = (pl.getD (m / 8) 0).getLsbD (m % 8) := by
  have fits : ∀ q, (pl.getD q 0).toNat < 2 ^ 8 := fun q => (pl.getD q 0).isLt
  have split := testBit_sum_fields (fun q => (pl.getD q 0).toNat) 8 fits
    (Nat.div_lt_of_lt_mul (Nat.mul_comm s 8 ▸ hm)) (Nat.mod_lt m (by decide))
  rw [Nat.div_add_mod'] at split
  simpa only [packPlane, Nat.mul_comm 8, BitVec.testBit_toNat] using split

end PackedNumbers

/-! ### The bytes of `PEXT8` and `PDEP8` -/

theorem getLsbD_byteOf (n : Nat) {b : Nat} (hb : b < 8) : (byteOf n).getLsbD b = n.testBit b := by
  rw [byteOf, BitVec.getLsbD_ofNat, decide_eq_true hb, Bool.true_and]

theorem getD_map_range {α : Type} (f : Nat → α) (fallback : α) {n i : Nat} (hi : i < n) :
    ((List.range n).map f).getD i fallback = f i := by
  simp [hi]

section GroupBits

variable (grp pl : List Byte) {s i j : Nat}

/-- R260: bit `m` of the group's number is bit `m mod 8` of result byte `m div 8`. -/
theorem getLsbD_pext8 {m : Nat} (hm : m < s * 8) :
    ((pext8 grp s).getD (m / 8) 0).getLsbD (m % 8) = (packLanes grp s).testBit m := by
  have inside : m / 8 < s := Nat.div_lt_of_lt_mul (Nat.mul_comm s 8 ▸ hm)
  have bit : m % 8 < 8 := Nat.mod_lt m (by decide)
  rw [pext8, getD_map_range _ _ inside, getLsbD_byteOf _ bit, show 256 = 2 ^ 8 from rfl,
    Nat.testBit_mod_two_pow, decide_eq_true bit, Bool.true_and, Nat.testBit_shiftRight, Nat.div_add_mod]

/-- R262: below bit `S` a lane of the result is taken from the plane's number, from bit `S` on it is the old lane. -/
theorem getLsbD_pdep8 (hi : i < 8) (hj : j < 8) :
    ((pdep8 grp pl s).getD i 0).getLsbD j
      = if j < s then (packPlane pl s).testBit (i * s + j) else (grp.getD i 0).getLsbD j := by
  have low : (packPlane pl s >>> (i * s)) % 2 ^ s < 2 ^ s := Nat.mod_lt _ (Nat.two_pow_pos s)
  rw [pdep8, getD_map_range _ _ hi, getLsbD_byteOf _ hj, ← Nat.div_mul_self_eq_mod_sub_self,
    Nat.mul_comm _ (2 ^ s), Nat.testBit_two_pow_mul_add _ low]
  split
  next below =>
    rw [Nat.testBit_mod_two_pow, decide_eq_true below, Bool.true_and, Nat.testBit_shiftRight]
  next above =>
    rw [Nat.testBit_div_two_pow, Nat.sub_add_cancel (Nat.le_of_not_lt above), BitVec.testBit_toNat]

end GroupBits

/-- Settles O56: both sides meet in bit `i * S + j` of the packed number, which lies below bit `8 * S`. -/
theorem groupBitPositions : Obligations.GroupBitPositions := by
  unfold Obligations.GroupBitPositions
  intro grp pl s i j _ _ _ hi hj
  refine ⟨pext8_length grp s, pdep8_length grp pl s, fun low => ?_, fun high => ?_⟩
  · have inside : i * s + j < s * 8 := Nat.mul_comm 8 s ▸ field_bit_lt hi low
    constructor
    · rw [getLsbD_pext8 grp inside, testBit_packLanes grp hi low]
    · rw [getLsbD_pdep8 grp pl hi hj, if_pos low, testBit_packPlane pl inside]
  · rw [getLsbD_pdep8 grp pl hi hj, if_neg high.not_gt]

end Sys2Proof.Proofs
end

section
/-! Proofs for the command `PDEP` of 45_residual_plane.md (R269): the plane group by group, then the command. -/

namespace Sys2Proof.Proofs

open Sys2Proof Sys2Proof.Machine

/-! ### The groups of a sequence -/

/-- A sequence put together from pieces of `n` bytes has those pieces as its groups. -/
theorem groupAt_flatMap_range (piece : Nat → List Byte) (n : Nat) (sized : ∀ g, (piece g).length = n) {m g : Nat}
    (hg : g < m) : groupAt ((List.range m).flatMap piece) n g = piece g := by
  induction m with
  | zero => exact absurd hg (Nat.not_lt_zero g)
  | succ m ih =>
    have length : ((List.range m).flatMap piece).length = m * n := by simp [List.length_flatMap, sized]
    rw [List.range_succ, List.flatMap_append, List.flatMap_singleton, groupAt]
    rcases Nat.lt_succ_iff_lt_or_eq.mp hg with before | rfl
    · have inside : g * n + n ≤ m * n := by
        rw [← Nat.succ_mul]
        exact Nat.mul_le_mul_right n before
      rw [List.drop_append_of_le_length (by omega),
        List.take_append_of_le_length (by rw [List.length_drop]; omega)]
      exact ih before
    · rw [← length, List.drop_left, List.take_of_length_le (sized g).le]

/-- R265: `PDEPPLANE` works group by group. -/
theorem groupAt_pdepPlane (d pl : List Byte) (s : Nat) {g : Nat} (hg : g < d.length / 8) :
    groupAt (pdepPlane d pl s) 8 g = pdep8 (groupAt d 8 g) (groupAt pl s g) s :=
  groupAt_flatMap_range _ 8 (fun _ => pdep8_length _ _ s) hg

theorem groupAt_map_range (byteAt : Nat → Byte) {n w g : Nat} (inside : g * w + w ≤ n) :
    groupAt ((List.range n).map byteAt) w g = (List.range w).map fun k => byteAt (g * w + k) := by
  apply List.ext_getElem
  · simp only [groupAt, List.length_take, List.length_drop, List.length_map, List.length_range]
    omega
  · intro k _ _
    simp [groupAt]

theorem groupAt_readDst (s : State) {n w g : Nat} (inside : g * w + w ≤ n) :
    groupAt (s.readDst 0 n) w g = s.readDst (g * w) w := by
  simpa only [State.readDst, Nat.zero_add] using groupAt_map_range (fun k => s.dstAt k) inside

theorem groupAt_readSrc (s : State) {n w g : Nat} (inside : g * w + w ≤ n) :
    groupAt (s.readSrc 0 n) w g = s.readSrc (g * w) w := by
  simpa only [State.readSrc, Nat.zero_add] using groupAt_map_range (fun k => s.srcAt k) inside

/-! ### The command -/

section Pdep

variable (s : State)

/-- The block `PDEP` writes (R269). -/
def depositedBlock : List Byte :=
  pdepPlane (s.readDst 0 s.blkN) (s.readSrc 0 s.srcLen) s.cfg.s.toNat

/-- The state after a `PDEP` that raises nothing. -/
def afterPdep : State :=
  { s.startBlock.writeDst 0 (depositedBlock s) with
    decr := { s.startBlock.decr with rcur := s.blkN / 8 } }.finish .none false s.blkN

theorem pdepBadLength_iff :
    pdepBadLength s = true ↔ s.inst.dstSize < s.blkN ∨ s.blkN % 8 ≠ 0 ∨ s.inst.srcSize < s.srcLen
      ∨ s.srcLen ≠ s.blkN * s.cfg.s.toNat / 8 := by
  simp [pdepBadLength, or_assoc]

theorem exec_pdep_of_bad_length (bad : pdepBadLength s = true) :
    exec .pdep s = .next (s.startBlock.raise .badLength) := by
  change execPdep s = _
  rw [execPdep, if_pos bad]

theorem exec_pdep_of_good_length (good : pdepBadLength s ≠ true) : exec .pdep s = .next (afterPdep s) := by
  change execPdep s = _
  rw [execPdep, if_neg good]
  rfl

variable {s}

theorem depositedBlock_length (whole : s.blkN % 8 = 0) : (depositedBlock s).length = s.blkN := by
  rw [depositedBlock, pdepPlane_length, State.readDst_length, Nat.div_mul_cancel (Nat.dvd_of_mod_eq_zero whole)]

theorem readDst_afterPdep (whole : s.blkN % 8 = 0) : (afterPdep s).readDst 0 s.blkN = depositedBlock s := by
  have written := State.readDst_writeDst s.startBlock (depositedBlock s)
  rw [depositedBlock_length whole] at written
  exact written

/-- The groups of the block and their plane bytes lie inside the lengths `PDEP` has checked. -/
theorem readDst_afterPdep_group (whole : s.blkN % 8 = 0) (plane : s.srcLen = s.blkN * s.cfg.s.toNat / 8) {g : Nat}
    (hg : g < s.blkN / 8) :
    (afterPdep s).readDst (8 * g) 8
      = pdep8 (s.readDst (8 * g) 8) (s.readSrc (g * s.cfg.s.toNat) s.cfg.s.toNat) s.cfg.s.toNat := by
  have blockInside : g * 8 + 8 ≤ s.blkN := by omega
  have planeInside : g * s.cfg.s.toNat + s.cfg.s.toNat ≤ s.srcLen := by
    rw [plane, Nat.le_div_iff_mul_le (by decide)]
    calc _ = (g * 8 + 8) * s.cfg.s.toNat := by ring
      _ ≤ s.blkN * s.cfg.s.toNat := Nat.mul_le_mul_right _ blockInside
  rw [Nat.mul_comm 8 g, ← groupAt_readDst (afterPdep s) blockInside, readDst_afterPdep whole, depositedBlock,
    groupAt_pdepPlane _ _ _ (by rwa [State.readDst_length]), groupAt_readDst s blockInside,
    groupAt_readSrc s planeInside]

theorem dstAt_afterPdep_outside (whole : s.blkN % 8 = 0) {a : Nat} (beyond : s.blkN ≤ a) :
    (afterPdep s).dstAt a = s.dstAt a :=
  State.dstAt_writeDst_outside s.startBlock 0 a (depositedBlock s)
    (.inr (by rwa [Nat.zero_add, depositedBlock_length whole]))

end Pdep

/-- Settles O60: the premises decide R269's test, and the block read back is `PDEPPLANE`'s, group by group. -/
theorem pdepResult : Obligations.PdepResult := by
  unfold Obligations.PdepResult
  intro s n sh
  constructor
  · intro bad
    exact ⟨_, exec_pdep_of_bad_length s ((pdepBadLength_iff s).mpr bad), rfl⟩
  · intro dstFits whole srcFits plane
    have good : pdepBadLength s ≠ true := by
      rw [Ne, pdepBadLength_iff]
      simp only [not_or, not_lt, not_not]
      exact ⟨dstFits, whole, srcFits, plane⟩
    exact ⟨_, exec_pdep_of_good_length s good, rfl, fun g hg => readDst_afterPdep_group whole plane hg,
      fun a beyond => dstAt_afterPdep_outside whole beyond⟩

end Sys2Proof.Proofs
end

section
/-! Proofs for the control commands of 46_control_commands.md: `NOP` (R281), `SRESET` (R282) and the word that is
no command (R283). -/

namespace Sys2Proof.Proofs

open Sys2Proof Sys2Proof.Machine

/-! ### The fields of the command word as numbers (30_encoding.md R90), and the words that are no command (R93) -/

section CommandWord

variable (w : Word32)

theorem toNat_rsvOf : (rsvOf w).toNat = w.toNat / 256 := by
  rw [rsvOf, BitVec.extractLsb'_toNat, Nat.shiftRight_eq_div_pow]
  exact Nat.mod_eq_of_lt (Nat.div_lt_of_lt_mul w.isLt)

theorem toNat_opcOf : (opcOf w).toNat = w.toNat % 256 := BitVec.extractLsb'_toNat 0 8 w

theorem instrOfOpc_eq_none_iff (opc : BitVec 8) : instrOfOpc opc = none ↔ opc ∉ opcodes.map Prod.fst := by
  rw [instrOfOpc, Option.map_eq_none_iff, List.find?_eq_none, List.mem_map, not_exists]
  simp only [beq_iff_eq, not_and]

variable {w}

theorem decode_of_rsv_ne_zero (rsv : w.toNat / 256 ≠ 0) : decode w = .error .reservedBits := by
  have field : rsvOf w ≠ 0 := fun zero => rsv (by rw [← toNat_rsvOf, zero]; rfl)
  rw [decode, if_pos field]

theorem decode_of_unknown_opc (rsv : w.toNat / 256 = 0)
    (opc : w.toNat % 256 ∉ [0x00, 0x01, 0x10, 0x20, 0x21, 0x30, 0x31]) : decode w = .error .unknownOpcode := by
  have field : rsvOf w = 0 := BitVec.eq_of_toNat_eq ((toNat_rsvOf w).trans rsv)
  have unlisted : opcOf w ∉ opcodes.map Prod.fst := fun listed =>
    opc (toNat_opcOf w ▸ List.mem_map_of_mem (f := BitVec.toNat) listed)
  rw [decode, if_neg (not_not_intro field), (instrOfOpc_eq_none_iff _).mpr unlisted]

theorem decode_of_illegal
    (illegal : w.toNat / 256 ≠ 0 ∨ w.toNat % 256 ∉ [0x00, 0x01, 0x10, 0x20, 0x21, 0x30, 0x31]) :
    ∃ cause, decode w = .error cause := by
  by_cases rsv : w.toNat / 256 = 0
  · exact ⟨_, decode_of_unknown_opc rsv (illegal.resolve_left (not_not_intro rsv))⟩
  · exact ⟨_, decode_of_rsv_ne_zero rsv⟩

end CommandWord

/-! ### The step while a command runs -/

section Running

variable {s : State}

/-- R280: with no early host action in its way the latched word runs to its end. -/
theorem step_of_busy (busy : s.status.busy = true) (waits : s.hostWaits) : step s = runCommand s := by
  rw [step, if_pos busy]
  cases pending : s.host with
  | nil => rfl
  | cons e rest =>
    have late : e.early = false := waits e (by rw [pending]; rfl)
    simp [late]

theorem runCommand_of_error {cause : DecodeError} (undecoded : decode s.cmd = .error cause) :
    runCommand s = .next (s.raise .illegalCommand) := by
  rw [runCommand, undecoded]
  rfl

end Running

/-! ### `NOP`, `SRESET` and the `STATUS` words they and the illegal command leave -/

theorem exec_nop (s : State) : exec .nop s = .next (s.finish .none false 0) := rfl

theorem exec_sreset (s : State) :
    exec .sreset s = .next ({ s.dropHandle with lastRare := 0 }.finish .none false 0) := rfl

theorem word_success_none (hvalid : Bool) :
    (Status.success hvalid .none false).word = if hvalid then 0x0000000A#32 else 0x00000002#32 := by
  cases hvalid <;> rfl

theorem word_error_illegalCommand (hvalid : Bool) :
    (Status.error hvalid .illegalCommand).word = if hvalid then 0x0000070E#32 else 0x00000706#32 := by
  cases hvalid <;> rfl

/-- Settles O7: either fault of the word makes the decoder refuse it, and a refused word raises the error. -/
theorem illegalCommandReported : Obligations.IllegalCommandReported := by
  unfold Obligations.IllegalCommandReported
  intro s busy waits illegal
  obtain ⟨cause, undecoded⟩ := decode_of_illegal illegal
  exact ⟨s.raise .illegalCommand, (step_of_busy busy waits).trans (runCommand_of_error undecoded), rfl,
    word_error_illegalCommand s.status.hvalid⟩

/-- Settles O5: `NOP` is the successful end of a command and nothing before it. -/
theorem nopClearsReport : Obligations.NopClearsReport := by
  unfold Obligations.NopClearsReport
  exact ⟨by decide, fun s => ⟨_, exec_nop s, rfl, word_success_none s.status.hvalid⟩⟩

/-- Settles O6: the dropped handle takes `HVALID` with it, so the `STATUS` word no longer depends on the state. -/
theorem sresetDropsHandle : Obligations.SresetDropsHandle := by
  unfold Obligations.SresetDropsHandle
  refine ⟨by decide, fun s => ⟨_, exec_sreset s, word_success_none false, rfl, rfl, rfl, ?tables, rfl, rfl⟩⟩
  case tables => exact ⟨rfl, rfl, rfl, rfl, rfl⟩

end Sys2Proof.Proofs
end

section
/-! Proofs for the state after reset (70_reset_and_hazards.md R341): what the host reads from the registers, and the
RAM spaces of which nothing is known. The parameters, the epoch and the host's pending actions stay free, so that the
register lemmas also serve a reset in the middle of a run. -/

namespace Sys2Proof.Proofs

open Sys2Proof Sys2Proof.Machine

/-! ### The register words of R341 -/

theorem word_reset : Status.reset.word = 0 := Status.word_eq _

/-- `CFG_KO` after reset: `K = 8`, `O = 2`. -/
theorem koWord_reset : koWord CfgRegs.reset.k CfgRegs.reset.o = 0x00000208#32 := koWord_eq _ _

/-- `H_KO` without a handle (10_state.md R29). -/
theorem koWord_zero : koWord HandleRegs.zero.k HandleRegs.zero.o = 0 := koWord_eq _ _

/-- `CFG_S` and `CFG_MWS` after reset: the field is 0 and only `AUTO` is set. -/
theorem autoWord_zero_true {n : Nat} (fits : n ≤ 31) : autoWord (0 : BitVec n) true = 0x80000000#32 := by
  rw [autoWord_eq fits, show (0 : BitVec n).toNat = 0 from BitVec.toNat_ofNat 0 n]
  rfl

theorem fieldAt_zero_iter_reset : fieldAt 0 CfgRegs.reset.iter = 3 := rfl

section ResetOf

variable (inst : Config.Instance) (epoch : Nat) (host : List HostEvent)

/-! ### Registers 0 to 11: command, status, configuration and lengths -/

theorem resetOf_regValue_control : (Reg.all.take 12).map (State.resetOf inst epoch host).regValue =
    [.word 0, .word 0, .word 0x00000208#32, .word 0x80000000#32, .word 0x80000000#32, .word 3, .prob (.rat 0),
     .num 16, .num 0, .num 0, .num 0, .num 0] :=
  calc (Reg.all.take 12).map (State.resetOf inst epoch host).regValue
    _ = [.word 0, .word Status.reset.word, .word (koWord CfgRegs.reset.k CfgRegs.reset.o),
         .word (autoWord (0 : BitVec 3) true), .word (autoWord (0 : BitVec 10) true),
         .word (fieldAt 0 CfgRegs.reset.iter), .prob (.rat 0), .num 16, .num 0, .num 0, .num 0, .num 0] := rfl
    _ = _ := by
      rw [word_reset, koWord_reset, autoWord_zero_true (by decide), autoWord_zero_true (by decide),
        fieldAt_zero_iter_reset]

/-! ### Registers 12 to 21: no handle -/

theorem resetOf_regValue_handle : (Reg.all.drop 12).map (State.resetOf inst epoch host).regValue =
    [.num 0, .num 0, .num 0, .num 0, .prob (.rat 0), .prob (.rat 0), .prob (.rat 0), .real .zero, .num 0, .word 0] :=
  calc (Reg.all.drop 12).map (State.resetOf inst epoch host).regValue
    _ = [.num 0, .num 0, .num 0, .num 0, .prob (.rat 0), .prob (.rat 0), .prob (.rat 0), .real .zero, .num 0,
         .word (koWord HandleRegs.zero.k HandleRegs.zero.o)] := rfl
    _ = _ := by rw [koWord_zero]

theorem resetOf_regValue_all : Reg.all.map (State.resetOf inst epoch host).regValue =
    [.word 0, .word 0, .word 0x00000208#32, .word 0x80000000#32, .word 0x80000000#32, .word 3, .prob (.rat 0),
     .num 16, .num 0, .num 0, .num 0, .num 0, .num 0, .num 0, .num 0, .num 0, .prob (.rat 0), .prob (.rat 0),
     .prob (.rat 0), .real .zero, .num 0, .word 0] := by
  rw [← List.take_append_drop 12 Reg.all, List.map_append, resetOf_regValue_control, resetOf_regValue_handle]
  rfl

end ResetOf

/-- Settles O9: the registers read as after any reset, and every RAM space is the unspecified one, which lists no
entry. -/
theorem registersAtReset : Obligations.RegistersAtReset := by
  unfold Obligations.RegistersAtReset
  have unlisted {α : Type} : (Memory.unspecified 0 : Memory α).cells = [] := Memory.unspecified_cells 0
  refine ⟨resetOf_regValue_all _ _ _, ?encoder, ?decoder, ?rams⟩
  case encoder => exact rfl
  case decoder => exact rfl
  case rams => exact ⟨unlisted, unlisted, unlisted, unlisted, unlisted, unlisted, unlisted, unlisted, unlisted⟩

end Sys2Proof.Proofs
end

section
/-! Proofs for `SORTWORDS` and `PACK` (41_build_dictionary.md R159, R160): both only rearrange a chapter's words. -/

namespace Sys2Proof.Proofs

open Sys2Proof Sys2Proof.Machine

/-! ### Insertion sort by a comparison that is no order -/

section InsertionSort

variable {α : Type} (r : α → α → Prop) [DecidableRel r] (R : α → α → Prop)

theorem pairwise_orderedInsert_of (a : α) (l : List α) (before : ∀ b ∈ l, r a b → R a b)
    (after : ∀ b ∈ l, ¬ r a b → R b a) (trans : ∀ x y z, R x y → R y z → R x z) (sorted : l.Pairwise R) :
    (l.orderedInsert r a).Pairwise R := by
  induction l with
  | nil => exact List.pairwise_singleton R a
  | cons b rest ih =>
    obtain ⟨bFirst, restSorted⟩ := List.pairwise_cons.mp sorted
    by_cases stop : r a b
    · have ab : R a b := before b List.mem_cons_self stop
      rw [List.orderedInsert_cons_of_le r rest stop]
      refine List.pairwise_cons.mpr ⟨List.forall_mem_cons.mpr ⟨ab, fun c hc => ?_⟩, sorted⟩
      exact trans a b c ab (bFirst c hc)
    · rw [List.orderedInsert_of_not_le r rest stop]
      refine List.pairwise_cons.mpr ⟨fun c hc => ?_, ih (fun c hc => before c (List.mem_cons_of_mem b hc))
        (fun c hc => after c (List.mem_cons_of_mem b hc)) restSorted⟩
      rcases (List.mem_orderedInsert r).mp hc with rfl | old
      · exact after b List.mem_cons_self stop
      · exact bFirst c old

/-- What the comparison decides is in order at the end for every transitive relation that follows from it, whatever
else the comparison does. -/
theorem pairwise_insertionSort_of (l : List α) (before : ∀ a ∈ l, ∀ b ∈ l, r a b → R a b)
    (after : ∀ a ∈ l, ∀ b ∈ l, ¬ r a b → R b a) (trans : ∀ x y z, R x y → R y z → R x z) :
    (l.insertionSort r).Pairwise R := by
  induction l with
  | nil => exact List.Pairwise.nil
  | cons a rest ih =>
    rw [List.insertionSort_cons]
    apply pairwise_orderedInsert_of r R a _ _ _ trans
    · exact ih (fun x hx y hy => before x (List.mem_cons_of_mem a hx) y (List.mem_cons_of_mem a hy))
        (fun x hx y hy => after x (List.mem_cons_of_mem a hx) y (List.mem_cons_of_mem a hy))
    · exact fun b hb => before a List.mem_cons_self b (List.mem_cons_of_mem a ((List.mem_insertionSort r).mp hb))
    · exact fun b hb => after a List.mem_cons_self b (List.mem_cons_of_mem a ((List.mem_insertionSort r).mp hb))

end InsertionSort

/-! ### Comparisons of numbers -/

/-- Values compared as rational numbers are equal exactly when their numbers are, whatever the system. -/
theorem eq_iff {num : Config.Numerics} {a b : Prob} (numbers : asRationals num [a, b]) :
    num.eq a b = true ↔ a.toRat = b.toRat := by
  cases num with
  | exact => simp
  | rounding n =>
    have isNumber := numbers.resolve_left (by simp)
    cases a <;> cases b <;> simp [Prob.isNumber, Config.Numerics.eq] at isNumber ⊢

theorem asRationals_pair {num : Config.Numerics} {l : List Prob} (numbers : asRationals num l) {a b : Prob}
    (ha : a ∈ l) (hb : b ∈ l) : asRationals num [a, b] :=
  numbers.imp_right fun all p hp => by
    rcases List.mem_pair.mp hp with rfl | rfl
    · exact all _ ha
    · exact all _ hb

/-! ### `SORTWORDS` -/

section SortWords

variable (num : Config.Numerics) (l : List DictWord)

theorem sortWords_perm : (sortWords num l).Perm l :=
  ((List.perm_insertionSort _ _).append_left _).trans (List.filter_append_perm (fun w => w.syms.isEmpty) l)

/-- Lexicographic order on words (00_scope.md R10) is the library's. -/
theorem lexLe_iff_le (v w : List Nat) : lexLe v w = true ↔ v ≤ w := by
  rw [← not_lt]
  induction v generalizing w with
  | nil => simp [lexLe]
  | cons a v ih =>
    cases w with
    | nil => simp [lexLe]
    | cons b w =>
      simp only [lexLe, Bool.or_eq_true, Bool.and_eq_true, decide_eq_true_eq, beq_iff_eq, ih,
        List.cons_lt_cons_iff]
      rcases lt_trichotomy a b with less | rfl | greater
      · simp [less, less.not_gt, less.ne']
      · simp
      · simp [greater, greater.not_gt, greater.ne']

/-- The order of R159 on words that are not empty. -/
def WordOrder (v w : DictWord) : Prop :=
  v.state < w.state ∨ (v.state = w.state
    ∧ (w.p.toRat < v.p.toRat ∨ (v.p.toRat = w.p.toRat ∧ v.syms ≤ w.syms)))

theorem wordOrder_trans (u v w : DictWord) (uv : WordOrder u v) (vw : WordOrder v w) : WordOrder u w := by
  rcases uv with uv | ⟨uv, uv' | ⟨uv', uv''⟩⟩ <;> rcases vw with vw | ⟨vw, vw' | ⟨vw', vw''⟩⟩
  · exact .inl (uv.trans vw)
  · exact .inl (vw ▸ uv)
  · exact .inl (vw ▸ uv)
  · exact .inl (uv ▸ vw)
  · exact .inr ⟨uv.trans vw, .inl (vw'.trans uv')⟩
  · exact .inr ⟨uv.trans vw, .inl (vw' ▸ uv')⟩
  · exact .inl (uv ▸ vw)
  · exact .inr ⟨uv.trans vw, .inl (uv' ▸ vw')⟩
  · exact .inr ⟨uv.trans vw, .inr ⟨uv'.trans vw', le_trans uv'' vw''⟩⟩

variable {num}

theorem wordBefore_iff {v w : DictWord} (numbers : asRationals num [v.p, w.p]) :
    wordBefore num v w = true ↔ WordOrder v w := by
  have numbers' : asRationals num [w.p, v.p] := asRationals_pair numbers (by simp) (by simp)
  simp [wordBefore, WordOrder, lt_iff numbers', eq_iff numbers, lexLe_iff_le]

theorem wordOrder_of_not {v w : DictWord} (different : ¬ WordOrder v w) : WordOrder w v := by
  simp only [WordOrder, not_or, not_and, not_lt, not_le] at different ⊢
  obtain ⟨state, rest⟩ := different
  rcases state.lt_or_eq with less | same
  · exact .inl less
  · obtain ⟨mass, lex⟩ := rest same.symm
    rcases mass.lt_or_eq with less | same'
    · exact .inr ⟨same, .inl less⟩
    · exact .inr ⟨same, .inr ⟨same'.symm, (lex same').le⟩⟩

theorem state_le_of_wordBefore {v w : DictWord} (before : wordBefore num v w = true) : v.state ≤ w.state := by
  simp only [wordBefore, Bool.or_eq_true, Bool.and_eq_true, decide_eq_true_eq, beq_iff_eq] at before
  omega

theorem state_le_of_not_wordBefore {v w : DictWord} (after : ¬ wordBefore num v w = true) : w.state ≤ v.state := by
  simp only [wordBefore, Bool.or_eq_true, decide_eq_true_eq, not_or] at after
  omega

variable (num) {l}

/-- The empty words come first, and whatever holds between the others in their order holds throughout. -/
theorem sortWords_pairwise (R : DictWord → DictWord → Prop)
    (others : ((l.filter fun w => !w.syms.isEmpty).insertionSort fun v w => wordBefore num v w = true).Pairwise R)
    (distinct : (l.map DictWord.syms).Nodup) :
    (sortWords num l).Pairwise fun v w => v.syms = [] ∨ (w.syms ≠ [] ∧ R v w ∧ v.syms ≠ w.syms) := by
  have distinct' : ((sortWords num l).map DictWord.syms).Nodup :=
    ((sortWords_perm num l).map _).nodup_iff.mpr distinct
  have apart : (sortWords num l).Pairwise fun v w => v.syms ≠ w.syms := List.pairwise_map.mp distinct'
  rw [sortWords, List.pairwise_append] at apart ⊢
  obtain ⟨-, apart, -⟩ := apart
  have empty : ∀ v ∈ l.filter (fun w => w.syms.isEmpty), v.syms = [] := fun v hv => by
    simpa using (List.mem_filter.mp hv).2
  refine ⟨List.pairwise_of_forall_mem_list fun v hv w _ => .inl (empty v hv), ?_,
    fun v hv w _ => .inl (empty v hv)⟩
  refine (others.and apart).imp_of_mem fun {v w} _ hw ⟨order, different⟩ => .inr ⟨?_, order, different⟩
  simpa using (List.mem_filter.mp ((List.mem_insertionSort _).mp hw)).2

end SortWords

/-- Settles O36: the comparison decides the state whatever the masses are, and is R159's order where they are
numbers. -/
theorem sortedWordsInOrder : Obligations.SortedWordsInOrder := by
  unfold Obligations.SortedWordsInOrder
  intro num l distinct
  refine ⟨sortWords_perm num l, ?states, fun numbers => ?order⟩
  case states =>
    refine (sortWords_pairwise num (fun v w => v.state ≤ w.state) ?_ distinct).imp
      (Or.imp_right fun ⟨nonempty, le, _⟩ => ⟨nonempty, le⟩)
    exact pairwise_insertionSort_of _ _ _ (fun _ _ _ _ => state_le_of_wordBefore)
      (fun _ _ _ _ => state_le_of_not_wordBefore) fun _ _ _ => le_trans
  case order =>
    have pair : ∀ v ∈ l.filter (fun w => !w.syms.isEmpty), ∀ w ∈ l.filter (fun w => !w.syms.isEmpty),
        asRationals num [v.p, w.p] := fun v hv w hw =>
      asRationals_pair numbers (List.mem_map_of_mem (List.mem_of_mem_filter hv))
        (List.mem_map_of_mem (List.mem_of_mem_filter hw))
    refine (sortWords_pairwise num WordOrder ?_ distinct).imp (Or.imp_right fun ⟨nonempty, order, different⟩ =>
      ⟨nonempty, order.imp_right (And.imp_right (Or.imp_right (And.imp_right fun le => lt_of_le_of_ne le different)))⟩)
    exact pairwise_insertionSort_of _ _ _ (fun v hv w hw => (wordBefore_iff (pair v hv w hw)).mp)
      (fun v hv w hw after => wordOrder_of_not (mt (wordBefore_iff (pair v hv w hw)).mpr after)) wordOrder_trans

/-! ### `PACK` -/

/-- Place `r * n + q` of the sorted words for slot `q * m + r` (R160, with `m = 2^O` and `n = 2^(K-O)`). -/
def transpose (m n j : Nat) : Nat := j % m * n + j / m

theorem transpose_lt {m n j : Nat} (inside : j < m * n) : transpose m n j < m * n := by
  have positive : 0 < m := Nat.pos_of_mul_pos_right (Nat.zero_lt_of_lt inside)
  calc transpose m n j < j % m * n + n := Nat.add_lt_add_left (Nat.div_lt_of_lt_mul inside) _
    _ = (j % m + 1) * n := (Nat.succ_mul _ _).symm
    _ ≤ m * n := Nat.mul_le_mul_right n (Nat.mod_lt j positive)

theorem transpose_transpose {m n j : Nat} (inside : j < m * n) : transpose n m (transpose m n j) = j := by
  have row : j / m < n := Nat.div_lt_of_lt_mul inside
  rw [transpose, transpose, Nat.mul_comm _ n, Nat.mul_add_mod, Nat.mod_eq_of_lt row,
    Nat.mul_add_div (Nat.zero_lt_of_lt row), Nat.div_eq_of_lt row, Nat.add_zero, Nat.div_add_mod']

theorem map_transpose_perm (m n : Nat) : ((List.range (m * n)).map (transpose m n)).Perm (List.range (m * n)) := by
  have injective : ∀ i ∈ List.range (m * n), ∀ j ∈ List.range (m * n), transpose m n i = transpose m n j → i = j :=
    fun i hi j hj same => by
      rw [← transpose_transpose (List.mem_range.mp hi), same, transpose_transpose (List.mem_range.mp hj)]
  refine (List.perm_ext_iff_of_nodup (List.nodup_range.map_on injective) List.nodup_range).mpr fun t => ?_
  rw [List.mem_map, List.mem_range]
  constructor
  · rintro ⟨j, hj, rfl⟩
    exact transpose_lt (List.mem_range.mp hj)
  · intro ht
    rw [Nat.mul_comm] at ht
    refine ⟨transpose n m t, List.mem_range.mpr ?_, transpose_transpose ht⟩
    rw [Nat.mul_comm m n]
    exact transpose_lt ht

theorem two_pow_mul_two_pow_sub {k o : Nat} (ho : o ≤ k) : 2 ^ o * 2 ^ (k - o) = 2 ^ k := by
  rw [← Nat.pow_add, Nat.add_sub_cancel' ho]

section Pack

variable {k o : Nat} {sorted : List DictWord}

@[simp] theorem length_pack (k o : Nat) (sorted : List DictWord) : (pack k o sorted).length = 2 ^ k := by
  simp [pack]

theorem pack_eq_map_transpose (k o : Nat) (sorted : List DictWord) :
    pack k o sorted = (List.range (2 ^ k)).map (wordAt sorted ∘ transpose (2 ^ o) (2 ^ (k - o))) := rfl

theorem map_wordAt_range (sorted : List DictWord) : (List.range sorted.length).map (wordAt sorted) = sorted := by
  apply List.ext_getElem <;> simp +contextual [wordAt]

theorem pack_perm (ho : o ≤ k) (full : sorted.length = 2 ^ k) : (pack k o sorted).Perm sorted := by
  have places := map_transpose_perm (2 ^ o) (2 ^ (k - o))
  rw [two_pow_mul_two_pow_sub ho, ← full] at places
  rw [pack_eq_map_transpose, ← full, ← List.map_map]
  exact (places.map _).trans (List.Perm.of_eq (map_wordAt_range sorted))

theorem recordAt_pack {j : Nat} (hj : j < 2 ^ k) :
    recordAt (pack k o sorted) j = recordAt sorted (transpose (2 ^ o) (2 ^ (k - o)) j) :=
  getD_map_range _ _ hj

theorem recordAt_pack_zero (k o : Nat) (sorted : List DictWord) :
    recordAt (pack k o sorted) 0 = recordAt sorted 0 := by
  rw [recordAt_pack (Nat.two_pow_pos k), transpose, Nat.zero_mod, Nat.zero_div, Nat.zero_mul]

end Pack

/-- Settles O37: slots and sorted places are exchanged by transposing a table of `2^O` by `2^(K-O)`. -/
theorem packFillsByResidue : Obligations.PackFillsByResidue := by
  unfold Obligations.PackFillsByResidue
  intro k o sorted ho full
  refine ⟨length_pack k o sorted, pack_perm ho full, fun t ht => ?_, recordAt_pack_zero k o sorted⟩
  have area : 2 ^ (k - o) * 2 ^ o = 2 ^ k := (Nat.mul_comm _ _).trans (two_pow_mul_two_pow_sub ho)
  have slot : transpose (2 ^ (k - o)) (2 ^ o) t < 2 ^ k := area ▸ transpose_lt (area.symm ▸ ht)
  calc recordAt (pack k o sorted) (transpose (2 ^ (k - o)) (2 ^ o) t)
    _ = recordAt sorted (transpose (2 ^ o) (2 ^ (k - o)) (transpose (2 ^ (k - o)) (2 ^ o) t)) := recordAt_pack slot
    _ = recordAt sorted t := by rw [transpose_transpose (area.symm ▸ ht)]

end Sys2Proof.Proofs
end

section
/-! Proofs for the tree a chapter grows from (41_build_dictionary.md R153 to R156): its shape, and how many words it
can have. -/

namespace Sys2Proof.Proofs

open Sys2Proof Sys2Proof.Machine

/-! ### The shape of a tree: the words with the number of their children -/

/-- What every tree satisfies, of words over symbols below `a` and no longer than `m` (R163 (a) to (d)). -/
structure TreeWf (a m : Nat) (tree : List (List Nat × Nat)) : Prop where
  distinct : (tree.map Prod.fst).Nodup
  bounded : ∀ e ∈ tree, e.1.length ≤ m ∧ (∀ x ∈ e.1, x < a) ∧ e.2 ≤ a
  root : ([], a) ∈ tree
  prefixes : ∀ e ∈ tree, e.1 ≠ [] → e.1.dropLast ∈ tree.map Prod.fst
  children : ∀ e ∈ tree, ∀ t < a, e.1 ++ [t] ∈ tree.map Prod.fst ↔ t < e.2

section Tree

variable {a m : Nat} {tree tree' : List (List Nat × Nat)}

theorem TreeWf.perm (wf : TreeWf a m tree) (same : tree.Perm tree') : TreeWf a m tree' := by
  have words : ∀ w, w ∈ tree'.map Prod.fst ↔ w ∈ tree.map Prod.fst := fun w => (same.map _).mem_iff.symm
  constructor
  · exact (same.map _).nodup_iff.mp wf.distinct
  · exact fun e he => wf.bounded e (same.mem_iff.mpr he)
  · exact same.mem_iff.mp wf.root
  · exact fun e he nonempty => (words _).mpr (wf.prefixes e (same.mem_iff.mpr he) nonempty)
  · exact fun e he t ht => (words _).trans (wf.children e (same.mem_iff.mpr he) t ht)

/-- SEED's tree: the root with all its children, which have none (R153). -/
theorem treeWf_seed (hm : 1 ≤ m) :
    TreeWf a m (([], a) :: (List.range a).map fun x => ([x], 0)) := by
  have words : (([], a) :: (List.range a).map fun x => ([x], 0)).map Prod.fst
      = [] :: (List.range a).map fun x => [x] := by simp
  constructor
  · rw [words, List.nodup_cons]
    exact ⟨by simp, List.nodup_range.map fun x y same => List.head_eq_of_cons_eq same⟩
  · simp only [List.forall_mem_cons, List.forall_mem_map, List.mem_range]
    refine ⟨by simp, fun x hx => ?_⟩
    simpa using ⟨hm, hx⟩
  · exact List.mem_cons_self
  · rw [words]
    simp
  · rw [words]
    simp

theorem map_fst_set (id : Nat) (w : List Nat) (d d' : Nat) (at_id : tree[id]? = some (w, d)) :
    (tree.set id (w, d')).map Prod.fst = tree.map Prod.fst := by
  obtain ⟨hid, here⟩ := List.getElem?_eq_some_iff.mp at_id
  apply List.ext_getElem
  · simp
  · intro j _ _
    by_cases same : id = j
    · subst same
      simp [here]
    · simp [same]

/-- With distinct words, the entries after one has got another number of children. -/
theorem mem_set_iff (distinct : (tree.map Prod.fst).Nodup) {id : Nat} {w : List Nat} {d : Nat} (d' : Nat)
    (at_id : tree[id]? = some (w, d)) (e : List Nat × Nat) :
    e ∈ tree.set id (w, d') ↔ e = (w, d') ∨ (e ∈ tree ∧ e.1 ≠ w) := by
  obtain ⟨hid, here⟩ := List.getElem?_eq_some_iff.mp at_id
  constructor
  · intro he
    obtain ⟨j, hj, rfl⟩ := List.mem_iff_getElem.mp he
    rw [List.length_set] at hj
    by_cases same : id = j
    · exact .inl (by simp [same])
    · refine .inr ?_
      rw [List.getElem_set_ne same]
      refine ⟨List.getElem_mem hj, fun word => same ?_⟩
      apply (List.Nodup.getElem_inj_iff distinct (hi := by simpa using hid) (hj := by simpa using hj)).mp
      simp [here, word]
  · rintro (rfl | ⟨he, other⟩)
    · exact List.mem_set hid _
    · obtain ⟨j, hj, rfl⟩ := List.mem_iff_getElem.mp he
      have apart : id ≠ j := by
        rintro rfl
        exact other (by rw [here])
      rw [← List.getElem_set_ne apart (by simpa using hj) (a := (w, d'))]
      exact List.getElem_mem _

/-- A split gives a word its next child and keeps the shape (R155). -/
theorem TreeWf.split (wf : TreeWf a m tree) {id : Nat} {w : List Nat} {d : Nat} (at_id : tree[id]? = some (w, d))
    (open_ : d ≠ a) (short : w.length < m) : TreeWf a m (tree.set id (w, d + 1) ++ [(w ++ [d], 0)]) := by
  have here : (w, d) ∈ tree := List.mem_of_getElem? at_id
  obtain ⟨-, letters, degree⟩ := wf.bounded _ here
  have hd : d < a := lt_of_le_of_ne degree open_
  have fresh : w ++ [d] ∉ tree.map Prod.fst := fun old => (wf.children _ here d hd).mp old |>.false
  have words : (tree.set id (w, d + 1) ++ [(w ++ [d], 0)]).map Prod.fst = tree.map Prod.fst ++ [w ++ [d]] := by
    rw [List.map_append, map_fst_set id w d _ at_id]
    rfl
  have entries : ∀ e, e ∈ tree.set id (w, d + 1) ++ [(w ++ [d], 0)] ↔
      (e = (w, d + 1) ∨ (e ∈ tree ∧ e.1 ≠ w)) ∨ e = (w ++ [d], 0) := fun e => by
    rw [List.mem_append, mem_set_iff wf.distinct _ at_id, List.mem_singleton]
  constructor
  · rw [words]
    exact wf.distinct.append (List.nodup_singleton _) (by simpa using fresh)
  · intro e he
    rcases (entries e).mp he with (rfl | ⟨old, -⟩) | rfl
    · exact ⟨short.le, letters, hd⟩
    · exact wf.bounded e old
    · refine ⟨by simpa using short, fun x hx => ?_, Nat.zero_le a⟩
      rcases List.mem_append.mp hx with old | new
      · exact letters x old
      · exact List.mem_singleton.mp new ▸ hd
  · refine (entries _).mpr (.inl ?_)
    by_cases isRoot : ([] : List Nat) = w
    · subst isRoot
      have same := List.inj_on_of_nodup_map wf.distinct wf.root here rfl
      exact absurd (congrArg Prod.snd same).symm open_
    · exact .inr ⟨wf.root, isRoot⟩
  · intro e he nonempty
    rw [words, List.mem_append]
    rcases (entries e).mp he with (rfl | ⟨old, -⟩) | rfl
    · exact .inl (wf.prefixes (w, d) here nonempty)
    · exact .inl (wf.prefixes e old nonempty)
    · exact .inl (by simpa using ⟨d, here⟩)
  · intro e he t ht
    rw [words, List.mem_append, List.mem_singleton, List.append_singleton_inj]
    rcases (entries e).mp he with (rfl | ⟨old, other⟩) | rfl
    · rw [wf.children (w, d) here t ht]
      simp only [true_and]
      omega
    · rw [wf.children e old t ht]
      simp [other]
    · have parentFirst : (w ++ [d]) ++ [t] ∉ tree.map Prod.fst := fun child => by
        obtain ⟨e, he, word⟩ := List.mem_map.mp child
        have parent := wf.prefixes e he (by simp [word])
        rw [word, List.dropLast_concat] at parent
        exact fresh parent
      have longer : w ++ [d] ≠ w := by simp
      exact iff_of_false (fun child => child.elim parentFirst fun same => longer same.1) (Nat.not_lt_zero t)

end Tree

/-! ### How many words there are (R156) -/

/-- The words of `l` symbols below `a`. -/
def wordsOfLength (a : Nat) : Nat → List (List Nat)
  | 0 => [[]]
  | l + 1 => (wordsOfLength a l).flatMap fun w => (List.range a).map fun x => w ++ [x]

/-- The words of at most `m` symbols below `a`. -/
def wordsUpTo (a m : Nat) : List (List Nat) := (List.range (m + 1)).flatMap (wordsOfLength a)

section Words

variable (a : Nat)

theorem length_wordsOfLength (l : Nat) : (wordsOfLength a l).length = a ^ l := by
  induction l with
  | zero => rfl
  | succ l ih => simp [wordsOfLength, List.length_flatMap, ih, Nat.pow_succ]

theorem mem_wordsOfLength (l : Nat) (w : List Nat) : w ∈ wordsOfLength a l ↔ w.length = l ∧ ∀ x ∈ w, x < a := by
  induction l generalizing w with
  | zero => simp +contextual [wordsOfLength, List.length_eq_zero_iff]
  | succ l ih =>
    simp only [wordsOfLength, List.mem_flatMap, List.mem_map, List.mem_range, ih]
    constructor
    · rintro ⟨v, ⟨length, letters⟩, x, hx, rfl⟩
      refine ⟨by simpa using length, fun y hy => ?_⟩
      rcases List.mem_append.mp hy with old | new
      · exact letters y old
      · exact List.mem_singleton.mp new ▸ hx
    · rintro ⟨length, letters⟩
      have nonempty : w ≠ [] := List.ne_nil_of_length_eq_add_one length
      refine ⟨w.dropLast, ⟨by simp [length], fun y hy => letters y (List.mem_of_mem_dropLast hy)⟩,
        w.getLast nonempty, letters _ (List.getLast_mem nonempty), List.dropLast_append_getLast nonempty⟩

theorem nodup_wordsOfLength (l : Nat) : (wordsOfLength a l).Nodup := by
  induction l with
  | zero => exact List.nodup_singleton _
  | succ l ih =>
    refine List.nodup_flatMap.mpr ⟨fun w _ => ?_, ih.imp fun {v w} different => ?_⟩
    · exact List.nodup_range.map fun x y same => by simpa using same
    · intro u hv hw
      obtain ⟨x, -, rfl⟩ := List.mem_map.mp hv
      obtain ⟨y, -, same⟩ := List.mem_map.mp hw
      exact different (List.append_singleton_inj.mp same).1.symm

theorem length_wordsUpTo (m : Nat) : (wordsUpTo a m).length = wordCount a m := by
  simp [wordsUpTo, wordCount, List.length_flatMap, length_wordsOfLength]

theorem mem_wordsUpTo (m : Nat) (w : List Nat) : w ∈ wordsUpTo a m ↔ w.length ≤ m ∧ ∀ x ∈ w, x < a := by
  simp [wordsUpTo, mem_wordsOfLength]

theorem nodup_wordsUpTo (m : Nat) : (wordsUpTo a m).Nodup := by
  refine List.nodup_flatMap.mpr ⟨fun l _ => nodup_wordsOfLength a l, List.nodup_range.imp fun {i j} different => ?_⟩
  intro w hi hj
  exact different (((mem_wordsOfLength a i w).mp hi).1.symm.trans ((mem_wordsOfLength a j w).mp hj).1)

end Words

section TreeCount

variable {a m : Nat} {tree : List (List Nat × Nat)}

/-- Distinct words are no more than there are. -/
theorem TreeWf.length_le_wordCount (wf : TreeWf a m tree) : tree.length ≤ wordCount a m := by
  have inside : tree.map Prod.fst ⊆ wordsUpTo a m := fun w hw => by
    obtain ⟨e, he, rfl⟩ := List.mem_map.mp hw
    obtain ⟨short, letters, -⟩ := wf.bounded e he
    exact (mem_wordsUpTo a m e.1).mpr ⟨short, letters⟩
  simpa [length_wordsUpTo] using (wf.distinct.subperm inside).length_le

/-- A tree in which every word that is short enough has all its children holds every word. -/
theorem TreeWf.wordCount_le_length (wf : TreeWf a m tree) (full : ∀ e ∈ tree, e.1.length < m → e.2 = a) :
    wordCount a m ≤ tree.length := by
  have holds : ∀ w : List Nat, w.length ≤ m → (∀ x ∈ w, x < a) → w ∈ tree.map Prod.fst := by
    intro w
    induction w using List.reverseRecOn with
    | nil => exact fun _ _ => List.mem_map_of_mem wf.root
    | append_singleton v x ih =>
      intro length letters
      rw [List.length_append, List.length_singleton] at length
      have parent := ih (Nat.le_of_succ_le length) fun y hy => letters y (List.mem_append_left [x] hy)
      obtain ⟨e, he, rfl⟩ := List.mem_map.mp parent
      have hx : x < a := letters x (List.mem_append_right _ (List.mem_singleton_self x))
      exact (wf.children e he x hx).mpr (full e he length ▸ hx)
  have inside : wordsUpTo a m ⊆ tree.map Prod.fst := fun w hw => by
    obtain ⟨short, letters⟩ := (mem_wordsUpTo a m w).mp hw
    exact holds w short letters
  simpa [length_wordsUpTo] using ((nodup_wordsUpTo a m).subperm inside).length_le

end TreeCount

/-! ### `GROW` -/

section Grow

variable {num : Config.Numerics} {cap a mws : Nat} {pchild : List Prob} {P : List Node → Prop}

/-- Whatever retiring and splitting the node taken keeps holds of the nodes `GROW` ends with, and there are enough of
them. -/
theorem growLoop_keeps
    (retiring : ∀ nodes id n, P nodes → nodes[id]? = some n → n.retired = false → retires a mws n = true →
      P (nodes.set id { n with retired := true }))
    (splitting : ∀ nodes id n, nodes.length < cap → P nodes → nodes[id]? = some n → n.retired = false →
      retires a mws n = false → P (splitNode num pchild nodes id n))
    (fuel : Nat) (nodes : List Node) (start : P nodes) :
    ∀ nodes', growLoop num cap a mws pchild fuel nodes = some nodes' → P nodes' ∧ cap ≤ nodes'.length := by
  induction fuel generalizing nodes with
  | zero =>
    intro nodes' grown
    rw [growLoop] at grown
    split at grown
    · cases grown
    · cases grown
      exact ⟨start, by omega⟩
  | succ fuel ih =>
    intro nodes' grown
    rw [growLoop] at grown
    split at grown
    next room =>
      split at grown
      · cases grown
      next id n taken =>
        obtain ⟨-, here, waiting⟩ := popBest_spec num nodes 0 id n taken
        rw [Nat.sub_zero] at here
        split at grown
        next rule => exact ih _ (retiring nodes id n start here waiting rule) nodes' grown
        next rule => exact ih _ (splitting nodes id n room start here waiting (by simpa using rule)) nodes' grown
    next enough =>
      cases grown
      exact ⟨start, by omega⟩

/-- With enough fuel `GROW` fails only where every node is retired and there are too few. -/
theorem growLoop_fails
    (retiring : ∀ nodes id n, P nodes → nodes[id]? = some n → n.retired = false → retires a mws n = true →
      P (nodes.set id { n with retired := true }))
    (splitting : ∀ nodes id n, nodes.length < cap → P nodes → nodes[id]? = some n → n.retired = false →
      retires a mws n = false → P (splitNode num pchild nodes id n))
    (fuel : Nat) (nodes : List Node) (start : P nodes) (enough : 2 * (cap - nodes.length) + queued nodes ≤ fuel)
    (failed : growLoop num cap a mws pchild fuel nodes = none) :
    ∃ nodes', P nodes' ∧ nodes'.length < cap ∧ ∀ n ∈ nodes', n.retired = true := by
  induction fuel generalizing nodes with
  | zero =>
    rw [growLoop, if_neg (by omega)] at failed
    cases failed
  | succ fuel ih =>
    rw [growLoop] at failed
    split at failed
    next room =>
      split at failed
      next taken => exact ⟨nodes, start, room, popBest_none num nodes 0 taken⟩
      next id n taken =>
        obtain ⟨-, here, waiting⟩ := popBest_spec num nodes 0 id n taken
        rw [Nat.sub_zero] at here
        split at failed
        next rule =>
          have fewer := queued_set_retired nodes id n here waiting
          exact ih _ (retiring nodes id n start here waiting rule) (by rw [List.length_set]; omega) failed
        next rule =>
          have more := queued_split num pchild nodes id n here waiting
          exact ih _ (splitting nodes id n room start here waiting (by simpa using rule))
            (by rw [splitNode_length]; omega) failed
    next => cases failed

theorem grow_fails {k : Nat}
    (retiring : ∀ nodes id n, P nodes → nodes[id]? = some n → n.retired = false → retires a mws n = true →
      P (nodes.set id { n with retired := true }))
    (splitting : ∀ nodes id n, nodes.length < 2 ^ k → P nodes → nodes[id]? = some n → n.retired = false →
      retires a mws n = false → P (splitNode num pchild nodes id n))
    (nodes : List Node) (start : P nodes) (small : nodes.length ≤ 2 ^ k)
    (failed : grow num k a mws pchild nodes = none) :
    ∃ nodes', P nodes' ∧ nodes'.length < 2 ^ k ∧ ∀ n ∈ nodes', n.retired = true := by
  have waiting := queued_le_length nodes
  exact growLoop_fails retiring splitting _ nodes start (by omega) failed

end Grow

/-! ### The tree of the nodes -/

/-- A node's word with the number of its children. -/
def Node.shape (n : Node) : List Nat × Nat := (n.word, n.degree)

/-- What `GROW` keeps: the tree's shape, room for no more than `2^K` nodes, and that only nodes the rule retires are
retired. -/
structure GrowthWf (cap a mws : Nat) (nodes : List Node) : Prop where
  tree : TreeWf a (min mws 255) (nodes.map Node.shape)
  room : nodes.length ≤ cap
  retired : ∀ n ∈ nodes, n.retired = true → retires a mws n = true

section Growth

variable {num : Config.Numerics} {cap a mws id : Nat} {pchild : List Prob} {nodes : List Node} {n : Node}

theorem retires_eq_false (hmws : 0 < mws) (goesOn : retires a mws n = false) :
    n.degree ≠ a ∧ (n.word.length < min mws 255 ∨ 255 < n.word.length) := by
  simp only [retires, Bool.or_eq_false_iff, Bool.and_eq_false_iff, decide_eq_false_iff_not, beq_eq_false_iff_ne] at goesOn
  omega

theorem map_shape_retire (here : nodes[id]? = some n) :
    (nodes.set id { n with retired := true }).map Node.shape = nodes.map Node.shape := by
  obtain ⟨hid, rfl⟩ := List.getElem?_eq_some_iff.mp here
  rw [List.map_set]
  have same := List.set_getElem_self (as := nodes.map Node.shape) (i := id) (by simpa using hid)
  simpa [Node.shape] using same

theorem map_shape_split (num : Config.Numerics) (pchild : List Prob) (nodes : List Node) (id : Nat) (n : Node) :
    (splitNode num pchild nodes id n).map Node.shape
      = (nodes.map Node.shape).set id (n.word, n.degree + 1) ++ [(n.word ++ [n.degree], 0)] := by
  simp [splitNode, List.map_set, Node.shape]

theorem GrowthWf.retire (wf : GrowthWf cap a mws nodes) (here : nodes[id]? = some n) (rule : retires a mws n = true) :
    GrowthWf cap a mws (nodes.set id { n with retired := true }) := by
  refine ⟨(map_shape_retire here).symm ▸ wf.tree, by simpa using wf.room, fun x hx gone => ?_⟩
  rcases List.mem_or_eq_of_mem_set hx with old | rfl
  · exact wf.retired x old gone
  · exact rule

theorem GrowthWf.split (hmws : 0 < mws) (wf : GrowthWf cap a mws nodes) (space : nodes.length < cap)
    (here : nodes[id]? = some n) (waiting : n.retired = false) (goesOn : retires a mws n = false) :
    GrowthWf cap a mws (splitNode num pchild nodes id n) := by
  obtain ⟨open_, length⟩ := retires_eq_false hmws goesOn
  have shape : (nodes.map Node.shape)[id]? = some (n.word, n.degree) := by simp [here, Node.shape]
  have bound := (wf.tree.bounded _ (List.mem_of_getElem? shape)).1
  refine ⟨?_, by simpa using space, fun x hx gone => ?_⟩
  · rw [map_shape_split]
    exact wf.tree.split shape open_ (by dsimp only at bound; omega)
  · rw [splitNode, List.mem_append, List.mem_singleton] at hx
    rcases hx with set | rfl
    · rcases List.mem_or_eq_of_mem_set set with old | rfl
      · exact wf.retired x old gone
      · exact absurd (waiting.symm.trans gone) (by decide)
    · exact absurd gone (by simp)

variable {k : Nat}

/-- The nodes `GROW` ends with: a tree of exactly `2^K`. -/
theorem grow_wf (hmws : 0 < mws) (start : GrowthWf (2 ^ k) a mws nodes) {nodes' : List Node}
    (grown : grow num k a mws pchild nodes = some nodes') :
    TreeWf a (min mws 255) (nodes'.map Node.shape) ∧ nodes'.length = 2 ^ k := by
  obtain ⟨wf, enough⟩ := growLoop_keeps (P := GrowthWf (2 ^ k) a mws)
    (fun _ _ _ wf here _ rule => wf.retire here rule)
    (fun _ _ _ space wf here waiting goesOn => wf.split hmws space here waiting goesOn) _ nodes start nodes' grown
  exact ⟨wf.tree, le_antisymm wf.room enough⟩

/-- R156: `GROW` fails exactly when there are fewer words than slots. -/
theorem grow_eq_none_iff (hmws : 0 < mws) (start : GrowthWf (2 ^ k) a mws nodes) :
    grow num k a mws pchild nodes = none ↔ wordCount a (min mws 255) < 2 ^ k := by
  constructor
  · intro failed
    obtain ⟨nodes', wf, few, gone⟩ := grow_fails (P := GrowthWf (2 ^ k) a mws)
      (fun _ _ _ wf here _ rule => wf.retire here rule)
      (fun _ _ _ space wf here waiting goesOn => wf.split hmws space here waiting goesOn) nodes start start.room failed
    refine lt_of_le_of_lt (wf.tree.wordCount_le_length fun e he short => ?_) (by simpa using few)
    obtain ⟨n, hn, rfl⟩ := List.mem_map.mp he
    have rule := wf.retired n hn (gone n hn)
    simp only [retires, Bool.or_eq_true, Bool.and_eq_true, decide_eq_true_eq, beq_iff_eq] at rule
    simp only [Node.shape] at short ⊢
    omega
  · intro few
    by_contra built
    obtain ⟨nodes', grown⟩ := Option.ne_none_iff_exists'.mp built
    obtain ⟨tree, size⟩ := grow_wf hmws start grown
    have most := tree.length_le_wordCount
    rw [List.length_map, size] at most
    omega

end Growth

/-! ### `SEED` -/

section Seed

variable (num : Config.Numerics)

theorem length_seedProbs (run : Prob) (pn pnSum : List Prob) (alpha : List AlphaEntry) :
    (seedProbs num run pn pnSum alpha).length = min pn.length (min pnSum.length alpha.length) := by
  induction pn generalizing run pnSum alpha with
  | nil => simp [seedProbs]
  | cons q qs ih =>
    cases pnSum with
    | nil => simp [seedProbs]
    | cons n ns =>
      cases alpha with
      | nil => simp [seedProbs]
      | cons e es => simp only [seedProbs, List.length_cons, ih]; omega

theorem map_shape_seed (pn pnSum : List Prob) (alpha : List AlphaEntry) :
    (seed num pn pnSum alpha).map Node.shape
      = ([], alpha.length) ::
        (List.range (min pn.length (min pnSum.length alpha.length))).map fun x => ([x], 0) := by
  rw [← length_seedProbs num (.rat 0) pn pnSum alpha]
  simp only [seed, List.map_cons, Node.shape, List.cons.injEq, true_and]
  apply List.ext_getElem <;> simp [Node.shape]

theorem seed_growthWf {pn pnSum : List Prob} {alpha : List AlphaEntry} {cap mws : Nat} (hmws : 0 < mws)
    (hpn : pn.length = alpha.length) (hsum : pnSum.length = alpha.length) (room : alpha.length < cap) :
    GrowthWf cap alpha.length mws (seed num pn pnSum alpha) := by
  have shape := map_shape_seed num pn pnSum alpha
  rw [hpn, hsum, Nat.min_self, Nat.min_self] at shape
  refine ⟨shape ▸ treeWf_seed (by omega), ?_, ?_⟩
  · have size := congrArg List.length shape
    simp only [List.length_map, List.length_cons, List.length_range] at size
    omega
  · intro n hn gone
    simp only [seed, List.mem_cons, List.mem_mapIdx] at hn
    rcases hn with rfl | ⟨i, hi, rfl⟩ <;> simp at gone

end Seed

end Sys2Proof.Proofs
end

section
/-! Proofs for the chapters and the iteration (41_build_dictionary.md R157 to R163): the structure of every finished
dictionary, and when there is one. -/

namespace Sys2Proof.Proofs

open Sys2Proof Sys2Proof.Machine

/-! ### A chapter from its tree -/

/-- A word with the number of its children. -/
def wordShape (w : DictWord) : List Nat × Nat := (w.syms, w.state)

theorem map_wordShape_extract (num : Config.Numerics) (factor : Prob) (nodes : List Node) :
    (extract num factor nodes).map wordShape = nodes.map Node.shape := by
  simp [extract, wordShape, Node.shape, Function.comp_def]

theorem recordAt_eq_getElem {d : List DictWord} {i : Nat} (hi : i < d.length) : recordAt d i = d[i] := by
  simp [recordAt, hi]

theorem recordAt_mem {d : List DictWord} {i : Nat} (hi : i < d.length) : recordAt d i ∈ d :=
  recordAt_eq_getElem hi ▸ List.getElem_mem hi

theorem mem_map_fst_wordShape {ch : List DictWord} {w : List Nat} :
    w ∈ (ch.map wordShape).map Prod.fst ↔ hasWord ch w := by
  simp [wordShape, hasWord]

/-- The tree's shape is R163 (a) to (d) but for the place of the empty word. -/
theorem chapterWf_of_tree {k a mws : Nat} {ch : List DictWord} (tree : TreeWf a (min mws 255) (ch.map wordShape))
    (size : ch.length = 2 ^ k) (slot : (recordAt ch 0).syms = []) : ChapterWf k a mws ch := by
  have first : recordAt ch 0 ∈ ch := recordAt_mem (size ▸ Nat.two_pow_pos k)
  have state : (recordAt ch 0).state = a := by
    have root := List.inj_on_of_nodup_map tree.distinct (List.mem_map_of_mem first) tree.root slot
    exact congrArg Prod.snd root
  refine ⟨size, ?distinct, ?bounded, ⟨slot, state⟩, ?single, ?prefixes, ?children⟩
  case distinct => simpa [wordShape, Function.comp_def] using tree.distinct
  case bounded =>
    intro e he
    obtain ⟨short, letters, -⟩ := tree.bounded _ (List.mem_map_of_mem he)
    exact ⟨short, letters⟩
  case single => exact fun x hx => mem_map_fst_wordShape.mp ((tree.children _ tree.root x hx).mpr hx)
  case prefixes =>
    exact fun e he nonempty => mem_map_fst_wordShape.mp (tree.prefixes _ (List.mem_map_of_mem he) nonempty)
  case children =>
    intro e he
    obtain ⟨-, -, degree⟩ := tree.bounded _ (List.mem_map_of_mem he)
    exact ⟨degree, fun t ht => mem_map_fst_wordShape.symm.trans (tree.children _ (List.mem_map_of_mem he) t ht)⟩

theorem syms_recordAt_sortWords_zero (num : Config.Numerics) {l : List DictWord} (empty : hasWord l []) :
    (recordAt (sortWords num l) 0).syms = [] := by
  obtain ⟨e, he, none⟩ := empty
  have first : e ∈ l.filter fun w => w.syms.isEmpty := List.mem_filter.mpr ⟨he, by simp [none]⟩
  obtain ⟨x, rest, split⟩ := List.exists_cons_of_ne_nil (List.ne_nil_of_mem first)
  have hx : x ∈ l.filter fun w => w.syms.isEmpty := split ▸ List.mem_cons_self
  have head : recordAt (sortWords num l) 0 = x := by simp [sortWords, split, recordAt]
  simpa [head] using (List.mem_filter.mp hx).2

section Chapter

variable {b : BuildParams} {pst : List Prob} {ch : List DictWord}

@[simp] theorem length_norm (num : Config.Numerics) (pst : List Prob) : (Machine.norm num pst).1.length = pst.length := by
  simp only [Machine.norm]
  split <;> simp

/-- What the chapters of a dictionary need of the values they share. -/
structure ParamsWf (b : BuildParams) : Prop where
  pn : b.pn.length = b.alpha.length
  room : b.alpha.length < 2 ^ b.k
  mws : 0 < b.mws
  ko : b.o ≤ b.k

theorem buildChapter_eq_some_iff : buildChapter b pst = some ch ↔
    ∃ nodes, grow b.num b.k b.alpha.length b.mws b.pchild (seed b.num (Machine.norm b.num pst).1 b.pn b.alpha) = some nodes
      ∧ pack b.k b.o (sortWords b.num (extract b.num (Machine.norm b.num pst).2 nodes)) = ch := by
  simp [buildChapter]

theorem length_of_buildChapter (built : buildChapter b pst = some ch) : ch.length = 2 ^ b.k := by
  obtain ⟨nodes, -, rfl⟩ := buildChapter_eq_some_iff.mp built
  exact length_pack _ _ _

theorem chapter_start (wf : ParamsWf b) (vector : pst.length = b.alpha.length) :
    GrowthWf (2 ^ b.k) b.alpha.length b.mws (seed b.num (Machine.norm b.num pst).1 b.pn b.alpha) :=
  seed_growthWf b.num wf.mws ((length_norm b.num pst).trans vector) wf.pn wf.room

/-- R163 (a) to (d) for one chapter. -/
theorem chapterWf_of_buildChapter (wf : ParamsWf b) (vector : pst.length = b.alpha.length)
    (built : buildChapter b pst = some ch) : ChapterWf b.k b.alpha.length b.mws ch := by
  obtain ⟨nodes, grown, rfl⟩ := buildChapter_eq_some_iff.mp built
  obtain ⟨tree, size⟩ := grow_wf wf.mws (chapter_start wf vector) grown
  rw [← map_wordShape_extract b.num (Machine.norm b.num pst).2] at tree
  have sorted := sortWords_perm b.num (extract b.num (Machine.norm b.num pst).2 nodes)
  have full : (sortWords b.num (extract b.num (Machine.norm b.num pst).2 nodes)).length = 2 ^ b.k := by
    rw [sorted.length_eq, extract, List.length_map, size]
  have same := (pack_perm wf.ko full).trans sorted
  have empty : hasWord (extract b.num (Machine.norm b.num pst).2 nodes) [] :=
    mem_map_fst_wordShape.mp (List.mem_map_of_mem tree.root)
  refine chapterWf_of_tree (tree.perm (same.map _).symm) (length_pack _ _ _) ?_
  rw [recordAt_pack_zero]
  exact syms_recordAt_sortWords_zero b.num empty

/-- R156 for one chapter. -/
theorem buildChapter_eq_none_iff (wf : ParamsWf b) (vector : pst.length = b.alpha.length) :
    buildChapter b pst = none ↔ wordCount b.alpha.length (min b.mws 255) < 2 ^ b.k := by
  rw [← grow_eq_none_iff wf.mws (chapter_start wf vector) (num := b.num) (pchild := b.pchild), buildChapter]
  simp

end Chapter

/-! ### The chapters of a dictionary -/

section Chapters

variable {b : BuildParams}

theorem chapterOf_append_zero {k : Nat} {ch rest : List DictWord} (size : ch.length = 2 ^ k) :
    chapterOf k (ch ++ rest) 0 = ch := by
  simp [chapterOf, ← size]

theorem chapterOf_append_succ {k : Nat} {ch rest : List DictWord} (size : ch.length = 2 ^ k) (c : Nat) :
    chapterOf k (ch ++ rest) (c + 1) = chapterOf k rest c := by
  have place : (c + 1) * 2 ^ k = ch.length + c * 2 ^ k := by rw [size]; ring
  rw [chapterOf, place, ← List.drop_drop, List.drop_left, chapterOf]

/-- Chapter `c` of what is built is the chapter of vector `c`. -/
theorem buildChapters_spec (psts : List (List Prob)) (d : List DictWord) (built : buildChapters b psts = some d) :
    d.length = psts.length * 2 ^ b.k
      ∧ ∀ c pst, psts[c]? = some pst → buildChapter b pst = some (chapterOf b.k d c) := by
  induction psts generalizing d with
  | nil =>
    cases built
    simp
  | cons pst rest ih =>
    rw [buildChapters] at built
    split at built
    · cases built
    next ch first =>
      obtain ⟨d', others, rfl⟩ := Option.map_eq_some_iff.mp built
      obtain ⟨length, chapters⟩ := ih d' others
      have size := length_of_buildChapter first
      refine ⟨by rw [List.length_append, length, size, List.length_cons]; ring, fun c pst' hc => ?_⟩
      cases c with
      | zero =>
        cases hc
        rw [chapterOf_append_zero size, first]
      | succ c =>
        rw [chapterOf_append_succ size]
        exact chapters c pst' hc

theorem buildChapters_eq_none_iff (psts : List (List Prob)) :
    buildChapters b psts = none ↔ ∃ pst ∈ psts, buildChapter b pst = none := by
  induction psts with
  | nil => simp [buildChapters]
  | cons pst rest ih =>
    rw [buildChapters, List.exists_mem_cons_iff, ← ih]
    cases buildChapter b pst <;> simp

end Chapters

/-! ### The iteration -/

section Iteration

variable {b : BuildParams}

/-- Vectors of state probabilities: `2^O` of them, of one entry per symbol. -/
def VectorsWf (a o : Nat) (psts : List (List Prob)) : Prop := psts.length = 2 ^ o ∧ ∀ pst ∈ psts, pst.length = a

theorem initialPstates_wf (num : Config.Numerics) (a o : Nat) : VectorsWf a o (initialPstates num a o) := by
  simp [VectorsWf, initialPstates]

theorem pstates_wf (num : Config.Numerics) (a o : Nat) (d : List DictWord) : VectorsWf a o (pstates num a o d) := by
  simp [VectorsWf, pstates]

/-- Whatever holds of the first vectors and of those of every dictionary built holds of the vectors the last dictionary
is built from (R162). -/
theorem iterateFrom_spec (P : List (List Prob) → Prop)
    (next : ∀ psts d, P psts → buildChapters b psts = some d → P (pstates b.num b.alpha.length b.o d))
    (n : Nat) (psts : List (List Prob)) (start : P psts) (d : List DictWord)
    (built : iterateFrom b (n + 1) psts = some d) : ∃ psts', P psts' ∧ buildChapters b psts' = some d := by
  induction n generalizing psts with
  | zero => exact ⟨psts, start, built⟩
  | succ n ih =>
    rw [iterateFrom] at built
    split at built
    · cases built
    next d' pass => exact ih _ (next psts d' start pass) built

theorem iterateFrom_eq_none_iff (few : Prop)
    (chapters : ∀ psts, VectorsWf b.alpha.length b.o psts → (buildChapters b psts = none ↔ few))
    (n : Nat) (psts : List (List Prob)) (start : VectorsWf b.alpha.length b.o psts) :
    iterateFrom b (n + 1) psts = none ↔ few := by
  induction n generalizing psts with
  | zero => exact chapters psts start
  | succ n ih =>
    rw [iterateFrom]
    split
    next failed => exact iff_of_true rfl ((chapters psts start).mp failed)
    next d pass => exact ih _ (pstates_wf _ _ _ d)

end Iteration

/-! ### The last dictionary of an iteration -/

section LastDictionary

variable {b : BuildParams} (wf : ParamsWf b) (n : Nat)

include wf

theorem dictWf_of_iterateFrom {d : List DictWord}
    (built : iterateFrom b (n + 1) (initialPstates b.num b.alpha.length b.o) = some d) :
    DictWf b.k b.o b.alpha.length b.mws d := by
  obtain ⟨psts, ⟨count, vectors⟩, last⟩ := iterateFrom_spec (VectorsWf b.alpha.length b.o)
    (fun _ d _ _ => pstates_wf _ _ _ d) n _ (initialPstates_wf _ _ _) d built
  obtain ⟨length, chapters⟩ := buildChapters_spec psts d last
  refine ⟨by rw [length, count, Nat.add_comm, Nat.pow_add], fun c hc => ?_⟩
  have inside : c < psts.length := count ▸ hc
  exact chapterWf_of_buildChapter wf (vectors _ (List.getElem_mem inside))
    (chapters c psts[c] (List.getElem?_eq_getElem inside))

theorem iterateFrom_initial_eq_none_iff :
    iterateFrom b (n + 1) (initialPstates b.num b.alpha.length b.o) = none
      ↔ wordCount b.alpha.length (min b.mws 255) < 2 ^ b.k := by
  refine iterateFrom_eq_none_iff _ (fun psts vectors => ?_) n _ (initialPstates_wf _ _ _)
  obtain ⟨count, lengths⟩ := vectors
  have each : ∀ pst ∈ psts, buildChapter b pst = none ↔ _ := fun pst hpst =>
    buildChapter_eq_none_iff wf (lengths pst hpst)
  obtain ⟨first, hfirst⟩ : ∃ pst, pst ∈ psts := List.exists_mem_of_length_pos (count ▸ Nat.two_pow_pos _)
  rw [buildChapters_eq_none_iff]
  constructor
  · rintro ⟨pst, hpst, failed⟩
    exact (each pst hpst).mp failed
  · exact fun few => ⟨first, hfirst, (each first hfirst).mpr few⟩

end LastDictionary

/-! ### The dictionary of a shift and a `maxWordSize` -/

section Dictionary

variable {b : BuildInput} {s mws : Nat}

/-- The values the chapters of a dictionary share. -/
def dictParams (b : BuildInput) (s mws : Nat) : BuildParams :=
  buildParams b.num (b.alphabet s).1 (b.alphabet s).2 b.k b.o mws

theorem dictionary_eq_iterateFrom (b : BuildInput) (s mws : Nat) :
    b.dictionary s mws = iterateFrom (dictParams b s mws) b.iters
      (initialPstates (dictParams b s mws).num (dictParams b s mws).alpha.length (dictParams b s mws).o) := rfl

/-- R136: an alphabet has at least two symbols, and there are more slots in a chapter than symbols. -/
theorem length_alphabet_bounds (hk : 4 ≤ b.k) (ho : b.o < b.k) (hs : s ≤ 7) :
    2 ≤ (b.alphabet s).1.length ∧ (b.alphabet s).1.length ≤ 256 ∧ (b.alphabet s).1.length < 2 ^ b.k := by
  obtain ⟨-, -, low, high⟩ := alphabetBounds b.num b.pmf b.k b.o s b.purge hk ho hs
  have slots : 0 < 2 ^ b.k := Nat.two_pow_pos b.k
  refine ⟨low, ?_⟩
  simp only [BuildInput.alphabet]
  omega

theorem dictParams_wf (hk : 4 ≤ b.k) (ho : b.o < b.k) (hs : s ≤ 7) (hmws : 0 < mws) :
    ParamsWf (dictParams b s mws) where
  pn := by simp [dictParams, buildParams, pnOf]
  room := (length_alphabet_bounds hk ho hs).2.2
  mws := hmws
  ko := ho.le

/-- R163 (a) to (d). -/
theorem dictWf_of_dictionary (hk : 4 ≤ b.k) (ho : b.o < b.k) (hi : 1 ≤ b.iters) (hs : s ≤ 7) (hmws : 0 < mws)
    {d : List DictWord} (built : b.dictionary s mws = some d) :
    DictWf b.k b.o (b.alphabet s).1.length mws d := by
  obtain ⟨n, iters⟩ : ∃ n, b.iters = n + 1 := ⟨b.iters - 1, by omega⟩
  rw [dictionary_eq_iterateFrom, iters] at built
  exact dictWf_of_iterateFrom (dictParams_wf hk ho hs hmws) n built

/-- R156: the dictionary cannot be built exactly when there are fewer words than slots in a chapter. -/
theorem dictionary_eq_none_iff (hk : 4 ≤ b.k) (ho : b.o < b.k) (hi : 1 ≤ b.iters) (hs : s ≤ 7) (hmws : 0 < mws) :
    b.dictionary s mws = none ↔ wordCount (b.alphabet s).1.length (min mws 255) < 2 ^ b.k := by
  obtain ⟨n, iters⟩ : ∃ n, b.iters = n + 1 := ⟨b.iters - 1, by omega⟩
  rw [dictionary_eq_iterateFrom, iters]
  exact iterateFrom_initial_eq_none_iff (dictParams_wf hk ho hs hmws) n

end Dictionary

/-- Settles O39: a chapter's tree keeps the structure while it grows, and sorting and packing only move its words. -/
theorem dictionaryStructure : Obligations.DictionaryStructure := by
  unfold Obligations.DictionaryStructure
  intro b s mws d hk ho hi hs hmws built
  have positive : 0 < mws := Nat.pos_of_ne_zero (by rintro rfl; simp at hmws)
  exact dictWf_of_dictionary hk ho hi hs positive built

end Sys2Proof.Proofs
end

section
/-! Proofs for the tables a dictionary gives (42_build_tables.md R183 to R189): positions of words, the jump table, the
decoder records. -/

namespace Sys2Proof.Proofs

open Sys2Proof Sys2Proof.Machine

/-! ### Positions (00_scope.md R13) -/

theorem isPos_iff {k : Nat} {d : List DictWord} {c : Nat} {w : List Nat} {j : Nat} :
    IsPos k d c w j ↔ ∃ i, j = c * 2 ^ k + i ∧ ∃ e, (chapterOf k d c)[i]? = some e ∧ e.syms = w := by
  simp only [chapterOf, List.getElem?_take, List.getElem?_drop]
  constructor
  · rintro ⟨hj, rfl, rfl⟩
    have place : j / 2 ^ k * 2 ^ k + j % 2 ^ k = j := Nat.div_add_mod' j _
    refine ⟨j % 2 ^ k, place.symm, recordAt d j, ?_, rfl⟩
    rw [if_pos (Nat.mod_lt j (Nat.two_pow_pos k)), place, List.getElem?_eq_getElem hj, recordAt_eq_getElem hj]
  · rintro ⟨i, rfl, e, he, rfl⟩
    split at he
    next hi =>
      obtain ⟨hj, rfl⟩ := List.getElem?_eq_some_iff.mp he
      refine ⟨hj, ?_, by rw [symsAt, recordAt_eq_getElem hj]⟩
      rw [Nat.mul_comm, Nat.mul_add_div (Nat.two_pow_pos k), Nat.div_eq_of_lt hi, Nat.add_zero]
    next => cases he

theorem hasWord_of_isPos {k : Nat} {d : List DictWord} {c : Nat} {w : List Nat} {j : Nat} (at_j : IsPos k d c w j) :
    hasWord (chapterOf k d c) w := by
  obtain ⟨i, -, e, he, word⟩ := isPos_iff.mp at_j
  exact ⟨e, List.mem_of_getElem? he, word⟩

theorem exists_isPos_of_hasWord {k : Nat} {d : List DictWord} {c : Nat} {w : List Nat}
    (has : hasWord (chapterOf k d c) w) : ∃ j, IsPos k d c w j := by
  obtain ⟨e, he, word⟩ := has
  obtain ⟨i, hi⟩ := List.mem_iff_getElem?.mp he
  exact ⟨_, isPos_iff.mpr ⟨i, rfl, e, hi, word⟩⟩

section Positions

variable {k o a mws : Nat} {d : List DictWord} {c : Nat} {w : List Nat} {j : Nat}

theorem chapter_lt (wf : DictWf k o a mws d) (hj : j < d.length) : j / 2 ^ k < 2 ^ o :=
  Nat.div_lt_of_lt_mul (by rw [← Nat.pow_add, ← wf.1]; exact hj)

theorem chapterWf_of_isPos (wf : DictWf k o a mws d) (at_j : IsPos k d c w j) :
    ChapterWf k a mws (chapterOf k d c) := by
  obtain ⟨hj, rfl, -⟩ := at_j
  exact wf.2 _ (chapter_lt wf hj)

/-- R163 (a): a word has one position in a chapter. -/
theorem isPos_unique (wf : DictWf k o a mws d) (at_j : IsPos k d c w j) {j' : Nat} (at_j' : IsPos k d c w j') :
    j = j' := by
  obtain ⟨-, distinct, -⟩ := chapterWf_of_isPos wf at_j
  obtain ⟨i, rfl, e, he, word⟩ := isPos_iff.mp at_j
  obtain ⟨i', rfl, e', he', word'⟩ := isPos_iff.mp at_j'
  obtain ⟨hi, rfl⟩ := List.getElem?_eq_some_iff.mp he
  obtain ⟨hi', rfl⟩ := List.getElem?_eq_some_iff.mp he'
  have same := (List.Nodup.getElem_inj_iff distinct (i := i) (j := i') (hi := by simpa using hi)
    (hj := by simpa using hi')).mp (by simp [word, word'])
  rw [same]

theorem posD_eq (wf : DictWf k o a mws d) (at_j : IsPos k d c w j) : posD k d c w = j := by
  obtain ⟨e, he, word⟩ := hasWord_of_isPos at_j
  cases found : (chapterOf k d c).findIdx? fun e => e.syms == w with
  | none => exact absurd word (by simpa using List.findIdx?_eq_none_iff.mp found e he)
  | some i =>
    obtain ⟨hi, here, -⟩ := List.findIdx?_eq_some_iff_getElem.mp found
    have at_i : IsPos k d c w (c * 2 ^ k + i) :=
      isPos_iff.mpr ⟨i, rfl, _, List.getElem?_eq_getElem hi, by simpa using here⟩
    rw [posD, posOf, found]
    exact isPos_unique wf at_i at_j

theorem isPos_dropLast (wf : DictWf k o a mws d) (at_j : IsPos k d c w j) (nonempty : w ≠ []) :
    ∃ q, IsPos k d c w.dropLast q := by
  obtain ⟨-, -, -, -, -, prefixes, -⟩ := chapterWf_of_isPos wf at_j
  obtain ⟨e, he, rfl⟩ := hasWord_of_isPos at_j
  exact exists_isPos_of_hasWord (prefixes e he nonempty)

theorem isPos_single (wf : DictWf k o a mws d) (hc : c < 2 ^ o) {x : Nat} (hx : x < a) : ∃ q, IsPos k d c [x] q := by
  obtain ⟨-, -, -, -, single, -⟩ := wf.2 c hc
  exact exists_isPos_of_hasWord (single x hx)

theorem word_bounds (wf : DictWf k o a mws d) (at_j : IsPos k d c w j) :
    w.length ≤ min mws 255 ∧ ∀ x ∈ w, x < a := by
  obtain ⟨-, -, bounded, -⟩ := chapterWf_of_isPos wf at_j
  obtain ⟨e, he, rfl⟩ := hasWord_of_isPos at_j
  exact bounded e he

theorem isPos_self {j : Nat} (hj : j < d.length) : IsPos k d (j / 2 ^ k) (symsAt d j) j := ⟨hj, rfl, rfl⟩

/-- R163 (b): the empty words are at the positions `c * 2^K`. -/
theorem symsAt_eq_nil_iff (wf : DictWf k o a mws d) (hj : j < d.length) : symsAt d j = [] ↔ 2 ^ k ∣ j := by
  obtain ⟨size, -, -, ⟨slot, -⟩, -⟩ := wf.2 _ (chapter_lt wf hj)
  have room : 0 < (chapterOf k d (j / 2 ^ k)).length := by
    rw [size]
    exact Nat.two_pow_pos k
  have first : IsPos k d (j / 2 ^ k) [] (j / 2 ^ k * 2 ^ k) :=
    isPos_iff.mpr ⟨0, rfl, _, List.getElem?_eq_getElem room, by rwa [← recordAt_eq_getElem room]⟩
  constructor
  · intro empty
    exact ⟨j / 2 ^ k, by rw [Nat.mul_comm]; exact isPos_unique wf (empty ▸ isPos_self hj) first⟩
  · rintro ⟨q, rfl⟩
    rw [Nat.mul_div_cancel_left q (Nat.two_pow_pos k), Nat.mul_comm] at first
    exact first.2.2

end Positions

/-! ### The table while it is built (R183, R184) -/

/-- The cell of a row and a column; undefined outside the table. -/
def cell (rows : JumpRows) (q t : Nat) : Option Nat := (rows.getD q []).getD t none

theorem cell_setCell (rows : JumpRows) (q t v q' t' : Nat) :
    cell (setCell rows q t v) q' t'
      = if q' = q ∧ t' = t ∧ t < (rows.getD q []).length then some v else cell rows q' t' := by
  simp only [cell, setCell, List.getD_eq_getElem?_getD, List.getElem?_modify]
  by_cases row : q' = q
  · subst row
    cases here : rows[q']? with
    | none => simp
    | some r =>
      by_cases column : t' = t
      · subst column
        by_cases inside : t' < r.length
        · simp [inside]
        · simp [inside]
      · simp [column, Ne.symm column]
  · simp [row, Ne.symm row]

section Link

variable {k o a mws : Nat} {d : List DictWord}

/-- The table's size, and that a defined cell holds the position of the child (R184). -/
structure LinkWf (k a : Nat) (d : List DictWord) (rows : JumpRows) : Prop where
  length : rows.length = d.length
  columns : ∀ row ∈ rows, row.length = a + 1
  sound : ∀ q t i, cell rows q t = some i → symsAt d q ≠ [] ∧ IsPos k d (q / 2 ^ k) (symsAt d q ++ [t]) i

theorem LinkWf.columns_getD {rows : JumpRows} (wf : LinkWf k a d rows) {q : Nat} (hq : q < d.length) :
    (rows.getD q []).length = a + 1 := by
  rw [List.getD_eq_getElem _ _ (wf.length ▸ hq)]
  exact wf.columns _ (List.getElem_mem _)

/-- Writing a child's position keeps the table sound and every cell already defined. -/
theorem LinkWf.setCell {rows : JumpRows} (dwf : DictWf k o a mws d) (wf : LinkWf k a d rows) {q t i : Nat}
    (nonempty : symsAt d q ≠ []) (child : IsPos k d (q / 2 ^ k) (symsAt d q ++ [t]) i) :
    LinkWf k a d (setCell rows q t i)
      ∧ ∀ q' t' v, cell rows q' t' = some v → cell (Machine.setCell rows q t i) q' t' = some v := by
  refine ⟨⟨?_, ?_, ?_⟩, ?_⟩
  · rw [Machine.setCell, List.length_modify, wf.length]
  · intro row hrow
    rw [Machine.setCell] at hrow
    obtain ⟨j, hj, rfl⟩ := List.mem_iff_getElem.mp hrow
    rw [List.getElem_modify]
    split
    · rw [List.length_set]
      exact wf.columns _ (List.getElem_mem _)
    · exact wf.columns _ (List.getElem_mem _)
  · intro q' t' v
    rw [cell_setCell]
    split
    next here =>
      obtain ⟨rfl, rfl, -⟩ := here
      rintro ⟨⟩
      exact ⟨nonempty, child⟩
    next => exact wf.sound q' t' v
  · intro q' t' v defined
    rw [cell_setCell]
    split
    next here =>
      obtain ⟨rfl, rfl, -⟩ := here
      rw [isPos_unique dwf (wf.sound _ _ _ defined).2 child]
    next => exact defined

/-- What the walk of `JUMPLINK` does: the table stays sound, no cell is lost, and the word's own cell is defined. -/
theorem linkWalk_spec (dwf : DictWf k o a mws d) (c : Nat) (r : List Nat) (i : Nat) (rows : JumpRows)
    (word : IsPos k d c r.reverse i) (wf : LinkWf k a d rows) :
    LinkWf k a d (linkWalk k d c r i rows)
      ∧ (∀ q t v, cell rows q t = some v → cell (linkWalk k d c r i rows) q t = some v)
      ∧ ∀ t u rest q, r = t :: u :: rest → IsPos k d c (u :: rest).reverse q →
          cell (linkWalk k d c r i rows) q t = some i := by
  induction r generalizing i rows with
  | nil => exact ⟨wf, fun _ _ _ h => h, by simp⟩
  | cons t r ih =>
    cases r with
    | nil => exact ⟨wf, fun _ _ _ h => h, by simp⟩
    | cons u rest =>
      have split : (t :: u :: rest).reverse = (u :: rest).reverse ++ [t] := List.reverse_cons
      obtain ⟨q, parent⟩ := isPos_dropLast dwf word (by simp)
      rw [split, List.dropLast_concat] at parent
      obtain ⟨hq, rfl, syms⟩ := parent
      have nonempty : symsAt d q ≠ [] := by simp [syms]
      have child : IsPos k d (q / 2 ^ k) (symsAt d q ++ [t]) i := by rwa [syms, ← split]
      obtain ⟨wf', kept⟩ := wf.setCell dwf nonempty child
      have at_q : IsPos k d (q / 2 ^ k) (u :: rest).reverse q := ⟨hq, rfl, syms⟩
      obtain ⟨wf'', kept', -⟩ := ih q (setCell rows q t i) at_q wf'
      rw [linkWalk, posD_eq dwf at_q]
      refine ⟨wf'', fun q' t' v old => kept' _ _ _ (kept _ _ _ old), ?_⟩
      rintro t' u' rest' q' ⟨⟩ at_q'
      refine kept' _ _ _ ?_
      have column : t < a := (word_bounds dwf word).2 t (by simp)
      rw [cell_setCell, if_pos ⟨isPos_unique dwf at_q' at_q, rfl, by rw [wf.columns_getD hq]; omega⟩]

/-- A walk from each of some words defines the cells of those that are children. -/
theorem foldl_linkWalk_spec (dwf : DictWf k o a mws d) (l : List (DictWord × Nat))
    (places : ∀ e ∈ l, IsPos k d (e.2 / 2 ^ k) e.1.syms e.2) (rows : JumpRows) (wf : LinkWf k a d rows) :
    let rows' := l.foldl (fun rows e => linkWalk k d (e.2 / 2 ^ k) e.1.syms.reverse e.2 rows) rows
    LinkWf k a d rows' ∧ (∀ q t v, cell rows q t = some v → cell rows' q t = some v)
      ∧ ∀ e ∈ l, ∀ q t, symsAt d q ≠ [] → e.1.syms = symsAt d q ++ [t] → q / 2 ^ k = e.2 / 2 ^ k → q < d.length →
          cell rows' q t = some e.2 := by
  induction l generalizing rows with
  | nil => exact ⟨wf, fun _ _ _ old => old, by simp⟩
  | cons e rest ih =>
    have word : IsPos k d (e.2 / 2 ^ k) e.1.syms.reverse.reverse e.2 := by
      rw [List.reverse_reverse]
      exact places e List.mem_cons_self
    obtain ⟨wf', kept, own⟩ := linkWalk_spec dwf _ _ _ rows word wf
    obtain ⟨wf'', kept', others⟩ := ih (fun x hx => places x (List.mem_cons_of_mem e hx)) _ wf'
    refine ⟨wf'', fun q t v old => kept' _ _ _ (kept _ _ _ old), fun x hx q t nonempty syms chapter hq => ?_⟩
    rcases List.mem_cons.mp hx with rfl | later
    · refine kept' _ _ _ ?_
      obtain ⟨u, tail, reversed⟩ := List.exists_cons_of_ne_nil (mt List.reverse_eq_nil_iff.mp nonempty)
      refine own t u tail q (by rw [syms, List.reverse_append, reversed]; rfl) ⟨hq, chapter, ?_⟩
      rw [← reversed, List.reverse_reverse]
    · exact others x later q t nonempty syms chapter hq

theorem linkWf_undefined (k a : Nat) (d : List DictWord) :
    LinkWf k a d (List.replicate d.length (List.replicate (a + 1) none)) := by
  refine ⟨by simp, by simp +contextual, fun q t i defined => ?_⟩
  have undefined : cell (List.replicate d.length (List.replicate (a + 1) none)) q t = none := by
    simp only [cell, List.getD_eq_getElem?_getD, List.getElem?_replicate]
    split
    · simp only [Option.getD_some, List.getElem?_replicate]
      split <;> rfl
    · rfl
  cases undefined.symm.trans defined

/-- `JUMPLINK` defines the cells of all children and no other (R184). -/
theorem jumpLink_spec (dwf : DictWf k o a mws d) :
    LinkWf k a d (jumpLink k a d)
      ∧ ∀ q t i, symsAt d q ≠ [] → IsPos k d (q / 2 ^ k) (symsAt d q ++ [t]) i → q < d.length →
          cell (jumpLink k a d) q t = some i := by
  have places : ∀ e ∈ d.zipIdx, IsPos k d (e.2 / 2 ^ k) e.1.syms e.2 := fun e he => by
    obtain ⟨-, hi, word⟩ := List.mem_zipIdx he
    rw [Nat.zero_add] at hi
    refine ⟨hi, rfl, ?_⟩
    rw [symsAt, recordAt_eq_getElem hi, word]
    rfl
  obtain ⟨wf, -, all⟩ := foldl_linkWalk_spec dwf d.zipIdx places _ (linkWf_undefined k a d)
  refine ⟨wf, fun q t i nonempty ⟨hi, chapter, syms⟩ hq => ?_⟩
  have walked : (d[i], i) ∈ d.zipIdx := List.mk_mem_zipIdx_iff_getElem?.mpr (List.getElem?_eq_getElem hi)
  refine all (d[i], i) walked q t nonempty ?_ chapter.symm hq
  rw [← syms, symsAt, recordAt_eq_getElem hi]

end Link

/-! ### The finished table (R185 to R187) -/

section Finished

variable {k o a mws : Nat} {d : List DictWord}

theorem length_fillRow (ha : 0 < a) (i : Nat) {row : List (Option Nat)} (columns : row.length = a + 1) :
    (fillRow k o a d i row).length = a + 1 := by
  simp [fillRow, columns]
  omega

theorem getD_fillRow_of_lt (i : Nat) {row : List (Option Nat)} (columns : row.length = a + 1) {m : Nat} (hm : m < a) :
    (fillRow k o a d i row).getD m 0 = (row.getD m none).getD (posD k d (i % 2 ^ o) [m] + 2 ^ (k + o)) := by
  have inside : m < row.length := by omega
  simp [fillRow, List.getElem?_append, columns, hm, List.getElem?_eq_getElem inside]

theorem getD_fillRow_last (ha : 0 < a) (i : Nat) {row : List (Option Nat)} (columns : row.length = a + 1) :
    (fillRow k o a d i row).getD a 0 = (fillRow k o a d i row).getD 0 0 := by
  simp [fillRow, List.getElem?_append, columns, ha]

variable (dwf : DictWf k o a mws d)

include dwf

theorem length_jumpRows : (jumpRows k o a d).length = d.length := by
  rw [jumpRows, List.length_mapIdx, (jumpLink_spec dwf).1.length]

theorem getD_jumpRows {i : Nat} (hi : i < d.length) :
    (jumpRows k o a d).getD i [] = fillRow k o a d i ((jumpLink k a d).getD i []) := by
  have inside : i < (jumpLink k a d).length := (jumpLink_spec dwf).1.length.symm ▸ hi
  simp [jumpRows, inside]

theorem length_of_mem_jumpRows (ha : 0 < a) : ∀ row ∈ jumpRows k o a d, row.length = a + 1 := by
  intro row hrow
  obtain ⟨i, hi, rfl⟩ := List.mem_mapIdx.mp hrow
  exact length_fillRow ha i ((jumpLink_spec dwf).1.columns _ (List.getElem_mem hi))

/-- R186, one cell. -/
theorem jumpEntryOk (i : Nat) (hi : i < d.length) (m : Nat) (hm : m < a) :
    JumpEntryOk k o d i m (((jumpRows k o a d).getD i []).getD m 0) := by
  obtain ⟨wf, all⟩ := jumpLink_spec dwf
  rw [getD_jumpRows dwf hi, getD_fillRow_of_lt i (wf.columns_getD hi) hm]
  cases defined : ((jumpLink k a d).getD i []).getD m none with
  | some e => exact .inl (wf.sound i m e defined)
  | none =>
    obtain ⟨j, next⟩ := isPos_single dwf (Nat.mod_lt i (Nat.two_pow_pos o)) hm
    refine .inr ⟨or_iff_not_imp_left.mpr fun nonempty j _ child => ?_, j, next.1, next, ?_⟩
    · exact absurd (defined.symm.trans (all i m j nonempty child hi)) (by simp)
    · rw [posD_eq dwf next]
      rfl

theorem jumpOk_jumpRows (ha : 0 < a) :
    JumpOk k o a d fun i m => ((jumpRows k o a d).getD i []).getD m 0 := by
  refine fun i hi => ⟨jumpEntryOk dwf i hi, ?_⟩
  dsimp only
  rw [getD_jumpRows dwf hi]
  exact getD_fillRow_last ha i ((jumpLink_spec dwf).1.columns_getD hi)

/-- R187. -/
theorem isPos_start (ha : 0 < a) : IsPos k d 0 [0] (posD k d 0 [0]) := by
  obtain ⟨j, at_j⟩ := isPos_single dwf (Nat.two_pow_pos o) ha
  rwa [posD_eq dwf at_j]

end Finished

/-- Settles O40: a walk writes only positions of children, and every child's own walk begins with its cell. -/
theorem jumpTableFinished : Obligations.JumpTableFinished := by
  unfold Obligations.JumpTableFinished
  intro k o a mws d ha dwf
  exact ⟨length_jumpRows dwf, length_of_mem_jumpRows dwf ha, jumpOk_jumpRows dwf ha, isPos_start dwf ha⟩

/-! ### The decoder records (R188, R189) -/

section Records

variable (alpha : List AlphaEntry) {mws : Nat} {w : DictWord}

theorem length_decRecord (short : w.syms.length ≤ mws) : (decRecord alpha mws w).length = mws + 1 := by
  simp [decRecord]
  omega

/-- The length byte of a record. -/
theorem decRecord_lengthByte (short : w.syms.length ≤ min mws 255) :
    ((decRecord alpha mws w).getD mws 0).toNat = w.syms.length := by
  have payload : w.syms.length + (mws - w.syms.length) = mws := by omega
  have byte : w.syms.length % 256 = w.syms.length := Nat.mod_eq_of_lt (by omega)
  rw [decRecord, List.getD_append_right _ _ _ _ (by simp; omega)]
  simp [payload, byte]

theorem take_decRecord : (decRecord alpha mws w).take w.syms.length = w.syms.map (srcOf alpha) := by
  rw [decRecord, List.append_assoc]
  exact List.take_left' (by simp)

theorem decRecord_filler {q : Nat} (low : w.syms.length ≤ q) (high : q < mws) :
    (decRecord alpha mws w).getD q 1 = 0 := by
  have beyond : q - w.syms.length < mws - w.syms.length := by omega
  simp [decRecord, List.getElem?_append, beyond, Nat.not_lt.mpr low, show q < w.syms.length + (mws - w.syms.length) by omega]

theorem getD_decBuild {d : List DictWord} {i : Nat} (hi : i < d.length) :
    (decBuild alpha mws d).getD i [] = decRecord alpha mws (recordAt d i) := by
  simp [decBuild, hi, recordAt]

end Records

/-- Settles O41: a record is payload, filler and length byte, and only the words at `c * 2^K` are empty. -/
theorem decoderRecords : Obligations.DecoderRecords := by
  unfold Obligations.DecoderRecords
  intro alpha k o a mws d dwf dec
  have total : d.length = 2 ^ (k + o) := dwf.1
  refine ⟨(List.length_map _).trans total, fun i hi => ?_⟩
  have inside : i < d.length := total ▸ hi
  have short := (word_bounds dwf (isPos_self inside)).1
  rw [getD_decBuild alpha inside]
  dsimp only
  rw [decRecord_lengthByte alpha short]
  refine ⟨length_decRecord alpha (short.trans (min_le_left _ _)), rfl, short, take_decRecord alpha,
    fun q low high => decRecord_filler alpha low high, ?_⟩
  rw [← symsAt_eq_nil_iff dwf inside, List.length_eq_zero_iff]
  rfl

end Sys2Proof.Proofs
end

section
/-! Proofs for the command `BUILD` (40_build_alphabet.md R130, R131, R138; 42_build_tables.md R191, R195): its checks,
when it ends with a handle, and the handle it leaves. -/

namespace Sys2Proof.Proofs

open Sys2Proof Sys2Proof.Machine

/-! ### `CHECKCFG` (R131) -/

section CheckCfg

variable {s : State}

theorem pmfInvalid_eq_false_iff : pmfInvalid s.inst.numerics s.pmfAll = false ↔ s.pmfOk := by
  simp [pmfInvalid, State.pmfOk, State.pmfAll]

theorem koInvalid_eq_false_iff : koInvalid s.inst s.cfg.k.toNat s.cfg.o.toNat = false ↔ s.koOk := by
  simp [koInvalid, State.koOk, and_assoc]

theorem mwsTest_iff : (!s.cfg.mwsAuto && !mwsSupported.contains s.cfg.mws.toNat) = false ↔ s.mwsOk := by
  rw [Bool.and_eq_false_iff, Bool.not_eq_false', Bool.not_eq_false', List.contains_iff_mem]
  rfl

theorem checkCfg_of_pmf (bad : ¬ s.pmfOk) : checkCfg s.inst s.pmfAll s.cfg = some (.construction .invalidPmf) := by
  have test := pmfInvalid_eq_false_iff.not.mpr bad
  rw [checkCfg, if_pos (by simpa using test)]

variable (pmf : s.pmfOk)

include pmf

theorem checkCfg_of_pmfOk : checkCfg s.inst s.pmfAll s.cfg
    = if koInvalid s.inst s.cfg.k.toNat s.cfg.o.toNat then some (.construction .badKo)
      else if s.cfg.iter = 0 then some (.construction .badIter)
      else if !s.cfg.mwsAuto && !mwsSupported.contains s.cfg.mws.toNat then some .unsupported
      else none := by
  have test := pmfInvalid_eq_false_iff.mpr pmf
  rw [checkCfg, if_neg (by simp [test])]

theorem checkCfg_of_ko (bad : ¬ s.koOk) : checkCfg s.inst s.pmfAll s.cfg = some (.construction .badKo) := by
  have test := koInvalid_eq_false_iff.not.mpr bad
  rw [checkCfg_of_pmfOk pmf, if_pos (by simpa using test)]

variable (ko : s.koOk)

include ko

theorem checkCfg_of_iter (bad : s.cfg.iter = 0) :
    checkCfg s.inst s.pmfAll s.cfg = some (.construction .badIter) := by
  have test := koInvalid_eq_false_iff.mpr ko
  rw [checkCfg_of_pmfOk pmf, if_neg (by simp [test]), if_pos bad]

theorem checkCfg_of_mws (iter : s.cfg.iter ≠ 0) (bad : ¬ s.mwsOk) :
    checkCfg s.inst s.pmfAll s.cfg = some .unsupported := by
  have test := koInvalid_eq_false_iff.mpr ko
  have test' := mwsTest_iff.not.mpr bad
  rw [checkCfg_of_pmfOk pmf, if_neg (by simp [test]), if_neg iter, if_pos (by simpa using test')]

theorem checkCfg_eq_none (iter : s.cfg.iter ≠ 0) (mws : s.mwsOk) : checkCfg s.inst s.pmfAll s.cfg = none := by
  have test := koInvalid_eq_false_iff.mpr ko
  have test' := mwsTest_iff.mpr mws
  rw [checkCfg_of_pmfOk pmf, if_neg (by simp [test]), if_neg iter, if_neg (Bool.not_eq_true _ ▸ test')]

end CheckCfg

theorem checkCfg_of_configOk {s : State} (ok : s.configOk) : checkCfg s.inst s.pmfAll s.cfg = none := by
  obtain ⟨pmf, ko, iter, mws⟩ := ok
  exact checkCfg_eq_none pmf ko iter mws

/-- Say once how `CHECKCFG` can fail: with an error that `BUILD` raises. -/
theorem checkCfg_cases (s : State) : s.configOk
    ∨ ∃ e, checkCfg s.inst s.pmfAll s.cfg = some e
        ∧ e ∈ [.construction .invalidPmf, .construction .badKo, .construction .badIter, .unsupported] := by
  by_cases pmf : s.pmfOk
  · by_cases ko : s.koOk
    · by_cases iter : s.cfg.iter = 0
      · exact .inr ⟨_, checkCfg_of_iter pmf ko iter, by simp⟩
      · by_cases mws : s.mwsOk
        · exact .inl ⟨pmf, ko, iter, mws⟩
        · exact .inr ⟨_, checkCfg_of_mws pmf ko iter mws, by simp⟩
    · exact .inr ⟨_, checkCfg_of_ko pmf ko, by simp⟩
  · exact .inr ⟨_, checkCfg_of_pmf pmf, by simp⟩

/-! ### How `BUILD` ends -/

section Ends

variable {s : State}

theorem exec_build_of_check {e : BlockError} (failed : checkCfg s.inst s.pmfAll s.cfg = some e) :
    exec .build s = .next (s.dropHandle.raise e) := by
  change execBuild s = _
  rw [execBuild, failed]

/-- R130, R311: the old handle is gone and the error reported. -/
theorem dropHandle_raise (s : State) (e : BlockError) : s.dropHandle.raise e
    = { s with status := Status.error false e, result := 0, handle := HandleRegs.zero,
               alpha := (s.dropHandle.raise e).alpha, s2m := (s.dropHandle.raise e).s2m,
               dict := (s.dropHandle.raise e).dict, jump := (s.dropHandle.raise e).jump,
               dec := (s.dropHandle.raise e).dec, fresh := (s.dropHandle.raise e).fresh,
               lastRare := (s.dropHandle.raise e).lastRare } := rfl

theorem tablesUnspecified_dropHandle_raise (s : State) (e : BlockError) :
    (s.dropHandle.raise e).tablesUnspecified s.fresh := ⟨rfl, rfl, rfl, rfl, rfl⟩

/-- The shift `BUILD` takes. -/
def shiftOf (s : State) : Nat := autoS s.buildInput s.cfg

/-- The `maxWordSize` `BUILD` takes. -/
def wordSizeOf (s : State) : Nat := autoMws s.buildInput s.cfg (shiftOf s)

/-- The alphabet and `rareProb` of a `BUILD`. -/
def alphabetOf (s : State) : List AlphaEntry × Prob := s.buildInput.alphabet (shiftOf s)

/-- The dictionary `BUILD` computes; `none` is `AlphabetTooSmall`. -/
def dictionaryOf (s : State) : Option (List DictWord) := s.buildInput.dictionary (shiftOf s) (wordSizeOf s)

/-- The state after a `BUILD` that ends with dictionary `d`. -/
def built (s : State) (d : List DictWord) : State :=
  (s.dropHandle.commit s.buildInput (shiftOf s) (wordSizeOf s) d).finish .none false 0

theorem exec_build_of_none (ok : s.configOk) (none_ : dictionaryOf s = none) :
    exec .build s = .next (s.dropHandle.raise (.construction .alphabetTooSmall)) := by
  change execBuild s = _
  rw [execBuild, checkCfg_of_configOk ok]
  change Host.Outcome.next (match dictionaryOf s with | none => _ | some d => built s d) = _
  rw [none_]

theorem exec_build_of_some (ok : s.configOk) {d : List DictWord} (some_ : dictionaryOf s = some d) :
    exec .build s = .next (built s d) := by
  change execBuild s = _
  rw [execBuild, checkCfg_of_configOk ok]
  change Host.Outcome.next (match dictionaryOf s with | none => _ | some d => built s d) = _
  rw [some_]

/-- Say once how `BUILD` can end: with an error and no handle, or with the handle of its dictionary. -/
theorem exec_build_cases {t : State} (done : exec .build s = .next t) :
    (∃ e, t = s.dropHandle.raise e ∧ e ∈ [.construction .invalidPmf, .construction .badKo, .construction .badIter,
        .unsupported, .construction .alphabetTooSmall])
      ∨ (s.configOk ∧ ∃ d, dictionaryOf s = some d ∧ t = built s d) := by
  rcases checkCfg_cases s with ok | ⟨e, failed, which⟩
  · cases result : dictionaryOf s with
    | none =>
      rw [exec_build_of_none ok result] at done
      cases done
      exact .inl ⟨_, rfl, by simp⟩
    | some d =>
      rw [exec_build_of_some ok result] at done
      cases done
      exact .inr ⟨ok, d, rfl, rfl⟩
  · rw [exec_build_of_check failed] at done
    cases done
    simp only [List.mem_cons, List.not_mem_nil, or_false] at which
    exact .inl ⟨e, rfl, by simp only [List.mem_cons]; tauto⟩

end Ends

/-- Settles O27: each premise names the first test that fires, and that test's error ends `BUILD`. -/
theorem buildRejectsInOrder : Obligations.BuildRejectsInOrder := by
  unfold Obligations.BuildRejectsInOrder
  refine ⟨fun s e failing => ?first, fun s exact_ => ?exact_, fun n q => ?rounding⟩
  case first =>
    have failed : checkCfg s.inst s.pmfAll s.cfg = some e := by
      rcases failing with ⟨pmf, rfl⟩ | ⟨pmf, ko, rfl⟩ | ⟨pmf, ko, iter, rfl⟩ | ⟨pmf, ko, iter, mws, rfl⟩
      · exact checkCfg_of_pmf pmf
      · exact checkCfg_of_ko pmf ko
      · exact checkCfg_of_iter pmf ko iter
      · exact checkCfg_of_mws pmf ko iter mws
    exact ⟨_, exec_build_of_check failed, dropHandle_raise s e, tablesUnspecified_dropHandle_raise s e⟩
  case exact_ =>
    rw [State.pmfOk, exact_, exact_sumIsOne, exact_sum, toRat_rat, decide_eq_true_iff]
    simp
  case rounding => simp [Config.Numerics.sumIsOne, Config.Numerics.entryIsOne, Config.Numerics.near]

/-! ### The shift and the `maxWordSize` are supported ones -/

theorem sweepS_mem (num : Config.Numerics) (bps : Nat → Option Prob) (l : List Nat) (best : Nat) :
    sweepS num bps l best = best ∨ sweepS num bps l best ∈ l := by
  induction l generalizing best with
  | nil => exact .inl rfl
  | cons s rest ih =>
    rw [sweepS]
    split
    · exact .inl rfl
    · rcases ih s with last | later
      · exact .inr (by rw [last]; exact List.mem_cons_self)
      · exact .inr (List.mem_cons_of_mem s later)

theorem autoS_le (b : BuildInput) (cfg : CfgRegs) : autoS b cfg ≤ 7 := by
  unfold autoS
  split
  · have mem := sweepS_mem b.num (fun s => b.bpsOf s (if cfg.mwsAuto then 7 else cfg.mws.toNat)) [1, 2, 3, 4, 5] 0
    simp only [List.mem_cons, List.not_mem_nil, or_false] at mem
    omega
  · exact Nat.le_of_lt_succ cfg.s.isLt

theorem chooseMws_mem (num : Config.Numerics) (bps : Nat → Option Prob) : chooseMws num bps ∈ [3, 7, 15] := by
  unfold chooseMws
  split
  · split <;> simp
  · simp

theorem autoMws_mem {s : State} (ok : s.mwsOk) (b : BuildInput) (sh : Nat) : autoMws b s.cfg sh ∈ mwsSupported := by
  unfold autoMws
  split
  · exact List.Sublist.subset (by decide) (chooseMws_mem b.num (b.bpsOf sh))
  next supplied => exact ok.resolve_left supplied

section Configured

variable {s : State} (ok : s.configOk)

theorem shiftOf_le (s : State) : shiftOf s ≤ 7 := autoS_le _ _

include ok

theorem wordSizeOf_mem : wordSizeOf s ∈ mwsSupported := autoMws_mem ok.2.2.2 _ _

theorem wordSizeOf_bounds : 0 < wordSizeOf s ∧ wordSizeOf s < 2 ^ 10 := by
  have all : ∀ m ∈ mwsSupported, 0 < m ∧ m < 2 ^ 10 := by decide
  exact all _ (wordSizeOf_mem ok)

theorem buildInput_bounds : 4 ≤ s.buildInput.k ∧ s.buildInput.o < s.buildInput.k ∧ 1 ≤ s.buildInput.iters := by
  obtain ⟨-, ⟨low, -, less, -⟩, iter, -⟩ := ok
  exact ⟨low, less, Nat.one_le_iff_ne_zero.mpr fun zero => iter (BitVec.eq_of_toNat_eq zero)⟩

theorem dictionaryOf_eq_none_iff : dictionaryOf s = none
    ↔ wordCount (alphabetOf s).1.length (min (wordSizeOf s) 255) < 2 ^ s.cfg.k.toNat := by
  obtain ⟨hk, ho, hi⟩ := buildInput_bounds ok
  exact dictionary_eq_none_iff hk ho hi (shiftOf_le s) (wordSizeOf_bounds ok).1

theorem dictWf_dictionaryOf {d : List DictWord} (some_ : dictionaryOf s = some d) :
    DictWf s.cfg.k.toNat s.cfg.o.toNat (alphabetOf s).1.length (wordSizeOf s) d := by
  obtain ⟨hk, ho, hi⟩ := buildInput_bounds ok
  exact dictWf_of_dictionary hk ho hi (shiftOf_le s) (wordSizeOf_bounds ok).1 some_

theorem alphabet_bounds : 2 ≤ (alphabetOf s).1.length
    ∧ (alphabetOf s).1.length ≤ 256
    ∧ (alphabetOf s).1.length < 2 ^ s.cfg.k.toNat := by
  obtain ⟨hk, ho, -⟩ := buildInput_bounds ok
  exact length_alphabet_bounds hk ho (shiftOf_le s)

end Configured

/-- Settles O28: the dictionary is there exactly when R156's count of words reaches `2^K`. -/
theorem buildFailsExactlyWithoutEnoughWords : Obligations.BuildFailsExactlyWithoutEnoughWords := by
  unfold Obligations.BuildFailsExactlyWithoutEnoughWords
  intro s ok b sh words
  constructor
  · intro few
    have none_ : dictionaryOf s = none := (dictionaryOf_eq_none_iff ok).mpr few
    exact ⟨_, exec_build_of_none ok none_, dropHandle_raise s _, tablesUnspecified_dropHandle_raise s _⟩
  · intro enough
    obtain ⟨d, some_⟩ := Option.ne_none_iff_exists'.mp ((dictionaryOf_eq_none_iff ok).not.mpr enough.not_gt)
    exact ⟨built s d, exec_build_of_some ok some_, rfl⟩

end Sys2Proof.Proofs
end

section
/-! Proofs for what a successful `BUILD` leaves (42_build_tables.md R183 to R195): the tables and the registers read
back, and the handle is well formed. -/

namespace Sys2Proof.Proofs

open Sys2Proof Sys2Proof.Machine

/-! ### A table read back -/

section ReadBack

variable {α : Type} (free : Nat → Nat → α) (m : Memory α) (vs : List α)

theorem read_writeRange_zero {i : Nat} (hi : i < vs.length) : (m.writeRange 0 vs).read free i = vs[i] := by
  have inside := Memory.read_writeRange_inside free m 0 vs i hi
  rwa [Nat.zero_add] at inside

end ReadBack

theorem map_range_length {α : Type} {f : Nat → α} {l : List α} (entries : ∀ i, ∀ hi : i < l.length, f i = l[i]) :
    (List.range l.length).map f = l := by
  apply List.ext_getElem
  · simp
  · intro i _ hi
    simp [entries i hi]

/-- Rows of `n` entries one after another: entry `m` of row `i` is at place `i * n + m` (42_build_tables.md R183). -/
theorem getElem?_flatten_rows {α : Type} (rows : List (List α)) (n : Nat) (uniform : ∀ row ∈ rows, row.length = n)
    (i : Nat) {m : Nat} (hm : m < n) : rows.flatten[i * n + m]? = rows[i]?.bind (·[m]?) := by
  induction rows generalizing i with
  | nil => simp
  | cons row rest ih =>
    obtain ⟨here, others⟩ := List.forall_mem_cons.mp uniform
    cases i with
    | zero => simp [List.getElem?_append, here, hm]
    | succ i =>
      have place : (i + 1) * n + m = row.length + (i * n + m) := by rw [here]; ring
      rw [List.flatten_cons, place, List.getElem?_append_right (Nat.le_add_right _ _), Nat.add_sub_cancel_left,
        ih others i]
      simp

theorem length_flatten_rows {α : Type} (rows : List (List α)) (n : Nat) (uniform : ∀ row ∈ rows, row.length = n) :
    rows.flatten.length = rows.length * n := by
  have lengths : rows.map List.length = List.replicate rows.length n :=
    List.eq_replicate_iff.mpr ⟨List.length_map _, by simpa using uniform⟩
  rw [List.length_flatten, lengths, List.sum_replicate, smul_eq_mul]

/-! ### The alphabet's symbols (40_build_alphabet.md R133, R137) -/

section Symbols

variable (num : Config.Numerics) (pmf : List Prob) (k o s : Nat) (purge : Prob)

theorem sortAlpha_perm (l : List AlphaEntry) : (sortAlpha num l).Perm l := List.perm_insertionSort _ l

/-- What `TRIM`'s loop keeps is the end of the reversed list. -/
theorem trimTail_suffix (l : List AlphaEntry) (rare : Prob) : (trimTail num k o purge l rare).1 <:+ l := by
  induction l generalizing rare with
  | nil => exact List.suffix_refl _
  | cons e rest ih =>
    rw [trimTail]
    split
    · exact (ih _).trans (List.suffix_cons e rest)
    · exact List.suffix_refl _

/-- R135: `TRIM` keeps a beginning of the list. -/
theorem trim_prefix (sorted : List AlphaEntry) : (trim num sorted k o purge).1 <+: sorted := by
  have kept := trimTail_suffix num k o purge sorted.reverse (.rat 0)
  rwa [← List.reverse_prefix, List.reverse_reverse] at kept

/-- Every kept symbol is one of the buckets, and no bucket is kept twice. -/
theorem alphabet_subperm : (alphabet num pmf k o s purge).1.Subperm (groupPmf num pmf s) :=
  (trim_prefix num k o purge _).sublist.subperm.trans (sortAlpha_perm num (groupPmf num pmf s)).subperm

theorem toNat_src_bucket (hs : s ≤ 7) {g : Nat} (hg : g < 2 ^ (8 - s)) :
    (BitVec.ofNat 8 (g <<< s)).toNat = g * 2 ^ s := by
  rw [BitVec.toNat_ofNat, Nat.shiftLeft_eq]
  apply Nat.mod_eq_of_lt
  calc g * 2 ^ s < 2 ^ (8 - s) * 2 ^ s := Nat.mul_lt_mul_of_pos_right hg (Nat.two_pow_pos s)
    _ = 2 ^ 8 := by rw [← Nat.pow_add]; congr 1; omega

theorem nodup_src_groupPmf (hs : s ≤ 7) : ((groupPmf num pmf s).map AlphaEntry.src).Nodup := by
  rw [groupPmf, List.map_map]
  refine List.nodup_range.map_on fun g hg h hh same => ?_
  have numbers := congrArg BitVec.toNat same
  simp only [Function.comp_apply, toNat_src_bucket s hs (List.mem_range.mp hg),
    toNat_src_bucket s hs (List.mem_range.mp hh)] at numbers
  exact Nat.eq_of_mul_eq_mul_right (Nat.two_pow_pos s) numbers

/-- R137. -/
theorem alphaOk_alphabet (hs : s ≤ 7) : AlphaOk (alphabet num pmf k o s purge).1 s := by
  have kept := alphabet_subperm num pmf k o s purge
  refine ⟨?_, fun e he => ?_⟩
  · have sorted := ((sortAlpha_perm num (groupPmf num pmf s)).map AlphaEntry.src).nodup_iff.mpr
      (nodup_src_groupPmf num pmf s hs)
    exact sorted.sublist ((trim_prefix num k o purge _).sublist.map _)
  · obtain ⟨g, hg, rfl⟩ := List.mem_map.mp (kept.subset he)
    rw [toNat_src_bucket s hs (List.mem_range.mp hg)]
    exact Nat.dvd_mul_left _ _

end Symbols

/-! ### The registers and tables of the handle -/

section Built

variable {s : State} {d : List DictWord}

@[simp] theorem built_inst (s : State) (d : List DictWord) : (built s d).inst = s.inst := rfl
@[simp] theorem built_hvalid (s : State) (d : List DictWord) : (built s d).status.hvalid = true := rfl

theorem built_handle_k (s : State) (d : List DictWord) : (built s d).handle.k = s.cfg.k :=
  (BitVec.ofNat_toNat 5 s.cfg.k).trans (BitVec.setWidth_eq s.cfg.k)

theorem built_handle_o (s : State) (d : List DictWord) : (built s d).handle.o = s.cfg.o :=
  (BitVec.ofNat_toNat 5 s.cfg.o).trans (BitVec.setWidth_eq s.cfg.o)

theorem built_hK (s : State) (d : List DictWord) : (built s d).hK = s.cfg.k.toNat := by
  rw [State.hK, built_handle_k]

theorem built_hO (s : State) (d : List DictWord) : (built s d).hO = s.cfg.o.toNat := by
  rw [State.hO, built_handle_o]

theorem built_hS (s : State) (d : List DictWord) : (built s d).hS = shiftOf s :=
  Nat.mod_eq_of_lt (Nat.lt_succ_of_le (shiftOf_le s))

variable (ok : s.configOk)

include ok

theorem built_hA : (built s d).hA = (alphabetOf s).1.length :=
  Nat.mod_eq_of_lt ((alphabet_bounds ok).2.1.trans_lt (by decide))

theorem built_hMws : (built s d).hMws = wordSizeOf s := Nat.mod_eq_of_lt (wordSizeOf_bounds ok).2

theorem built_alphaList : (built s d).alphaList = (alphabetOf s).1 := by
  rw [State.alphaList, built_hA ok]
  exact map_range_length fun i hi => read_writeRange_zero _ _ _ hi

theorem built_s2mAt {g : Nat} (hg : g < 256) :
    (built s d).s2mAt g = (s2mBuild (alphabetOf s).1 (shiftOf s)).getD g 0 := by
  have inside : g < (s2mBuild (alphabetOf s).1 (shiftOf s)).length := by rwa [length_s2mBuild]
  rw [List.getD_eq_getElem _ _ inside]
  exact read_writeRange_zero _ _ _ inside

variable (some_ : dictionaryOf s = some d)

include some_

theorem length_dictionaryOf : d.length = 2 ^ (s.cfg.k.toNat + s.cfg.o.toNat) := (dictWf_dictionaryOf ok some_).1

theorem built_dictAt {i : Nat} (hi : i < d.length) : (built s d).dictAt i = recordAt d i := by
  rw [recordAt_eq_getElem hi]
  exact read_writeRange_zero _ _ _ hi

theorem built_dictList : (built s d).dictList = d := by
  rw [State.dictList, built_hK, built_hO, ← length_dictionaryOf ok some_]
  exact map_range_length fun i hi => read_writeRange_zero _ _ _ hi

theorem built_decAt {i : Nat} (hi : i < d.length) :
    (built s d).decAt i = decRecord (alphabetOf s).1 (wordSizeOf s) (recordAt d i) := by
  have inside : i < (decBuild (alphabetOf s).1 (wordSizeOf s) d).length := by rwa [decBuild, List.length_map]
  rw [← getD_decBuild (alphabetOf s).1 hi, List.getD_eq_getElem _ _ inside]
  exact read_writeRange_zero _ _ _ inside

theorem alphabet_positive : 0 < (alphabetOf s).1.length := Nat.zero_lt_of_lt (alphabet_bounds ok).1

theorem built_jumpAt {i m : Nat} (hi : i < d.length) (hm : m ≤ (alphabetOf s).1.length) :
    (built s d).jumpAt (i * ((alphabetOf s).1.length + 1) + m)
      = ((jumpRows s.cfg.k.toNat s.cfg.o.toNat (alphabetOf s).1.length d).getD i []).getD m 0 := by
  have dwf := dictWf_dictionaryOf ok some_
  have uniform := length_of_mem_jumpRows dwf (alphabet_positive ok some_)
  have row : i < (jumpRows s.cfg.k.toNat s.cfg.o.toNat (alphabetOf s).1.length d).length := by
    rwa [length_jumpRows dwf]
  have column : m < (jumpRows s.cfg.k.toNat s.cfg.o.toNat (alphabetOf s).1.length d)[i].length := by
    rw [uniform _ (List.getElem_mem row)]
    exact Nat.lt_succ_of_le hm
  have entry := getElem?_flatten_rows _ _ uniform i (Nat.lt_succ_of_le hm)
  rw [List.getElem?_eq_getElem row, Option.bind_some, List.getElem?_eq_getElem column] at entry
  obtain ⟨inside, value⟩ := List.getElem?_eq_some_iff.mp entry
  rw [List.getD_eq_getElem _ _ row, List.getD_eq_getElem _ _ column, ← value]
  exact read_writeRange_zero _ _ _ inside

theorem built_start : IsPos s.cfg.k.toNat d 0 [0] (built s d).handle.start :=
  isPos_start (dictWf_dictionaryOf ok some_) (alphabet_positive ok some_)

/-- R191. -/
theorem handleWf_built : (built s d).HandleWf := by
  have dwf := dictWf_dictionaryOf ok some_
  obtain ⟨low, kMax, less, koMax⟩ := ok.2.1
  obtain ⟨two, most, slots⟩ := alphabet_bounds ok
  have alpha := alphaOk_alphabet s.buildInput.num s.buildInput.pmf s.buildInput.k s.buildInput.o (shiftOf s)
    s.buildInput.purge (shiftOf_le s)
  have s2m := (sourceToMarlinTable (alphabetOf s).1 (shiftOf s) alpha (shiftOf_le s) most).2
  rw [State.HandleWf, built_alphaList ok, built_dictList ok some_, built_hK, built_hO, built_hS, built_hA ok,
    built_hMws ok, built_inst]
  refine ⟨low, kMax, less, koMax, shiftOf_le s, two, le_min most (Nat.le_sub_one_of_lt slots), wordSizeOf_mem ok,
    alpha, fun g hg => ?_, dwf, fun i hi => ?_, fun i hi => ?_, built_start ok some_⟩
  · rw [built_s2mAt ok hg]
    exact s2m g hg
  · obtain ⟨entries, last⟩ := jumpOk_jumpRows dwf (alphabet_positive ok some_) i hi
    refine ⟨fun m hm => ?_, ?_⟩
    · dsimp only
      rw [built_jumpAt ok some_ hi hm.le]
      exact entries m hm
    · dsimp only
      rw [built_jumpAt ok some_ hi le_rfl, built_jumpAt ok some_ hi (Nat.zero_le _)]
      exact last
  · have inside : i < d.length := (length_dictionaryOf ok some_).symm ▸ hi
    rw [built_decAt ok some_ inside, built_dictAt ok some_ inside]

end Built

/-- A `BUILD` that leaves a handle is a successful one. -/
theorem built_of_hvalid {s t : State} (done : exec .build s = .next t) (handle : t.status.hvalid = true) :
    s.configOk ∧ ∃ d, dictionaryOf s = some d ∧ t = built s d := by
  rcases exec_build_cases done with ⟨e, rfl, -⟩ | success
  · exact absurd handle (by simp)
  · exact success

/-- Settles O30: the tables read back as they were computed, and each of R191's conditions is one table's own. -/
theorem buildLeavesWellFormedHandle : Obligations.BuildLeavesWellFormedHandle := by
  unfold Obligations.BuildLeavesWellFormedHandle
  intro s t _ done handle
  obtain ⟨ok, d, some_, rfl⟩ := built_of_hvalid done handle
  exact handleWf_built ok some_

/-! ### The efficiency registers over the exact rationals (R180) -/

theorem exact_lbarOf (d : List DictWord) :
    lbarOf .exact d = .rat (d.map fun w => w.p.toRat * (w.syms.length : ℚ)).sum := by
  simp [lbarOf, Function.comp_def]

theorem exact_bpsFrom (k s : Nat) (rareProb : Prob) (lbar : ℚ) :
    bpsFrom .exact k s rareProb (.rat lbar)
      = .rat ((if lbar = 0 then 0 else (k : ℚ) / lbar) * (1 - rareProb.toRat) + (s : ℚ)
          + 2 * (k : ℚ) * rareProb.toRat) := rfl

/-- Settles O29: `COMMIT` writes the registers from the dictionary, the alphabet and the configuration. -/
theorem buildWritesHandleRegisters : Obligations.BuildWritesHandleRegisters := by
  unfold Obligations.BuildWritesHandleRegisters
  intro s t done handle
  obtain ⟨ok, d, some_, rfl⟩ := built_of_hvalid done handle
  dsimp only
  rw [built_dictList ok some_, built_alphaList ok, built_hK, built_hS, built_hA ok, built_hMws ok]
  have start := built_start ok some_
  have inside : (built s d).handle.start < 2 ^ s.cfg.k.toNat :=
    (Nat.div_eq_zero_iff_lt (Nat.two_pow_pos _)).mp start.2.1
  refine ⟨built_handle_k s d, built_handle_o s d, rfl, rfl, rfl, rfl, some_, start, inside, rfl, rfl, ?exact_, ?regs⟩
  case exact_ =>
    intro numerics
    have num : s.buildInput.num = .exact := numerics
    have lbar : (built s d).handle.lbar = lbarOf s.buildInput.num d := rfl
    have bps : (built s d).handle.bps = bpsFrom s.buildInput.num s.buildInput.k (shiftOf s) (alphabetOf s).2
      (lbarOf s.buildInput.num d) := rfl
    rw [lbar, bps, num, exact_lbarOf, exact_bpsFrom]
    exact ⟨rfl, rfl⟩
  case regs =>
    have a : (built s d).handle.a.toNat = (alphabetOf s).1.length := built_hA ok
    have sh : (built s d).handle.s.toNat = shiftOf s := built_hS s d
    have mws : (built s d).handle.mws.toNat = wordSizeOf s := built_hMws ok
    simp only [Reg.all, List.drop, List.map, State.regValue, a, sh, mws, built_handle_k, built_handle_o, koWord_eq]
    rfl

end Sys2Proof.Proofs
end

section
/-! How the commands end, said once: one equation for each way through `ENCODE` and `DECODE`, the inversions of the
commands, and the loops by the bytes or codewords they have gone through. -/

namespace Sys2Proof.Proofs

open Sys2Proof Sys2Proof.Machine

/-! ### The Marlin loop by the bytes it has read (43_encode.md R205) -/

section MarlinLoop

variable {s : State} {pad budget : Nat} {x : Byte} {w w' : EncWork}

/-- The early abort of R208: the budget left is below `ABORT_MARGIN`. -/
def Aborts (s : State) (budget : Nat) (w : EncWork) : Prop := (budget : Int) - w.regs.ocur < s.cfg.abortMargin

/-- The Marlin symbol of a byte, symbol 0 for a rare one (R205, R207). -/
def symbolOf (s : State) (x : Byte) : Nat := if s.isRare x then 0 else s.s2mAt (x.toNat >>> s.hS)

/-- A byte read: recorded if it is rare, then the transition on its symbol. -/
def readByte (s : State) (pad : Nat) (x : Byte) (w : EncWork) : EncWork :=
  encTransition s (symbolOf s x) (if s.isRare x then recordRare pad x w else w)

theorem encStep_eq (s : State) (pad budget : Nat) (x : Byte) (w : EncWork) : encStep s pad budget x w =
    if (budget : Int) - w.regs.ocur < s.cfg.abortMargin then .toRaw w
    else if s.isRare x = true ∧ w.regs.rcnt = 255 then .toRaw w else .go (readByte s pad x w) := by
  simp only [encStep, readByte, symbolOf, State.isRare, beq_iff_eq]
  by_cases rare : s.s2mAt (x.toNat >>> s.hS) = s.hA
  · by_cases full : w.regs.rcnt = 255 <;> simp [rare, full]
  · simp [rare]

theorem encStep_eq_go_iff : encStep s pad budget x w = .go w' ↔
    ¬ Aborts s budget w ∧ (s.isRare x = true → w.regs.rcnt ≠ 255) ∧ w' = readByte s pad x w := by
  rw [encStep_eq, Aborts]
  by_cases stop : (budget : Int) - w.regs.ocur < s.cfg.abortMargin
  · simp [stop]
  · by_cases full : s.isRare x = true ∧ w.regs.rcnt = 255
    · simp [stop, full]
    · rw [if_neg stop, if_neg full, Marlin.go.injEq, eq_comm]
      rw [not_and] at full
      exact ⟨fun same => ⟨stop, full, same⟩, fun ⟨_, _, same⟩ => same⟩

theorem encStep_eq_toRaw_iff : encStep s pad budget x w = .toRaw w' ↔
    w' = w ∧ (Aborts s budget w ∨ (s.isRare x = true ∧ w.regs.rcnt = 255)) := by
  rw [encStep_eq, Aborts]
  by_cases stop : (budget : Int) - w.regs.ocur < s.cfg.abortMargin
  · rw [if_pos stop, Marlin.toRaw.injEq]
    exact ⟨fun same => ⟨same.symm, .inl stop⟩, fun ⟨same, _⟩ => same.symm⟩
  · by_cases full : s.isRare x = true ∧ w.regs.rcnt = 255
    · rw [if_neg stop, if_pos full, Marlin.toRaw.injEq]
      exact ⟨fun same => ⟨same.symm, .inr full⟩, fun ⟨same, _⟩ => same.symm⟩
    · rw [if_neg stop, if_neg full]
      exact iff_of_false (by simp) fun ⟨_, why⟩ => why.elim stop full

/-- Say once what the loop does: what every byte read keeps holds where it ends, after all bytes, or before the byte at
which it gives up. -/
theorem encLoop_induct (P : List Byte → EncWork → Prop)
    (next : ∀ before x w, P before w → ¬ Aborts s budget w → (s.isRare x = true → w.regs.rcnt ≠ 255) →
      P (before ++ [x]) (readByte s pad x w))
    (xs before : List Byte) (w : EncWork) (start : P before w) :
    (∀ w', encLoop s pad budget xs w = .go w' → P (before ++ xs) w')
      ∧ ∀ w', encLoop s pad budget xs w = .toRaw w' → ∃ read x rest, xs = read ++ x :: rest ∧ P (before ++ read) w'
          ∧ (Aborts s budget w' ∨ (s.isRare x = true ∧ w'.regs.rcnt = 255)) := by
  induction xs generalizing before w with
  | nil => exact ⟨fun w' done => by cases done; rwa [List.append_nil], fun w' done => by cases done⟩
  | cons x xs ih =>
    rw [encLoop]
    cases step : encStep s pad budget x w with
    | go w₁ =>
      obtain ⟨goesOn, notFull, rfl⟩ := encStep_eq_go_iff.mp step
      obtain ⟨ends, givesUp⟩ := ih (before ++ [x]) _ (next before x w start goesOn notFull)
      refine ⟨fun w' done => ?_, fun w' done => ?_⟩
      · simpa using ends w' done
      · obtain ⟨read, y, rest, rfl, holds, why⟩ := givesUp w' done
        exact ⟨x :: read, y, rest, rfl, by simpa using holds, why⟩
    | toRaw w₁ =>
      obtain ⟨rfl, why⟩ := encStep_eq_toRaw_iff.mp step
      refine ⟨fun w' done => (nomatch done), fun w' done => ?_⟩
      cases done
      exact ⟨[], x, xs, rfl, by rwa [List.append_nil], why⟩

end MarlinLoop

/-! ### The ways through `ENCODE` past its checks -/

section EncodeFrame

variable {s : State} {b : List Byte} {w : EncWork}

/-- The Marlin loop of a block (43_encode.md R200). -/
def loopOf (s : State) (b : List Byte) : Marlin :=
  encLoop s (padOf b.length) (encBudget b.length s.hS) (b.drop (padOf b.length)) (encStart s)

/-- The scratch after the flush, the groups of the plane counted. -/
def flushed (s : State) (b : List Byte) (w : EncWork) : EncWork :=
  { encFlush s w with regs := { (encFlush s w).regs with rcur := alignedOf b.length / 8 } }

theorem encodeFrame_nil (s : State) : encodeFrame s [] = endEncode s [] .empty false 0 := rfl

theorem encodeFrame_of_allEqual (nonempty : b ≠ []) (constant : allEqual b = true) :
    encodeFrame s b = endEncode s [b.getD 0 0] .constant false 0 := by
  obtain ⟨v, rest, rfl⟩ := List.exists_cons_of_ne_nil nonempty
  exact if_pos constant

theorem encodeFrame_of_not_allEqual (varied : allEqual b ≠ true) : encodeFrame s b = encodeBlock s b := by
  cases b with
  | nil => exact absurd rfl varied
  | cons v rest => exact if_neg varied

theorem encodeBlock_of_short (short : alignedOf b.length = 0) : encodeBlock s b = storeRaw s b := if_pos short

theorem encodeBlock_of_toRaw (long : alignedOf b.length ≠ 0) (gaveUp : loopOf s b = .toRaw w) :
    encodeBlock s b = storeRaw (s.withEnc w) b := by
  rw [encodeBlock, if_neg long]
  rw [loopOf] at gaveUp
  rw [gaveUp]

theorem encodeBlock_of_go (long : alignedOf b.length ≠ 0) (done : loopOf s b = .go w) :
    encodeBlock s b = encodeCoded s b w := by
  rw [encodeBlock, if_neg long]
  rw [loopOf] at done
  rw [done]

theorem encodeCoded_of_shorter (shorter : (codedFrame s b (encFlush s w)).length < b.length) :
    encodeCoded s b w
      = endEncode (s.withEnc (flushed s b w)) (codedFrame s b (encFlush s w)) .coded false (encFlush s w).regs.rcnt :=
  if_pos shorter

theorem encodeCoded_of_not_shorter (long : ¬ (codedFrame s b (encFlush s w)).length < b.length) :
    encodeCoded s b w = storeRaw (s.withEnc (flushed s b w)) b := if_neg long

/-- Say once how `ENCODE` past its checks can end. -/
theorem encodeFrame_cases (s : State) (b : List Byte) :
    (b = [] ∧ encodeFrame s b = endEncode s [] .empty false 0)
      ∨ (b ≠ [] ∧ allEqual b = true ∧ encodeFrame s b = endEncode s [b.getD 0 0] .constant false 0)
      ∨ (allEqual b ≠ true ∧ alignedOf b.length = 0 ∧ encodeFrame s b = storeRaw s b)
      ∨ (allEqual b ≠ true ∧ alignedOf b.length ≠ 0 ∧ ∃ w, loopOf s b = .toRaw w
          ∧ encodeFrame s b = storeRaw (s.withEnc w) b)
      ∨ (allEqual b ≠ true ∧ alignedOf b.length ≠ 0 ∧ ∃ w, loopOf s b = .go w
          ∧ ¬ (codedFrame s b (encFlush s w)).length < b.length
          ∧ encodeFrame s b = storeRaw (s.withEnc (flushed s b w)) b)
      ∨ (allEqual b ≠ true ∧ alignedOf b.length ≠ 0 ∧ ∃ w, loopOf s b = .go w
          ∧ (codedFrame s b (encFlush s w)).length < b.length
          ∧ encodeFrame s b = endEncode (s.withEnc (flushed s b w)) (codedFrame s b (encFlush s w)) .coded false
              (encFlush s w).regs.rcnt) := by
  by_cases empty : b = []
  · exact .inl ⟨empty, by rw [empty, encodeFrame_nil]⟩
  refine .inr ?_
  by_cases constant : allEqual b = true
  · exact .inl ⟨empty, constant, encodeFrame_of_allEqual empty constant⟩
  refine .inr ?_
  rw [encodeFrame_of_not_allEqual constant]
  by_cases short : alignedOf b.length = 0
  · exact .inl ⟨constant, short, encodeBlock_of_short short⟩
  refine .inr ?_
  cases loop : loopOf s b with
  | toRaw w => exact .inl ⟨constant, short, w, rfl, encodeBlock_of_toRaw short loop⟩
  | go w =>
    refine .inr ?_
    rw [encodeBlock_of_go short loop]
    by_cases shorter : (codedFrame s b (encFlush s w)).length < b.length
    · exact .inr ⟨constant, short, w, rfl, shorter, encodeCoded_of_shorter shorter⟩
    · exact .inl ⟨constant, short, w, rfl, shorter, encodeCoded_of_not_shorter shorter⟩

/-- What every end of `ENCODE` past its checks has in common, with what the scratch satisfies at its start, after the
loop and after the flush. -/
theorem encodeFrame_ends_with (P : EncRegs → Memory RareEntry → Prop) (start : P s.enc s.rare)
    (loop : ∀ w, loopOf s b = .go w ∨ loopOf s b = .toRaw w → P w.regs w.rare)
    (flush : ∀ w, loopOf s b = .go w → P (flushed s b w).regs (flushed s b w).rare) :
    ∃ frame kind raw n enc rare, encodeFrame s b = endEncode { s with enc := enc, rare := rare } frame kind raw n
      ∧ frame.length ≤ b.length ∧ kind ≠ .none ∧ (raw = true → kind = .raw) ∧ P enc rare := by
  rcases encodeFrame_cases s b with ⟨-, e⟩ | ⟨nonempty, -, e⟩ | ⟨-, -, e⟩ | ⟨-, -, w, end_, e⟩ | ⟨-, -, w, end_, -, e⟩
    | ⟨-, -, w, end_, shorter, e⟩ <;> rw [e]
  · exact ⟨_, _, _, _, s.enc, s.rare, rfl, Nat.zero_le _, by decide, by decide, start⟩
  · exact ⟨_, _, _, _, s.enc, s.rare, rfl, List.length_pos_of_ne_nil nonempty, by decide, by decide, start⟩
  · exact ⟨_, _, _, _, s.enc, s.rare, rfl, le_rfl, by decide, fun _ => rfl, start⟩
  · exact ⟨_, _, _, _, _, _, rfl, le_rfl, by decide, fun _ => rfl, loop w (.inr end_)⟩
  · exact ⟨_, _, _, _, _, _, rfl, le_rfl, by decide, fun _ => rfl, flush w end_⟩
  · exact ⟨_, _, _, _, _, _, rfl, shorter.le, by decide, by decide, flush w end_⟩

end EncodeFrame

/-! ### The ways through `DECODE` past its checks -/

section DecodeFrame

variable {s : State} {n : Nat} {f : List Byte} {c : Sections}

/-- The codeword loop of a frame with these sections (44_decode.md R230). -/
def unitsLoop (s : State) (f : List Byte) (c : Sections) : DecWork :=
  decUnits s c ((f.take c.m).drop (c.pad + 1)) (decStart s f c)

theorem decodeFrame_of_length_eq (same : f.length = n) :
    decodeFrame s n f = endDecode s f (if n = 0 then .empty else .raw) 0 := if_pos same

theorem decodeFrame_of_one_byte (differs : f.length ≠ n) (one : f.length = 1) :
    decodeFrame s n f = endDecode s (List.replicate n (f.getD 0 0)) .constant 0 := by
  rw [decodeFrame, if_neg differs, if_pos one]

theorem decodeFrame_of_longer (one : f.length ≠ 1) (longer : n < f.length) :
    decodeFrame s n f = frameError s .lengthMismatch := by
  rw [decodeFrame, if_neg longer.ne', if_neg one, if_pos longer]

theorem decodeFrame_of_shorter (one : f.length ≠ 1) (shorter : f.length < n) :
    decodeFrame s n f = decodeCoded s n f := by
  rw [decodeFrame, if_neg shorter.ne, if_neg one, if_neg shorter.not_gt]

theorem decodeCoded_of_error {cause : FrameCause} (rejected : parseFrame s.hK s.hS n f = .error cause) :
    decodeCoded s n f = frameError s cause := by
  rw [decodeCoded, rejected]

theorem decodeCoded_of_ok (parsed : parseFrame s.hK s.hS n f = .ok c) :
    decodeCoded s n f = decFinish s n f c (unitsLoop s f c) := by
  rw [decodeCoded, parsed]
  rfl

variable {w w' : DecWork}

theorem decFinish_of_count (wrong : w.count ≠ c.aligned + 1) :
    decFinish s n f c w = frameError { s with decr := w.regs } .symbolCount := if_pos wrong

theorem decFinish_of_patch_error (right : w.count = c.aligned + 1)
    (patch : decPatch c.ow n c.rc (f.drop c.m) (decResid s f c w) = .error w') :
    decFinish s n f c w = frameError { s with decr := w'.regs } .rareOffset := by
  rw [decFinish, if_neg (not_not_intro right), patch]

theorem decFinish_of_patch_ok (right : w.count = c.aligned + 1)
    (patch : decPatch c.ow n c.rc (f.drop c.m) (decResid s f c w) = .ok w') :
    decFinish s n f c w = endDecode { s with decr := w'.regs } w'.out .coded c.rc := by
  rw [decFinish, if_neg (not_not_intro right), patch]

/-- What is left of a frame after one rare entry of the table. -/
theorem decPatch_succ (ow n left : Nat) (table : List Byte) (w : DecWork) :
    decPatch ow n (left + 1) table w =
      if n ≤ leNumber (table.take ow) then .error w
      else decPatch ow n left (table.drop (ow + 1))
        { w with regs := { w.regs with pcur := w.regs.pcur + 1 },
                 out := w.out.set (leNumber (table.take ow)) (table.getD ow 0) } := rfl

/-- Patching touches no register but `PCUR`, which counts at most the entries. -/
theorem decPatch_regs (ow n left : Nat) (table : List Byte) (w : DecWork) :
    ∀ w', decPatch ow n left table w = .ok w' ∨ decPatch ow n left table w = .error w' →
      w'.regs = { w.regs with pcur := w'.regs.pcur } ∧ w'.regs.pcur ≤ w.regs.pcur + left := by
  induction left generalizing table w with
  | zero =>
    rintro w' (done | done) <;> cases done
    exact ⟨rfl, le_rfl⟩
  | succ left ih =>
    intro w' done
    rw [decPatch_succ] at done
    split at done
    · rcases done with done | done <;> cases done
      exact ⟨rfl, Nat.le_add_right _ _⟩
    · obtain ⟨regs, bound⟩ := ih _ _ w' done
      exact ⟨by rw [regs], by dsimp only at bound; omega⟩

theorem decRegs_eq_of_zero {r : DecRegs} (rcur : r.rcur = 0) (pcur : r.pcur = 0) :
    r = { r with rcur := 0, pcur := 0 } := by
  obtain ⟨_, _, _, _, _⟩ := r
  cases rcur
  cases pcur
  rfl

/-- Say once how `DECODE` past its checks can end: with a block or a `FrameError`, the registers as at the start of the
block, or `V`, `UCUR` and `SYMS` as the codeword loop left them. -/
theorem decodeFrame_ends_with (s : State) (f : List Byte) :
    ∃ dr, ((dr = s.decr ∨ ∃ c, parseFrame s.hK s.hS s.blkN f = .ok c
          ∧ ∃ rcur pcur, (rcur = 0 ∨ rcur = c.aligned / 8) ∧ pcur ≤ c.rc
          ∧ dr = { (unitsLoop s f c).regs with rcur := rcur, pcur := pcur }))
      ∧ ((∃ block kind rare, kind ≠ .none ∧ block.length = s.blkN
            ∧ decodeFrame s s.blkN f = endDecode { s with decr := dr } block kind rare)
        ∨ ∃ cause, decodeFrame s s.blkN f = frameError { s with decr := dr } cause) := by
  by_cases same : f.length = s.blkN
  · refine ⟨s.decr, .inl rfl, .inl ⟨f, _, 0, ?_, same, decodeFrame_of_length_eq same⟩⟩
    split <;> decide
  by_cases one : f.length = 1
  · exact ⟨s.decr, .inl rfl, .inl ⟨_, _, 0, by decide, by simp, decodeFrame_of_one_byte same one⟩⟩
  rcases Nat.lt_or_gt_of_ne same with shorter | longer
  swap
  · exact ⟨s.decr, .inl rfl, .inr ⟨_, decodeFrame_of_longer one longer⟩⟩
  rw [decodeFrame_of_shorter one shorter]
  cases parsed : parseFrame s.hK s.hS s.blkN f with
  | error cause => exact ⟨s.decr, .inl rfl, .inr ⟨cause, decodeCoded_of_error parsed⟩⟩
  | ok c =>
    rw [decodeCoded_of_ok parsed]
    obtain ⟨-, hpad, haligned, hlen⟩ := parseFrame_ok parsed
    have kept := decUnits_keeps s c ((f.take c.m).drop (c.pad + 1))
      (fun w => w.regs.pcur = 0 ∧ w.regs.rcur = 0 ∧ w.out.length = s.blkN)
      (fun w u ⟨pcur, rcur, length⟩ => ⟨pcur, rcur, (decStep_length s c _ w u).trans length⟩) (decStart s f c)
      ⟨rfl, rfl, by
        have parts := pad_add_aligned s.blkN
        simp only [decStart, decSeed, List.length_append, List.length_take, List.length_replicate]
        omega⟩
    change (unitsLoop s f c).regs.pcur = 0 ∧ (unitsLoop s f c).regs.rcur = 0
      ∧ (unitsLoop s f c).out.length = s.blkN at kept
    obtain ⟨pcur, rcur, length⟩ := kept
    by_cases count : (unitsLoop s f c).count = c.aligned + 1
    swap
    · refine ⟨_, .inr ⟨c, rfl, 0, 0, .inl rfl, Nat.zero_le _, ?_⟩, .inr ⟨_, decFinish_of_count count⟩⟩
      exact decRegs_eq_of_zero rcur pcur
    have resid : (decResid s f c (unitsLoop s f c)).out.length = s.blkN := by
      have parts := pad_add_aligned s.blkN
      obtain ⟨q, hq⟩ := alignedOf_dvd s.blkN
      simp only [decResid, List.length_append, List.length_take, pdepPlane_length, List.length_drop]
      omega
    have regs := decPatch_regs c.ow s.blkN c.rc (f.drop c.m) (decResid s f c (unitsLoop s f c))
    have start : (decResid s f c (unitsLoop s f c)).regs
        = { (unitsLoop s f c).regs with rcur := c.aligned / 8 } := rfl
    cases patch : decPatch c.ow s.blkN c.rc (f.drop c.m) (decResid s f c (unitsLoop s f c)) with
    | error w' =>
      obtain ⟨same', bound⟩ := regs w' (.inr patch)
      refine ⟨_, .inr ⟨c, rfl, c.aligned / 8, w'.regs.pcur, .inr rfl, ?_, ?_⟩,
        .inr ⟨_, decFinish_of_patch_error count patch⟩⟩
      · rw [start, pcur] at bound
        omega
      · rw [same', start]
    | ok w' =>
      obtain ⟨same', bound⟩ := regs w' (.inl patch)
      have whole := ((decPatch_keeps c.ow s.blkN c.rc _ _).1 w' patch).1
      refine ⟨_, .inr ⟨c, rfl, c.aligned / 8, w'.regs.pcur, .inr rfl, ?_, ?_⟩,
        .inl ⟨_, _, _, by decide, whole.trans resid, decFinish_of_patch_ok count patch⟩⟩
      · rw [start, pcur] at bound
        omega
      · rw [same', start]

end DecodeFrame

/-! ### The commands -/

section Commands

variable {s t : State}

theorem encodeCheck_of_canEncode (can : s.canEncode) : encodeCheck s = none := by
  obtain ⟨handle, srcFits, dstFits, room⟩ := can
  simp [encodeCheck, handle, srcFits.not_gt, dstFits.not_gt, room.not_gt]

theorem decodeCheck_of_canDecode (can : s.canDecode) : decodeCheck s = none := by
  obtain ⟨handle, srcFits, dstFits⟩ := can
  simp [decodeCheck, handle, srcFits.not_gt, dstFits.not_gt]

theorem exec_encode_of_canEncode (can : s.canEncode) :
    exec .encode s = .next (encodeFrame s.startBlock s.source) := by
  change execEncode s = _
  rw [execEncode, encodeCheck_of_canEncode can]
  rfl

theorem exec_decode_of_canDecode (can : s.canDecode) :
    exec .decode s = .next (decodeFrame s.startBlock s.startBlock.blkN s.source) := by
  change execDecode s = _
  rw [execDecode, decodeCheck_of_canDecode can]
  rfl

/-- Say once how `ENCODE` can end: with the error of a check, or past its checks. -/
theorem exec_encode_cases (done : exec .encode s = .next t) :
    (∃ e, e ∈ [.noHandle, .badLength, .insufficientBuffer] ∧ t = s.startBlock.raiseBlock e)
      ∨ (s.canEncode ∧ t = encodeFrame s.startBlock s.source) := by
  by_cases can : s.canEncode
  · rw [exec_encode_of_canEncode can] at done
    cases done
    exact .inr ⟨can, rfl⟩
  · refine .inl ?_
    have failed : ∃ e, e ∈ [.noHandle, .badLength, .insufficientBuffer] ∧ encodeCheck s = some e := by
      simp only [State.canEncode, not_and, not_le] at can
      cases handle : s.status.hvalid with
      | false => exact ⟨_, by simp, encodeCheck_of_no_handle handle⟩
      | true =>
        by_cases long : s.inst.srcSize < s.srcLen ∨ s.inst.dstSize < s.dstCap
        · exact ⟨_, by simp, encodeCheck_of_bad_length handle long⟩
        · rw [not_or, not_lt, not_lt] at long
          exact ⟨_, by simp, encodeCheck_of_small_buffer handle long.1 long.2 (can handle long.1 long.2)⟩
    obtain ⟨e, which, check⟩ := failed
    rw [exec_encode_of_check check] at done
    cases done
    exact ⟨e, which, rfl⟩

/-- Say once how `DECODE` can end: with the error of a check, or past its checks. -/
theorem exec_decode_cases (done : exec .decode s = .next t) :
    (∃ e, e ∈ [.noHandle, .badLength] ∧ t = s.startBlock.raiseBlock e)
      ∨ (s.canDecode ∧ t = decodeFrame s.startBlock s.startBlock.blkN s.source) := by
  by_cases can : s.canDecode
  · rw [exec_decode_of_canDecode can] at done
    cases done
    exact .inr ⟨can, rfl⟩
  · refine .inl ?_
    have failed : ∃ e, e ∈ [.noHandle, .badLength] ∧ decodeCheck s = some e := by
      simp only [State.canDecode, not_and, not_le] at can
      cases handle : s.status.hvalid with
      | false => exact ⟨_, by simp, decodeCheck_of_no_handle handle⟩
      | true =>
        refine ⟨_, by simp, decodeCheck_of_bad_length handle ?_⟩
        exact or_iff_not_imp_left.mpr fun fits => can handle (not_lt.mp fits)
    obtain ⟨e, which, check⟩ := failed
    rw [exec_decode_of_check check] at done
    cases done
    exact ⟨e, which, rfl⟩

/-- The state after a `PEXT` that raises nothing (45_residual_plane.md R268). -/
def afterPext (s : State) : State :=
  { s.startBlock.leaveDst (pextPlane (s.readSrc 0 s.srcLen) s.cfg.s.toNat) with
    enc := { s.startBlock.enc with rcur := s.srcLen / 8 } }.finish .none false (s.srcLen * s.cfg.s.toNat / 8)

theorem pextBadLength_iff (s : State) : pextBadLength s = true ↔
    s.inst.srcSize < s.srcLen ∨ s.srcLen % 8 ≠ 0 ∨ s.inst.dstSize < s.srcLen * s.cfg.s.toNat / 8 := by
  simp [pextBadLength, or_assoc]

theorem exec_pext_of_bad_length (bad : pextBadLength s = true) :
    exec .pext s = .next (s.startBlock.raise .badLength) := by
  change execPext s = _
  rw [execPext, if_pos bad]

theorem exec_pext_of_good_length (good : pextBadLength s ≠ true) : exec .pext s = .next (afterPext s) := by
  change execPext s = _
  rw [execPext, if_neg good]
  rfl

theorem exec_pext_cases (done : exec .pext s = .next t) :
    t = s.startBlock.raise .badLength ∨ (pextBadLength s ≠ true ∧ t = afterPext s) := by
  by_cases bad : pextBadLength s = true
  · rw [exec_pext_of_bad_length bad] at done
    cases done
    exact .inl rfl
  · rw [exec_pext_of_good_length bad] at done
    cases done
    exact .inr ⟨bad, rfl⟩

theorem exec_pdep_cases (done : exec .pdep s = .next t) :
    t = s.startBlock.raise .badLength ∨ (pdepBadLength s ≠ true ∧ t = afterPdep s) := by
  by_cases bad : pdepBadLength s = true
  · rw [exec_pdep_of_bad_length s bad] at done
    cases done
    exact .inl rfl
  · rw [exec_pdep_of_good_length s bad] at done
    cases done
    exact .inr ⟨bad, rfl⟩

/-- The plane `PEXT` leaves has the length it reports. -/
theorem length_pext_plane (whole : s.srcLen % 8 = 0) :
    (pextPlane (s.readSrc 0 s.srcLen) s.cfg.s.toNat).length = s.srcLen * s.cfg.s.toNat / 8 := by
  obtain ⟨q, hq⟩ := Nat.dvd_of_mod_eq_zero whole
  rw [pextPlane_length, State.readSrc_length, hq, Nat.mul_div_cancel_left q (by decide), Nat.mul_assoc,
    Nat.mul_div_cancel_left _ (by decide)]

end Commands

end Sys2Proof.Proofs
end

section
/-! What the commands and the host's accesses leave unchanged, and what an error leaves (20_memory.md R62, R64, R78;
60_exceptions.md R311); that whenever there is a handle it stays well formed (42_build_tables.md R191). -/

namespace Sys2Proof.Proofs

open Sys2Proof Sys2Proof.Machine

/-! ### The two frames -/

/-- What no command changes (46_control_commands.md R280). -/
structure SameConfig (s t : State) : Prop where
  inst : t.inst = s.inst
  cmd : t.cmd = s.cmd
  cfg : t.cfg = s.cfg
  srcLen : t.srcLen = s.srcLen
  dstCap : t.dstCap = s.dstCap
  blkN : t.blkN = s.blkN
  pmf : t.pmf = s.pmf
  src : t.src = s.src
  host : t.host = s.host
  reply : t.reply = s.reply

/-- The handle: `HVALID`, its registers, the table RAMs (20_memory.md R78). -/
structure SameHandle (s t : State) : Prop where
  hvalid : t.status.hvalid = s.status.hvalid
  handle : t.handle = s.handle
  alpha : t.alpha = s.alpha
  s2m : t.s2m = s.s2m
  dict : t.dict = s.dict
  jump : t.jump = s.jump
  dec : t.dec = s.dec

section Ends

variable {s t : State}

/-- What every end of `ENCODE` has in common. -/
theorem exec_encode_ends (done : exec .encode s = .next t) :
    (∃ e, e ∈ [.noHandle, .badLength, .insufficientBuffer] ∧ t = s.startBlock.raiseBlock e)
      ∨ (s.canEncode ∧ ∃ frame kind raw n enc rare,
          t = endEncode { s.startBlock with enc := enc, rare := rare } frame kind raw n ∧ frame.length ≤ s.srcLen
            ∧ kind ≠ .none ∧ (raw = true → kind = .raw)) := by
  rcases exec_encode_cases done with failed | ⟨can, rfl⟩
  · exact .inl failed
  · obtain ⟨frame, kind, raw, n, enc, rare, e, length, named, fallback, -⟩ :=
      encodeFrame_ends_with (s := s.startBlock) (b := s.source) (fun _ _ => True) trivial (fun _ _ => trivial)
        fun _ _ => trivial
    rw [State.source_length] at length
    exact .inr ⟨can, frame, kind, raw, n, enc, rare, e, length, named, fallback⟩

/-- What every end of `DECODE` has in common. -/
theorem exec_decode_ends (done : exec .decode s = .next t) :
    (∃ e, e ∈ [.noHandle, .badLength] ∧ t = s.startBlock.raiseBlock e)
      ∨ (s.canDecode ∧ ∃ dr, (∃ block kind rare, kind ≠ .none ∧ block.length = s.blkN
            ∧ t = endDecode { s.startBlock with decr := dr } block kind rare)
          ∨ ∃ cause, t = frameError { s.startBlock with decr := dr } cause) := by
  rcases exec_decode_cases done with failed | ⟨can, rfl⟩
  · exact .inl failed
  · obtain ⟨dr, -, ends⟩ := decodeFrame_ends_with s.startBlock s.source
    exact .inr ⟨can, dr, ends⟩

theorem exec_done {i : Instr} (done : exec i s = .next t) :
    t.status.busy = false ∧ t.status.done = true ∧ SameConfig s t := by
  cases i with
  | nop => cases done; exact ⟨rfl, rfl, ⟨rfl, rfl, rfl, rfl, rfl, rfl, rfl, rfl, rfl, rfl⟩⟩
  | sreset => cases done; exact ⟨rfl, rfl, ⟨rfl, rfl, rfl, rfl, rfl, rfl, rfl, rfl, rfl, rfl⟩⟩
  | build =>
    rcases exec_build_cases done with ⟨e, rfl, -⟩ | ⟨-, d, -, rfl⟩ <;>
      exact ⟨rfl, rfl, ⟨rfl, rfl, rfl, rfl, rfl, rfl, rfl, rfl, rfl, rfl⟩⟩
  | encode =>
    rcases exec_encode_ends done with ⟨e, -, rfl⟩ | ⟨-, frame, kind, raw, n, enc, rare, rfl, -⟩ <;>
      exact ⟨rfl, rfl, ⟨rfl, rfl, rfl, rfl, rfl, rfl, rfl, rfl, rfl, rfl⟩⟩
  | decode =>
    rcases exec_decode_ends done with ⟨e, -, rfl⟩ | ⟨-, dr, ⟨block, kind, rare, -, -, rfl⟩ | ⟨cause, rfl⟩⟩ <;>
      exact ⟨rfl, rfl, ⟨rfl, rfl, rfl, rfl, rfl, rfl, rfl, rfl, rfl, rfl⟩⟩
  | pext =>
    rcases exec_pext_cases done with rfl | ⟨-, rfl⟩ <;>
      exact ⟨rfl, rfl, ⟨rfl, rfl, rfl, rfl, rfl, rfl, rfl, rfl, rfl, rfl⟩⟩
  | pdep =>
    rcases exec_pdep_cases done with rfl | ⟨-, rfl⟩ <;>
      exact ⟨rfl, rfl, ⟨rfl, rfl, rfl, rfl, rfl, rfl, rfl, rfl, rfl, rfl⟩⟩

/-- R78: only `BUILD` and `SRESET` touch the handle. -/
theorem exec_sameHandle {i : Instr} (done : exec i s = .next t) (build : i ≠ .build) (sreset : i ≠ .sreset) :
    SameHandle s t := by
  cases i with
  | nop => cases done; exact ⟨rfl, rfl, rfl, rfl, rfl, rfl, rfl⟩
  | sreset => exact absurd rfl sreset
  | build => exact absurd rfl build
  | encode =>
    rcases exec_encode_ends done with ⟨e, -, rfl⟩ | ⟨-, frame, kind, raw, n, enc, rare, rfl, -⟩ <;>
      exact ⟨rfl, rfl, rfl, rfl, rfl, rfl, rfl⟩
  | decode =>
    rcases exec_decode_ends done with ⟨e, -, rfl⟩ | ⟨-, dr, ⟨block, kind, rare, -, -, rfl⟩ | ⟨cause, rfl⟩⟩ <;>
      exact ⟨rfl, rfl, rfl, rfl, rfl, rfl, rfl⟩
  | pext => rcases exec_pext_cases done with rfl | ⟨-, rfl⟩ <;> exact ⟨rfl, rfl, rfl, rfl, rfl, rfl, rfl⟩
  | pdep => rcases exec_pdep_cases done with rfl | ⟨-, rfl⟩ <;> exact ⟨rfl, rfl, rfl, rfl, rfl, rfl, rfl⟩

end Ends

/-- Settles O8: each end of a command rewrites `STATUS` and leaves the configuration. -/
theorem everyCommandEndsDone : Obligations.EveryCommandEndsDone := by
  unfold Obligations.EveryCommandEndsDone
  intro i s
  obtain ⟨t, done⟩ := exec_next i s
  obtain ⟨busy, ended, same⟩ := exec_done done
  exact ⟨t, done, busy, ended, same.inst, same.cmd, same.cfg, same.srcLen, same.dstCap, same.blkN, same.pmf, same.src,
    same.host, same.reply⟩

/-! ### What a host access leaves -/

section HostAccess

variable {s t : State}

theorem setReg_sameHandle (s : State) (r : Reg) (v : HostValue) : SameHandle s (s.setReg r v) := by
  cases r <;> cases v <;> exact ⟨rfl, rfl, rfl, rfl, rfl, rfl, rfl⟩

theorem setReg_inst (s : State) (r : Reg) (v : HostValue) : (s.setReg r v).inst = s.inst := by
  cases r <;> cases v <;> rfl

theorem writeSpace_sameHandle (s : State) (space : Space) (a : Nat) (d : HostData) :
    SameHandle s (s.writeSpace space a d) := by
  cases space <;> cases d <;> exact ⟨rfl, rfl, rfl, rfl, rfl, rfl, rfl⟩

theorem writeSpace_inst (s : State) (space : Space) (a : Nat) (d : HostData) :
    (s.writeSpace space a d).inst = s.inst := by
  cases space <;> cases d <;> rfl

/-- A host access but the reset input leaves the handle and the parameters. -/
theorem hostAct_sameHandle {a : HostAction} (done : hostAct a s = .next t) (reset : a ≠ .reset) :
    SameHandle s t ∧ t.inst = s.inst := by
  have kept : ∀ u r, SameHandle s u → u.inst = s.inst → SameHandle s (u.withReply r) ∧ (u.withReply r).inst = s.inst :=
    fun u r same inst => ⟨⟨same.hvalid, same.handle, same.alpha, same.s2m, same.dict, same.jump, same.dec⟩, inst⟩
  have self : SameHandle s s := ⟨rfl, rfl, rfl, rfl, rfl, rfl, rfl⟩
  rcases hostAct_cases done with ⟨-, r, v, -, -, -, -, rfl⟩ | ⟨-, -, -, -, -, -, rfl⟩ | ⟨-, r, -, -, rfl⟩
    | ⟨space, x, d, -, -, -, -, -, rfl⟩ | ⟨-, -, -, -, -, -, -, rfl⟩ | ⟨space, x, n, -, -, -, rfl⟩ | ⟨isReset, -⟩
  · exact kept _ _ (setReg_sameHandle s r v) (setReg_inst s r v)
  · exact kept _ _ self rfl
  · exact kept _ _ self rfl
  · exact kept _ _ (writeSpace_sameHandle s space x d) (writeSpace_inst s space x d)
  · exact kept _ _ self rfl
  · exact kept _ _ self rfl
  · exact absurd isReset reset

theorem hostAct_reset (s : State) : hostAct .reset s = .next s.hardReset := rfl

/-- A command that runs without an early host action in its way. -/
theorem hostWaits_of_not_early {e : HostEvent} {rest : List HostEvent} (pending : s.host = e :: rest)
    (late : e.early = false) : s.hostWaits := by
  simp [State.hostWaits, pending, late]

/-- Say once what a step can be: waiting, a host action that takes effect, or the running command. -/
theorem step_kinds (done : step s = .next t) :
    t = s
      ∨ (∃ e rest, s.host = e :: rest ∧ (s.status.busy = true → e.early = true)
          ∧ hostAct e.action { s with host := rest } = .next t)
      ∨ (s.status.busy = true ∧ s.hostWaits ∧ runCommand s = .next t) := by
  cases busy : s.status.busy with
  | false =>
    rcases step_cases done with ⟨-, -, rfl⟩ | ⟨busy', -⟩ | ⟨e, rest, pending, -, act⟩ | ⟨-, -, -, busy', -⟩
    · exact .inl rfl
    · cases busy.symm.trans busy'
    · exact .inr (.inl ⟨e, rest, pending, by simp, act⟩)
    · cases busy.symm.trans busy'
  | true =>
    refine .inr ?_
    by_cases waits : s.hostWaits
    · rw [step_of_busy busy waits] at done
      exact .inr ⟨rfl, waits, done⟩
    · simp only [State.hostWaits, not_forall] at waits
      obtain ⟨e, first, early⟩ := waits
      obtain ⟨rest, pending⟩ := List.head?_eq_some_iff.mp first
      rw [Bool.not_eq_false] at early
      rw [step, if_pos busy, pending] at done
      simp only [early, if_true, hostActBusy] at done
      split at done
      · exact .inl ⟨e, rest, pending, fun _ => early, done⟩
      · cases done

/-- Say once what the running command is: the one `CMD` decodes to, or no command. -/
theorem runCommand_cases (done : runCommand s = .next t) :
    (∃ i, decode s.cmd = .ok i ∧ exec i s = .next t) ∨ t = s.raise .illegalCommand := by
  cases decoded : decode s.cmd with
  | ok i =>
    rw [runCommand, decoded] at done
    exact .inl ⟨i, rfl, done⟩
  | error cause =>
    rw [runCommand_of_error decoded] at done
    cases done
    exact .inr rfl

end HostAccess

/-! ### The handle -/

theorem hvalid_of_exec_sreset {s t : State} (done : exec .sreset s = .next t) : t.status.hvalid = false := by
  cases done
  rfl

/-- R78: what a step other than a `BUILD`, an `SRESET` or a reset does to the handle. -/
theorem step_sameHandle {s t : State} (done : step s = .next t) :
    (s.status.busy = true ∧ s.hostWaits ∧ ∃ i, decode s.cmd = .ok i ∧ (i = .build ∨ i = .sreset)
        ∧ exec i s = .next t)
      ∨ (∃ e rest, s.host = e :: rest ∧ e.action = .reset ∧ (s.status.busy = true → e.early = true)
          ∧ t = ({ s with host := rest } : State).hardReset)
      ∨ (SameHandle s t ∧ t.inst = s.inst) := by
  have self : SameHandle s s := ⟨rfl, rfl, rfl, rfl, rfl, rfl, rfl⟩
  rcases step_kinds done with rfl | ⟨e, rest, pending, early, act⟩ | ⟨busy, waits, run⟩
  · exact .inr (.inr ⟨self, rfl⟩)
  · by_cases reset : e.action = .reset
    · rw [reset, hostAct_reset] at act
      cases act
      exact .inr (.inl ⟨e, rest, pending, reset, early, rfl⟩)
    · obtain ⟨same, inst⟩ := hostAct_sameHandle act reset
      exact .inr (.inr ⟨⟨same.hvalid, same.handle, same.alpha, same.s2m, same.dict, same.jump, same.dec⟩, inst⟩)
  · rcases runCommand_cases run with ⟨i, decoded, exec_⟩ | rfl
    · by_cases tables : i = .build ∨ i = .sreset
      · exact .inl ⟨busy, waits, i, decoded, tables, exec_⟩
      · rw [not_or] at tables
        exact .inr (.inr ⟨exec_sameHandle exec_ tables.1 tables.2, (exec_done exec_).2.2.inst⟩)
    · exact .inr (.inr ⟨⟨rfl, rfl, rfl, rfl, rfl, rfl, rfl⟩, rfl⟩)

/-- Settles O22: a step runs `BUILD` or `SRESET`, resets, or keeps the handle; of these only `BUILD` sets `HVALID`. -/
theorem tablesChangeOnlyByBuild : Obligations.TablesChangeOnlyByBuild := by
  unfold Obligations.TablesChangeOnlyByBuild
  intro s t done
  rcases step_sameHandle done with ⟨busy, waits, i, decoded, which, exec_⟩ | ⟨e, rest, pending, reset, early, rfl⟩
    | ⟨same, -⟩
  · rcases which with rfl | rfl
    · exact ⟨.inl ⟨busy, waits, .inl decoded⟩, fun _ _ => ⟨busy, waits, decoded⟩⟩
    · refine ⟨.inl ⟨busy, waits, .inr decoded⟩, fun _ made => ?_⟩
      cases made.symm.trans (hvalid_of_exec_sreset exec_)
  · exact ⟨.inr (.inl ⟨e, rest, pending, reset, early⟩), fun _ made => nomatch made⟩
  · refine ⟨.inr (.inr ⟨same.hvalid, same.handle, same.alpha, same.s2m, same.dict, same.jump, same.dec⟩), ?_⟩
    intro absent made
    cases absent.symm.trans (same.hvalid.symm.trans made)

/-- A well-formed handle is one of the handle registers, the tables and the parameters alone. -/
theorem handleWf_of_sameHandle {s t : State} (same : SameHandle s t) (inst : t.inst = s.inst) (wf : s.HandleWf) :
    t.HandleWf := by
  obtain ⟨-, handle, alpha, s2m, dict, jump, dec⟩ := same
  have fields : t = { t with inst := s.inst, handle := s.handle, alpha := s.alpha, s2m := s.s2m, dict := s.dict,
                             jump := s.jump, dec := s.dec } := by
    rw [← inst, ← handle, ← alpha, ← s2m, ← dict, ← jump, ← dec]
  rw [fields]
  exact wf

/-- Settles O25: `BUILD` leaves a well-formed handle or none, `SRESET` and reset none, every other step the old one. -/
theorem stepKeepsHandleWellFormed : Obligations.StepKeepsHandleWellFormed := by
  unfold Obligations.StepKeepsHandleWellFormed
  intro s t inst wf done handle
  rcases step_sameHandle done with ⟨-, -, i, -, rfl | rfl, exec_⟩ | ⟨e, rest, -, -, -, rfl⟩ | ⟨same, sameInst⟩
  · exact buildLeavesWellFormedHandle s t inst exec_ handle
  · cases handle.symm.trans (hvalid_of_exec_sreset exec_)
  · cases handle
  · exact handleWf_of_sameHandle same sameInst (wf (same.hvalid.symm.trans handle))

/-! ### `DST` -/

section Dst

variable {s t : State}

theorem dst_of_exec_encode (done : exec .encode s = .next t) :
    (t.status.report = none → t.dst.below s.dstCap ∧ t.dst.epoch = s.fresh)
      ∧ (t.status.report ≠ none → t.dst = s.dst) := by
  rcases exec_encode_ends done with ⟨e, -, rfl⟩ | ⟨⟨-, -, -, room⟩, frame, kind, raw, n, enc, rare, rfl, length, -⟩
  · exact ⟨fun success => (nomatch success), fun _ => rfl⟩
  · refine ⟨fun _ => ⟨fun c hc => ?_, rfl⟩, fun error => absurd rfl error⟩
    exact (endEncode_below _ frame kind raw n c hc).trans_le (length.trans room)

theorem dst_of_exec_pext (done : exec .pext s = .next t) :
    (t.status.report = none → t.dst.below (s.srcLen * s.cfg.s.toNat / 8) ∧ t.dst.epoch = s.fresh)
      ∧ (t.status.report ≠ none → t.dst = s.dst) := by
  rcases exec_pext_cases done with rfl | ⟨good, rfl⟩
  · exact ⟨fun success => (nomatch success), fun _ => rfl⟩
  · rw [Ne, pextBadLength_iff, not_or, not_or, not_not] at good
    refine ⟨fun _ => ⟨?_, rfl⟩, fun error => absurd rfl error⟩
    rw [← length_pext_plane good.2.1]
    exact Memory.filled_below _ _

theorem dstAt_of_exec_decode (done : exec .decode s = .next t) {a : Nat} (beyond : s.blkN ≤ a) :
    t.dstAt a = s.dstAt a := by
  rcases exec_decode_ends done with ⟨e, -, rfl⟩ | ⟨-, dr, ⟨block, kind, rare, -, length, rfl⟩ | ⟨cause, rfl⟩⟩
  · rfl
  · exact dstAt_endDecode_outside _ block kind rare a (length.trans_le beyond)
  · exact dstAt_frameError_outside _ cause a beyond

theorem dstAt_of_exec_pdep (done : exec .pdep s = .next t) {a : Nat} (beyond : s.blkN ≤ a) :
    t.dstAt a = s.dstAt a := by
  rcases exec_pdep_cases done with rfl | ⟨good, rfl⟩
  · rfl
  · rw [Ne, pdepBadLength_iff, not_or, not_or, not_not] at good
    exact dstAt_afterPdep_outside good.2.1 beyond

theorem dst_of_exec_build (done : exec .build s = .next t) : t.dst = s.dst := by
  rcases exec_build_cases done with ⟨e, rfl, -⟩ | ⟨-, d, -, rfl⟩ <;> rfl

end Dst

/-- Settles O18: every end of a command writes a buffer no longer than the length its check has compared. -/
theorem commandWritesInsideItsBuffer : Obligations.CommandWritesInsideItsBuffer := by
  unfold Obligations.CommandWritesInsideItsBuffer
  intro i s t done
  refine ⟨?_, ?_, ?_⟩
  · rintro limit (⟨rfl, rfl⟩ | ⟨rfl, rfl⟩)
    · exact dst_of_exec_encode done
    · exact dst_of_exec_pext done
  · rintro (rfl | rfl) a beyond
    · exact dstAt_of_exec_decode done beyond
    · exact dstAt_of_exec_pdep done beyond
  · rintro (rfl | rfl | rfl)
    · cases done
      rfl
    · cases done
      rfl
    · exact dst_of_exec_build done

/-! ### What an error leaves (60_exceptions.md R300, R311) -/

/-- The commands that raise an error (R300). -/
def raisersOf : BlockError → List Instr
  | .construction _ => [.build]
  | .insufficientBuffer => [.encode]
  | .frame _ => [.decode]
  | .unsupported => [.build]
  | .noHandle => [.encode, .decode]
  | .illegalCommand => []
  | .badLength => [.encode, .decode, .pext, .pdep]

theorem mem_errorTable (e : BlockError) : (e, e.ecode.toNat, e.esub.toNat, raisersOf e) ∈ errorTable := by
  rcases e with c | _ | c | _ | _ | _ | _ <;> (try cases c) <;> decide

/-- The `STATUS` word of an error: `DONE`, `ERR`, `HVALID` and the two codes. -/
theorem word_error (hvalid : Bool) (e : BlockError) : (Status.error hvalid e).word
    = BitVec.ofNat 32 (2 ^ 1 + 2 ^ 2 + 2 ^ 3 * hvalid.toNat + 2 ^ 8 * e.ecode.toNat + 2 ^ 16 * e.esub.toNat) := by
  rw [Status.word_eq]
  rfl

theorem errorReport {i : Instr} {e : BlockError} {hvalid : Bool} (raises : i ∈ raisersOf e) :
    ∃ ecode esub raisers, (e, ecode, esub, raisers) ∈ errorTable ∧ i ∈ raisers
      ∧ (Status.error hvalid e).word = BitVec.ofNat 32
          (2 ^ 1 + 2 ^ 2 + 2 ^ 3 * hvalid.toNat + 2 ^ 8 * ecode + 2 ^ 16 * esub) :=
  ⟨_, _, _, mem_errorTable e, raises, word_error hvalid e⟩

/-- Say once which state an error of a command leaves. -/
theorem exec_error_cases {i : Instr} {s t : State} {e : BlockError} (done : exec i s = .next t)
    (report : t.status.report = some e) :
    (i = .build ∧ i ∈ raisersOf e ∧ t = s.dropHandle.raise e)
      ∨ (i ≠ .build ∧ i ∈ raisersOf e ∧ t = s.startBlock.raiseBlock e)
      ∨ (i ≠ .build ∧ i ≠ .encode ∧ i ≠ .decode ∧ i ∈ raisersOf e ∧ t = s.startBlock.raise e)
      ∨ (i = .decode ∧ ∃ c dr, e = .frame c ∧ t = frameError { s.startBlock with decr := dr } c) := by
  cases i with
  | nop => cases done; cases report
  | sreset => cases done; cases report
  | build =>
    rcases exec_build_cases done with ⟨e', rfl, which⟩ | ⟨-, d, -, rfl⟩
    · cases report
      refine .inl ⟨rfl, ?_, rfl⟩
      clear done
      revert e
      decide
    · cases report
  | encode =>
    rcases exec_encode_ends done with ⟨e', which, rfl⟩ | ⟨-, frame, kind, raw, n, enc, rare, rfl, -⟩
    · cases report
      refine .inr (.inl ⟨by decide, ?_, rfl⟩)
      clear done
      revert e
      decide
    · cases report
  | decode =>
    rcases exec_decode_ends done with ⟨e', which, rfl⟩ | ⟨-, dr, ⟨block, kind, rare, -, -, rfl⟩ | ⟨cause, rfl⟩⟩
    · cases report
      refine .inr (.inl ⟨by decide, ?_, rfl⟩)
      clear done
      revert e
      decide
    · cases report
    · cases report
      exact .inr (.inr (.inr ⟨rfl, cause, dr, rfl, rfl⟩))
  | pext =>
    rcases exec_pext_cases done with rfl | ⟨-, rfl⟩ <;> cases report
    exact .inr (.inr (.inl ⟨by decide, by decide, by decide, by decide, rfl⟩))
  | pdep =>
    rcases exec_pdep_cases done with rfl | ⟨-, rfl⟩ <;> cases report
    exact .inr (.inr (.inl ⟨by decide, by decide, by decide, by decide, rfl⟩))

/-- Settles O21: an error ends in one of four states, each of which shows every part of the statement. -/
theorem errorLeavesStateAsStated : Obligations.ErrorLeavesStateAsStated := by
  unfold Obligations.ErrorLeavesStateAsStated
  intro i s t e done report
  rcases exec_error_cases done report with ⟨rfl, raises, rfl⟩ | ⟨build, raises, rfl⟩
    | ⟨build, encode, decode, raises, rfl⟩ | ⟨rfl, c, dr, rfl, rfl⟩
  · exact ⟨errorReport raises, rfl, rfl, rfl, rfl, rfl, fun _ => ⟨rfl, rfl, rfl, rfl, rfl, rfl, rfl⟩,
      fun other => absurd rfl other, fun other => by simp at other, fun _ => rfl, fun _ _ => rfl, rfl, rfl, rfl⟩
  · exact ⟨errorReport raises, rfl, rfl, rfl, rfl, rfl, fun same => absurd same build,
      fun _ => ⟨rfl, rfl, rfl, rfl, rfl, rfl, rfl⟩, fun _ => rfl, fun _ => rfl, fun _ _ => rfl, rfl, rfl, rfl⟩
  · exact ⟨errorReport raises, rfl, rfl, rfl, rfl, rfl, fun same => absurd same build,
      fun _ => ⟨rfl, rfl, rfl, rfl, rfl, rfl, rfl⟩, fun same => (same.elim encode decode).elim, fun _ => rfl,
      fun _ _ => rfl, rfl, rfl, rfl⟩
  · exact ⟨errorReport (by simp [raisersOf]), rfl, rfl, rfl, rfl, rfl, (by simp),
      fun _ => ⟨rfl, rfl, rfl, rfl, rfl, rfl, rfl⟩, fun _ => rfl, fun other => absurd rfl (other c),
      fun a beyond => dstAt_of_exec_decode done beyond, rfl, rfl, rfl⟩

/-! ### The RAM spaces (10_state.md R30, 20_memory.md R64) -/

section Bounds

variable {s t : State}

theorem loopOf_keeps {b : List Byte} (P : EncWork → Prop) (transition : ∀ m w, P w → P (encTransition s m w))
    (record : ∀ x w, w.regs.rcnt ≠ 255 → P w → P (recordRare (padOf b.length) x w)) (start : P (encStart s))
    {w : EncWork} (ends : loopOf s b = .go w ∨ loopOf s b = .toRaw w) : P w := by
  have work := encLoop_keeps s (padOf b.length) (encBudget b.length s.hS) P transition record
    (b.drop (padOf b.length)) (encStart s) start
  rw [loopOf] at ends
  rcases ends with e | e <;> rwa [e] at work

/-- The rare entries `ENCODE` records lie inside `RARE` (43_encode.md R207). -/
theorem exec_encode_bounds (bound : s.rare.below (Space.size s.inst .rare)) (done : exec .encode s = .next t) :
    t = { s with status := t.status, result := t.result, lastRare := t.lastRare, dst := t.dst, enc := t.enc,
                 decr := t.decr, rare := t.rare, fresh := t.fresh }
      ∧ t.rare.below (Space.size s.inst .rare)
      ∧ (t.dst = s.dst ∨ t.dst.below (Space.size s.inst .dst)) := by
  rcases exec_encode_cases done with ⟨e, -, rfl⟩ | ⟨⟨-, -, dstFits, room⟩, rfl⟩
  · exact ⟨rfl, bound, .inl rfl⟩
  · have loop : ∀ w, loopOf s.startBlock s.source = .go w ∨ loopOf s.startBlock s.source = .toRaw w →
        w.regs.rcnt ≤ 255 ∧ w.rare.below (Space.size s.inst .rare) := fun w ends => by
      refine loopOf_keeps (s := s.startBlock) (fun w => w.regs.rcnt ≤ 255 ∧ w.rare.below (Space.size s.inst .rare)) (fun m w h => ?_)
        (fun x w notFull ⟨count, below⟩ => ?_) ⟨Nat.zero_le _, bound⟩ ends
      · rwa [encTransition_rcnt, encTransition_rare]
      · have space : w.regs.rcnt + 1 ≤ 255 := by omega
        exact ⟨space, Memory.below_writeRange below _ _ space⟩
    obtain ⟨frame, kind, raw, n, enc, rare, e, length, -, -, -, below⟩ := encodeFrame_ends_with (s := s.startBlock)
      (b := s.source) (fun regs rare => regs.rcnt ≤ 255 ∧ rare.below (Space.size s.inst .rare))
      ⟨Nat.zero_le _, bound⟩ loop fun w ends => loop w (.inl ends)
    rw [e]
    rw [State.source_length] at length
    refine ⟨rfl, below, .inr fun c hc => ?_⟩
    exact (endEncode_below _ frame kind raw n c hc).trans_le (length.trans (room.trans dstFits))

theorem exec_decode_bounds (bound : s.dst.below (Space.size s.inst .dst)) (done : exec .decode s = .next t) :
    t = { s with status := t.status, result := t.result, lastRare := t.lastRare, dst := t.dst, enc := t.enc,
                 decr := t.decr, fresh := t.fresh }
      ∧ t.dst.below (Space.size s.inst .dst) := by
  rcases exec_decode_ends done with ⟨e, -, rfl⟩
    | ⟨⟨-, -, fits⟩, dr, ⟨block, kind, rare, -, length, rfl⟩ | ⟨cause, rfl⟩⟩
  · exact ⟨rfl, bound⟩
  · exact ⟨rfl, Memory.below_writeRange bound _ _ (by simpa [length, Space.size] using fits)⟩
  · exact ⟨rfl, Memory.below_writeRange bound _ _ (by simpa [Space.size] using fits)⟩

theorem exec_pext_bounds (bound : s.dst.below (Space.size s.inst .dst)) (done : exec .pext s = .next t) :
    t = { s with status := t.status, result := t.result, dst := t.dst, enc := t.enc, decr := t.decr,
                 fresh := t.fresh }
      ∧ t.dst.below (Space.size s.inst .dst) := by
  rcases exec_pext_cases done with rfl | ⟨good, rfl⟩
  · exact ⟨rfl, bound⟩
  · rw [Ne, pextBadLength_iff, not_or, not_or, not_not, not_lt, not_lt] at good
    obtain ⟨-, whole, fits⟩ := good
    refine ⟨rfl, fun c hc => ?_⟩
    have inside := Memory.filled_below _ _ c hc
    rw [length_pext_plane whole] at inside
    exact inside.trans_le fits

theorem exec_pdep_bounds (bound : s.dst.below (Space.size s.inst .dst)) (done : exec .pdep s = .next t) :
    t = { s with status := t.status, result := t.result, dst := t.dst, enc := t.enc, decr := t.decr }
      ∧ t.dst.below (Space.size s.inst .dst) := by
  rcases exec_pdep_cases done with rfl | ⟨good, rfl⟩
  · exact ⟨rfl, bound⟩
  · rw [Ne, pdepBadLength_iff, not_or, not_or, not_not, not_lt] at good
    obtain ⟨fits, whole, -⟩ := good
    exact ⟨rfl, Memory.below_writeRange bound _ _ (by rwa [depositedBlock_length whole, Nat.zero_add])⟩

/-- What is written from address 0 into a table of which nothing is known lies below its length. -/
theorem filled_table_below {α : Type} (epoch : Nat) (vs : List α) {n : Nat} (fits : vs.length ≤ n) :
    ((Memory.unspecified epoch).writeRange 0 vs).below n :=
  Memory.below_writeRange (Memory.below_unspecified epoch n) 0 vs (by rwa [Nat.zero_add])

/-- The tables of a finished dictionary fit their spaces. -/
theorem built_bounds {d : List DictWord} (ok : s.configOk) (some_ : dictionaryOf s = some d) :
    (built s d).alpha.below (Space.size s.inst .alpha) ∧ (built s d).s2m.below (Space.size s.inst .s2m)
      ∧ (built s d).dict.below (Space.size s.inst .dict) ∧ (built s d).jump.below (Space.size s.inst .jump)
      ∧ (built s d).dec.below (Space.size s.inst .dec) := by
  have dwf := dictWf_dictionaryOf ok some_
  obtain ⟨-, most, -⟩ := alphabet_bounds ok
  have words : d.length ≤ 2 ^ s.inst.koMax := by
    rw [length_dictionaryOf ok some_]
    exact Nat.pow_le_pow_right (by decide) ok.2.1.2.2.2
  have cells := length_flatten_rows _ _ (length_of_mem_jumpRows dwf (alphabet_positive ok some_))
  rw [length_jumpRows dwf] at cells
  refine ⟨filled_table_below _ _ most, filled_table_below _ _ (length_s2mBuild _ _).le, filled_table_below _ _ words,
    filled_table_below _ _ ?_, filled_table_below _ _ (by rwa [decBuild, List.length_map])⟩
  exact cells.trans_le (Nat.mul_le_mul words (Nat.succ_le_succ most))

theorem exec_inBounds {i : Instr} (bounds : s.inBounds) (done : exec i s = .next t) : t.inBounds := by
  obtain ⟨pmf, src, dst, alpha, s2m, dict, jump, dec, rare⟩ := bounds
  have none_ {α : Type} (n : Nat) : (Memory.unspecified s.fresh : Memory α).below n := Memory.below_unspecified _ n
  cases i with
  | nop => cases done; exact ⟨pmf, src, dst, alpha, s2m, dict, jump, dec, rare⟩
  | sreset => cases done; exact ⟨pmf, src, dst, none_ _, none_ _, none_ _, none_ _, none_ _, rare⟩
  | build =>
    rcases exec_build_cases done with ⟨e, rfl, -⟩ | ⟨ok, d, some_, rfl⟩
    · exact ⟨pmf, src, dst, none_ _, none_ _, none_ _, none_ _, none_ _, rare⟩
    · obtain ⟨alpha, s2m, dict, jump, dec⟩ := built_bounds ok some_
      exact ⟨pmf, src, dst, alpha, s2m, dict, jump, dec, rare⟩
  | encode =>
    obtain ⟨frame, rare', dst' | dst'⟩ := exec_encode_bounds rare done
    · rw [frame]
      exact ⟨pmf, src, dst' ▸ dst, alpha, s2m, dict, jump, dec, rare'⟩
    · rw [frame]
      exact ⟨pmf, src, dst', alpha, s2m, dict, jump, dec, rare'⟩
  | decode =>
    obtain ⟨frame, dst'⟩ := exec_decode_bounds dst done
    rw [frame]
    exact ⟨pmf, src, dst', alpha, s2m, dict, jump, dec, rare⟩
  | pext =>
    obtain ⟨frame, dst'⟩ := exec_pext_bounds dst done
    rw [frame]
    exact ⟨pmf, src, dst', alpha, s2m, dict, jump, dec, rare⟩
  | pdep =>
    obtain ⟨frame, dst'⟩ := exec_pdep_bounds dst done
    rw [frame]
    exact ⟨pmf, src, dst', alpha, s2m, dict, jump, dec, rare⟩

theorem writeSpace_inBounds (bounds : s.inBounds) {space : Space} {a : Nat} {d : HostData}
    (holds : space.holds s.inst a d.count = true) : (s.writeSpace space a d).inBounds := by
  have fits : a + d.count ≤ space.size s.inst := of_decide_eq_true holds
  have bounds' := bounds
  obtain ⟨pmf, src, dst, rest⟩ := bounds'
  cases space <;> cases d <;> try exact bounds
  · exact ⟨Memory.below_writeRange pmf _ _ fits, src, dst, rest⟩
  · exact ⟨pmf, Memory.below_writeRange src _ _ fits, dst, rest⟩
  · exact ⟨pmf, src, Memory.below_writeRange dst _ _ fits, rest⟩

theorem setReg_inBounds (bounds : s.inBounds) (r : Reg) (v : HostValue) : (s.setReg r v).inBounds := by
  cases r <;> cases v <;> exact bounds

theorem resetOf_inBounds (inst : Config.Instance) (epoch : Nat) (host : List HostEvent) :
    (State.resetOf inst epoch host).inBounds := by
  have none_ {α : Type} (n : Nat) : (Memory.unspecified epoch : Memory α).below n := Memory.below_unspecified _ n
  exact ⟨none_ _, none_ _, none_ _, none_ _, none_ _, none_ _, none_ _, none_ _, none_ _⟩

theorem hostAct_inBounds {a : HostAction} (bounds : s.inBounds) (done : hostAct a s = .next t) : t.inBounds := by
  rcases hostAct_cases done with ⟨-, r, v, -, -, -, -, rfl⟩ | ⟨-, -, -, -, -, -, rfl⟩ | ⟨-, r, -, -, rfl⟩
    | ⟨space, x, d, -, -, holds, -, -, rfl⟩ | ⟨-, -, -, -, -, -, -, rfl⟩ | ⟨space, x, n, -, -, -, rfl⟩ | ⟨-, rfl⟩
  · exact setReg_inBounds bounds r v
  · exact bounds
  · exact bounds
  · exact writeSpace_inBounds bounds holds
  · exact bounds
  · exact bounds
  · exact resetOf_inBounds _ _ _

end Bounds

/-- Settles O24: a host write is checked against its space, and each command writes what its checks have compared. -/
theorem stepKeepsBounds : Obligations.StepKeepsBounds := by
  unfold Obligations.StepKeepsBounds
  intro s t _ bounds done
  rcases step_kinds done with rfl | ⟨e, rest, -, -, act⟩ | ⟨-, -, run⟩
  · exact bounds
  · exact hostAct_inBounds (s := { s with host := rest }) bounds act
  · rcases runCommand_cases run with ⟨i, -, exec_⟩ | rfl
    · exact exec_inBounds bounds exec_
    · exact bounds

end Sys2Proof.Proofs
end

section
/-! The codeword stream (30_encoding.md R98): bit strings as numbers, bytes cut from a bit string, what `EMIT` drains and
what a reader finds. -/

namespace Sys2Proof.Proofs

open Sys2Proof Sys2Proof.Machine

/-! ### Bit strings as numbers, the first bit the most significant (20_memory.md R66) -/

@[simp] theorem length_bitsOf (k c : Nat) : (bitsOf k c).length = k := by simp [bitsOf]

theorem bitsNumber_append (l r : List Bool) :
    bitsNumber (l ++ r) = bitsNumber l * 2 ^ r.length + bitsNumber r := by
  have shifted : ∀ (r : List Bool) (v : Nat),
      r.foldl (fun v b => 2 * v + b.toNat) v = v * 2 ^ r.length + bitsNumber r := by
    intro r
    induction r with
    | nil => simp [bitsNumber]
    | cons b r ih =>
      intro v
      have first := ih b.toNat
      rw [bitsNumber, List.foldl_cons, List.foldl_cons, ih, Nat.mul_zero, Nat.zero_add, first, List.length_cons]
      ring
  rw [bitsNumber, List.foldl_append, shifted]
  rfl

theorem bitsNumber_replicate_false (n : Nat) : bitsNumber (List.replicate n false) = 0 := by
  induction n with
  | zero => rfl
  | succ n ih => rw [List.replicate_succ', bitsNumber_append, ih]; rfl

theorem bitsOf_succ (k c : Nat) : bitsOf (k + 1) c = bitsOf k (c / 2) ++ [c.testBit 0] := by
  rw [bitsOf, List.range_succ, List.map_append, List.map_singleton, Nat.add_sub_cancel, Nat.sub_self]
  congr 1
  refine List.map_congr_left fun n hn => ?_
  have below := List.mem_range.mp hn
  rw [Nat.testBit_div_two, show k - 1 - n + 1 = k - n by omega]

theorem bitsNumber_bitsOf (k c : Nat) : bitsNumber (bitsOf k c) = c % 2 ^ k := by
  induction k generalizing c with
  | zero => simp [bitsOf, bitsNumber, Nat.mod_one]
  | succ k ih =>
    rw [bitsOf_succ, bitsNumber_append, ih, List.length_singleton, pow_one, Nat.pow_succ, Nat.mul_comm (2 ^ k) 2,
      Nat.mod_mul, Nat.mul_comm, Nat.add_comm, Nat.testBit_zero]
    rcases Nat.mod_two_eq_zero_or_one c with even | odd
    · simp [even, bitsNumber]
    · simp [odd, bitsNumber]

theorem bitsNumber_bitsOf_of_lt {k c : Nat} (hc : c < 2 ^ k) : bitsNumber (bitsOf k c) = c := by
  rw [bitsNumber_bitsOf, Nat.mod_eq_of_lt hc]

theorem bitsOf_append {m k a c : Nat} (hc : c < 2 ^ k) : bitsOf (m + k) (a * 2 ^ k + c) = bitsOf m a ++ bitsOf k c := by
  apply List.ext_getElem
  · simp
  · intro i hi _
    rw [length_bitsOf] at hi
    rcases Nat.lt_or_ge i m with high | low
    · have place : m + k - 1 - i = k + (m - 1 - i) := by omega
      simp only [bitsOf, List.getElem_append, List.length_map, List.length_range, high, dif_pos, List.getElem_map,
        List.getElem_range]
      rw [place, Nat.mul_comm, Nat.testBit_two_pow_mul_add _ hc, if_neg (by omega), Nat.add_sub_cancel_left]
    · have place : m + k - 1 - i < k := by omega
      simp only [bitsOf, List.getElem_append, List.length_map, List.length_range, low.not_gt, dif_neg,
        not_false_eq_true, List.getElem_map, List.getElem_range]
      rw [Nat.mul_comm, Nat.testBit_two_pow_mul_add _ hc, if_pos place]
      congr 1
      omega

theorem bitsNumber_lt (l : List Bool) : bitsNumber l < 2 ^ l.length := by
  induction l using List.reverseRecOn with
  | nil => simp [bitsNumber]
  | append_singleton l b ih =>
    have last : bitsNumber [b] ≤ 1 := by cases b <;> simp [bitsNumber]
    rw [bitsNumber_append, List.length_append, List.length_singleton, Nat.pow_succ]
    omega

theorem bitsOf_bitsNumber (l : List Bool) : bitsOf l.length (bitsNumber l) = l := by
  induction l using List.reverseRecOn with
  | nil => rfl
  | append_singleton l b ih =>
    have last : bitsOf 1 (bitsNumber [b]) = [b] := by cases b <;> decide
    have fits : bitsNumber [b] < 2 ^ 1 := by cases b <;> decide
    rw [bitsNumber_append, List.length_append, List.length_singleton, bitsOf_append fits, ih, last]

theorem bitsOf_zero (k : Nat) : bitsOf k 0 = List.replicate k false := by
  simp [bitsOf, List.eq_replicate_iff]

/-! ### Bytes and their bits -/

/-- The bits of bytes one after another, bit 7 of each first. -/
def bitsOfBytes (l : List Byte) : List Bool := l.flatMap fun b => bitsOf 8 b.toNat

@[simp] theorem length_bitsOfBytes (l : List Byte) : (bitsOfBytes l).length = 8 * l.length := by
  simp [bitsOfBytes, List.length_flatMap, Nat.mul_comm]

theorem bitsOfBytes_append (l r : List Byte) : bitsOfBytes (l ++ r) = bitsOfBytes l ++ bitsOfBytes r := by
  simp [bitsOfBytes]

theorem getElem?_flatMap_bitsOf {α : Type} (l : List α) (k : Nat) (number : α → Nat) (u : Nat) {n : Nat} (hn : n < k) :
    (l.flatMap fun c => bitsOf k (number c))[u * k + n]? = l[u]?.map fun c => (number c).testBit (k - 1 - n) := by
  rw [List.flatMap_def, getElem?_flatten_rows _ k (by simp) u hn, List.getElem?_map, Option.bind_map]
  cases l[u]? with
  | none => rfl
  | some c => simp [bitsOf, hn]

/-- A bit of a stream is its place in the bytes' bit string (44_decode.md R237). -/
theorem streamBit_eq (stream : List Byte) (m : Nat) : streamBit stream m = (bitsOfBytes stream).getD m false := by
  have inside : m % 8 < 8 := Nat.mod_lt m (by decide)
  have place := getElem?_flatMap_bitsOf stream 8 BitVec.toNat (m / 8) inside
  rw [Nat.div_add_mod'] at place
  rw [List.getD_eq_getElem?_getD, bitsOfBytes, place, streamBit, List.getD_eq_getElem?_getD]
  cases stream[m / 8]? with
  | none => simp
  | some b => simp [← BitVec.testBit_toNat]

theorem byteOf_mod (n : Nat) : byteOf (n % 256) = byteOf n :=
  BitVec.eq_of_toNat_eq (by rw [byteOf_toNat, byteOf_toNat, Nat.mod_mod])

theorem bitsOfBytes_byteOf {bits : List Bool} (eight : bits.length = 8) :
    bitsOfBytes [byteOf (bitsNumber bits)] = bits := by
  have fits := bitsNumber_lt bits
  rw [eight] at fits
  have whole := bitsOf_bitsNumber bits
  rw [eight] at whole
  rw [bitsOfBytes, List.flatMap_singleton, byteOf_toNat, show 256 = 2 ^ 8 from rfl, Nat.mod_eq_of_lt fits,
    whole]

/-- A bit string cut into bytes, zero bits behind it (30_encoding.md R98). -/
def packBits (bits : List Bool) : List Byte :=
  (List.range ((bits.length + 7) / 8)).map fun j =>
    byteOf (bitsNumber ((List.range 8).map fun n => bits.getD (8 * j + n) false))

theorem length_flatMap_bitsOf (k : Nat) (cws : List Nat) : (cws.flatMap (bitsOf k)).length = cws.length * k := by
  simp [List.length_flatMap]

theorem streamOf_eq_packBits (k : Nat) (cws : List Nat) : streamOf k cws = packBits (cws.flatMap (bitsOf k)) := by
  rw [streamOf, packBits, length_flatMap_bitsOf]

theorem packBits_byte_append (b : Byte) (rest : List Bool) :
    packBits (bitsOf 8 b.toNat ++ rest) = b :: packBits rest := by
  have bytes : ((bitsOf 8 b.toNat ++ rest).length + 7) / 8 = (rest.length + 7) / 8 + 1 := by
    simp only [List.length_append, length_bitsOf]
    omega
  rw [packBits, bytes, List.range_succ_eq_map (n := (rest.length + 7) / 8), List.map_cons, List.map_map]
  refine congrArg₂ List.cons ?_ rfl
  have first : (List.range 8).map (fun n => (bitsOf 8 b.toNat ++ rest).getD (8 * 0 + n) false) = bitsOf 8 b.toNat := by
    apply List.ext_getElem
    · simp
    · intro n _ hn
      rw [length_bitsOf] at hn
      simp [List.getElem?_append, hn]
  rw [first, bitsNumber_bitsOf_of_lt b.isLt]
  simp [byteOf]

theorem packBits_bitsOfBytes_append (stream : List Byte) (rest : List Bool) :
    packBits (bitsOfBytes stream ++ rest) = stream ++ packBits rest := by
  induction stream with
  | nil => rfl
  | cons b stream ih =>
    change packBits ((bitsOf 8 b.toNat ++ bitsOfBytes stream) ++ rest) = _
    rw [List.append_assoc, packBits_byte_append, ih, List.cons_append]

/-- Fewer than eight bits give one byte, the zero bits below them, or no byte. -/
theorem packBits_of_length_lt {bits : List Bool} (few : bits.length < 8) :
    packBits bits = if bits.length = 0 then [] else [byteOf (bitsNumber bits * 2 ^ (8 - bits.length))] := by
  split
  · next empty => rw [List.length_eq_zero_iff.mp empty]; rfl
  · next some_ =>
    have one : (bits.length + 7) / 8 = 1 := by omega
    have padded : (List.range 8).map (fun n => bits.getD (8 * 0 + n) false)
        = bits ++ List.replicate (8 - bits.length) false := by
      apply List.ext_getElem
      · simp; omega
      · intro n _ _
        simp only [List.getElem_map, List.getElem_range, Nat.mul_zero, Nat.zero_add, List.getD_eq_getElem?_getD,
          List.getElem_append]
        split <;> simp_all
    rw [packBits, one, List.range_one, List.map_singleton, padded, bitsNumber_append, bitsNumber_replicate_false,
      List.length_replicate, Nat.add_zero]

/-- The bytes of a bit string hold it, and zero bits behind it. -/
theorem bitsOfBytes_packBits (bits : List Bool) :
    bitsOfBytes (packBits bits) = bits ++ List.replicate (8 * ((bits.length + 7) / 8) - bits.length) false := by
  apply List.ext_getElem
  · simp [packBits]
    omega
  · intro m hm _
    have bytes : m / 8 < (bits.length + 7) / 8 := by
      simp only [length_bitsOfBytes, packBits, List.length_map, List.length_range] at hm
      omega
    have inside : m % 8 < 8 := Nat.mod_lt m (by decide)
    have place := getElem?_flatMap_bitsOf (packBits bits) 8 BitVec.toNat (m / 8) inside
    rw [Nat.div_add_mod'] at place
    have eight : ((List.range 8).map fun n => bits.getD (8 * (m / 8) + n) false).length = 8 := by simp
    have byte := congrArg (·[m % 8]?) (bitsOfBytes_byteOf eight)
    have single := getElem?_flatMap_bitsOf
      [byteOf (bitsNumber ((List.range 8).map fun n => bits.getD (8 * (m / 8) + n) false))] 8 BitVec.toNat 0 inside
    rw [Nat.zero_mul, Nat.zero_add] at single
    have chosen : (packBits bits)[m / 8]?
        = some (byteOf (bitsNumber ((List.range 8).map fun n => bits.getD (8 * (m / 8) + n) false))) := by
      simp [packBits, bytes]
    have joined : (bitsOfBytes (packBits bits))[m]? = some (bits.getD m false) := by
      rw [bitsOfBytes, place, chosen]
      dsimp only [bitsOfBytes] at byte
      rw [single] at byte
      simp only [List.getElem?_cons_zero] at byte
      rw [byte]
      simp [inside, Nat.div_add_mod]
    rw [List.getElem?_eq_getElem hm] at joined
    rw [Option.some.inj joined, List.getElem_append]
    split <;> simp_all

/-! ### What a reader finds (44_decode.md R237) -/

theorem codewordAt_eq_bitsNumber (k : Nat) (stream : List Byte) (u : Nat) :
    codewordAt k stream u = bitsNumber ((List.range k).map fun n => (bitsOfBytes stream).getD (u * k + n) false) := by
  simp only [codewordAt, streamBit_eq]

/-- A reader finds each codeword of a sequence the stream begins with. -/
theorem codewordAt_of_prefix {k : Nat} {stream : List Byte} {cws : List Nat}
    (starts : cws.flatMap (bitsOf k) <+: bitsOfBytes stream) {u : Nat} (hu : u < cws.length) (fits : cws[u] < 2 ^ k) :
    codewordAt k stream u = cws[u] := by
  have bits : (List.range k).map (fun n => (bitsOfBytes stream).getD (u * k + n) false) = bitsOf k cws[u] := by
    refine List.map_congr_left fun n hn => ?_
    have inside := List.mem_range.mp hn
    have place := getElem?_flatMap_bitsOf cws k id u inside
    rw [List.getElem?_eq_getElem hu, Option.map_some] at place
    obtain ⟨rest, whole⟩ := starts
    rw [← whole, List.getD_eq_getElem?_getD, List.getElem?_append_left, show cws.flatMap (bitsOf k)
      = cws.flatMap fun c => bitsOf k (id c) from rfl, place]
    · rfl
    · exact (List.getElem?_eq_some_iff.mp place).1
  rw [codewordAt_eq_bitsNumber, bits, bitsNumber_bitsOf_of_lt fits]

theorem readsAs_iff {k : Nat} {stream : List Byte} {cws : List Nat} : ReadsAs k stream cws ↔
    cws.length = unitsOf k stream.length ∧ (∀ c ∈ cws, c < 2 ^ k)
      ∧ cws.flatMap (bitsOf k) = (bitsOfBytes stream).take (cws.length * k) := Iff.rfl

theorem codewordAt_of_readsAs {k : Nat} {stream : List Byte} {cws : List Nat} (reads : ReadsAs k stream cws) {u : Nat}
    (hu : u < cws.length) : codewordAt k stream u = cws[u] := by
  obtain ⟨-, fits, bits⟩ := readsAs_iff.mp reads
  exact codewordAt_of_prefix (bits ▸ List.take_prefix _ _) hu (fits _ (List.getElem_mem hu))

theorem length_streamOf (k : Nat) (cws : List Nat) : (streamOf k cws).length = (cws.length * k + 7) / 8 := by
  simp [streamOf]

/-- How many codewords of a stream's filler a reader takes. -/
def fillerOf (k n : Nat) : Nat := unitsOf k ((n * k + 7) / 8) - n

theorem units_of_streamOf {k : Nat} (hk : 1 ≤ k) (cws : List Nat) :
    unitsOf k (streamOf k cws).length = cws.length + fillerOf k cws.length := by
  have enough : cws.length ≤ unitsOf k ((cws.length * k + 7) / 8) := by
    rw [unitsOf, Nat.le_div_iff_mul_le hk]
    omega
  rw [length_streamOf, fillerOf]
  omega

theorem fillerOf_le {k : Nat} (hk : 1 ≤ k) (n : Nat) : fillerOf k n ≤ 7 / k := by
  have most : unitsOf k ((n * k + 7) / 8) ≤ (7 + k * n) / k := Nat.div_le_div_right (by rw [Nat.mul_comm k]; omega)
  rw [Nat.add_mul_div_left _ _ hk] at most
  exact Nat.sub_le_iff_le_add.mpr most

/-- A reader takes from a stream the codewords it was made of, and codewords of value 0 behind them. -/
theorem readsAs_streamOf {k : Nat} (hk : 1 ≤ k) {cws : List Nat} (fits : ∀ c ∈ cws, c < 2 ^ k) :
    ReadsAs k (streamOf k cws) (cws ++ List.replicate (fillerOf k cws.length) 0) := by
  rw [readsAs_iff, units_of_streamOf hk, List.length_append, List.length_replicate]
  refine ⟨rfl, fun c hc => ?_, ?_⟩
  · rcases List.mem_append.mp hc with coded | filler
    · exact fits c coded
    · rw [List.eq_of_mem_replicate filler]
      exact Nat.two_pow_pos k
  · have units := units_of_streamOf hk cws
    have whole := Nat.div_mul_le_self (8 * (streamOf k cws).length) k
    rw [← unitsOf, units, length_streamOf] at whole
    have zeros : (List.replicate (fillerOf k cws.length) 0).flatMap (bitsOf k)
        = List.replicate (fillerOf k cws.length * k) false := by
      rw [List.eq_replicate_iff, length_flatMap_bitsOf, List.length_replicate]
      refine ⟨rfl, fun b hb => ?_⟩
      obtain ⟨c, hc, bit⟩ := List.mem_flatMap.mp hb
      rw [List.eq_of_mem_replicate hc, bitsOf_zero] at bit
      exact List.eq_of_mem_replicate bit
    rw [List.flatMap_append, zeros, streamOf_eq_packBits, bitsOfBytes_packBits, length_flatMap_bitsOf, Nat.add_mul,
      ← length_flatMap_bitsOf k cws, List.take_length_add_append, List.take_replicate, length_flatMap_bitsOf]
    congr 2
    rw [Nat.add_mul] at whole
    omega

theorem codewordAt_streamOf {k : Nat} (hk : 1 ≤ k) {cws : List Nat} (fits : ∀ c ∈ cws, c < 2 ^ k) {u : Nat}
    (hu : u < unitsOf k (streamOf k cws).length) : codewordAt k (streamOf k cws) u = cws.getD u 0 := by
  have inside : u < (cws ++ List.replicate (fillerOf k cws.length) 0).length := by
    rwa [List.length_append, List.length_replicate, ← units_of_streamOf hk]
  rw [codewordAt_of_readsAs (readsAs_streamOf hk fits) inside, List.getElem_append]
  split <;> simp_all

/-- Settles O50: the bits of the stream are those of the codewords and zeros, and fewer than 8 of these. -/
theorem streamReadsBack : Obligations.StreamReadsBack := by
  unfold Obligations.StreamReadsBack
  intro k cws hk fits
  have units := units_of_streamOf hk cws
  have filler := fillerOf_le hk cws.length
  refine ⟨length_streamOf k cws, by omega, fun wide => ?_, fun half => ?_, fun u hu => ?_, fun u beyond hu => ?_⟩
  · rw [Nat.div_eq_of_lt (by omega)] at filler
    omega
  · have few : 7 / k < 2 := Nat.div_lt_of_lt_mul (by omega)
    omega
  · rw [codewordAt_streamOf hk fits (by omega), List.getD_eq_getElem _ _ hu]
  · rw [codewordAt_streamOf hk fits hu, List.getD_eq_default _ _ beyond]

/-! ### What `EMIT` drains (43_encode.md R209, R210) -/

theorem drain_bits (v : BitVec 32) (n : Nat) (wide : n ≤ 32) (fits : v.toNat < 2 ^ n) :
    bitsOfBytes (drain (n / 8) v n).1 ++ bitsOf (n % 8) (drain (n / 8) v n).2.1.toNat = bitsOf n v.toNat
      ∧ (drain (n / 8) v n).2.1.toNat < 2 ^ (n % 8) := by
  induction bytes : n / 8 generalizing v n with
  | zero =>
    rw [Nat.mod_eq_of_lt (by omega)]
    exact ⟨rfl, fits⟩
  | succ f ih =>
    have below : ¬ n < 8 := by omega
    have low : v.toNat % 2 ^ (n - 8) < 2 ^ (n - 8) := Nat.mod_lt _ (Nat.two_pow_pos _)
    have word : 2 ^ (n - 8) ≤ 2 ^ 32 := Nat.pow_le_pow_right (by decide) (by omega)
    have rest : (BitVec.ofNat 32 (v.toNat % 2 ^ (n - 8))).toNat = v.toNat % 2 ^ (n - 8) :=
      Nat.mod_eq_of_lt (low.trans_le word)
    obtain ⟨bits, small⟩ := ih (BitVec.ofNat 32 (v.toNat % 2 ^ (n - 8))) (n - 8) (by omega) (rest.trans_lt low) (by omega)
    rw [show (n - 8) % 8 = n % 8 by omega] at bits small
    rw [rest] at bits
    have split : 2 ^ n = 2 ^ 8 * 2 ^ (n - 8) := by rw [← Nat.pow_add]; congr 1; omega
    have top : v.toNat / 2 ^ (n - 8) < 2 ^ 8 := Nat.div_lt_of_lt_mul (by rw [Nat.mul_comm, ← split]; exact fits)
    have number : v.toNat = v.toNat / 2 ^ (n - 8) * 2 ^ (n - 8) + v.toNat % 2 ^ (n - 8) := (Nat.div_add_mod' _ _).symm
    simp only [drain, if_neg below]
    refine ⟨?_, small⟩
    calc bitsOfBytes (byteOf ((v.toNat >>> (n - 8)) % 256) :: _) ++ _
      _ = bitsOf 8 (v.toNat / 2 ^ (n - 8)) ++ bitsOf (n - 8) (v.toNat % 2 ^ (n - 8)) := by
        rw [← bits, ← List.append_assoc]
        congr 1
        change bitsOf 8 (byteOf ((v.toNat >>> (n - 8)) % 256)).toNat ++ _ = _
        rw [byteOf_toNat, Nat.mod_mod, Nat.shiftRight_eq_div_pow, show 256 = 2 ^ 8 from rfl, Nat.mod_eq_of_lt top]
        rfl
      _ = bitsOf (8 + (n - 8)) v.toNat := by rw [← bitsOf_append low, ← number]
      _ = bitsOf n v.toNat := by congr 1; omega

/-- What the encoder has emitted: the bytes drained and the bits left in `VAL` are the bits of the codewords. -/
structure Emitted (k : Nat) (cws : List Nat) (w : EncWork) : Prop where
  bits : bitsOfBytes w.stream ++ bitsOf w.regs.nbits w.regs.val.toNat = cws.flatMap (bitsOf k)
  fits : w.regs.val.toNat < 2 ^ w.regs.nbits
  few : w.regs.nbits < 8
  counted : w.regs.ocur = w.stream.length

section Emit

variable {k c : Nat} {cws : List Nat} {w : EncWork}

/-- Nothing but the stream, `VAL`, `NBITS` and `OCUR` bears on what was emitted. -/
theorem Emitted.congr {w' : EncWork} (h : Emitted k cws w) (stream : w'.stream = w.stream)
    (val : w'.regs.val = w.regs.val) (nbits : w'.regs.nbits = w.regs.nbits) (ocur : w'.regs.ocur = w.regs.ocur) :
    Emitted k cws w' :=
  ⟨by rw [stream, val, nbits, h.bits], by rw [val, nbits]; exact h.fits, by rw [nbits]; exact h.few,
    by rw [stream, ocur, h.counted]⟩

theorem emitted_nil (stream : w.stream = []) (nbits : w.regs.nbits = 0) (val : w.regs.val = 0) (ocur : w.regs.ocur = 0) :
    Emitted k [] w :=
  ⟨by rw [stream, nbits, val]; rfl, by rw [nbits, val]; decide, by rw [nbits]; decide, by rw [stream, ocur]; rfl⟩

/-- The value register before whole bytes drain: the bits left and the codeword, within 32 bits. -/
theorem toNat_emit_val (wide : k ≤ 25) (hc : c < 2 ^ k) (fits : w.regs.val.toNat < 2 ^ w.regs.nbits)
    (few : w.regs.nbits < 8) :
    (w.regs.val <<< k ||| BitVec.ofNat 32 c).toNat = w.regs.val.toNat * 2 ^ k + c
      ∧ w.regs.val.toNat * 2 ^ k + c < 2 ^ (w.regs.nbits + k) := by
  have below : w.regs.val.toNat * 2 ^ k + c < 2 ^ (w.regs.nbits + k) := by
    rw [Nat.pow_add]
    calc w.regs.val.toNat * 2 ^ k + c < w.regs.val.toNat * 2 ^ k + 2 ^ k := Nat.add_lt_add_left hc _
      _ = (w.regs.val.toNat + 1) * 2 ^ k := (Nat.succ_mul _ _).symm
      _ ≤ 2 ^ w.regs.nbits * 2 ^ k := Nat.mul_le_mul_right _ fits
  have word : 2 ^ (w.regs.nbits + k) ≤ 2 ^ 32 := Nat.pow_le_pow_right (by decide) (by omega)
  have codeword : c < 2 ^ 32 := hc.trans_le (Nat.pow_le_pow_right (by decide) (by omega))
  refine ⟨?_, below⟩
  rw [BitVec.toNat_or, BitVec.toNat_shiftLeft, BitVec.toNat_ofNat, Nat.mod_eq_of_lt codeword, Nat.shiftLeft_eq,
    Nat.mod_eq_of_lt (by omega), Nat.mul_comm, Nat.two_pow_add_eq_or_of_lt hc]

theorem emitted_emit (wide : k ≤ 25) (hc : c < 2 ^ k) (h : Emitted k cws w) : Emitted k (cws ++ [c]) (emit k c w) := by
  obtain ⟨value, below⟩ := toNat_emit_val wide hc h.fits h.few
  obtain ⟨bits, small⟩ := drain_bits (w.regs.val <<< k ||| BitVec.ofNat 32 c) (w.regs.nbits + k)
    (by have := h.few; omega) (value ▸ below)
  have left := emit_nbits k c w
  refine ⟨?_, ?_, emit_nbits_lt k c w, ?_⟩
  · rw [value, bitsOf_append hc] at bits
    rw [left, List.flatMap_append, List.flatMap_singleton, ← h.bits, List.append_assoc, ← bits, ← List.append_assoc,
      ← bitsOfBytes_append]
    rfl
  · rw [left]
    exact small
  · rw [emit_ocur, emit_stream_length, h.counted]

theorem emitted_foldl_emit (wide : k ≤ 25) (more : List Nat) (fits : ∀ c ∈ more, c < 2 ^ k) (h : Emitted k cws w) :
    Emitted k (cws ++ more) (more.foldl (fun w c => emit k c w) w) := by
  induction more generalizing cws w with
  | nil => rwa [List.append_nil]
  | cons c more ih =>
    obtain ⟨here, later⟩ := List.forall_mem_cons.mp fits
    rw [← List.singleton_append, ← List.append_assoc]
    exact ih later (emitted_emit wide here h)

/-- R209: closing the stream adds the byte of the bits left. -/
theorem closeStream_stream (h : Emitted k cws w) : (closeStream w).stream = streamOf k cws := by
  have tail : packBits (bitsOf w.regs.nbits w.regs.val.toNat) = fillBytes w.regs := by
    have few : (bitsOf w.regs.nbits w.regs.val.toNat).length < 8 := by rw [length_bitsOf]; exact h.few
    rw [packBits_of_length_lt few, length_bitsOf, bitsNumber_bitsOf_of_lt h.fits, fillBytes, byteOf_mod,
      Nat.shiftLeft_eq]
  rw [streamOf_eq_packBits, ← h.bits, packBits_bitsOfBytes_append, tail]
  rfl

theorem closeStream_ocur (h : Emitted k cws w) : (closeStream w).regs.ocur = (closeStream w).stream.length := by
  simp [closeStream, h.counted]

/-- Before the flush, whole bytes only have drained. -/
theorem emitted_ocur (h : Emitted k cws w) : w.regs.ocur = cws.length * k / 8 := by
  have length := congrArg List.length h.bits
  have few := h.few
  rw [List.length_append, length_bitsOfBytes, length_bitsOf, length_flatMap_bitsOf] at length
  rw [h.counted]
  omega

end Emit

/-- Settles O49: `Emitted` holds at the start and after every `EMIT`; the flush packs what is left. -/
theorem emittedBytesAreTheStream : Obligations.EmittedBytesAreTheStream := by
  unfold Obligations.EmittedBytesAreTheStream
  intro k cws regs rare wide fits val nbits ocur
  have all := emitted_foldl_emit wide cws fits
    (emitted_nil (k := k) (w := { regs := regs, stream := [], rare := rare }) rfl nbits val ocur)
  rw [List.nil_append] at all
  exact ⟨closeStream_stream all, closeStream_ocur all, rfl, rfl⟩

end Sys2Proof.Proofs
end

section
/-! `ENCODE` whatever the handle is: what the Marlin loop has recorded by the bytes it has read, and the frames that do
not depend on the codewords (43_encode.md R202, R207, R213, R214, R216). -/

namespace Sys2Proof.Proofs

open Sys2Proof Sys2Proof.Machine

/-! ### One byte read -/

section ReadByte

variable (s : State) (pad : Nat) (x : Byte) (m : Nat) (w : EncWork)

@[simp] theorem encTransition_icur : (encTransition s m w).regs.icur = w.regs.icur + 1 := rfl

@[simp] theorem encTransition_j :
    (encTransition s m w).regs.j = s.jumpAt (w.regs.j * (s.hA + 1) + m) % s.flag := rfl

theorem readByte_icur : (readByte s pad x w).regs.icur = w.regs.icur + 1 := by
  rw [readByte, encTransition_icur]
  split <;> rfl

theorem readByte_j :
    (readByte s pad x w).regs.j = s.jumpAt (w.regs.j * (s.hA + 1) + symbolOf s x) % s.flag := by
  rw [readByte, encTransition_j]
  split <;> rfl

theorem readByte_rcnt : (readByte s pad x w).regs.rcnt = if s.isRare x then w.regs.rcnt + 1 else w.regs.rcnt := by
  rw [readByte, encTransition_rcnt]
  split <;> rfl

theorem readByte_rare : (readByte s pad x w).rare =
    if s.isRare x then w.rare.writeRange w.regs.rcnt [{ offset := pad + w.regs.icur, value := x }] else w.rare := by
  rw [readByte, encTransition_rare]
  split <;> rfl

end ReadByte

/-! ### The rare bytes by the bytes read (R207) -/

/-- The rare bytes among those read, with their offsets in the whole block. -/
def raresIn (s : State) (pad : Nat) (read : List Byte) : List RareEntry :=
  (read.zipIdx.filter fun e => s.isRare e.1).map fun e => { offset := pad + e.2, value := e.1 }

theorem raresIn_append_singleton (s : State) (pad : Nat) (read : List Byte) (x : Byte) :
    raresIn s pad (read ++ [x])
      = raresIn s pad read ++ if s.isRare x then [{ offset := pad + read.length, value := x }] else [] := by
  rw [raresIn, List.zipIdx_append, List.filter_append, List.map_append]
  congr 1
  cases rare : s.isRare x <;> simp [rare]

theorem raresIn_append (s : State) (pad : Nat) (read more : List Byte) :
    raresIn s pad read <+: raresIn s pad (read ++ more) := by
  rw [raresIn, raresIn, List.zipIdx_append, List.filter_append, List.map_append]
  exact List.prefix_append _ _

theorem rares_eq (s : State) : s.rares = raresIn s (padOf s.srcLen) s.alignedPart := rfl

/-- What the loop has recorded of the bytes it has read. -/
structure ReadSoFar (s : State) (pad : Nat) (read : List Byte) (w : EncWork) : Prop where
  icur : w.regs.icur = read.length
  rcnt : w.regs.rcnt = (raresIn s pad read).length
  few : w.regs.rcnt ≤ 255
  table : (List.range w.regs.rcnt).map (rareRead w.rare) = raresIn s pad read
  place : s.handle.start < s.flag → w.regs.j < s.flag

section ReadSoFar

variable {s : State} {pad : Nat} {read : List Byte} {w : EncWork} {x : Byte}

theorem readSoFar_start (s : State) (pad : Nat) : ReadSoFar s pad [] (encStart s) :=
  ⟨rfl, rfl, Nat.zero_le _, rfl, fun start => start⟩

theorem map_rareRead_writeRange (m : Memory RareEntry) (n : Nat) (e : RareEntry) :
    (List.range (n + 1)).map (rareRead (m.writeRange n [e])) = (List.range n).map (rareRead m) ++ [e] := by
  rw [List.range_succ, List.map_append, List.map_singleton]
  congr 1
  · refine List.map_congr_left fun r hr => ?_
    exact Memory.read_writeRange_outside _ _ _ _ _ (.inl (List.mem_range.mp hr))
  · exact congrArg (· :: []) (Memory.read_writeRange_inside _ m n [e] 0 (Nat.zero_lt_one))

theorem readSoFar_readByte (h : ReadSoFar s pad read w) (notFull : s.isRare x = true → w.regs.rcnt ≠ 255) :
    ReadSoFar s pad (read ++ [x]) (readByte s pad x w) := by
  obtain ⟨icur, rcnt, few, table, -⟩ := h
  have place : (readByte s pad x w).regs.j < s.flag := by
    rw [readByte_j]
    exact Nat.mod_lt _ (Nat.two_pow_pos _)
  refine ⟨?_, ?_, ?_, ?_, fun _ => place⟩
  · rw [readByte_icur, icur, List.length_append, List.length_singleton]
  · rw [readByte_rcnt, raresIn_append_singleton, List.length_append, rcnt]
    split <;> rfl
  · rw [readByte_rcnt]
    split
    · next rare => have := notFull rare; omega
    · exact few
  · rw [readByte_rcnt, readByte_rare, raresIn_append_singleton]
    split
    · rw [map_rareRead_writeRange, table, icur]
    · rw [table, List.append_nil]

/-- What the loop of a block has recorded at its end, and why it gives up. -/
theorem loopOf_read (s : State) (b : List Byte) :
    (∀ w, loopOf s b = .go w → ReadSoFar s (padOf b.length) (b.drop (padOf b.length)) w)
      ∧ ∀ w, loopOf s b = .toRaw w → ∃ read x rest, b.drop (padOf b.length) = read ++ x :: rest
          ∧ ReadSoFar s (padOf b.length) read w := by
  obtain ⟨ends, givesUp⟩ := encLoop_induct (s := s) (pad := padOf b.length) (budget := encBudget b.length s.hS)
    (ReadSoFar s (padOf b.length)) (fun read x w h _ notFull => readSoFar_readByte h notFull)
    (b.drop (padOf b.length)) [] (encStart s) (readSoFar_start s _)
  refine ⟨ends, fun w done => ?_⟩
  obtain ⟨read, x, rest, split, holds, -⟩ := givesUp w done
  exact ⟨read, x, rest, split, holds⟩

/-- R209: the flush changes nothing that was recorded. -/
theorem readSoFar_encFlush (h : ReadSoFar s pad read w) : ReadSoFar s pad read (encFlush s w) :=
  ⟨h.icur, h.rcnt, h.few, h.table, h.place⟩

theorem rareTable_of_readSoFar (ow : Nat) (h : ReadSoFar s pad read w) :
    rareTable ow w = (raresIn s pad read).flatMap (rareBytes ow) := by
  rw [← h.table, rareTable, List.flatMap_map]

end ReadSoFar

/-! ### The frame written -/

section Written

variable {s : State}

theorem readDst_endEncode (s : State) (frame : List Byte) (kind : FrameKind) (raw : Bool) (rare : Nat) :
    (endEncode s frame kind raw rare).readDst 0 frame.length = frame := by
  rw [State.readDst]
  refine map_range_length fun i hi => ?_
  rw [Nat.zero_add]
  exact dstAt_endEncode_inside s frame kind raw rare i hi

/-- The state in which the last statements of `ENCODE` run: the scratch and the rare table are the block's. -/
def blockState (s : State) (enc : EncRegs) (rare : Memory RareEntry) : State :=
  { s.startBlock with enc := enc, rare := rare }

theorem encodedFrom_endEncode (s : State) (enc : EncRegs) (rare : Memory RareEntry) {frame : List Byte}
    (kind : FrameKind) (raw : Bool) (n : Nat) (room : frame.length ≤ s.dstCap) :
    (endEncode (blockState s enc rare) frame kind raw n).encodedFrom s :=
  ⟨rfl, room, endEncode_below _ _ _ _ _, rfl⟩

theorem storedRaw_storeRaw (enc : EncRegs) (rare : Memory RareEntry) (room : s.srcLen ≤ s.dstCap) :
    (storeRaw (blockState s enc rare) s.source).storedRaw s := by
  have whole := readDst_endEncode (blockState s enc rare) s.source .raw true 0
  rw [State.source_length] at whole
  exact ⟨rfl, s.source_length, rfl, whole, encodedFrom_endEncode s enc rare _ _ _ (s.source_length.trans_le room)⟩

theorem getD_source {i : Nat} (hi : i < s.srcLen) : s.source.getD i 0 = s.srcAt i := by
  simp [State.source, State.readSrc, hi]

theorem allEqual_iff (b : List Byte) : allEqual b = true ↔ ∀ i < b.length, b.getD i 0 = b.getD 0 0 := by
  cases b with
  | nil => simp [allEqual]
  | cons v rest =>
    rw [allEqual, List.all_eq_true]
    constructor
    · intro same i hi
      cases i with
      | zero => rfl
      | succ i =>
        have inside : i < rest.length := Nat.lt_of_succ_lt_succ hi
        rw [List.getD_cons_succ, List.getD_eq_getElem _ _ inside, List.getD_cons_zero]
        exact eq_of_beq (same _ (List.getElem_mem inside))
    · intro same x hx
      obtain ⟨i, hi, rfl⟩ := List.mem_iff_getElem.mp hx
      have here := same (i + 1) (Nat.succ_lt_succ hi)
      rw [List.getD_cons_succ, List.getD_eq_getElem _ _ hi, List.getD_cons_zero] at here
      exact beq_iff_eq.mpr here

theorem allEqual_source_iff (s : State) : allEqual s.source = true ↔ ¬ s.notConstant := by
  simp only [allEqual_iff, State.source_length, State.notConstant, not_exists, not_and, not_not, ne_eq]
  refine forall₂_congr fun i hi => ?_
  rw [getD_source hi, getD_source (Nat.zero_lt_of_lt hi)]

theorem two_le_of_notConstant (varied : s.notConstant) : 2 ≤ s.srcLen := by
  obtain ⟨i, hi, differs⟩ := varied
  cases i with
  | zero => exact absurd rfl differs
  | succ i => omega

theorem source_ne_nil (long : 0 < s.srcLen) : s.source ≠ [] :=
  List.ne_nil_of_length_pos (s.source_length.symm ▸ long)

theorem alignedOf_eq_zero_iff (n : Nat) : alignedOf n = 0 ↔ n < 8 := by
  simp only [alignedOf, padOf]
  omega

/-- The block at the end of the checks, with nothing recorded yet. -/
theorem startBlock_eq_blockState (s : State) : s.startBlock = blockState s s.startBlock.enc s.rare := rfl

theorem withEnc_eq_blockState (s : State) (w : EncWork) : s.startBlock.withEnc w = blockState s w.regs w.rare := rfl

end Written

/-- Settles O44: both frames end in `ENC.PRE`. -/
theorem encodeEmptyAndConstant : Obligations.EncodeEmptyAndConstant := by
  unfold Obligations.EncodeEmptyAndConstant
  intro s can
  have handle : s.status.hvalid = true := can.1
  have room : s.srcLen ≤ s.dstCap := can.2.2.2
  constructor
  · intro empty
    have block : s.source = [] := List.length_eq_zero_iff.mp (s.source_length.trans empty)
    refine ⟨_, exec_encode_of_canEncode can, ?_⟩
    rw [block, encodeFrame_nil]
    exact ⟨congrArg (Status.success · .empty false) handle, rfl, rfl,
      encodedFrom_endEncode s _ s.rare _ _ _ (Nat.zero_le _)⟩
  · intro long constant
    refine ⟨_, exec_encode_of_canEncode can, ?_⟩
    rw [encodeFrame_of_allEqual (source_ne_nil long) ((allEqual_source_iff s).mpr constant)]
    refine ⟨congrArg (Status.success · .constant false) handle, rfl, ?_, rfl,
      encodedFrom_endEncode s _ s.rare _ _ _ (Nat.lt_of_lt_of_le long room)⟩
    exact (dstAt_endEncode_inside _ [_] _ _ _ 0 Nat.zero_lt_one).trans (getD_source long)

/-! ### Blocks stored raw (R214) -/

section StoredRaw

variable {s : State}

/-- The loop over the block in `SRC`. -/
def blockLoop (s : State) : Marlin := loopOf s.startBlock s.source

theorem blockLoop_go {w : EncWork} (done : blockLoop s = .go w) :
    ReadSoFar s (padOf s.srcLen) s.alignedPart w := by
  have recorded := (loopOf_read s.startBlock s.source).1 w done
  rw [s.source_length] at recorded
  exact ⟨recorded.icur, recorded.rcnt, recorded.few, recorded.table, recorded.place⟩

/-- A block that is not constant, past the checks. -/
theorem exec_encode_of_notConstant (can : s.canEncode) (varied : s.notConstant) :
    exec .encode s = .next (encodeBlock s.startBlock s.source) := by
  have notAll : allEqual s.source ≠ true := fun all => (allEqual_source_iff s).mp all varied
  rw [exec_encode_of_canEncode can, encodeFrame_of_not_allEqual notAll]

theorem exec_encode_of_short (can : s.canEncode) (varied : s.notConstant) (short : s.srcLen < 8) :
    ∃ t, exec .encode s = .next t ∧ t.storedRaw s := by
  have noAligned : alignedOf s.source.length = 0 := by rwa [s.source_length, alignedOf_eq_zero_iff]
  refine ⟨_, exec_encode_of_notConstant can varied, ?_⟩
  rw [encodeBlock_of_short noAligned]
  exact storedRaw_storeRaw _ s.rare can.2.2.2

theorem aligned_ne_zero (long : 8 ≤ s.srcLen) : alignedOf s.source.length ≠ 0 := by
  rw [s.source_length, Ne, alignedOf_eq_zero_iff, not_lt]
  exact long

theorem exec_encode_of_toRaw (can : s.canEncode) (varied : s.notConstant) (long : 8 ≤ s.srcLen) {w : EncWork}
    (gaveUp : blockLoop s = .toRaw w) : ∃ t, exec .encode s = .next t ∧ t.storedRaw s := by
  refine ⟨_, exec_encode_of_notConstant can varied, ?_⟩
  rw [encodeBlock_of_toRaw (aligned_ne_zero long) gaveUp]
  exact storedRaw_storeRaw _ _ can.2.2.2

/-- The scratch after the flush of the block in `SRC`. -/
def afterFlush (s : State) (w : EncWork) : EncWork := flushed s.startBlock s.source w

theorem exec_encode_of_not_shorter (can : s.canEncode) (varied : s.notConstant) (long : 8 ≤ s.srcLen) {w : EncWork}
    (done : blockLoop s = .go w) (large : s.srcLen ≤ (codedFrame s s.source (encFlush s w)).length) :
    ∃ t, exec .encode s = .next t ∧ t.storedRaw s := by
  refine ⟨_, exec_encode_of_notConstant can varied, ?_⟩
  rw [encodeBlock_of_go (aligned_ne_zero long) done,
    encodeCoded_of_not_shorter (s := s.startBlock) (by rw [s.source_length]; exact large.not_gt)]
  exact storedRaw_storeRaw _ _ can.2.2.2

theorem exec_encode_of_shorter (can : s.canEncode) (varied : s.notConstant) (long : 8 ≤ s.srcLen) {w : EncWork}
    (done : blockLoop s = .go w) (shorter : (codedFrame s s.source (encFlush s w)).length < s.srcLen) :
    exec .encode s = .next (endEncode (blockState s (afterFlush s w).regs (afterFlush s w).rare)
      (codedFrame s s.source (encFlush s w)) .coded false (encFlush s w).regs.rcnt) := by
  rw [exec_encode_of_notConstant can varied, encodeBlock_of_go (aligned_ne_zero long) done,
    encodeCoded_of_shorter (s := s.startBlock) (by rw [s.source_length]; exact shorter)]
  rfl

/-- The loop gives up before its first byte if the budget is below `ABORT_MARGIN` then. -/
theorem loopOf_of_abort {b : List Byte} (long : alignedOf b.length ≠ 0)
    (stop : Aborts s (encBudget b.length s.hS) (encStart s)) : loopOf s b = .toRaw (encStart s) := by
  have parts := pad_add_aligned b.length
  have nonempty : b.drop (padOf b.length) ≠ [] := by
    apply List.ne_nil_of_length_pos
    rw [List.length_drop]
    omega
  obtain ⟨x, xs, split⟩ := List.exists_cons_of_ne_nil nonempty
  rw [loopOf, split, encLoop, encStep_eq_toRaw_iff.mpr ⟨rfl, .inl stop⟩]

end StoredRaw

/-- Settles O45: without an aligned part there is no loop; with a small budget it gives up before its first byte; with
more than 255 rare bytes it cannot go through them all. -/
theorem encodeStoresRaw : Obligations.EncodeStoresRaw := by
  unfold Obligations.EncodeStoresRaw
  intro s can varied why
  by_cases short : s.srcLen < 8
  · exact exec_encode_of_short can varied short
  rw [not_lt] at short
  rcases why with short' | ⟨-, margin⟩ | many
  · exact absurd short' short.not_gt
  · refine exec_encode_of_toRaw can varied short (loopOf_of_abort (s := s.startBlock) (aligned_ne_zero short) ?_)
    rw [s.source_length]
    change (encBudget s.srcLen s.hS : Int) - (0 : Nat) < s.cfg.abortMargin
    rw [Nat.cast_zero, sub_zero, Nat.cast_lt]
    exact margin
  · cases loop : blockLoop s with
    | toRaw w => exact exec_encode_of_toRaw can varied short loop
    | go w =>
      have recorded := blockLoop_go loop
      rw [rares_eq, ← recorded.rcnt] at many
      exact absurd recorded.few many.not_ge

/-! ### The frames told apart (R213, R216) -/

/-- The flush leaves at least one byte of a stream of codewords that are not empty. -/
theorem stream_encFlush_ne_nil {s : State} (hk : 1 ≤ s.hK) (w : EncWork) : 0 < (encFlush s w).stream.length := by
  have drained := emit_stream_length s.hK (codeOf s.hK w.regs.j) w
  have left := emit_nbits s.hK (codeOf s.hK w.regs.j) w
  rw [encFlush, closeStream]
  simp only [List.length_append, fillBytes]
  split
  · next none_ => omega
  · simp

theorem length_codedFrame_pos {s : State} (hk : 1 ≤ s.hK) (b : List Byte) (w : EncWork) :
    2 ≤ (codedFrame s b (encFlush s w)).length := by
  have stream := stream_encFlush_ne_nil hk w
  simp only [codedFrame, List.length_append, List.length_singleton]
  omega

/-- What `ENCODE` leaves, told apart by `KIND` (R216, R213). -/
abbrev LeavesFrame (s t : State) : Prop :=
  t.encodedFrom s ∧ t.result ≤ s.srcLen ∧ t.status.report = none ∧ t.status.hvalid = true
    ∧ (s.handle.start < 2 ^ (s.hK + s.hO) → t.enc.j < 2 ^ (s.hK + s.hO))
    ∧ ((t.status.kind = .empty ∧ t.status.word = 0x0000002A#32 ∧ t.status.rawfb = false ∧ t.lastRare = 0
          ∧ s.srcLen = 0 ∧ t.result = 0)
      ∨ (t.status.kind = .constant ∧ t.status.word = 0x0000004A#32 ∧ t.status.rawfb = false ∧ t.lastRare = 0
          ∧ 1 ≤ s.srcLen ∧ t.result = 1 ∧ t.dstAt 0 = s.srcAt 0)
      ∨ (t.status.kind = .raw ∧ t.status.word = 0x0000007A#32 ∧ t.status.rawfb = true ∧ t.lastRare = 0
          ∧ 2 ≤ s.srcLen ∧ t.result = s.srcLen ∧ t.readDst 0 s.srcLen = s.source)
      ∨ (t.status.kind = .coded ∧ t.status.word = 0x0000008A#32 ∧ t.status.rawfb = false
          ∧ t.lastRare.toNat = s.rares.length ∧ 2 ≤ t.result ∧ t.result + 1 ≤ s.srcLen))

section LeavesFrame

variable {s : State}

theorem word_of_status {t : State} {kind : FrameKind} {raw : Bool} (handle : s.status.hvalid = true)
    (status : t.status = Status.success s.status.hvalid kind raw) :
    t.status.word = (Status.success true kind raw).word := by
  rw [status, handle]

theorem leavesFrame_empty (can : s.canEncode) (empty : s.source = []) :
    LeavesFrame s (endEncode s.startBlock [] .empty false 0) := by
  have none_ : s.srcLen = 0 := by rw [← s.source_length, empty, List.length_nil]
  exact ⟨encodedFrom_endEncode s _ s.rare _ _ _ (Nat.zero_le _), Nat.zero_le _, rfl, can.1, fun start => start,
    .inl ⟨rfl, (word_of_status (kind := .empty) (raw := false) can.1 rfl).trans rfl, rfl, rfl, none_, rfl⟩⟩

theorem leavesFrame_constant (can : s.canEncode) (long : 0 < s.srcLen) :
    LeavesFrame s (endEncode s.startBlock [s.source.getD 0 0] .constant false 0) :=
  ⟨encodedFrom_endEncode s _ s.rare _ _ _ (long.trans_le can.2.2.2), long, rfl, can.1, fun start => start,
    .inr (.inl ⟨rfl, (word_of_status (kind := .constant) (raw := false) can.1 rfl).trans rfl, rfl, rfl, long, rfl,
      (dstAt_endEncode_inside _ [_] _ _ _ 0 Nat.zero_lt_one).trans (getD_source long)⟩)⟩

theorem leavesFrame_raw (can : s.canEncode) (varied : allEqual s.source ≠ true) {enc : EncRegs}
    (rare : Memory RareEntry) (place : s.handle.start < s.flag → enc.j < s.flag) :
    LeavesFrame s (storeRaw (blockState s enc rare) s.source) := by
  have two := two_le_of_notConstant (not_not.mp fun constant => varied ((allEqual_source_iff s).mpr constant))
  obtain ⟨status, result, lastRare, block, same⟩ := storedRaw_storeRaw (s := s) enc rare can.2.2.2
  exact ⟨same, result.le, rfl, can.1, place,
    .inr (.inr (.inl ⟨rfl, (word_of_status can.1 status).trans rfl, rfl, lastRare, two, result, block⟩))⟩

theorem leavesFrame_coded (can : s.canEncode) (hk : 1 ≤ s.hK) {w : EncWork} (done : blockLoop s = .go w)
    (shorter : (codedFrame s s.source (encFlush s w)).length < s.srcLen) :
    LeavesFrame s (endEncode (blockState s (afterFlush s w).regs (afterFlush s w).rare)
      (codedFrame s s.source (encFlush s w)) .coded false (encFlush s w).regs.rcnt) := by
  have recorded := blockLoop_go done
  have few := recorded.few
  refine ⟨encodedFrom_endEncode s _ _ _ _ _ (shorter.le.trans can.2.2.2), shorter.le, rfl, can.1, recorded.place,
    .inr (.inr (.inr ⟨rfl, (word_of_status (kind := .coded) (raw := false) can.1 rfl).trans rfl, rfl, ?_, length_codedFrame_pos hk _ w, shorter⟩))⟩
  change (BitVec.ofNat 8 w.regs.rcnt).toNat = _
  rw [rares_eq, ← recorded.rcnt, BitVec.toNat_ofNat, Nat.mod_eq_of_lt (by omega)]

end LeavesFrame

/-- Settles O46: each end of `ENCODE` has one of the four kinds, and `J` is a position from its start on. -/
theorem encodeFrames : Obligations.EncodeFrames := by
  unfold Obligations.EncodeFrames
  intro s can hk
  refine ⟨_, exec_encode_of_canEncode can, ?_⟩
  change LeavesFrame s _
  rcases encodeFrame_cases s.startBlock s.source with ⟨empty, e⟩ | ⟨nonempty, -, e⟩ | ⟨varied, -, e⟩
    | ⟨varied, -, w, loop, e⟩ | ⟨varied, -, w, loop, -, e⟩ | ⟨varied, -, w, loop, shorter, e⟩ <;> rw [e]
  · exact leavesFrame_empty can empty
  · exact leavesFrame_constant can (s.source_length ▸ List.length_pos_of_ne_nil nonempty)
  · exact leavesFrame_raw can varied s.rare fun start => start
  · obtain ⟨read, x, rest, -, recorded⟩ := (loopOf_read s.startBlock s.source).2 w loop
    exact leavesFrame_raw can varied _ recorded.place
  · exact leavesFrame_raw can varied _ (blockLoop_go (s := s) loop).place
  · rw [s.source_length] at shorter
    exact leavesFrame_coded can hk loop shorter

end Sys2Proof.Proofs
end

section
/-! The spelling of a block (43_encode.md R205, R217): the codewords the jump table gives for a sequence of Marlin
symbols, that no other sequence spells it with longest words, and how the encoder's loop follows it. -/

namespace Sys2Proof.Proofs

open Sys2Proof Sys2Proof.Machine

/-! ### The well-formed handle by its parts (42_build_tables.md R191) -/

/-- `WF(h)` with its conditions named. -/
structure HandleFacts (s : State) : Prop where
  low : 4 ≤ s.hK
  kMax : s.hK ≤ s.inst.kMax
  overlap : s.hO < s.hK
  koMax : s.hK + s.hO ≤ s.inst.koMax
  shift : s.hS ≤ 7
  two : 2 ≤ s.hA
  most : s.hA ≤ min 256 (2 ^ s.hK - 1)
  mws : s.hMws ∈ mwsSupported
  alpha : AlphaOk s.alphaList s.hS
  s2m : S2mOk s.alphaList s.hS s.s2mAt
  dict : DictWf s.hK s.hO s.hA s.hMws s.dictList
  jump : JumpOk s.hK s.hO s.hA s.dictList (fun i m => s.jumpAt (i * (s.hA + 1) + m))
  dec : ∀ i < 2 ^ (s.hK + s.hO), s.decAt i = decRecord s.alphaList s.hMws (s.dictAt i)
  start : IsPos s.hK s.dictList 0 [0] s.handle.start

theorem handleFacts {s : State} (wf : s.HandleWf) : HandleFacts s := by
  obtain ⟨low, kMax, overlap, koMax, shift, two, most, mws, alpha, s2m, dict, jump, dec, start⟩ := wf
  exact ⟨low, kMax, overlap, koMax, shift, two, most, mws, alpha, s2m, dict, jump, dec, start⟩

/-- The word at a position of the dictionary in `DICT`. -/
def wordOf (s : State) (i : Nat) : List Nat := (s.dictAt i).syms

section Positions

variable {s : State}

theorem length_dictList (s : State) : s.dictList.length = s.flag := by
  rw [State.dictList, List.length_map, List.length_range, State.flag]

theorem symsAt_dictList {i : Nat} (hi : i < s.flag) : symsAt s.dictList i = wordOf s i := by
  have inside : i < s.dictList.length := by rwa [length_dictList]
  rw [symsAt, recordAt_eq_getElem inside, wordOf]
  simp [State.dictList]

theorem isPos_dictList_iff {c : Nat} {w : List Nat} {i : Nat} :
    IsPos s.hK s.dictList c w i ↔ i < s.flag ∧ i / 2 ^ s.hK = c ∧ wordOf s i = w := by
  rw [IsPos, length_dictList]
  exact and_congr_right fun hi => by rw [symsAt_dictList hi]

theorem flag_eq (s : State) : s.flag = 2 ^ s.hO * 2 ^ s.hK := by
  rw [State.flag, Nat.add_comm, Nat.pow_add]

theorem position_lt {c cw : Nat} (hcw : cw < 2 ^ s.hK) : c % 2 ^ s.hO * 2 ^ s.hK + cw < s.flag := by
  have chapter : c % 2 ^ s.hO < 2 ^ s.hO := Nat.mod_lt _ (Nat.two_pow_pos _)
  rw [flag_eq]
  calc c % 2 ^ s.hO * 2 ^ s.hK + cw < c % 2 ^ s.hO * 2 ^ s.hK + 2 ^ s.hK := Nat.add_lt_add_left hcw _
    _ = (c % 2 ^ s.hO + 1) * 2 ^ s.hK := (Nat.succ_mul _ _).symm
    _ ≤ 2 ^ s.hO * 2 ^ s.hK := Nat.mul_le_mul_right _ chapter

theorem position_div {k c cw : Nat} (hcw : cw < 2 ^ k) : (c * 2 ^ k + cw) / 2 ^ k = c := by
  rw [Nat.mul_comm, Nat.mul_add_div (Nat.two_pow_pos k), Nat.div_eq_of_lt hcw, Nat.add_zero]

theorem codeOf_lt (k i : Nat) : codeOf k i < 2 ^ k := Nat.mod_lt _ (Nat.two_pow_pos k)

variable (h : HandleFacts s)

include h

/-- R163 (d): what a word begins with is a word of its chapter. -/
theorem exists_position_of_prefix {q : Nat} (hq : q < s.flag) {u : List Nat} (begins : u <+: wordOf s q) :
    ∃ i < s.flag, i / 2 ^ s.hK = q / 2 ^ s.hK ∧ wordOf s i = u := by
  obtain ⟨rest, whole⟩ := begins
  induction rest using List.reverseRecOn generalizing q with
  | nil => exact ⟨q, hq, rfl, by rw [← whole, List.append_nil]⟩
  | append_singleton rest x ih =>
    have nonempty : wordOf s q ≠ [] := by rw [← whole]; simp
    obtain ⟨p, at_p⟩ := isPos_dropLast h.dict (isPos_dictList_iff.mpr ⟨hq, rfl, rfl⟩) nonempty
    obtain ⟨hp, chapter, word⟩ := isPos_dictList_iff.mp at_p
    rw [← chapter]
    exact ih hp (by rw [word, ← whole, ← List.append_assoc, List.dropLast_concat])

theorem position_eq_of_word {p q : Nat} (hp : p < s.flag) (hq : q < s.flag) (chapter : p / 2 ^ s.hK = q / 2 ^ s.hK)
    (word : wordOf s p = wordOf s q) : p = q :=
  isPos_unique h.dict (isPos_dictList_iff.mpr ⟨hp, chapter, word⟩) (isPos_dictList_iff.mpr ⟨hq, rfl, rfl⟩)

/-- R186 at a position whose word is not empty: the child, or the restart in the next chapter with the flag. -/
theorem jumpAt_cases {j m : Nat} (hj : j < s.flag) (nonempty : wordOf s j ≠ []) (hm : m < s.hA) :
    let e := s.jumpAt (j * (s.hA + 1) + m)
    (e < s.flag ∧ e / 2 ^ s.hK = j / 2 ^ s.hK ∧ wordOf s e = wordOf s j ++ [m])
      ∨ ((∀ q < s.flag, q / 2 ^ s.hK = j / 2 ^ s.hK → wordOf s q ≠ wordOf s j ++ [m])
        ∧ ∃ i < s.flag, i / 2 ^ s.hK = j % 2 ^ s.hO ∧ wordOf s i = [m] ∧ e = i + s.flag) := by
  have inside : j < s.dictList.length := by rwa [length_dictList]
  have entry := (h.jump j inside).1 m hm
  rw [JumpEntryOk, symsAt_dictList hj, length_dictList] at entry
  rcases entry with ⟨-, child⟩ | ⟨none_, i, hi, place, e⟩
  · exact .inl (isPos_dictList_iff.mp child)
  · refine .inr ⟨fun q hq chapter word => ?_, i, hi, (isPos_dictList_iff.mp place).2.1,
      (isPos_dictList_iff.mp place).2.2, e⟩
    exact (none_.resolve_left nonempty) q hq (isPos_dictList_iff.mpr ⟨hq, chapter, word⟩)

theorem wordOf_start : s.handle.start < s.flag ∧ s.handle.start / 2 ^ s.hK = 0 ∧ wordOf s s.handle.start = [0] :=
  isPos_dictList_iff.mp h.start

/-- R190: every Marlin symbol is below `A`. -/
theorem symbolOf_lt (x : Byte) : symbolOf s x < s.hA := by
  have two := h.two
  have group : x.toNat >>> s.hS < 256 := (Nat.shiftRight_le _ _).trans_lt x.isLt
  have length : s.alphaList.length = s.hA := by rw [State.alphaList, List.length_map, List.length_range]
  rw [symbolOf]
  split
  · omega
  · next common =>
    rcases h.s2m _ group with ⟨m, hm, -, entry⟩ | ⟨-, entry⟩
    · rw [entry, ← length]
      exact hm
    · rw [State.isRare, entry, length, beq_self_eq_true] at common
      exact absurd rfl common

end Positions

/-! ### Codewords as positions (R104, R217) -/

theorem positionsOf_append_singleton (k o prev : Nat) (cws : List Nat) (c : Nat) :
    positionsOf k o prev (cws ++ [c]) = positionsOf k o prev cws ++ [cws.getLastD prev % 2 ^ o * 2 ^ k + c] := by
  induction cws generalizing prev with
  | nil => rfl
  | cons x cws ih => rw [List.cons_append, positionsOf, ih, positionsOf, List.getLastD_cons, List.cons_append]

theorem wordsOf_eq (s : State) (cws : List Nat) :
    s.wordsOf cws = (positionsOf s.hK s.hO 0 cws).flatMap (wordOf s) := rfl

/-- A word is the longest its chapter has before the next one: it is not followed there by the next one's first
symbol. -/
def Longest (s : State) (p next : Nat) : Prop :=
  ∀ q < s.flag, q / 2 ^ s.hK = p / 2 ^ s.hK → wordOf s q ≠ wordOf s p ++ (wordOf s next).take 1

theorem isChain_iff_zip_tail {α : Type} {R : α → α → Prop} (l : List α) :
    l.IsChain R ↔ ∀ e ∈ l.zip l.tail, R e.1 e.2 := by
  induction l with
  | nil => simp
  | cons a l ih =>
    cases l with
    | nil => simp
    | cons b l =>
      rw [List.isChain_cons_cons, ih]
      simp

theorem greedy_iff (s : State) (cws : List Nat) :
    s.greedy cws ↔ (positionsOf s.hK s.hO 0 cws).IsChain (Longest s) := by
  rw [isChain_iff_zip_tail]
  rfl

/-! ### A sequence has one spelling with longest words -/

section Unique

variable {s : State}

theorem eq_nil_of_no_symbols {prev : Nat} (cws : List Nat)
    (nonempty : ∀ i ∈ positionsOf s.hK s.hO prev cws, wordOf s i ≠ [])
    (none_ : (positionsOf s.hK s.hO prev cws).flatMap (wordOf s) = []) : cws = [] := by
  cases cws with
  | nil => rfl
  | cons c cws =>
    exact absurd (List.flatMap_eq_nil_iff.mp none_ _ (List.mem_cons_self ..)) (nonempty _ (List.mem_cons_self ..))

variable (h : HandleFacts s)

include h

/-- A word that is the longest its chapter has before the next one is not shorter than another word of the chapter with
which the same symbols begin. -/
theorem not_shorter {p q : Nat} {rest : List Nat} {left : List Nat} (hq : q < s.flag)
    (chapter : p / 2 ^ s.hK = q / 2 ^ s.hK) (longest : (p :: rest).IsChain (Longest s))
    (nonempty : ∀ i ∈ rest, wordOf s i ≠ [])
    (same : wordOf s p ++ rest.flatMap (wordOf s) = wordOf s q ++ left) :
    (wordOf s q).length ≤ (wordOf s p).length := by
  by_contra longer
  rw [not_le] at longer
  cases rest with
  | nil =>
    have lengths := congrArg List.length same
    simp only [List.flatMap_nil, List.append_nil, List.length_append] at lengths
    omega
  | cons r rest =>
    obtain ⟨m, word, first⟩ := List.exists_cons_of_ne_nil (nonempty r (List.mem_cons_self ..))
    have begins : wordOf s p ++ [m] <+: wordOf s q := by
      refine List.prefix_of_prefix_length_le (l₃ := wordOf s q ++ left) ?_ (List.prefix_append _ _) ?_
      · rw [← same, List.flatMap_cons, first]
        exact ⟨word ++ rest.flatMap (wordOf s), by simp⟩
      · rw [List.length_append, List.length_singleton]
        exact longer
    obtain ⟨i, hi, sameChapter, child⟩ := exists_position_of_prefix h hq begins
    refine (List.isChain_cons_cons.mp longest).1 i hi (sameChapter.trans chapter.symm) ?_
    rw [child, first]
    rfl

theorem spelling_unique (xs ys : List Nat) (prev : Nat)
    (fitsX : ∀ c ∈ xs, c < 2 ^ s.hK) (fitsY : ∀ c ∈ ys, c < 2 ^ s.hK)
    (nonemptyX : ∀ i ∈ positionsOf s.hK s.hO prev xs, wordOf s i ≠ [])
    (nonemptyY : ∀ i ∈ positionsOf s.hK s.hO prev ys, wordOf s i ≠ [])
    (longestX : (positionsOf s.hK s.hO prev xs).IsChain (Longest s))
    (longestY : (positionsOf s.hK s.hO prev ys).IsChain (Longest s))
    (same : (positionsOf s.hK s.hO prev xs).flatMap (wordOf s) = (positionsOf s.hK s.hO prev ys).flatMap (wordOf s)) :
    xs = ys := by
  induction xs generalizing ys prev with
  | nil => exact (eq_nil_of_no_symbols ys nonemptyY same.symm).symm
  | cons x xs ih =>
    cases ys with
    | nil => exact eq_nil_of_no_symbols (x :: xs) nonemptyX same
    | cons y ys =>
      obtain ⟨hx, laterX⟩ := List.forall_mem_cons.mp fitsX
      obtain ⟨hy, laterY⟩ := List.forall_mem_cons.mp fitsY
      simp only [positionsOf, List.flatMap_cons] at nonemptyX nonemptyY longestX longestY same
      obtain ⟨-, nonemptyX⟩ := List.forall_mem_cons.mp nonemptyX
      obtain ⟨-, nonemptyY⟩ := List.forall_mem_cons.mp nonemptyY
      have px := position_lt (s := s) (c := prev) hx
      have py := position_lt (s := s) (c := prev) hy
      have chapter : (prev % 2 ^ s.hO * 2 ^ s.hK + x) / 2 ^ s.hK = (prev % 2 ^ s.hO * 2 ^ s.hK + y) / 2 ^ s.hK := by
        rw [position_div hx, position_div hy]
      have lengths := le_antisymm (not_shorter h px chapter.symm longestY nonemptyY same.symm)
        (not_shorter h py chapter longestX nonemptyX same)
      obtain ⟨word, rest⟩ := List.append_inj same lengths
      have code := Nat.add_left_cancel (position_eq_of_word h px py chapter word)
      subst code
      rw [ih ys x laterX laterY nonemptyX nonemptyY longestX.tail longestY.tail rest]

end Unique

/-! ### The spelling the jump table gives -/

/-- One transition on a Marlin symbol: the codewords emitted so far, and the position (R205, R206). -/
def advance (s : State) (p : List Nat × Nat) (m : Nat) : List Nat × Nat :=
  let e := s.jumpAt (p.2 * (s.hA + 1) + m)
  (if s.flag ≤ e then p.1 ++ [codeOf s.hK p.2] else p.1, e % s.flag)

/-- The codewords emitted for a sequence of symbols, and the position after it. -/
def emittedFor (s : State) (syms : List Nat) : List Nat × Nat := syms.foldl (advance s) ([], s.handle.start)

/-- The spelling of a sequence: the last word's codeword is emitted at the end (R209). -/
def spellingOf (s : State) (syms : List Nat) : List Nat :=
  (emittedFor s syms).1 ++ [codeOf s.hK (emittedFor s syms).2]

theorem emittedFor_append_singleton (s : State) (syms : List Nat) (m : Nat) :
    emittedFor s (syms ++ [m]) = advance s (emittedFor s syms) m := by
  rw [emittedFor, List.foldl_append]
  rfl

/-- The codewords emitted and the word at the position spell the implicit symbol 0 and the symbols read. -/
structure Spelled (s : State) (syms done : List Nat) (j : Nat) : Prop where
  codes : ∀ c ∈ done, c < 2 ^ s.hK
  inside : j < s.flag
  chapter : j / 2 ^ s.hK = done.getLastD 0 % 2 ^ s.hO
  nonempty : ∀ i ∈ positionsOf s.hK s.hO 0 done ++ [j], wordOf s i ≠ []
  words : s.wordsOf done ++ wordOf s j = 0 :: syms
  longest : (positionsOf s.hK s.hO 0 done ++ [j]).IsChain (Longest s)

section Spelled

variable {s : State} {syms done : List Nat} {j m : Nat}

/-- The position is the one of its codeword behind the codewords emitted. -/
theorem Spelled.positions (sp : Spelled s syms done j) :
    positionsOf s.hK s.hO 0 (done ++ [codeOf s.hK j]) = positionsOf s.hK s.hO 0 done ++ [j] := by
  rw [positionsOf_append_singleton, ← sp.chapter, codeOf, Nat.div_add_mod']

theorem Spelled.wordsOf_next (sp : Spelled s syms done j) : s.wordsOf (done ++ [codeOf s.hK j]) = 0 :: syms := by
  rw [wordsOf_eq, sp.positions, List.flatMap_append, List.flatMap_singleton, ← wordsOf_eq, sp.words]

theorem Spelled.word_ne_nil (sp : Spelled s syms done j) : wordOf s j ≠ [] :=
  sp.nonempty j (List.mem_append_right _ (List.mem_singleton_self j))

theorem Spelled.length_wordsOf_le (sp : Spelled s syms done j) : (s.wordsOf done).length ≤ syms.length := by
  have lengths := congrArg List.length sp.words
  have some_ := List.length_pos_of_ne_nil sp.word_ne_nil
  rw [List.length_append, List.length_cons] at lengths
  omega

theorem Spelled.spells (sp : Spelled s s.symbols done j) : s.spells (done ++ [codeOf s.hK j]) := by
  refine ⟨fun c hc => ?_, ?_, sp.wordsOf_next, ?_⟩
  · rcases List.mem_append.mp hc with emitted | last
    · exact sp.codes c emitted
    · rw [List.mem_singleton.mp last]
      exact codeOf_lt _ _
  · rw [sp.positions]
    exact sp.nonempty
  · rw [greedy_iff, sp.positions]
    exact sp.longest

theorem longest_congr {p next next' : Nat} (first : (wordOf s next').take 1 = (wordOf s next).take 1)
    (longest : Longest s p next) : Longest s p next' := by
  intro q hq chapter
  rw [first]
  exact longest q hq chapter

variable (h : HandleFacts s)

include h

/-- Without the flag the word grows by the symbol. -/
theorem Spelled.grow (sp : Spelled s syms done j) {e : Nat} (he : e < s.flag)
    (chapter : e / 2 ^ s.hK = j / 2 ^ s.hK) (word : wordOf s e = wordOf s j ++ [m]) :
    Spelled s (syms ++ [m]) done e := by
  have first : (wordOf s e).take 1 = (wordOf s j).take 1 := by
    rw [word, List.take_append_of_le_length (List.length_pos_of_ne_nil sp.word_ne_nil)]
  obtain ⟨before, -, last⟩ := List.isChain_append.mp sp.longest
  refine ⟨sp.codes, he, chapter.trans sp.chapter, fun i hi => ?_, ?_, ?_⟩
  · rcases List.mem_append.mp hi with emitted | here
    · exact sp.nonempty i (List.mem_append_left _ emitted)
    · rw [List.mem_singleton.mp here, word]
      simp
  · rw [word, ← List.append_assoc, sp.words, List.cons_append]
  · refine List.isChain_append.mpr ⟨before, List.isChain_singleton e, fun p hp next hn => ?_⟩
    cases hn
    exact longest_congr first (last p hp j rfl)

/-- With the flag the codeword is emitted, and the next word is the symbol alone. -/
theorem Spelled.restart (sp : Spelled s syms done j) {i : Nat} (hi : i < s.flag)
    (none_ : ∀ q < s.flag, q / 2 ^ s.hK = j / 2 ^ s.hK → wordOf s q ≠ wordOf s j ++ [m])
    (chapter : i / 2 ^ s.hK = j % 2 ^ s.hO) (word : wordOf s i = [m]) :
    Spelled s (syms ++ [m]) (done ++ [codeOf s.hK j]) i := by
  refine ⟨fun c hc => ?_, hi, ?_, ?_, ?_, ?_⟩
  · rcases List.mem_append.mp hc with emitted | last
    · exact sp.codes c emitted
    · rw [List.mem_singleton.mp last]
      exact codeOf_lt _ _
  · rw [List.getLastD_concat, chapter, codeOf, Nat.mod_mod_of_dvd _ (Nat.pow_dvd_pow 2 h.overlap.le)]
  · rw [sp.positions]
    intro p hp
    rcases List.mem_append.mp hp with emitted | here
    · exact sp.nonempty p emitted
    · rw [List.mem_singleton.mp here, word]
      simp
  · rw [sp.wordsOf_next, word, List.cons_append]
  · rw [sp.positions]
    refine List.isChain_append.mpr ⟨sp.longest, List.isChain_singleton i, fun p hp next hn => ?_⟩
    cases hn
    rw [List.getLast?_concat] at hp
    cases hp
    intro q hq same
    rw [word]
    exact none_ q hq same

theorem Spelled.advance (sp : Spelled s syms done j) (hm : m < s.hA) :
    Spelled s (syms ++ [m]) (advance s (done, j) m).1 (advance s (done, j) m).2 := by
  rw [Proofs.advance]
  rcases jumpAt_cases h sp.inside sp.word_ne_nil hm with ⟨he, chapter, word⟩ | ⟨none_, i, hi, chapter, word, e⟩
  · simp only [he.not_ge, if_false, Nat.mod_eq_of_lt he]
    exact sp.grow h he chapter word
  · simp only [e, Nat.le_add_left, if_true, Nat.add_mod_right, Nat.mod_eq_of_lt hi]
    exact sp.restart h hi none_ chapter word

theorem spelled_start : Spelled s [] [] s.handle.start := by
  obtain ⟨inside, chapter, word⟩ := wordOf_start h
  refine ⟨by simp, inside, chapter, fun i hi => ?_, word, List.isChain_singleton _⟩
  rw [List.mem_singleton.mp hi, word]
  simp

/-- What the transitions have emitted spells what was read. -/
theorem spelled_emittedFor (syms : List Nat) (below : ∀ m ∈ syms, m < s.hA) :
    Spelled s syms (emittedFor s syms).1 (emittedFor s syms).2 := by
  induction syms using List.reverseRecOn with
  | nil => exact spelled_start h
  | append_singleton syms m ih =>
    rw [emittedFor_append_singleton]
    exact (ih fun x hx => below x (List.mem_append_left _ hx)).advance h
      (below m (List.mem_append_right _ (List.mem_singleton_self m)))

theorem symbols_lt : ∀ m ∈ s.symbols, m < s.hA := by
  intro m hm
  obtain ⟨x, -, rfl⟩ := List.mem_map.mp hm
  exact symbolOf_lt h x

theorem spells_spellingOf : s.spells (spellingOf s s.symbols) := (spelled_emittedFor h _ (symbols_lt h)).spells

theorem spells_unique {cws other : List Nat} (first : s.spells cws) (second : s.spells other) : other = cws := by
  obtain ⟨fits, nonempty, words, greedy⟩ := first
  obtain ⟨fits', nonempty', words', greedy'⟩ := second
  exact spelling_unique h other cws 0 fits' fits nonempty' nonempty ((greedy_iff s other).mp greedy')
    ((greedy_iff s cws).mp greedy) (words'.trans words.symm)

end Spelled

/-! ### The codewords emitted before a byte is read (R205) -/

section EmittedBefore

variable {s : State} {done : List Nat}

theorem emittedBefore_append_singleton (s : State) (done : List Nat) (c t : Nat) :
    s.emittedBefore (done ++ [c]) t
      = s.emittedBefore done t + if (s.wordsOf (done ++ [c])).length ≤ t then 1 else 0 := by
  have whole : (done ++ [c]).take (done.length + 1) = done ++ [c] := List.take_of_length_le (by simp)
  rw [State.emittedBefore, List.length_append, List.length_singleton, List.range_succ, List.filter_append,
    List.length_append]
  congr 1
  · rw [State.emittedBefore]
    congr 1
    refine List.filter_congr fun n hn => ?_
    have inside := List.mem_range.mp hn
    rw [List.take_append_of_le_length (by omega)]
  · by_cases early : (s.wordsOf (done ++ [c])).length ≤ t <;> simp [whole, early]

theorem emittedBefore_eq_length (done : List Nat) {t : Nat} (all : (s.wordsOf done).length ≤ t) :
    s.emittedBefore done t = done.length := by
  induction done using List.reverseRecOn with
  | nil => rfl
  | append_singleton done c ih =>
    rw [emittedBefore_append_singleton, if_pos all, List.length_append, List.length_singleton, ih]
    rw [wordsOf_eq, positionsOf_append_singleton, List.flatMap_append, List.length_append, ← wordsOf_eq] at all
    omega

variable (h : HandleFacts s)

include h

/-- The last word is emitted after every byte. -/
theorem emittedBefore_spellingOf_eq (syms : List Nat) (below : ∀ m ∈ syms, m < s.hA) {t : Nat} (ht : t ≤ syms.length) :
    s.emittedBefore (spellingOf s syms) t = s.emittedBefore (emittedFor s syms).1 t := by
  rw [spellingOf, emittedBefore_append_singleton, (spelled_emittedFor h syms below).wordsOf_next,
    if_neg (by rw [List.length_cons]; omega), Nat.add_zero]

/-- What the transitions have emitted for some symbols is what a longer spelling has emitted before the next one. -/
theorem emittedBefore_emittedFor (read more : List Nat) (below : ∀ m ∈ read ++ more, m < s.hA) :
    s.emittedBefore (emittedFor s (read ++ more)).1 read.length = (emittedFor s read).1.length := by
  induction more using List.reverseRecOn with
  | nil =>
    rw [List.append_nil] at below ⊢
    exact emittedBefore_eq_length _ (spelled_emittedFor h read below).length_wordsOf_le
  | append_singleton more m ih =>
    rw [← List.append_assoc] at below ⊢
    have before := spelled_emittedFor h (read ++ more) fun x hx => below x (List.mem_append_left _ hx)
    rw [emittedFor_append_singleton, advance, ← ih fun x hx => below x (List.mem_append_left _ hx)]
    dsimp only
    split
    · rw [emittedBefore_append_singleton, before.wordsOf_next, if_neg (by simp), Nat.add_zero]
    · rfl

theorem emittedBefore_spellingOf (read more : List Nat) (below : ∀ m ∈ read ++ more, m < s.hA) :
    s.emittedBefore (spellingOf s (read ++ more)) read.length = (emittedFor s read).1.length := by
  rw [emittedBefore_spellingOf_eq h _ below (by simp), emittedBefore_emittedFor h read more below]

end EmittedBefore

end Sys2Proof.Proofs
end

section
/-! `ENCODE` with a well-formed handle: the loop follows the spelling of the block, so its frame and the choice between
coded and raw are those of the spelling (43_encode.md R205, R208, R212, R214). -/

namespace Sys2Proof.Proofs

open Sys2Proof Sys2Proof.Machine

/-! ### The loop follows the spelling -/

/-- The position and the bits emitted are those of the transitions on the symbols read. -/
structure Follows (s : State) (p : List Nat × Nat) (w : EncWork) : Prop where
  place : w.regs.j = p.2
  emitted : Emitted s.hK p.1 w

section Follows

variable {s : State} {p : List Nat × Nat} {w : EncWork} {m : Nat}

theorem encTransition_of_flag (flag : s.flag ≤ s.jumpAt (w.regs.j * (s.hA + 1) + m)) :
    encTransition s m w = { emit s.hK (codeOf s.hK w.regs.j) w with
      regs := { (emit s.hK (codeOf s.hK w.regs.j) w).regs with
        j := s.jumpAt (w.regs.j * (s.hA + 1) + m) % s.flag, icur := w.regs.icur + 1 } } := by
  rw [encTransition, if_pos flag]

theorem encTransition_of_no_flag (noFlag : ¬ s.flag ≤ s.jumpAt (w.regs.j * (s.hA + 1) + m)) :
    encTransition s m w = { w with
      regs := { w.regs with j := s.jumpAt (w.regs.j * (s.hA + 1) + m) % s.flag, icur := w.regs.icur + 1 } } := by
  rw [encTransition, if_neg noFlag]

theorem Follows.transition (wide : s.hK ≤ 25) (f : Follows s p w) (m : Nat) :
    Follows s (advance s p m) (encTransition s m w) := by
  obtain ⟨done, j⟩ := p
  obtain ⟨place, emitted⟩ := f
  dsimp only at place emitted
  refine ⟨by rw [encTransition_j, place]; rfl, ?_⟩
  rw [advance]
  dsimp only
  rw [← place]
  by_cases flag : s.flag ≤ s.jumpAt (w.regs.j * (s.hA + 1) + m)
  · rw [encTransition_of_flag flag, if_pos flag]
    exact (emitted_emit wide (codeOf_lt s.hK w.regs.j) emitted).congr rfl rfl rfl rfl
  · rw [encTransition_of_no_flag flag, if_neg flag]
    exact emitted.congr rfl rfl rfl rfl

theorem Follows.read (wide : s.hK ≤ 25) (f : Follows s p w) (pad : Nat) (x : Byte) :
    Follows s (advance s p (symbolOf s x)) (readByte s pad x w) := by
  rw [readByte]
  split
  · exact Follows.transition (w := recordRare pad x w) wide ⟨f.place, f.emitted.congr rfl rfl rfl rfl⟩ _
  · exact f.transition wide _

theorem follows_start (s : State) : Follows s (emittedFor s []) (encStart s) := ⟨rfl, emitted_nil rfl rfl rfl rfl⟩

/-- The flush emits the unfinished word's codeword and closes the stream of the spelling. -/
theorem Follows.stream (wide : s.hK ≤ 25) {syms : List Nat} (f : Follows s (emittedFor s syms) w) :
    (encFlush s w).stream = streamOf s.hK (spellingOf s syms) := by
  rw [encFlush, spellingOf, f.place]
  exact closeStream_stream (emitted_emit wide (codeOf_lt s.hK _) f.emitted)

end Follows

/-- What holds of the loop after it has read some bytes: they are recorded and followed, and before none of them the
budget left was below `ABORT_MARGIN`. -/
structure Reading (s : State) (budget : Nat) (read : List Byte) (w : EncWork) : Prop where
  recorded : ReadSoFar s (padOf s.srcLen) read w
  follows : Follows s (emittedFor s (read.map (symbolOf s))) w
  proceeds : ∀ t < read.length,
    ¬ (budget : Int) - ((emittedFor s ((read.take t).map (symbolOf s))).1.length * s.hK / 8 : Nat) < s.cfg.abortMargin

section Reading

variable {s : State}

theorem symbols_eq (s : State) : s.symbols = s.alignedPart.map (symbolOf s) := rfl

theorem reading_next (wide : s.hK ≤ 25) {budget : Nat} (read : List Byte) (x : Byte) (w : EncWork)
    (r : Reading s budget read w) (goesOn : ¬ Aborts s budget w) (notFull : s.isRare x = true → w.regs.rcnt ≠ 255) :
    Reading s budget (read ++ [x]) (readByte s (padOf s.srcLen) x w) := by
  refine ⟨readSoFar_readByte r.recorded notFull, ?_, fun t ht => ?_⟩
  · rw [List.map_append, List.map_singleton, emittedFor_append_singleton]
    exact r.follows.read wide _ x
  · rw [List.length_append, List.length_singleton] at ht
    rcases Nat.lt_or_eq_of_le (Nat.le_of_lt_succ ht) with earlier | rfl
    · rw [List.take_append_of_le_length earlier.le]
      exact r.proceeds t earlier
    · rw [List.take_left', ← emitted_ocur r.follows.emitted]
      · exact goesOn
      · rfl

/-- Where the loop over the block in `SRC` ends, and why it gives up. -/
theorem blockLoop_reading (wide : s.hK ≤ 25) :
    (∀ w, blockLoop s = .go w → Reading s (encBudget s.srcLen s.hS) s.alignedPart w)
      ∧ ∀ w, blockLoop s = .toRaw w → ∃ read x rest, s.alignedPart = read ++ x :: rest
          ∧ Reading s (encBudget s.srcLen s.hS) read w
          ∧ (Aborts s (encBudget s.srcLen s.hS) w ∨ (s.isRare x = true ∧ w.regs.rcnt = 255)) := by
  have all := encLoop_induct (s := s.startBlock) (pad := padOf s.srcLen) (budget := encBudget s.srcLen s.hS)
    (Reading s (encBudget s.srcLen s.hS)) (reading_next wide) s.alignedPart [] (encStart s.startBlock)
    ⟨readSoFar_start s _, follows_start s, by simp⟩
  rw [List.nil_append] at all
  have loop : blockLoop s = encLoop s.startBlock (padOf s.srcLen) (encBudget s.srcLen s.hS) s.alignedPart
      (encStart s.startBlock) := by
    rw [blockLoop, loopOf, s.source_length]
    rfl
  rw [loop]
  exact all

theorem length_alignedPart (s : State) : s.alignedPart.length = alignedOf s.srcLen := by
  rw [State.alignedPart, List.length_drop, s.source_length, alignedOf]

theorem length_symbols (s : State) : s.symbols.length = alignedOf s.srcLen := by
  rw [symbols_eq, List.length_map, length_alignedPart]

/-- R208: the budget is not negative where there is an aligned part. -/
theorem encBudget_eq {n sh : Nat} (long : 8 ≤ n) (hs : sh ≤ 7) :
    (encBudget n sh : Int) = (alignedOf n : Int) - 1 - planeLen n sh := by
  obtain ⟨q, hq⟩ := alignedOf_dvd n
  have some_ : alignedOf n ≠ 0 := by rw [Ne, alignedOf_eq_zero_iff]; omega
  have plane : planeLen n sh ≤ q * 7 := by
    rw [planeLen_eq, hq, Nat.mul_div_cancel_left q (by decide)]
    exact Nat.mul_le_mul_left q hs
  have budget : encBudget n sh = alignedOf n - 1 - planeLen n sh := rfl
  omega

variable (h : HandleFacts s)

include h

theorem emittedBefore_spelling {t : Nat} (ht : t < alignedOf s.srcLen) :
    s.emittedBefore (spellingOf s s.symbols) t
      = (emittedFor s ((s.alignedPart.take t).map (symbolOf s))).1.length := by
  have inside : (s.symbols.take t).length = t := by
    rw [List.length_take, length_symbols]
    omega
  have before := emittedBefore_spellingOf h (s.symbols.take t) (s.symbols.drop t)
    (by rw [List.take_append_drop]; exact symbols_lt h)
  rw [List.take_append_drop, inside] at before
  rw [before, symbols_eq, List.map_take]

/-- R205, R208: the early abort of the spelling, by the codewords its transitions have emitted. -/
theorem aborts_iff (long : 8 ≤ s.srcLen) : s.aborts (spellingOf s s.symbols) ↔ ∃ t < alignedOf s.srcLen,
    (encBudget s.srcLen s.hS : Int)
      - ((emittedFor s ((s.alignedPart.take t).map (symbolOf s))).1.length * s.hK / 8 : Nat) < s.cfg.abortMargin := by
  rw [State.aborts, ← encBudget_eq long h.shift]
  exact exists_congr fun t => and_congr_right fun ht => by rw [emittedBefore_spelling h ht]

theorem not_aborts_of_go (wide : s.hK ≤ 25) (long : 8 ≤ s.srcLen) {w : EncWork} (done : blockLoop s = .go w) :
    ¬ s.aborts (spellingOf s s.symbols) := by
  rw [aborts_iff h long]
  rintro ⟨t, ht, stop⟩
  exact ((blockLoop_reading wide).1 w done).proceeds t (by rwa [length_alignedPart]) stop

/-- Why the loop gives up: the spelling aborts, or more than 255 bytes are rare. -/
theorem aborts_of_toRaw (wide : s.hK ≤ 25) (long : 8 ≤ s.srcLen) {w : EncWork} (gaveUp : blockLoop s = .toRaw w) :
    255 < s.rares.length ∨ s.aborts (spellingOf s s.symbols) := by
  obtain ⟨read, x, rest, split, reading, why⟩ := (blockLoop_reading wide).2 w gaveUp
  rcases why with stop | ⟨rare, full⟩
  · refine .inr ((aborts_iff h long).mpr ⟨read.length, ?_, ?_⟩)
    · rw [← length_alignedPart, split, List.length_append, List.length_cons]
      omega
    · rw [split, List.take_left', ← emitted_ocur reading.follows.emitted]
      · exact stop
      · rfl
  · refine .inl ?_
    have recorded := reading.recorded.rcnt
    have more := (raresIn_append s (padOf s.srcLen) (read ++ [x]) rest).length_le
    rw [List.append_assoc, List.singleton_append, ← split, ← rares_eq, raresIn_append_singleton, if_pos rare,
      List.length_append, ← recorded, full] at more
    exact more

omit h in
/-- R212: the frame is the layout around the stream of the spelling. -/
theorem codedFrame_eq (wide : s.hK ≤ 25) {w : EncWork} (done : blockLoop s = .go w) :
    codedFrame s s.source (encFlush s w) = s.codedWith (spellingOf s s.symbols) := by
  obtain ⟨recorded, follows, -⟩ := (blockLoop_reading wide).1 w done
  have flushed_ := readSoFar_encFlush recorded
  rw [codedFrame, State.codedWith, frameOf, frameWith, s.source_length, follows.stream wide,
    rareTable_of_readSoFar _ flushed_, flushed_.rcnt, ← rares_eq]
  rfl

omit h in
theorem storedCoded_endEncode (can : s.canEncode) (wide : s.hK ≤ 25) {w : EncWork} (done : blockLoop s = .go w)
    (shorter : (s.codedWith (spellingOf s s.symbols)).length < s.srcLen) :
    (endEncode (blockState s (afterFlush s w).regs (afterFlush s w).rare)
      (s.codedWith (spellingOf s s.symbols)) .coded false (encFlush s w).regs.rcnt).storedCoded s
        (s.codedWith (spellingOf s s.symbols)) := by
  have recorded := ((blockLoop_reading wide).1 w done).recorded
  have few := recorded.few
  refine ⟨rfl, rfl, ?_, readDst_endEncode _ _ _ _ _,
    encodedFrom_endEncode s _ _ _ _ _ (shorter.le.trans can.2.2.2)⟩
  change (BitVec.ofNat 8 w.regs.rcnt).toNat = _
  rw [rares_eq, ← recorded.rcnt, BitVec.toNat_ofNat, Nat.mod_eq_of_lt (by omega)]

end Reading

/-! ### Coded or raw -/

section Choice

variable {s : State} (ok : s.inst.ok) (h : HandleFacts s) (can : s.canEncode) (varied : s.notConstant)
  (long : 8 ≤ s.srcLen)

theorem hK_le (ok : s.inst.ok) (h : HandleFacts s) : s.hK ≤ 25 := h.kMax.trans ok.1

include ok h can varied long

theorem exec_encode_coded (few : s.rares.length ≤ 255) (proceeds : ¬ s.aborts (spellingOf s s.symbols))
    (shorter : (s.codedWith (spellingOf s s.symbols)).length < s.srcLen) :
    ∃ t, exec .encode s = .next t ∧ t.storedCoded s (s.codedWith (spellingOf s s.symbols)) := by
  have wide := hK_le ok h
  cases loop : blockLoop s with
  | toRaw w => exact ((aborts_of_toRaw h wide long loop).elim few.not_gt proceeds).elim
  | go w =>
    have frame := codedFrame_eq wide loop
    have done := exec_encode_of_shorter can varied long loop (frame ▸ shorter)
    rw [frame] at done
    exact ⟨_, done, storedCoded_endEncode can wide loop shorter⟩

theorem exec_encode_raw (why : 255 < s.rares.length ∨ s.aborts (spellingOf s s.symbols)
      ∨ s.srcLen ≤ (s.codedWith (spellingOf s s.symbols)).length) :
    ∃ t, exec .encode s = .next t ∧ t.storedRaw s := by
  have wide := hK_le ok h
  cases loop : blockLoop s with
  | toRaw w => exact exec_encode_of_toRaw can varied long loop
  | go w =>
    have recorded := ((blockLoop_reading wide).1 w loop).recorded
    rcases why with many | stop | large
    · rw [rares_eq, ← recorded.rcnt] at many
      exact absurd recorded.few many.not_ge
    · exact absurd stop (not_aborts_of_go h wide long loop)
    · exact exec_encode_of_not_shorter can varied long loop (codedFrame_eq wide loop ▸ large)

omit ok can varied in
/-- With `ABORT_MARGIN = 0` an abort would mean a stream above the budget, and so a frame no shorter than the block. -/
theorem not_aborts_of_margin_zero (margin : s.cfg.abortMargin = 0)
    (shorter : (s.codedWith (spellingOf s s.symbols)).length < s.srcLen) :
    ¬ s.aborts (spellingOf s s.symbols) := by
  rw [State.aborts]
  rintro ⟨t, -, stop⟩
  have parts := pad_add_aligned s.srcLen
  have drained : s.emittedBefore (spellingOf s s.symbols) t * s.hK / 8
      ≤ (streamOf s.hK (spellingOf s s.symbols)).length := by
    have most : s.emittedBefore (spellingOf s s.symbols) t ≤ (spellingOf s s.symbols).length := by
      rw [State.emittedBefore]
      exact (List.length_filter_le _ _).trans_eq List.length_range
    rw [length_streamOf]
    exact Nat.div_le_div_right ((Nat.mul_le_mul_right _ most).trans (Nat.le_add_right _ 7))
  have padding : padOf s.srcLen ≤ s.srcLen := padOf_le _
  have plane : (pextPlane s.alignedPart s.hS).length = planeLen s.srcLen s.hS := by
    rw [pextPlane_length, length_alignedPart, planeLen_eq]
  simp only [State.codedWith, frameOf, frameWith, List.length_append, List.length_take, s.source_length,
    List.length_singleton, plane] at shorter
  rw [margin] at stop
  omega

end Choice

/-- Settles O47: a coded frame is the end of a loop that went through, and the loop follows the spelling. -/
theorem codedFrameSpellsBlock : Obligations.CodedFrameSpellsBlock := by
  unfold Obligations.CodedFrameSpellsBlock
  intro s t ok wf can done coded
  have h := handleFacts wf
  have wide := hK_le ok h
  refine ⟨spellingOf s s.symbols, spells_spellingOf h, ?_⟩
  rw [exec_encode_of_canEncode can] at done
  cases done
  rcases encodeFrame_cases s.startBlock s.source with ⟨-, e⟩ | ⟨-, -, e⟩ | ⟨-, -, e⟩ | ⟨-, -, w, -, e⟩
    | ⟨-, -, w, -, -, e⟩ | ⟨-, -, w, loop, shorter, e⟩ <;> rw [e] at coded ⊢
  · cases coded
  · cases coded
  · cases coded
  · cases coded
  · cases coded
  · have frame : codedFrame s.startBlock s.source (encFlush s.startBlock w) = _ := codedFrame_eq wide (s := s) loop
    rw [frame, s.source_length] at shorter
    rw [frame]
    exact storedCoded_endEncode can wide loop shorter

/-- Settles O48: the loop goes through exactly when at most 255 bytes are rare and the spelling does not abort. -/
theorem encodeChoosesFrame : Obligations.EncodeChoosesFrame := by
  unfold Obligations.EncodeChoosesFrame
  intro s ok wf can varied long
  have h := handleFacts wf
  have spells := spells_spellingOf h
  have coded := exec_encode_coded ok h can varied long
  have raw := exec_encode_raw ok h can varied long
  obtain ⟨t, done⟩ := exec_next .encode s
  refine ⟨spellingOf s s.symbols, t, spells, fun other => spells_unique h spells, done, fun few proceeds shorter => ?_,
    fun why => ?_, fun margin few shorter => ?_⟩
  · obtain ⟨t', done', stored⟩ := coded few proceeds shorter
    cases done.symm.trans done'
    exact stored
  · obtain ⟨t', done', stored⟩ := raw why
    cases done.symm.trans done'
    exact stored
  · obtain ⟨t', done', stored⟩ := coded few (not_aborts_of_margin_zero h long margin shorter) shorter
    cases done.symm.trans done'
    exact stored

end Sys2Proof.Proofs
end

section
/-! `DECODE`: the frames told by their length, the parser, the codeword loop by the codewords it has read, the rare table
(44_decode.md R231 to R245). -/

namespace Sys2Proof.Proofs

open Sys2Proof Sys2Proof.Machine

/-! ### The ends of `DECODE` -/

section Ends

variable {s : State}

/-- The state in which the last statements of `DECODE` run: the decoder registers are the block's. -/
def readState (s : State) (dr : DecRegs) : State := { s.startBlock with decr := dr }

theorem startBlock_eq_readState (s : State) : s.startBlock = readState s DecRegs.zero := rfl

theorem decodedTo_endDecode (s : State) (dr : DecRegs) {block : List Byte} (kind : FrameKind) {rare : Nat}
    (whole : block.length = s.blkN) (few : rare ≤ 255) :
    (endDecode (readState s dr) block kind rare).decodedTo s kind rare block := by
  refine ⟨rfl, rfl, ?_, ?_, rfl, fun a beyond => dstAt_endDecode_outside _ _ _ _ _ (whole.trans_le beyond)⟩
  · change (BitVec.ofNat 8 rare).toNat = rare
    rw [BitVec.toNat_ofNat, Nat.mod_eq_of_lt (by omega)]
  · rw [← whole]
    exact State.readDst_writeDst _ block

theorem rejectedFrame_frameError (s : State) (dr : DecRegs) (cause : FrameCause) :
    (frameError (readState s dr) cause).rejectedFrame s cause :=
  ⟨rfl, rfl, rfl, rfl, fun a beyond => dstAt_frameError_outside _ cause a beyond⟩

/-- A frame that is rejected, with its word of `STATUS`. -/
theorem rejected_of_frameError (can : s.canDecode) {cause : FrameCause} (dr : DecRegs)
    (done : decodeFrame s.startBlock s.blkN s.source = frameError (readState s dr) cause) :
    ∃ t, exec .decode s = .next t ∧ t.rejectedFrame s cause
      ∧ t.status.word = (Status.error true (.frame cause)).word := by
  refine ⟨_, exec_decode_of_canDecode can, ?_⟩
  change (decodeFrame s.startBlock s.blkN s.source).rejectedFrame s cause
    ∧ (decodeFrame s.startBlock s.blkN s.source).status.word = _
  rw [done]
  exact ⟨rejectedFrame_frameError s dr cause, by
    change (Status.error s.status.hvalid (.frame cause)).word = _
    rw [can.1]⟩

/-- A block that is decoded, with its word of `STATUS`. -/
theorem decoded_of_endDecode (can : s.canDecode) (dr : DecRegs) {block : List Byte} {kind : FrameKind} {rare : Nat}
    (whole : block.length = s.blkN) (few : rare ≤ 255)
    (done : decodeFrame s.startBlock s.blkN s.source = endDecode (readState s dr) block kind rare) :
    ∃ t, exec .decode s = .next t ∧ t.decodedTo s kind rare block
      ∧ t.status.word = (Status.success true kind false).word := by
  refine ⟨_, exec_decode_of_canDecode can, ?_⟩
  change (decodeFrame s.startBlock s.blkN s.source).decodedTo s kind rare block
    ∧ (decodeFrame s.startBlock s.blkN s.source).status.word = _
  rw [done]
  exact ⟨decodedTo_endDecode s dr kind whole few, by
    change (Status.success s.status.hvalid kind false).word = _
    rw [can.1]⟩

theorem parseFrame_of_short {k sh n : Nat} {f : List Byte} (short : f.length < padOf n + 1 + planeLen n sh) :
    parseFrame k sh n f = .error .lengthMismatch := if_pos short

theorem parseFrame_of_overrun {k sh n : Nat} {f : List Byte} (long : padOf n + 1 + planeLen n sh ≤ f.length)
    (overrun : f.length < padOf n + 1 + planeLen n sh + (f.getD (padOf n) 0).toNat * (offsetWidth n + 1)) :
    parseFrame k sh n f = .error .rareOverrun := by
  rw [parseFrame]
  dsimp only
  rw [if_neg long.not_gt, if_pos overrun]

/-- The sections of a frame that passes both tests. -/
def sectionsOf (k sh n : Nat) (f : List Byte) : Sections :=
  let rc := (f.getD (padOf n) 0).toNat
  let rs := rc * (offsetWidth n + 1)
  let m := f.length - rs - planeLen n sh
  { pad := padOf n, aligned := alignedOf n, rc := rc, ow := offsetWidth n, m := m, planeAt := m + rs,
    units := unitsOf k (m - padOf n - 1) }

theorem parseFrame_of_fits {k sh n : Nat} {f : List Byte}
    (fits : padOf n + 1 + planeLen n sh + (f.getD (padOf n) 0).toNat * (offsetWidth n + 1) ≤ f.length) :
    parseFrame k sh n f = .ok (sectionsOf k sh n f) := by
  rw [parseFrame]
  dsimp only
  rw [if_neg (by omega), if_neg fits.not_gt]
  rfl

theorem decodeFrame_of_parse_error (one : s.srcLen ≠ 1) (shorter : s.srcLen < s.blkN) {cause : FrameCause}
    (rejected : parseFrame s.hK s.hS s.blkN s.source = .error cause) :
    decodeFrame s.startBlock s.blkN s.source = frameError (readState s DecRegs.zero) cause := by
  rw [decodeFrame_of_shorter (by rwa [s.source_length]) (by rwa [s.source_length]),
    decodeCoded_of_error (s := s.startBlock) rejected]
  rfl

end Ends

/-- Settles O51: each case is one branch of `DEC.KIND`, the empty frame of a block the parser's first test. -/
theorem decodeByLength : Obligations.DecodeByLength := by
  unfold Obligations.DecodeByLength
  intro s can
  have length := s.source_length
  refine ⟨fun same => ?_, fun one differs => ?_, fun one longer => ?_, fun empty some_ => ?_⟩
  · obtain ⟨t, done, decoded, word⟩ := decoded_of_endDecode can DecRegs.zero (length.trans same) (Nat.zero_le _)
      (decodeFrame_of_length_eq (length.trans same))
    refine ⟨t, done, decoded, ?_⟩
    rw [word]
    split <;> rfl
  · obtain ⟨t, done, decoded, word⟩ := decoded_of_endDecode (s := s) can DecRegs.zero List.length_replicate
      (Nat.zero_le _) (decodeFrame_of_one_byte (by omega) (length.trans one))
    rw [getD_source (by omega)] at decoded
    exact ⟨t, done, decoded, word⟩
  · exact rejected_of_frameError can DecRegs.zero (decodeFrame_of_longer (by omega) (by omega))
  · exact rejected_of_frameError can DecRegs.zero (decodeFrame_of_parse_error (by omega) (by omega)
      (parseFrame_of_short (by omega)))

/-- Settles O52: the two tests are the two errors of the parser. -/
theorem decodeRejectsLayout : Obligations.DecodeRejectsLayout := by
  unfold Obligations.DecodeRejectsLayout
  intro s can one shorter pad pl ow
  have length := s.source_length
  refine ⟨fun short => ?_, fun long overrun => ?_⟩
  · obtain ⟨t, done, rejected, -⟩ := rejected_of_frameError can DecRegs.zero (decodeFrame_of_parse_error one shorter
      (parseFrame_of_short (length.trans_lt short)))
    exact ⟨t, done, rejected⟩
  · have count : s.source.getD (padOf s.blkN) 0 = s.srcAt pad := getD_source (by change pad < s.srcLen; omega)
    obtain ⟨t, done, rejected, -⟩ := rejected_of_frameError can DecRegs.zero (decodeFrame_of_parse_error one shorter
      (parseFrame_of_overrun (length.symm ▸ long) (by rw [length, count]; exact overrun)))
    exact ⟨t, done, rejected⟩

/-- Settles O54: `DECODE` ends with a block or a `FrameError`, and every codeword leaves a key below the flag. -/
theorem decodeRobust : Obligations.DecodeRobust := by
  unfold Obligations.DecodeRobust
  intro s can
  refine ⟨_, exec_decode_of_canDecode can, ?_⟩
  have flag : 0 < s.flag := Nat.two_pow_pos _
  obtain ⟨dr, regs, ends⟩ := decodeFrame_ends_with s.startBlock s.source
  have key : dr.v < s.flag := by
    rcases regs with rfl | ⟨c, -, rcur, pcur, -, -, rfl⟩
    · exact flag
    · exact decUnits_keeps s.startBlock c _ (fun w => w.regs.v < s.flag) (fun w u _ => Nat.mod_lt _ flag) _ flag
  rcases ends with ⟨block, kind, rare, named, whole, e⟩ | ⟨cause, e⟩ <;> rw [e]
  · exact ⟨⟨rfl, fun a beyond => dstAt_endDecode_outside _ _ _ _ _ (whole.trans_le beyond)⟩, key,
      .inl ⟨rfl, rfl, named⟩⟩
  · have rejected := rejectedFrame_frameError s dr cause
    exact ⟨rejected.2.2.2, key, .inr ⟨cause, rejected⟩⟩

/-! ### The payload written so far (44_decode.md R237, R238) -/

/-- A block's aligned part when some symbols have been written over the seed: the first symbol of all is dropped, and
nothing is written beyond the block. -/
def overlaid (seeds symbols : List Byte) : List Byte :=
  symbols.tail.take seeds.length ++ seeds.drop symbols.tail.length

theorem overlaid_full {seeds symbols : List Byte} (full : symbols.tail.length = seeds.length) :
    overlaid seeds symbols = symbols.tail := by
  rw [overlaid, full, List.drop_length, List.append_nil, List.take_of_length_le full.le]

/-- One byte of payload. -/
theorem overlaid_append_singleton (padding seeds symbols : List Byte) (b : Byte) :
    (if 0 < symbols.length ∧ symbols.length ≤ seeds.length then
        (padding ++ overlaid seeds symbols).set (padding.length + symbols.length - 1) b
      else padding ++ overlaid seeds symbols) = padding ++ overlaid seeds (symbols ++ [b]) := by
  cases symbols with
  | nil => simp [overlaid]
  | cons first symbols =>
    have tail : (first :: symbols ++ [b]).tail = symbols ++ [b] := rfl
    simp only [overlaid, tail, List.tail_cons, List.length_cons, Nat.zero_lt_succ, true_and, List.length_append,
      List.length_nil]
    split
    · next inside =>
      have place : padding.length + (symbols.length + 1) - 1 = padding.length + symbols.length := by omega
      obtain ⟨seed, left, rest⟩ := List.exists_cons_of_ne_nil (l := seeds.drop symbols.length)
        (List.ne_nil_of_length_pos (by rw [List.length_drop]; omega))
      have later : seeds.drop (symbols.length + (0 + 1)) = left := by
        rw [Nat.zero_add, ← List.drop_drop, rest, List.drop_one, List.tail_cons]
      rw [place, List.set_append_right _ _ (by omega), Nat.add_sub_cancel_left, List.take_of_length_le (by omega),
        List.take_of_length_le (by simp; omega), rest, List.set_append_right _ _ (by omega), Nat.sub_self,
        List.set_cons_zero, later, List.append_assoc, List.singleton_append]
    · next beyond =>
      rw [List.take_append_of_le_length (by omega), List.drop_of_length_le (by omega),
        List.drop_of_length_le (by omega)]

/-- The payload of one word. -/
theorem writeWord_overlaid (padding seeds bs : List Byte) (count k : Nat) (symbols : List Byte)
    (place : count + k = symbols.length) :
    writeWord padding.length seeds.length count bs k (padding ++ overlaid seeds symbols)
      = padding ++ overlaid seeds (symbols ++ bs) := by
  induction bs generalizing k symbols with
  | nil => rw [List.append_nil]; rfl
  | cons b bs ih =>
    rw [writeWord, place, overlaid_append_singleton,
      ih (k + 1) (symbols ++ [b]) (by rw [List.length_append, List.length_singleton]; omega), List.append_assoc,
      List.singleton_append]

/-! ### The codeword loop by the codewords read (R237) -/

section Loop

variable {s : State} {c : Sections} {stream padding : List Byte} {cws done : List Nat} {w : DecWork} {cw u : Nat}

/-- What the loop has when it has read some codewords. -/
structure Decoded (s : State) (padding : List Byte) (aligned : Nat) (done : List Nat) (w : DecWork) : Prop where
  key : w.regs.v % 2 ^ s.hO = done.getLastD 0 % 2 ^ s.hO
  count : w.count = (s.wordsOf done).length
  out : w.out = padding ++ overlaid (List.replicate aligned (s.alphaAt 0).src)
    ((s.wordsOf done).map (srcOf s.alphaList))

/-- The key after a codeword is its position (30_encoding.md R104). -/
theorem nextKey_eq {v : Nat} (fits : cw < 2 ^ s.hK) : nextKey s v cw = v % 2 ^ s.hO * 2 ^ s.hK + cw := by
  rw [nextKey, flag_eq, Nat.mul_comm (2 ^ s.hO), Nat.mul_comm v, Nat.mod_mul, Nat.mul_add_mod,
    Nat.mod_eq_of_lt fits, Nat.mul_add_div (Nat.two_pow_pos _), Nat.div_eq_of_lt fits, Nat.add_zero, Nat.mul_comm,
    Nat.add_comm, Nat.mul_comm]

variable (h : HandleFacts s)

include h

theorem length_wordOf_le {i : Nat} (hi : i < s.flag) : (wordOf s i).length ≤ min s.hMws 255 :=
  (word_bounds h.dict (isPos_dictList_iff.mpr ⟨hi, rfl, rfl⟩)).1

/-- A record read from `DEC` gives the word's length and its source symbols (R188). -/
theorem decAt_facts {i : Nat} (hi : i < s.flag) :
    ((s.decAt i).getD s.hMws 0).toNat = (wordOf s i).length
      ∧ (s.decAt i).take (wordOf s i).length = (wordOf s i).map (srcOf s.alphaList) := by
  rw [h.dec i hi]
  exact ⟨decRecord_lengthByte _ (length_wordOf_le h hi), take_decRecord _⟩

theorem Decoded.step (d : Decoded s padding c.aligned done w) (pad : c.pad = padding.length) (fits : cw < 2 ^ s.hK)
    (here : codewordAt s.hK stream u = cw) :
    Decoded s padding c.aligned (done ++ [cw]) (decStep s c stream w u) := by
  obtain ⟨key, count, out⟩ := d
  have position := nextKey_eq (s := s) (v := w.regs.v) fits
  rw [key] at position
  have inside : nextKey s w.regs.v cw < s.flag := position ▸ position_lt fits
  have words : s.wordsOf (done ++ [cw]) = s.wordsOf done ++ wordOf s (nextKey s w.regs.v cw) := by
    rw [wordsOf_eq, wordsOf_eq, positionsOf_append_singleton, List.flatMap_append, List.flatMap_singleton, position]
  obtain ⟨length, payload⟩ := decAt_facts h inside
  have seeds : c.aligned = (List.replicate c.aligned (s.alphaAt 0).src).length := List.length_replicate.symm
  refine ⟨?_, ?_, ?_⟩
  · rw [List.getLastD_concat, decStep, here]
    dsimp only
    rw [position, Nat.add_mod, Nat.mul_mod, Nat.mod_eq_zero_of_dvd (Nat.pow_dvd_pow 2 h.overlap.le), Nat.mul_zero,
      Nat.zero_mod, Nat.zero_add, Nat.mod_mod]
  · rw [words, List.length_append, ← count, ← length, decStep, here]
  · rw [words, List.map_append, decStep, here]
    dsimp only
    rw [length, payload, out, pad]
    conv_lhs => arg 2; rw [seeds]
    exact writeWord_overlaid padding _ _ w.count 0 _ (by rw [List.length_map, Nat.add_zero, count])

/-- The loop over a stream that holds a codeword sequence. -/
theorem decoded_decUnits (pad : c.pad = padding.length) (reads : ReadsAs s.hK stream cws) (units : c.units = cws.length)
    (start : Decoded s padding c.aligned [] w) : Decoded s padding c.aligned cws (decUnits s c stream w) := by
  have upTo : ∀ n ≤ cws.length,
      Decoded s padding c.aligned (cws.take n) ((List.range n).foldl (decStep s c stream) w) := by
    intro n
    induction n with
    | zero => exact fun _ => start
    | succ n ih =>
      intro hn
      rw [List.range_succ, List.foldl_append, List.take_add_one, List.getElem?_eq_getElem hn]
      exact (ih (Nat.le_of_lt hn)).step h pad (reads.2.1 _ (List.getElem_mem hn)) (codewordAt_of_readsAs reads hn)
  have all := upTo cws.length le_rfl
  rw [List.take_length] at all
  rw [decUnits, units]
  exact all

end Loop

/-! ### The rare table (R242) -/

section Patch

variable {ow n : Nat} {r : RareEntry} {rares : List RareEntry} {rest : List Byte} {w : DecWork}

theorem take_rareBytes (fits : r.offset < 256 ^ ow) : leNumber ((rareBytes ow r ++ rest).take ow) = r.offset := by
  rw [rareBytes, List.append_assoc, List.take_left' (leBytes_length r.offset ow), leNumber_leBytes,
    Nat.mod_eq_of_lt fits]

theorem drop_rareBytes : (rareBytes ow r ++ rest).drop (ow + 1) = rest :=
  List.drop_left' (by simp [rareBytes])

theorem getD_rareBytes : (rareBytes ow r ++ rest).getD ow 0 = r.value := by
  simp [rareBytes]

theorem decPatch_cons (fits : r.offset < 256 ^ ow) (left : Nat) :
    decPatch ow n (left + 1) (rareBytes ow r ++ rest) w =
      if n ≤ r.offset then .error w
      else decPatch ow n left rest
        { w with regs := { w.regs with pcur := w.regs.pcur + 1 }, out := w.out.set r.offset r.value } := by
  rw [decPatch_succ, take_rareBytes fits, drop_rareBytes, getD_rareBytes]

theorem decPatch_ok (fits : ∀ r ∈ rares, r.offset < 256 ^ ow) (inside : ∀ r ∈ rares, r.offset < n) :
    ∃ w', decPatch ow n rares.length (rares.flatMap (rareBytes ow) ++ rest) w = .ok w'
      ∧ w'.out = patched rares w.out := by
  induction rares generalizing w with
  | nil => exact ⟨w, rfl, rfl⟩
  | cons r rares ih =>
    obtain ⟨fit, fits⟩ := List.forall_mem_cons.mp fits
    obtain ⟨here, inside⟩ := List.forall_mem_cons.mp inside
    rw [List.flatMap_cons, List.append_assoc, List.length_cons, decPatch_cons fit, if_neg here.not_ge]
    exact ih fits inside

theorem decPatch_error (fits : ∀ r ∈ rares, r.offset < 256 ^ ow) (beyond : ∃ r ∈ rares, n ≤ r.offset) :
    ∃ w', decPatch ow n rares.length (rares.flatMap (rareBytes ow) ++ rest) w = .error w' := by
  induction rares generalizing w with
  | nil => exact absurd beyond (by simp)
  | cons r rares ih =>
    obtain ⟨fit, fits⟩ := List.forall_mem_cons.mp fits
    rw [List.flatMap_cons, List.append_assoc, List.length_cons, decPatch_cons fit]
    split
    · exact ⟨w, rfl⟩
    · next here =>
      rw [List.exists_mem_cons_iff] at beyond
      exact ih fits (beyond.resolve_left here)

end Patch

/-! ### A laid-out frame (30_encoding.md R96) -/

section Layout

variable {k sh n : Nat} {padding stream plane : List Byte} {rares : List RareEntry}

theorem length_rareTable (ow : Nat) (rares : List RareEntry) :
    (rares.flatMap (rareBytes ow)).length = rares.length * (ow + 1) := by
  simp [List.length_flatMap, rareBytes]

theorem length_frameWith : (frameWith n padding stream rares plane).length
    = padding.length + 1 + stream.length + rares.length * (offsetWidth n + 1) + plane.length := by
  simp only [frameWith, List.length_append, List.length_singleton, length_rareTable]

/-- The sections of a laid-out frame are what it was laid out from. -/
theorem sectionsOf_frameWith (pad : padding.length = padOf n) (few : rares.length ≤ 255)
    (size : plane.length = planeLen n sh) : sectionsOf k sh n (frameWith n padding stream rares plane) =
      { pad := padding.length, aligned := alignedOf n, rc := rares.length, ow := offsetWidth n,
        m := padding.length + 1 + stream.length,
        planeAt := padding.length + 1 + stream.length + rares.length * (offsetWidth n + 1),
        units := unitsOf k stream.length } := by
  have count : ((frameWith n padding stream rares plane).getD (padOf n) 0).toNat = rares.length := by
    rw [← pad, frameWith]
    simp only [List.append_assoc, List.getD_eq_getElem?_getD]
    rw [List.getElem?_append_right le_rfl, Nat.sub_self, List.singleton_append, List.getElem?_cons_zero,
      Option.getD_some, byteOf_toNat, Nat.mod_eq_of_lt (by omega)]
  have m : (frameWith n padding stream rares plane).length - rares.length * (offsetWidth n + 1) - planeLen n sh
      = padding.length + 1 + stream.length := by
    rw [length_frameWith, size]
    omega
  have units : padding.length + 1 + stream.length - padOf n - 1 = stream.length := by omega
  rw [sectionsOf, count, m, units, ← pad]

theorem parseFrame_frameWith (pad : padding.length = padOf n) (few : rares.length ≤ 255)
    (size : plane.length = planeLen n sh) : parseFrame k sh n (frameWith n padding stream rares plane)
      = .ok (sectionsOf k sh n (frameWith n padding stream rares plane)) := by
  have count := congrArg Sections.rc (sectionsOf_frameWith (k := k) (stream := stream) pad few size)
  apply parseFrame_of_fits
  change _ = rares.length at count
  rw [show ((frameWith n padding stream rares plane).getD (padOf n) 0).toNat = rares.length from count,
    length_frameWith, size, pad]
  omega

theorem take_frameWith : (frameWith n padding stream rares plane).take padding.length = padding := by
  rw [frameWith]
  simp only [List.append_assoc]
  exact List.take_left' rfl

theorem stream_frameWith : ((frameWith n padding stream rares plane).take (padding.length + 1 + stream.length)).drop
    (padding.length + 1) = stream := by
  rw [frameWith, List.append_assoc, List.take_left' (by simp; omega), List.drop_left' (by simp)]

theorem drop_frameWith : (frameWith n padding stream rares plane).drop (padding.length + 1 + stream.length)
    = rares.flatMap (rareBytes (offsetWidth n)) ++ plane := by
  rw [frameWith, List.append_assoc, List.drop_left' (by simp; omega)]

theorem plane_frameWith : (frameWith n padding stream rares plane).drop
    (padding.length + 1 + stream.length + rares.length * (offsetWidth n + 1)) = plane := by
  rw [frameWith, List.drop_left']
  simp only [List.length_append, List.length_singleton, length_rareTable]

end Layout

/-! ### Decoding a laid-out frame -/

section Laid

variable {s : State} {padding stream plane : List Byte} {cws : List Nat} {rares : List RareEntry}

/-- The block a frame stands for before its rare entries are applied. -/
def unpatched (s : State) (padding plane : List Byte) (cws : List Nat) : List Byte :=
  padding ++ pdepPlane ((s.wordsOf cws).tail.map (srcOf s.alphaList)) plane s.hS

/-- What `DECODE` does with a laid-out frame, for the codewords a reader takes from its stream. -/
theorem decodeCoded_frameWith (h : HandleFacts s) {n : Nat} (pad : padding.length = padOf n)
    (reads : ReadsAs s.hK stream cws) (few : rares.length ≤ 255)
    (fits : ∀ r ∈ rares, r.offset < 256 ^ offsetWidth n) (size : plane.length = planeLen n s.hS) :
    ((s.wordsOf cws).length ≠ alignedOf n + 1 →
        ∃ dr, decodeCoded s n (frameWith n padding stream rares plane) = frameError { s with decr := dr } .symbolCount)
      ∧ ((s.wordsOf cws).length = alignedOf n + 1 → (∃ r ∈ rares, n ≤ r.offset) →
        ∃ dr, decodeCoded s n (frameWith n padding stream rares plane) = frameError { s with decr := dr } .rareOffset)
      ∧ ((s.wordsOf cws).length = alignedOf n + 1 → (∀ r ∈ rares, r.offset < n) →
        ∃ dr, decodeCoded s n (frameWith n padding stream rares plane)
          = endDecode { s with decr := dr } (patched rares (unpatched s padding plane cws)) .coded rares.length) := by
  have parsed := parseFrame_frameWith (k := s.hK) (stream := stream) pad few size
  rw [sectionsOf_frameWith pad few size] at parsed
  generalize sections : ({ pad := padding.length, aligned := alignedOf n, rc := rares.length, ow := offsetWidth n,
                           m := padding.length + 1 + stream.length,
                           planeAt := padding.length + 1 + stream.length + rares.length * (offsetWidth n + 1),
                           units := unitsOf s.hK stream.length } : Sections) = c at parsed
  have start : Decoded s padding c.aligned [] (decStart s (frameWith n padding stream rares plane) c) := by
    refine ⟨rfl, rfl, ?_⟩
    rw [← sections, decStart, decSeed, take_frameWith]
    simp [overlaid, State.wordsOf, positionsOf]
  have loop := decoded_decUnits (stream := stream) h (by rw [← sections]) reads
    (by rw [← sections]; exact (readsAs_iff.mp reads).1.symm) start
  have units : unitsLoop s (frameWith n padding stream rares plane) c
      = decUnits s c stream (decStart s (frameWith n padding stream rares plane) c) := by
    rw [unitsLoop, ← sections, stream_frameWith]
  rw [decodeCoded_of_ok parsed, units]
  generalize decUnits s c stream (decStart s (frameWith n padding stream rares plane) c) = w at loop
  obtain ⟨-, count, out⟩ := loop
  rw [← count]
  have aligned : c.aligned = alignedOf n := by rw [← sections]
  have table : decPatch c.ow n c.rc ((frameWith n padding stream rares plane).drop c.m)
      (decResid s (frameWith n padding stream rares plane) c w)
      = decPatch (offsetWidth n) n rares.length (rares.flatMap (rareBytes (offsetWidth n)) ++ plane)
        (decResid s (frameWith n padding stream rares plane) c w) := by
    conv_lhs => rw [← sections]
    dsimp only
    rw [drop_frameWith, sections]
  refine ⟨fun wrong => ⟨_, decFinish_of_count (aligned ▸ wrong)⟩, fun right beyond => ?_, fun right inside => ?_⟩
  · obtain ⟨w', patch⟩ := decPatch_error fits beyond
    exact ⟨_, decFinish_of_patch_error (aligned ▸ right) (table.trans patch)⟩
  · obtain ⟨w', patch, block⟩ := decPatch_ok fits inside
    refine ⟨w'.regs, ?_⟩
    rw [decFinish_of_patch_ok (aligned ▸ right) (table.trans patch), block]
    have resid : (decResid s (frameWith n padding stream rares plane) c w).out = unpatched s padding plane cws := by
      have full : ((s.wordsOf cws).map (srcOf s.alphaList)).tail.length
          = (List.replicate c.aligned (s.alphaAt 0).src).length := by
        rw [List.length_tail, List.length_map, ← count, right, List.length_replicate, aligned, Nat.add_sub_cancel]
      rw [decResid, out, overlaid_full full, ← sections]
      dsimp only
      rw [List.take_left' rfl, List.drop_left' rfl, plane_frameWith, ← List.map_tail, unpatched]
    rw [resid, ← sections]

theorem length_patched (rares : List RareEntry) (block : List Byte) : (patched rares block).length = block.length := by
  induction rares generalizing block with
  | nil => rfl
  | cons r rares ih =>
    change (patched rares (block.set r.offset r.value)).length = _
    rw [ih, List.length_set]

theorem length_unpatched {n : Nat} (pad : padding.length = padOf n)
    (count : (s.wordsOf cws).length = alignedOf n + 1) : (unpatched s padding plane cws).length = n := by
  have parts := pad_add_aligned n
  obtain ⟨q, hq⟩ := alignedOf_dvd n
  rw [unpatched, List.length_append, pdepPlane_length, List.length_map, List.length_tail, count, pad]
  omega

end Laid

/-- Settles O53: the codeword loop reads the words at the positions of the codewords, and each ending of `DECODE` is one
branch of the count check and of the rare table. -/
theorem decodeReadsFrame : Obligations.DecodeReadsFrame := by
  unfold Obligations.DecodeReadsFrame
  intro s padding stream cws rares plane _ wf can pad reads few fits size frame one shorter count wanted
  have h : HandleFacts s.startBlock := handleFacts wf
  have coded := decodeFrame_of_shorter (s := s.startBlock) (f := s.source) (n := s.blkN) (by rwa [s.source_length])
    (by rwa [s.source_length])
  rw [frame] at coded
  obtain ⟨wrongCount, beyond, block⟩ := decodeCoded_frameWith h pad reads few fits size
  refine ⟨fun wrong => ?_, fun right offset => ?_, fun right inside => ?_⟩
  · obtain ⟨dr, e⟩ := wrongCount wrong
    obtain ⟨t, done, rejected, -⟩ := rejected_of_frameError can dr ((congrArg _ frame).trans (coded.trans e))
    exact ⟨t, done, rejected⟩
  · obtain ⟨dr, e⟩ := beyond right offset
    obtain ⟨t, done, rejected, -⟩ := rejected_of_frameError can dr ((congrArg _ frame).trans (coded.trans e))
    exact ⟨t, done, rejected⟩
  · obtain ⟨dr, e⟩ := block right inside
    have whole : (patched rares (unpatched s.startBlock padding plane cws)).length = s.blkN := by
      rw [length_patched, length_unpatched (s := s.startBlock) pad right]
    obtain ⟨t, done, decoded, -⟩ := decoded_of_endDecode can dr whole few ((congrArg _ frame).trans (coded.trans e))
    exact ⟨t, done, decoded⟩

end Sys2Proof.Proofs
end

section
/-! The laws of the residual plane (45_residual_plane.md R263, R265, R268). -/

namespace Sys2Proof.Proofs

open Sys2Proof Sys2Proof.Machine

/-! ### The group operations (R263) -/

section Groups

variable {g h pl : List Byte} {s i j : Nat}

/-- A deposit of an extracted plane, bit by bit: the low `S` bits of a lane are of one group, the high ones of the
other. -/
theorem getLsbD_pdep8_pext8 (hi : i < 8) (hj : j < 8) :
    ((pdep8 h (pext8 g s) s).getD i 0).getLsbD j
      = if j < s then (g.getD i 0).getLsbD j else (h.getD i 0).getLsbD j := by
  rw [getLsbD_pdep8 h (pext8 g s) hi hj]
  split
  · next low =>
    have inside : i * s + j < s * 8 := Nat.mul_comm 8 s ▸ field_bit_lt hi low
    rw [testBit_packPlane (pext8 g s) inside, getLsbD_pext8 g inside, testBit_packLanes g hi low]
  · rfl

theorem toNat_pdep8_pext8 (hs : s ≤ 7) (hi : i < 8) : ((pdep8 h (pext8 g s) s).getD i 0).toNat =
    ((h.getD i 0).toNat - (h.getD i 0).toNat % 2 ^ s) + (g.getD i 0).toNat % 2 ^ s := by
  have low : (g.getD i 0).toNat % 2 ^ s < 2 ^ s := Nat.mod_lt _ (Nat.two_pow_pos s)
  apply Nat.eq_of_testBit_eq
  intro j
  rw [← Nat.div_mul_self_eq_mod_sub_self, Nat.mul_comm _ (2 ^ s), Nat.testBit_two_pow_mul_add _ low,
    BitVec.testBit_toNat]
  rcases Nat.lt_or_ge j 8 with hj | hj
  · rw [getLsbD_pdep8_pext8 hi hj, Nat.testBit_mod_two_pow, Nat.testBit_div_two_pow]
    split
    · next below => rw [decide_eq_true below, Bool.true_and, BitVec.testBit_toNat]
    · next above => rw [Nat.sub_add_cancel (not_lt.mp above), BitVec.testBit_toNat]
  · rw [BitVec.getLsbD_of_ge _ _ hj, if_neg (by omega), Nat.testBit_div_two_pow, Nat.sub_add_cancel (by omega),
      BitVec.testBit_toNat, BitVec.getLsbD_of_ge _ _ hj]

/-- A lane whose high bits agree is restored. -/
theorem getD_pdep8_pext8 (hi : i < 8) (high : (h.getD i 0).toNat >>> s = (g.getD i 0).toNat >>> s) :
    (pdep8 h (pext8 g s) s).getD i 0 = g.getD i 0 := by
  refine BitVec.eq_of_getLsbD_eq fun j hj => ?_
  rw [getLsbD_pdep8_pext8 hi hj]
  split
  · rfl
  · next above =>
    have bits := congrArg (Nat.testBit · (j - s)) high
    simp only [Nat.testBit_shiftRight, Nat.add_sub_cancel' (not_lt.mp above), BitVec.testBit_toNat] at bits
    exact bits

theorem pdep8_pext8_of_high_eq (eight : g.length = 8)
    (high : ∀ i < 8, (h.getD i 0).toNat >>> s = (g.getD i 0).toNat >>> s) : pdep8 h (pext8 g s) s = g := by
  apply List.ext_getElem
  · rw [pdep8_length, eight]
  · intro i hi hg
    rw [pdep8_length] at hi
    rw [← List.getD_eq_getElem _ 0, ← List.getD_eq_getElem _ 0]
    exact getD_pdep8_pext8 hi (high i hi)

theorem pext8_pdep8 (hs : s ≤ 7) (length : pl.length = s) : pext8 (pdep8 h pl s) s = pl := by
  apply List.ext_getElem
  · rw [pext8_length, length]
  · intro q hq hpl
    rw [pext8_length] at hq
    rw [← List.getD_eq_getElem _ 0, ← List.getD_eq_getElem _ 0]
    refine BitVec.eq_of_getLsbD_eq fun b hb => ?_
    have place : (q * 8 + b) / 8 = q ∧ (q * 8 + b) % 8 = b := by omega
    have inside : q * 8 + b < s * 8 := by omega
    have lane : (q * 8 + b) / s < 8 := Nat.div_lt_of_lt_mul inside
    have low : (q * 8 + b) % s < s := Nat.mod_lt _ (by omega)
    have split_ : (q * 8 + b) / s * s + (q * 8 + b) % s = q * 8 + b := Nat.div_add_mod' _ _
    have byte := getLsbD_pext8 (pdep8 h pl s) inside
    rw [place.1, place.2] at byte
    rw [byte, ← split_, testBit_packLanes _ lane low]
    rw [getLsbD_pdep8 h pl lane (by omega), if_pos low, split_, testBit_packPlane pl inside, place.1, place.2]

end Groups

/-- Settles O57: the first two laws lane by lane, the third byte by byte of the plane. -/
theorem residualLaws : Obligations.ResidualLaws := by
  unfold Obligations.ResidualLaws
  intro g h pl s eight _ length hs
  exact ⟨fun i hi => toNat_pdep8_pext8 hs hi, pdep8_pext8_of_high_eq eight, pext8_pdep8 hs length⟩

/-! ### The plane operations (R264, R265) -/

section Planes

variable {d a : List Byte} {s g : Nat}

theorem groupAt_pextPlane (a : List Byte) (s : Nat) {g : Nat} (hg : g < a.length / 8) :
    groupAt (pextPlane a s) s g = pext8 (groupAt a 8 g) s :=
  groupAt_flatMap_range _ s (fun _ => pext8_length _ s) hg

theorem length_groupAt (hg : g < a.length / 8) : (groupAt a 8 g).length = 8 := by
  simp only [groupAt, List.length_take, List.length_drop]
  omega

theorem getD_groupAt {i : Nat} (hi : i < 8) : (groupAt a 8 g).getD i 0 = a.getD (g * 8 + i) 0 := by
  simp [groupAt, List.getElem?_take, hi]

/-- A sequence of whole groups is its groups one after another. -/
theorem flatMap_groupAt (whole : 8 ∣ a.length) : ((List.range (a.length / 8)).flatMap fun g => groupAt a 8 g) = a := by
  obtain ⟨n, length⟩ := whole
  rw [length, Nat.mul_div_cancel_left n (by decide)]
  induction n generalizing a with
  | zero => rw [List.length_eq_zero_iff.mp length]; rfl
  | succ n ih =>
    have rest : (a.drop 8).length = 8 * n := by rw [List.length_drop]; omega
    have later : (fun g => groupAt a 8 (g + 1)) = fun g => groupAt (a.drop 8) 8 g := by
      funext g
      rw [groupAt, groupAt, List.drop_drop]
      congr 2
      ring
    rw [List.range_succ_eq_map, List.flatMap_cons, List.flatMap_map]
    change groupAt a 8 0 ++ (List.range n).flatMap (fun g => groupAt a 8 (g + 1)) = a
    rw [later, ih rest, groupAt, Nat.zero_mul, List.drop_zero, List.take_append_drop]

/-- A byte whose high bits agree is restored, wherever it stands. -/
theorem getD_pdepPlane_pextPlane {i : Nat} (whole : 8 ∣ d.length) (same : a.length = d.length) (hi : i < d.length)
    (high : (d.getD i 0).toNat >>> s = (a.getD i 0).toNat >>> s) :
    (pdepPlane d (pextPlane a s) s).getD i 0 = a.getD i 0 := by
  have group : i / 8 < d.length / 8 := by omega
  have lane : i % 8 < 8 := Nat.mod_lt i (by decide)
  have place : i / 8 * 8 + i % 8 = i := Nat.div_add_mod' i 8
  have byte : ∀ l : List Byte, l.getD i 0 = (groupAt l 8 (i / 8)).getD (i % 8) 0 := fun l => by
    rw [getD_groupAt lane, place]
  rw [byte d, byte a] at high
  rw [byte, byte a, groupAt_pdepPlane d _ s group, groupAt_pextPlane a s (same ▸ group), getD_pdep8_pext8 lane high]

theorem pdepPlane_pextPlane (whole : 8 ∣ d.length) (same : a.length = d.length)
    (high : ∀ i < d.length, (d.getD i 0).toNat >>> s = (a.getD i 0).toNat >>> s) :
    pdepPlane d (pextPlane a s) s = a := by
  have groups : ∀ g ∈ List.range (d.length / 8),
      pdep8 (groupAt d 8 g) (groupAt (pextPlane a s) s g) s = groupAt a 8 g := by
    intro g hg
    have inside := List.mem_range.mp hg
    have inside' : g < a.length / 8 := same ▸ inside
    rw [groupAt_pextPlane a s inside']
    refine pdep8_pext8_of_high_eq (length_groupAt inside') fun i hi => ?_
    rw [getD_groupAt hi, getD_groupAt hi]
    exact high _ (by omega)
  calc pdepPlane d (pextPlane a s) s
    _ = (List.range (d.length / 8)).flatMap fun g => groupAt a 8 g := List.flatMap_congr groups
    _ = a := by rw [← same, flatMap_groupAt (same ▸ whole)]

end Planes

/-- Settles O58: group by group; a group whose high bits agree is restored by the second law of the groups. -/
theorem planeLaw : Obligations.PlaneLaw := by
  unfold Obligations.PlaneLaw
  intro d a pl s whole _ _
  exact ⟨fun g hg => groupAt_pdepPlane d pl s hg, pdepPlane_pextPlane whole⟩

/-! ### `PEXT` (R268) -/

section Pext

variable {s : State}

theorem readDst_afterPext (whole : s.srcLen % 8 = 0) :
    (afterPext s).readDst 0 (s.srcLen * s.cfg.s.toNat / 8)
      = pextPlane (s.readSrc 0 s.srcLen) s.cfg.s.toNat := by
  rw [State.readDst, ← length_pext_plane whole]
  refine map_range_length fun i hi => ?_
  rw [Nat.zero_add]
  exact State.dstAt_leaveDst s.startBlock _ i hi

theorem readDst_afterPext_group (whole : s.srcLen % 8 = 0) {g : Nat} (hg : g < s.srcLen / 8) :
    (afterPext s).readDst (g * s.cfg.s.toNat) s.cfg.s.toNat = pext8 (s.readSrc (8 * g) 8) s.cfg.s.toNat := by
  have length : s.srcLen * s.cfg.s.toNat / 8 = s.srcLen / 8 * s.cfg.s.toNat := by
    rw [← length_pext_plane whole, pextPlane_length, State.readSrc_length]
  have inside : g * s.cfg.s.toNat + s.cfg.s.toNat ≤ s.srcLen * s.cfg.s.toNat / 8 := by
    rw [length, ← Nat.succ_mul]
    exact Nat.mul_le_mul_right _ hg
  rw [← groupAt_readDst _ inside, readDst_afterPext whole, groupAt_pextPlane _ _ (by rwa [State.readSrc_length]),
    groupAt_readSrc _ (by omega), Nat.mul_comm g 8]

end Pext

/-- Settles O59: past its check `PEXT` leaves the plane, whose groups are those of the block. -/
theorem pextResult : Obligations.PextResult := by
  unfold Obligations.PextResult
  intro s n sh
  refine ⟨fun bad => ⟨_, exec_pext_of_bad_length ((pextBadLength_iff s).mpr bad), rfl⟩, fun srcFits whole dstFits => ?_⟩
  have good : pextBadLength s ≠ true := by
    rw [Ne, pextBadLength_iff, not_or, not_or, not_not, not_lt, not_lt]
    exact ⟨srcFits, whole, dstFits⟩
  refine ⟨_, exec_pext_of_good_length good, rfl, fun g hg => readDst_afterPext_group whole hg, ?_, rfl⟩
  change (afterPext s).dst.below (s.srcLen * s.cfg.s.toNat / 8)
  rw [← length_pext_plane whole]
  exact Memory.filled_below _ _

end Sys2Proof.Proofs
end

section
/-! What the commands do not read: `SRC` at and beyond `SRC_LEN`, the configuration during `ENCODE` and `DECODE`, the
per-block registers of an earlier block (20_memory.md R64, 70_reset_and_hazards.md R353, 10_state.md R20); and that a
block decodes to itself (44_decode.md R244). -/

namespace Sys2Proof.Proofs

open Sys2Proof Sys2Proof.Machine

/-! ### The checks -/

theorem exec_encode_of_passed {s : State} (passed : encodeCheck s = none) :
    exec .encode s = .next (encodeFrame s.startBlock s.source) := by
  change execEncode s = _
  rw [execEncode, passed]
  rfl

theorem exec_decode_of_passed {s : State} (passed : decodeCheck s = none) :
    exec .decode s = .next (decodeFrame s.startBlock s.blkN s.source) := by
  change execDecode s = _
  rw [execDecode, passed]
  rfl

/-! ### `ENCODE` -/

section Encode

variable (s : State) (c : CfgRegs) (p : Memory Prob) (m : Memory Byte)

/-- A state with other contents of what `ENCODE` does not read once it has its block. -/
def encodeOther : State := { s with cfg := c, pmf := p, src := m }

variable {c} (margin : c.abortMargin = s.cfg.abortMargin)

include margin

theorem encStep_encodeOther (pad budget : Nat) (x : Byte) (w : EncWork) :
    encStep (encodeOther s c p m) pad budget x w = encStep s pad budget x w := by
  rw [encStep, encStep, show (encodeOther s c p m).cfg.abortMargin = s.cfg.abortMargin from margin]
  rfl

theorem loopOf_encodeOther (b : List Byte) : loopOf (encodeOther s c p m) b = loopOf s b := by
  have loops : ∀ (xs : List Byte) (w : EncWork),
      encLoop (encodeOther s c p m) (padOf b.length) (encBudget b.length s.hS) xs w
        = encLoop s (padOf b.length) (encBudget b.length s.hS) xs w := by
    intro xs
    induction xs with
    | nil => exact fun w => rfl
    | cons x xs ih =>
      intro w
      rw [encLoop, encLoop, encStep_encodeOther s p m margin]
      cases encStep s (padOf b.length) (encBudget b.length s.hS) x w with
      | go w' => exact ih w'
      | toRaw w' => rfl
  exact loops _ _

theorem encodeFrame_encodeOther (b : List Byte) :
    encodeFrame (encodeOther s c p m) b = encodeOther (encodeFrame s b) c p m := by
  have loop := loopOf_encodeOther s p m margin b
  rcases encodeFrame_cases s b with ⟨empty, e⟩ | ⟨nonempty, constant, e⟩ | ⟨varied, short, e⟩
    | ⟨varied, long, w, end_, e⟩ | ⟨varied, long, w, end_, large, e⟩ | ⟨varied, long, w, end_, shorter, e⟩
  · rw [e, empty]
    rfl
  · rw [e, encodeFrame_of_allEqual nonempty constant]
    rfl
  · rw [e, encodeFrame_of_not_allEqual varied, encodeBlock_of_short short]
    rfl
  · rw [e, encodeFrame_of_not_allEqual varied, encodeBlock_of_toRaw long (loop.trans end_)]
    rfl
  · rw [e, encodeFrame_of_not_allEqual varied, encodeBlock_of_go long (loop.trans end_),
      encodeCoded_of_not_shorter (s := encodeOther s c p m) large]
    rfl
  · rw [e, encodeFrame_of_not_allEqual varied, encodeBlock_of_go long (loop.trans end_),
      encodeCoded_of_shorter (s := encodeOther s c p m) shorter]
    rfl

theorem exec_encode_encodeOther {t : State} (done : exec .encode s = .next t)
    (block : (encodeOther s c p m).source = s.source) :
    exec .encode (encodeOther s c p m) = .next (encodeOther t c p m) := by
  cases check : encodeCheck s with
  | some e =>
    rw [exec_encode_of_check check] at done
    cases done
    exact exec_encode_of_check (s := encodeOther s c p m) check
  | none =>
    rw [exec_encode_of_passed check] at done
    cases done
    rw [exec_encode_of_passed (s := encodeOther s c p m) check, block]
    exact congrArg Host.Outcome.next (encodeFrame_encodeOther s.startBlock p m margin s.source)

end Encode

/-! ### `DECODE` -/

section Decode

variable (s : State) (c : CfgRegs) (p : Memory Prob) (m : Memory Byte) (a : Memory Nat) (d : Memory DictWord)
  (j : Memory Nat)

/-- A state with other contents of what `DECODE` does not read once it has its frame. -/
def decodeOther : State := { s with cfg := c, pmf := p, src := m, s2m := a, dict := d, jump := j }

theorem decFinish_decodeOther (n : Nat) (f : List Byte) (sections : Sections) (w : DecWork) :
    decFinish (decodeOther s c p m a d j) n f sections w = decodeOther (decFinish s n f sections w) c p m a d j := by
  by_cases count : w.count = sections.aligned + 1
  · cases patch : decPatch sections.ow n sections.rc (f.drop sections.m) (decResid s f sections w) with
    | error w' => rw [decFinish_of_patch_error count patch, decFinish_of_patch_error count (s := decodeOther s c p m a d j) patch]; rfl
    | ok w' => rw [decFinish_of_patch_ok count patch, decFinish_of_patch_ok count (s := decodeOther s c p m a d j) patch]; rfl
  · rw [decFinish_of_count count, decFinish_of_count count]
    rfl

theorem decodeFrame_decodeOther (n : Nat) (f : List Byte) :
    decodeFrame (decodeOther s c p m a d j) n f = decodeOther (decodeFrame s n f) c p m a d j := by
  by_cases same : f.length = n
  · rw [decodeFrame_of_length_eq same, decodeFrame_of_length_eq same]
    rfl
  by_cases one : f.length = 1
  · rw [decodeFrame_of_one_byte same one, decodeFrame_of_one_byte same one]
    rfl
  rcases Nat.lt_or_gt_of_ne same with shorter | longer
  · rw [decodeFrame_of_shorter one shorter, decodeFrame_of_shorter one shorter]
    cases parsed : parseFrame s.hK s.hS n f with
    | error cause =>
      rw [decodeCoded_of_error parsed, decodeCoded_of_error (s := decodeOther s c p m a d j) parsed]
      rfl
    | ok sections =>
      rw [decodeCoded_of_ok parsed, decodeCoded_of_ok (s := decodeOther s c p m a d j) parsed]
      exact decFinish_decodeOther s c p m a d j n f sections _
  · rw [decodeFrame_of_longer one longer, decodeFrame_of_longer one longer]
    rfl

theorem exec_decode_decodeOther {t : State} (done : exec .decode s = .next t)
    (frame : (decodeOther s c p m a d j).source = s.source) :
    exec .decode (decodeOther s c p m a d j) = .next (decodeOther t c p m a d j) := by
  cases check : decodeCheck s with
  | some e =>
    rw [exec_decode_of_check check] at done
    cases done
    exact exec_decode_of_check (s := decodeOther s c p m a d j) check
  | none =>
    rw [exec_decode_of_passed check] at done
    cases done
    rw [exec_decode_of_passed (s := decodeOther s c p m a d j) check, frame]
    exact congrArg Host.Outcome.next (decodeFrame_decodeOther s.startBlock c p m a d j s.blkN s.source)

end Decode

/-! ### `BUILD`, `PEXT`, `PDEP` -/

section Others

variable {s t : State} {m : Memory Byte}

theorem exec_build_src (done : exec .build s = .next t) :
    exec .build { s with src := m } = .next { t with src := m } := by
  rcases checkCfg_cases s with ok | ⟨e, failed, -⟩
  · cases result : dictionaryOf s with
    | none =>
      rw [exec_build_of_none ok result] at done
      cases done
      exact exec_build_of_none (s := { s with src := m }) ok result
    | some d =>
      rw [exec_build_of_some ok result] at done
      cases done
      exact exec_build_of_some (s := { s with src := m }) ok result
  · rw [exec_build_of_check failed] at done
    cases done
    exact exec_build_of_check (s := { s with src := m }) failed

/-- `SRC` below `SRC_LEN` is what the source is. -/
theorem readSrc_congr (same : ∀ a < s.srcLen, ({ s with src := m } : State).srcAt a = s.srcAt a) :
    ({ s with src := m } : State).readSrc 0 s.srcLen = s.readSrc 0 s.srcLen :=
  List.map_congr_left fun k hk => by
    rw [Nat.zero_add]
    exact same k (List.mem_range.mp hk)

theorem exec_pext_src (done : exec .pext s = .next t)
    (same : ({ s with src := m } : State).readSrc 0 s.srcLen = s.readSrc 0 s.srcLen) :
    exec .pext { s with src := m } = .next { t with src := m } := by
  by_cases bad : pextBadLength s = true
  · rw [exec_pext_of_bad_length bad] at done
    cases done
    exact exec_pext_of_bad_length (s := { s with src := m }) bad
  · rw [exec_pext_of_good_length bad] at done
    cases done
    rw [exec_pext_of_good_length (s := { s with src := m }) bad, afterPext, same]
    rfl

theorem exec_pdep_src (done : exec .pdep s = .next t)
    (same : ({ s with src := m } : State).readSrc 0 s.srcLen = s.readSrc 0 s.srcLen) :
    exec .pdep { s with src := m } = .next { t with src := m } := by
  by_cases bad : pdepBadLength s = true
  · rw [exec_pdep_of_bad_length s bad] at done
    cases done
    exact exec_pdep_of_bad_length { s with src := m } bad
  · rw [exec_pdep_of_good_length s bad] at done
    cases done
    rw [exec_pdep_of_good_length { s with src := m } bad, afterPdep, depositedBlock, same]
    rfl

end Others

/-- Settles O19: a command reads `SRC` through its source only. -/
theorem commandReadsSourceBelowLength : Obligations.CommandReadsSourceBelowLength := by
  unfold Obligations.CommandReadsSourceBelowLength
  intro i s t m done same
  have source := readSrc_congr same
  have config := (exec_done done).2.2
  cases i with
  | nop => cases done; rfl
  | sreset => cases done; rfl
  | build => exact exec_build_src done
  | encode =>
    refine (exec_encode_encodeOther s s.pmf m (c := s.cfg) rfl done source).trans ?_
    rw [← config.cfg, ← config.pmf]
    rfl
  | decode =>
    have handle := exec_sameHandle done (by decide) (by decide)
    refine (exec_decode_decodeOther s s.cfg s.pmf m s.s2m s.dict s.jump done source).trans ?_
    rw [← config.cfg, ← config.pmf, ← handle.s2m, ← handle.dict, ← handle.jump]
    rfl
  | pext => exact exec_pext_src done source
  | pdep => exact exec_pdep_src done source

/-- Settles O20: `ENCODE` takes `ABORT_MARGIN` only, `DECODE` nothing, and `startBlock` overwrites the registers. -/
theorem handleNotDisturbedByConfig : Obligations.HandleNotDisturbedByConfig := by
  unfold Obligations.HandleNotDisturbedByConfig
  intro s t c p
  refine ⟨fun done margin => ?_, fun done => ?_, fun i e d which => ?_⟩
  · refine (exec_encode_encodeOther s p s.src margin done rfl).trans ?_
    rw [← (exec_done done).2.2.src]
    rfl
  · have handle := exec_sameHandle done (by decide) (by decide)
    refine (exec_decode_decodeOther s c p s.src s.s2m s.dict s.jump done rfl).trans ?_
    rw [← (exec_done done).2.2.src, ← handle.s2m, ← handle.dict, ← handle.jump]
    rfl
  · simp only [List.mem_cons, List.not_mem_nil, or_false] at which
    rcases which with rfl | rfl | rfl | rfl <;> rfl

end Sys2Proof.Proofs
end

section
/-! A block decodes to itself (44_decode.md R244): each kind of frame `ENCODE` leaves is one `DECODE` reads back. -/

namespace Sys2Proof.Proofs

open Sys2Proof Sys2Proof.Machine

/-! ### The rare entries put back -/

theorem getD_set_of_lt {α : Type} (l : List α) (i j : Nat) (x fallback : α) (hi : i < l.length) :
    (l.set j x).getD i fallback = if j = i then x else l.getD i fallback := by
  rw [List.getD_eq_getElem _ _ (by rwa [List.length_set]), List.getElem_set, List.getD_eq_getElem _ _ hi]

/-- Entries that hold the bytes of a block, applied where it differs, restore it. -/
theorem patched_eq (block : List Byte) (rares : List RareEntry) (damaged : List Byte)
    (same : damaged.length = block.length) (values : ∀ r ∈ rares, r.value = block.getD r.offset 0)
    (covered : ∀ i < block.length, (∃ r ∈ rares, r.offset = i) ∨ damaged.getD i 0 = block.getD i 0) :
    patched rares damaged = block := by
  induction rares generalizing damaged with
  | nil =>
    refine List.ext_getElem same fun i hi hb => ?_
    rw [← List.getD_eq_getElem _ 0, ← List.getD_eq_getElem _ 0]
    exact (covered i hb).resolve_left (by simp)
  | cons r rares ih =>
    obtain ⟨value, values⟩ := List.forall_mem_cons.mp values
    refine ih (damaged.set r.offset r.value) (by rwa [List.length_set]) values fun i hi => ?_
    rw [getD_set_of_lt _ _ _ _ _ (same ▸ hi)]
    by_cases here : r.offset = i
    · exact .inr (by rw [if_pos here, value, here])
    · rw [if_neg here]
      refine (covered i hi).imp_left fun ⟨r', hr', offset⟩ => ?_
      rcases List.mem_cons.mp hr' with rfl | later
      · exact absurd offset here
      · exact ⟨r', later, offset⟩

theorem mem_raresIn_iff {s : State} {pad : Nat} {read : List Byte} {r : RareEntry} : r ∈ raresIn s pad read ↔
    ∃ i < read.length, s.isRare (read.getD i 0) = true ∧ r = { offset := pad + i, value := read.getD i 0 } := by
  simp only [raresIn, List.mem_map, List.mem_filter, Prod.exists, List.mk_mem_zipIdx_iff_getElem?]
  constructor
  · rintro ⟨x, i, ⟨here, rare⟩, rfl⟩
    obtain ⟨hi, rfl⟩ := List.getElem?_eq_some_iff.mp here
    exact ⟨i, hi, by rwa [List.getD_eq_getElem _ _ hi], by rw [List.getD_eq_getElem _ _ hi]⟩
  · rintro ⟨i, hi, rare, rfl⟩
    rw [List.getD_eq_getElem _ _ hi] at rare ⊢
    exact ⟨read[i], i, ⟨List.getElem?_eq_getElem hi, rare⟩, rfl⟩

/-! ### The symbols' source bytes agree with the block in the high bits (R190) -/

section Bytes

variable {s : State} (h : HandleFacts s)

include h

theorem high_bits_of_common {x : Byte} (common : s.isRare x = false) :
    (srcOf s.alphaList (symbolOf s x)).toNat >>> s.hS = x.toNat >>> s.hS := by
  have group : x.toNat >>> s.hS < 256 := (Nat.shiftRight_le _ _).trans_lt x.isLt
  have length : s.alphaList.length = s.hA := by rw [State.alphaList, List.length_map, List.length_range]
  rw [symbolOf, if_neg (by rw [common]; decide)]
  rcases h.s2m _ group with ⟨m, -, high, entry⟩ | ⟨-, entry⟩
  · rw [entry, high]
  · rw [State.isRare, entry, length, beq_self_eq_true] at common
    cases common

/-- The block decoded from its own spelling, before and after its rare entries are applied. -/
theorem patched_unpatched {cws : List Nat} (words : s.wordsOf cws = 0 :: s.symbols) :
    patched s.rares (unpatched s (s.source.take (padOf s.srcLen)) (pextPlane s.alignedPart s.hS) cws) = s.source := by
  have parts := pad_add_aligned s.srcLen
  have aligned := length_alignedPart s
  have symbols := length_symbols s
  have bytes : (s.symbols.map (srcOf s.alphaList)).length = s.alignedPart.length := by
    rw [List.length_map, symbols, aligned]
  have whole : 8 ∣ (s.symbols.map (srcOf s.alphaList)).length := by
    rw [bytes, aligned]
    exact alignedOf_dvd _
  have padding : (s.source.take (padOf s.srcLen)).length = padOf s.srcLen := by
    rw [List.length_take, s.source_length]
    omega
  have split : ∀ i, s.alignedPart.getD i 0 = s.source.getD (padOf s.srcLen + i) 0 := fun i => by
    simp [State.alignedPart]
  apply patched_eq
  · rw [length_unpatched padding (by rw [words, List.length_cons, symbols]), s.source_length]
  · intro r hr
    obtain ⟨i, -, -, rfl⟩ := mem_raresIn_iff.mp hr
    exact split i
  · intro i hi
    rw [s.source_length] at hi
    rw [unpatched, words, List.tail_cons]
    rcases Nat.lt_or_ge i (padOf s.srcLen) with inPadding | inAligned
    · refine .inr ?_
      rw [List.getD_append _ _ _ _ (by rwa [padding])]
      simp [inPadding]
    · obtain ⟨m, rfl⟩ := Nat.exists_eq_add_of_le inAligned
      have hm : m < s.alignedPart.length := by omega
      cases rare : s.isRare (s.alignedPart.getD m 0) with
      | true => exact .inl ⟨_, mem_raresIn_iff.mpr ⟨m, hm, rare, rfl⟩, rfl⟩
      | false =>
        refine .inr ?_
        rw [List.getD_append_right _ _ _ _ (by omega), padding, Nat.add_sub_cancel_left, ← split]
        refine getD_pdepPlane_pextPlane whole bytes.symm (bytes ▸ hm) ?_
        have here : (s.symbols.map (srcOf s.alphaList)).getD m 0
            = srcOf s.alphaList (symbolOf s (s.alignedPart.getD m 0)) := by
          rw [List.getD_eq_getElem _ _ (bytes ▸ hm), List.getD_eq_getElem _ _ hm]
          simp [symbols_eq]
        rw [here]
        exact high_bits_of_common h rare

/-- Codewords of value 0 behind the others stand for empty words (R163 (b)). -/
theorem wordsOf_filler (cws : List Nat) (n : Nat) : s.wordsOf (cws ++ List.replicate n 0) = s.wordsOf cws := by
  induction n with
  | zero => rw [List.replicate_zero, List.append_nil]
  | succ n ih =>
    have slot : ∀ c, wordOf s (c % 2 ^ s.hO * 2 ^ s.hK + 0) = [] := fun c => by
      have inside := position_lt (s := s) (c := c) (Nat.two_pow_pos s.hK)
      rw [← symsAt_dictList inside, symsAt_eq_nil_iff h.dict (by rwa [length_dictList])]
      exact Nat.dvd_mul_left _ _
    rw [List.replicate_succ', ← List.append_assoc, wordsOf_eq, positionsOf_append_singleton, List.flatMap_append,
      ← wordsOf_eq, ih, List.flatMap_singleton, slot, List.append_nil]

theorem rares_inside : ∀ r ∈ s.rares, r.offset < s.srcLen := by
  intro r hr
  obtain ⟨i, hi, -, rfl⟩ := mem_raresIn_iff.mp hr
  rw [length_alignedPart] at hi
  have parts := pad_add_aligned s.srcLen
  dsimp only
  omega

end Bytes

/-- The offset form of R99 holds every length of a block. -/
theorem length_lt_offset {n : Nat} (fits : n < 2 ^ 64) : n < 256 ^ offsetWidth n := by
  rw [offsetWidth]
  split
  · next small => simpa using small
  split
  · next small => simpa using small
  split
  · next small => simpa using small
  · simpa using fits

/-! ### The round trip -/

section RoundTrip

variable {s u : State}

/-- What a decoded block says: no error, its length and its bytes. -/
theorem decodedTo_block {v : State} {kind : FrameKind} {rare : Nat} {block : List Byte} {n : Nat}
    (decoded : v.decodedTo u kind rare block) (length : u.blkN = n) :
    v.status.report = none ∧ v.result = n ∧ v.readDst 0 n = block := by
  obtain ⟨status, result, -, bytes, -⟩ := decoded
  refine ⟨by rw [status]; rfl, result.trans length, length ▸ bytes⟩

/-- A frame of the block's length. -/
theorem roundTrip_copy (can : u.canDecode) (length : u.blkN = s.srcLen) (same : u.source = s.source) :
    ∃ v, exec .decode u = .next v ∧ v.status.report = none ∧ v.result = s.srcLen
      ∧ v.readDst 0 s.srcLen = s.source := by
  have size : u.srcLen = u.blkN := by rw [← u.source_length, same, s.source_length, length]
  obtain ⟨v, done, decoded, -⟩ := (decodeByLength u can).1 size
  obtain ⟨report, result, bytes⟩ := decodedTo_block decoded length
  exact ⟨v, done, report, result, bytes.trans same⟩

/-- The frame of one byte. -/
theorem roundTrip_constant (can : u.canDecode) (length : u.blkN = s.srcLen) (some_ : 0 < s.srcLen)
    (constant : ¬ s.notConstant) (one : u.source = [s.srcAt 0]) :
    ∃ v, exec .decode u = .next v ∧ v.status.report = none ∧ v.result = s.srcLen
      ∧ v.readDst 0 s.srcLen = s.source := by
  have block : List.replicate s.srcLen (s.srcAt 0) = s.source := by
    refine List.ext_getElem (by simp) fun i hi hs => ?_
    rw [List.length_replicate] at hi
    rw [List.getElem_replicate, ← List.getD_eq_getElem _ 0, getD_source hi]
    by_contra differs
    exact constant ⟨i, hi, fun same => differs same.symm⟩
  by_cases single : s.srcLen = 1
  · exact roundTrip_copy can length (by rw [one, ← block, single]; rfl)
  · have size : u.srcLen = 1 := by rw [← u.source_length, one]; rfl
    have first : u.srcAt 0 = s.srcAt 0 := by
      rw [← getD_source (s := u) (by omega), one]
      rfl
    obtain ⟨v, done, decoded, -⟩ := (decodeByLength u can).2.1 size (by omega)
    obtain ⟨report, result, bytes⟩ := decodedTo_block decoded length
    exact ⟨v, done, report, result, by rw [bytes, length, first, block]⟩

/-- A state with the parameters, the handle and the tables of another. -/
def withHandle (u s : State) : State :=
  { u with inst := s.inst, handle := s.handle, alpha := s.alpha, s2m := s.s2m, dict := s.dict, jump := s.jump,
           dec := s.dec }

theorem withHandle_handleWf (u : State) (wf : s.HandleWf) : (withHandle u s).HandleWf := wf

/-- What decides a `DECODE` with the whole handle decides it without the tables it does not read. -/
theorem exec_decode_of_withHandle (inst : u.inst = s.inst) (handle : u.handle = s.handle) (alpha : u.alpha = s.alpha)
    (dec : u.dec = s.dec) {kind : FrameKind} {rare n : Nat} {block : List Byte} (length : u.blkN = n)
    (whole : ∃ v, exec .decode (withHandle u s) = .next v ∧ v.decodedTo (withHandle u s) kind rare block) :
    ∃ v, exec .decode u = .next v ∧ v.status.report = none ∧ v.result = n ∧ v.readDst 0 n = block := by
  obtain ⟨v, done⟩ := exec_next .decode u
  have other := exec_decode_decodeOther u u.cfg u.pmf u.src s.s2m s.dict s.jump done rfl
  have same : withHandle u s = decodeOther u u.cfg u.pmf u.src s.s2m s.dict s.jump := by
    rw [withHandle, ← inst, ← handle, ← alpha, ← dec]
    rfl
  rw [← same] at other
  obtain ⟨v', done', decoded⟩ := whole
  cases other.symm.trans done'
  have facts := decodedTo_block decoded length
  exact ⟨v, done, facts⟩

/-- A coded frame is decoded from the spelling of its block. -/
theorem roundTrip_coded (ok : s.inst.ok) (wf : s.HandleWf) (can : (withHandle u s).canDecode)
    (length : u.blkN = s.srcLen) (small : s.srcLen < 2 ^ 64) (few : s.rares.length ≤ 255) (long : u.srcLen ≠ 1)
    (short : u.srcLen < s.srcLen) (frame : u.source = s.codedWith (spellingOf s s.symbols)) :
    ∃ v, exec .decode (withHandle u s) = .next v
      ∧ v.decodedTo (withHandle u s) .coded s.rares.length s.source := by
  have h := handleFacts wf
  obtain ⟨fits, -, words, -⟩ := spells_spellingOf h
  have reads := readsAs_streamOf ((by decide : 1 ≤ 4).trans h.low) fits
  have filled := (wordsOf_filler h (spellingOf s s.symbols) (fillerOf s.hK (spellingOf s s.symbols).length)).trans words
  have padding : (s.source.take (padOf s.srcLen)).length = padOf s.srcLen := by
    rw [List.length_take, s.source_length]
    exact min_eq_left (padOf_le _)
  have plane : (pextPlane s.alignedPart s.hS).length = planeLen s.srcLen s.hS := by
    rw [pextPlane_length, length_alignedPart, planeLen_eq]
  have inside := rares_inside h
  have offsets : ∀ r ∈ s.rares, r.offset < 256 ^ offsetWidth s.srcLen := fun r hr =>
    (inside r hr).trans (length_lt_offset small)
  have count := congrArg List.length filled
  rw [List.length_cons, length_symbols] at count
  rw [State.codedWith, frameOf, ← length] at frame
  rw [← length] at padding plane offsets inside count short
  have decoded := (decodeReadsFrame (withHandle u s) _ _ _ s.rares _ ok (withHandle_handleWf u wf) can padding reads few
    offsets plane frame long short).2.2 count inside
  obtain ⟨v, done, blockOf⟩ := decoded
  have block := patched_unpatched h filled
  rw [unpatched] at block
  rw [← block, ← length]
  exact ⟨v, done, blockOf⟩

end RoundTrip

/-- Settles O55: the empty, the constant and the raw frame are told by their length, a coded one spells its block. -/
theorem roundTrip : Obligations.RoundTrip := by
  unfold Obligations.RoundTrip
  intro s t u ok wf can done inst hvalid handle alpha dec size frame length
  have encodes := can
  obtain ⟨-, srcFits, dstFits, room⟩ := can
  rw [exec_encode_of_canEncode encodes] at done
  cases done
  have whole : ∀ {x : State} {f : List Byte} {kind : FrameKind} {raw : Bool} {n : Nat},
      encodeFrame s.startBlock s.source = endEncode x f kind raw n → u.source = f := fun e => by
    rw [e] at frame
    exact frame.trans (readDst_endEncode _ _ _ _ _)
  have short : u.srcLen ≤ s.srcLen := by
    obtain ⟨f, kind, raw, n, enc, rare, e, most, -⟩ := encodeFrame_ends_with (s := s.startBlock) (b := s.source)
      (fun _ _ => True) trivial (fun _ _ => trivial) fun _ _ => trivial
    rw [← u.source_length, whole e, ← s.source_length]
    exact most
  have canU : u.canDecode := by
    refine ⟨hvalid, ?_, ?_⟩
    · rw [inst]
      exact short.trans srcFits
    · rw [inst, length]
      exact room.trans dstFits
  rcases encodeFrame_cases s.startBlock s.source with ⟨empty, e⟩ | ⟨nonempty, constant, e⟩ | ⟨-, -, e⟩
    | ⟨-, -, w, -, e⟩ | ⟨-, -, w, -, -, e⟩ | ⟨-, -, w, loop, shorter, e⟩
  · exact roundTrip_copy canU length ((whole e).trans empty.symm)
  · have some_ : 0 < s.srcLen := s.source_length ▸ List.length_pos_of_ne_nil nonempty
    exact roundTrip_constant canU length some_ ((allEqual_source_iff s).mp constant)
      ((whole e).trans (congrArg (· :: []) (getD_source some_)))
  · exact roundTrip_copy canU length (whole e)
  · exact roundTrip_copy canU length (whole e)
  · exact roundTrip_copy canU length (whole e)
  · have h := handleFacts wf
    have wide := hK_le ok h
    have coded := codedFrame_eq (s := s) wide loop
    have recorded := blockLoop_go (s := s) loop
    have long := length_codedFrame_pos (s := s) ((by decide : 1 ≤ 4).trans h.low) s.source w
    have source : u.source = codedFrame s s.source (encFlush s w) := whole e
    have small : s.srcLen < 2 ^ 64 := calc
      s.srcLen ≤ s.inst.srcSize := srcFits
      _ < 2 ^ s.inst.lenw := ok.2.2.2.1
      _ ≤ 2 ^ 64 := Nat.pow_le_pow_right (by decide) ok.2.2.1
    refine exec_decode_of_withHandle inst handle alpha dec length (roundTrip_coded ok wf ⟨hvalid, ?_, ?_⟩ length small
      (rares_eq s ▸ recorded.rcnt ▸ recorded.few) ?_ ?_ (source.trans coded))
    · exact short.trans srcFits
    · exact length.trans_le (room.trans dstFits)
    · rw [← u.source_length, source]
      omega
    · rw [← u.source_length, source, ← s.source_length]
      exact shorter

end Sys2Proof.Proofs
end

section
/-! The state invariant (10_state.md sections 2 to 5): every command, every host access and the reset input keep the
widths of the registers, the form of the memories and the values of the number system. -/

namespace Sys2Proof.Proofs

open Sys2Proof Sys2Proof.Machine

/-! ### The parts a command may change -/

/-- The encoder registers within their widths (10_state.md R36, R38, R40). -/
abbrev EncFits (c : Config.Instance) (r : EncRegs) : Prop :=
  r.j < 2 ^ c.koMax ∧ r.nbits < 8 ∧ r.icur < 2 ^ c.lenw ∧ r.ocur < 2 ^ c.lenw ∧ r.rcnt ≤ 255 ∧ r.rcur < 2 ^ c.lenw

/-- The decoder registers within their widths (10_state.md R37, R40). -/
abbrev DecFits (c : Config.Instance) (r : DecRegs) : Prop :=
  r.v < 2 ^ c.koMax ∧ r.ucur < 2 ^ (c.lenw + 3) ∧ r.syms < 2 ^ c.lenw ∧ r.rcur < 2 ^ c.lenw ∧ r.pcur ≤ 255

/-- A memory in canonical form whose epoch has been handed out. -/
structure MemoryFits {α : Type} (m : Memory α) (fresh : Nat) : Prop where
  wf : m.wf
  epoch : m.epoch < fresh

section MemoryFits

variable {α : Type} {m : Memory α} {fresh fresh' : Nat}

theorem MemoryFits.mono (h : MemoryFits m fresh) (later : fresh ≤ fresh') : MemoryFits m fresh' :=
  ⟨h.wf, h.epoch.trans_le later⟩

theorem MemoryFits.writeRange (h : MemoryFits m fresh) (a : Nat) (vs : List α) : MemoryFits (m.writeRange a vs) fresh :=
  ⟨Memory.wf_writeRange h.wf a vs, h.epoch⟩

theorem memoryFits_unspecified (fresh : Nat) : MemoryFits (Memory.unspecified fresh : Memory α) (fresh + 1) :=
  ⟨Memory.wf_unspecified fresh, Nat.lt_succ_self fresh⟩

theorem memoryFits_filled (fresh : Nat) (vs : List α) : MemoryFits (Memory.filled fresh vs) (fresh + 1) :=
  (memoryFits_unspecified fresh).writeRange 0 vs

end MemoryFits

/-- The invariant by its parts. -/
structure WfParts (s : State) : Prop where
  ok : s.inst.ok
  pmf : MemoryFits s.pmf s.fresh
  src : MemoryFits s.src s.fresh
  dst : MemoryFits s.dst s.fresh
  alpha : MemoryFits s.alpha s.fresh
  s2m : MemoryFits s.s2m s.fresh
  dict : MemoryFits s.dict s.fresh
  jump : MemoryFits s.jump s.fresh
  dec : MemoryFits s.dec s.fresh
  rare : MemoryFits s.rare s.fresh
  status : s.status.wf
  handle : s.handleRegsWf
  lengths : s.lengthsWf
  enc : EncFits s.inst s.enc
  decr : DecFits s.inst s.decr
  probs : s.probsWf

theorem wfParts {s : State} (wf : s.wf) : WfParts s := by
  obtain ⟨ok, ⟨pmf, src, dst, alpha, s2m, dict, jump, dec, rare⟩,
    ⟨pmf', src', dst', alpha', s2m', dict', jump', dec', rare'⟩, status, handle, lengths, enc, decr, probs⟩ := wf
  exact ⟨ok, ⟨pmf, pmf'⟩, ⟨src, src'⟩, ⟨dst, dst'⟩, ⟨alpha, alpha'⟩, ⟨s2m, s2m'⟩, ⟨dict, dict'⟩, ⟨jump, jump'⟩,
    ⟨dec, dec'⟩, ⟨rare, rare'⟩, status, handle, lengths, enc, decr, probs⟩

theorem wf_of_parts {s : State} (p : WfParts s) : s.wf :=
  ⟨p.ok, ⟨p.pmf.wf, p.src.wf, p.dst.wf, p.alpha.wf, p.s2m.wf, p.dict.wf, p.jump.wf, p.dec.wf, p.rare.wf⟩,
    ⟨p.pmf.epoch, p.src.epoch, p.dst.epoch, p.alpha.epoch, p.s2m.epoch, p.dict.epoch, p.jump.epoch, p.dec.epoch,
      p.rare.epoch⟩, p.status, p.handle, p.lengths, p.enc, p.decr, p.probs⟩

/-- What a command that keeps the handle has to keep besides. -/
structure Kept (s t : State) : Prop where
  fresh : s.fresh ≤ t.fresh
  dst : MemoryFits t.dst t.fresh
  rare : MemoryFits t.rare t.fresh
  status : t.status.wf
  result : t.result < 2 ^ s.inst.lenw
  enc : EncFits s.inst t.enc
  decr : DecFits s.inst t.decr

section Commands

variable {s t : State}

theorem wfParts_of_kept (wf : WfParts s) (config : SameConfig s t) (handle : SameHandle s t) (kept : Kept s t) :
    WfParts t := by
  have regs : t.hK = s.hK ∧ t.hO = s.hO := ⟨by rw [State.hK, handle.handle, State.hK],
    by rw [State.hO, handle.handle, State.hO]⟩
  refine ⟨?_, ?_, ?_, kept.dst, ?_, ?_, ?_, ?_, ?_, kept.rare, kept.status, ?_, ?_, ?_, ?_, ?_⟩
  · rw [config.inst]; exact wf.ok
  · rw [config.pmf]; exact wf.pmf.mono kept.fresh
  · rw [config.src]; exact wf.src.mono kept.fresh
  · rw [handle.alpha]; exact wf.alpha.mono kept.fresh
  · rw [handle.s2m]; exact wf.s2m.mono kept.fresh
  · rw [handle.dict]; exact wf.dict.mono kept.fresh
  · rw [handle.jump]; exact wf.jump.mono kept.fresh
  · rw [handle.dec]; exact wf.dec.mono kept.fresh
  · rw [State.handleRegsWf, regs.1, regs.2, handle.handle, handle.hvalid, config.inst]
    exact wf.handle
  · obtain ⟨margin, srcLen, dstCap, blkN, -⟩ := wf.lengths
    rw [State.lengthsWf, config.cfg, config.srcLen, config.dstCap, config.blkN, config.inst]
    exact ⟨margin, srcLen, dstCap, blkN, kept.result⟩
  · rw [config.inst]; exact kept.enc
  · rw [config.inst]; exact kept.decr
  · rw [State.probsWf, config.cfg, config.pmf, config.inst, handle.handle, handle.alpha, handle.dict]
    exact wf.probs

theorem lenw_pos (c : Config.Instance) : 0 < 2 ^ c.lenw := Nat.two_pow_pos _

/-- `START` is a position of the parameters, whether or not there is a handle (R29, R187). -/
theorem start_lt (wf : WfParts s) : s.handle.start < 2 ^ s.inst.koMax := by
  obtain ⟨without, within⟩ := wf.handle
  cases handle : s.status.hvalid with
  | false =>
    rw [without handle]
    exact Nat.two_pow_pos _
  | true =>
    obtain ⟨-, total, start⟩ := within handle
    exact start.trans_le (Nat.pow_le_pow_right (by decide) total)

theorem encFits_startBlock (wf : WfParts s) : EncFits s.inst s.startBlock.enc :=
  ⟨start_lt wf, Nat.zero_lt_succ _, lenw_pos _, lenw_pos _, Nat.zero_le _, lenw_pos _⟩

theorem decFits_zero (c : Config.Instance) : DecFits c DecRegs.zero :=
  ⟨Nat.two_pow_pos _, Nat.two_pow_pos _, lenw_pos _, lenw_pos _, Nat.zero_le _⟩

theorem status_failed_wf (st : Status) (e : BlockError) : (st.failed e).wf :=
  ⟨fun busy => (nomatch busy), fun _ => ⟨rfl, rfl⟩, fun raw => (nomatch raw)⟩

theorem status_finished_wf (st : Status) {kind : FrameKind} {raw : Bool} (fallback : raw = true → kind = .raw) :
    (st.finished kind raw).wf :=
  ⟨fun busy => (nomatch busy), fun error => (nomatch error), fallback⟩

/-- A block command that ends in the error of a check. -/
theorem kept_raiseBlock (wf : WfParts s) (e : BlockError) : Kept s (s.startBlock.raiseBlock e) :=
  ⟨le_rfl, wf.dst, wf.rare, status_failed_wf _ e, lenw_pos _, encFits_startBlock wf, decFits_zero _⟩

theorem kept_raise_startBlock (wf : WfParts s) (e : BlockError) : Kept s (s.startBlock.raise e) :=
  ⟨le_rfl, wf.dst, wf.rare, status_failed_wf _ e, lenw_pos _, encFits_startBlock wf, decFits_zero _⟩

theorem kept_raise (wf : WfParts s) (e : BlockError) : Kept s (s.raise e) :=
  ⟨le_rfl, wf.dst, wf.rare, status_failed_wf _ e, lenw_pos _, wf.enc, wf.decr⟩

theorem kept_nop (wf : WfParts s) : Kept s (s.finish .none false 0) :=
  ⟨le_rfl, wf.dst, wf.rare, status_finished_wf _ (by decide), lenw_pos _, wf.enc, wf.decr⟩

/-! ### `ENCODE` -/

/-- The scratch while the Marlin loop runs: `OCUR` and `NBITS` together are bounded by the budget at the last byte
that did not abort (43_encode.md R208, R210). -/
structure Scratch (s : State) (budget : Nat) (read : List Byte) (w : EncWork) : Prop where
  recorded : ReadSoFar s (padOf s.srcLen) read w
  bits : w.regs.nbits < 8
  drained : 8 * w.regs.ocur + w.regs.nbits ≤ 8 * budget + 7 + s.hK
  rcur : w.regs.rcur = 0
  rare : MemoryFits w.rare s.fresh

theorem encTransition_drained (m : Nat) (w : EncWork) :
    8 * (encTransition s m w).regs.ocur + (encTransition s m w).regs.nbits
      ≤ 8 * w.regs.ocur + w.regs.nbits + s.hK := by
  by_cases flag : s.flag ≤ s.jumpAt (w.regs.j * (s.hA + 1) + m)
  · rw [encTransition_of_flag flag]
    dsimp only
    rw [emit_ocur, emit_nbits]
    omega
  · rw [encTransition_of_no_flag flag]
    exact Nat.le_add_right _ _

@[simp] theorem encTransition_rcur (m : Nat) (w : EncWork) : (encTransition s m w).regs.rcur = w.regs.rcur := by
  by_cases flag : s.flag ≤ s.jumpAt (w.regs.j * (s.hA + 1) + m)
  · rw [encTransition_of_flag flag]
    rfl
  · rw [encTransition_of_no_flag flag]

theorem scratch_readByte {budget : Nat} {read : List Byte} {x : Byte} {w : EncWork} (h : Scratch s budget read w)
    (goesOn : ¬ Aborts s budget w) (notFull : s.isRare x = true → w.regs.rcnt ≠ 255) :
    Scratch s budget (read ++ [x]) (readByte s (padOf s.srcLen) x w) := by
  have within : w.regs.ocur ≤ budget := by
    rw [Aborts, not_lt] at goesOn
    omega
  refine ⟨readSoFar_readByte h.recorded notFull, encTransition_nbits_lt _ _ _ ?_, ?_, ?_, ?_⟩
  · split
    · exact h.bits
    · exact h.bits
  · have bits := h.bits
    refine (encTransition_drained _ _).trans ?_
    split
    · change 8 * w.regs.ocur + w.regs.nbits + s.hK ≤ _
      omega
    · omega
  · rw [readByte, encTransition_rcur]
    split
    · exact h.rcur
    · exact h.rcur
  · rw [readByte_rare]
    split
    · exact h.rare.writeRange _ _
    · exact h.rare

theorem blockLoop_scratch (wf : WfParts s) {w : EncWork} (ends : blockLoop s = .go w ∨ blockLoop s = .toRaw w) :
    ∃ read, read.length ≤ alignedOf s.srcLen ∧ Scratch s (encBudget s.srcLen s.hS) read w := by
  have all := encLoop_induct (s := s.startBlock) (pad := padOf s.srcLen) (budget := encBudget s.srcLen s.hS)
    (Scratch s (encBudget s.srcLen s.hS)) (fun read x w h goesOn notFull => scratch_readByte h goesOn notFull)
    s.alignedPart [] (encStart s.startBlock) ⟨readSoFar_start s _, Nat.zero_lt_succ _, by simp [encStart, EncRegs.zero], rfl, wf.rare⟩
  have loop : blockLoop s = encLoop s.startBlock (padOf s.srcLen) (encBudget s.srcLen s.hS) s.alignedPart
      (encStart s.startBlock) := by
    rw [blockLoop, loopOf, s.source_length]
    rfl
  rw [loop] at ends
  rcases ends with done | gaveUp
  · exact ⟨s.alignedPart, (length_alignedPart s).le, all.1 w done⟩
  · obtain ⟨read, x, rest, split_, scratch, -⟩ := all.2 w gaveUp
    refine ⟨read, ?_, scratch⟩
    rw [← length_alignedPart, split_, List.length_append]
    exact Nat.le_add_right _ _

/-- The room the lengths leave: the aligned part ends at least a group below `2^LENW`. -/
theorem aligned_room (ok : s.inst.ok) (length : s.srcLen < 2 ^ s.inst.lenw) :
    alignedOf s.srcLen + 8 ≤ 2 ^ s.inst.lenw ∧ encBudget s.srcLen s.hS + 8 < 2 ^ s.inst.lenw := by
  obtain ⟨-, five, -⟩ := ok
  obtain ⟨q, hq⟩ := alignedOf_dvd s.srcLen
  have parts := pad_add_aligned s.srcLen
  have groups : 2 ^ s.inst.lenw = 8 * 2 ^ (s.inst.lenw - 3) := by
    rw [show 8 = 2 ^ 3 from rfl, ← Nat.pow_add]
    congr 1
    omega
  have wide : 2 ^ 5 ≤ 2 ^ s.inst.lenw := Nat.pow_le_pow_right (by decide) five
  have budget : encBudget s.srcLen s.hS ≤ alignedOf s.srcLen - 1 := Nat.sub_le _ _
  omega

theorem encFits_flushed (wf : WfParts s) (can : s.canEncode) {read : List Byte} {w : EncWork}
    (length : read.length ≤ alignedOf s.srcLen) (h : Scratch s (encBudget s.srcLen s.hS) read w) :
    EncFits s.inst w.regs ∧ EncFits s.inst (afterFlush s w).regs := by
  obtain ⟨kMax, total, start⟩ := wf.handle.2 can.1
  have wide : s.hK ≤ 25 := kMax.trans wf.ok.1
  obtain ⟨room, budget⟩ := aligned_room wf.ok wf.lengths.2.1
  have place : w.regs.j < 2 ^ s.inst.koMax :=
    (h.recorded.place start).trans_le (Nat.pow_le_pow_right (by decide) total)
  have icur : w.regs.icur < 2 ^ s.inst.lenw := by
    rw [h.recorded.icur]
    omega
  have drained := h.drained
  have bits := h.bits
  refine ⟨⟨place, bits, icur, by omega, h.recorded.few, by rw [h.rcur]; exact lenw_pos _⟩,
    ⟨place, Nat.zero_lt_succ _, icur, ?_, h.recorded.few, ?_⟩⟩
  · have fill : (fillBytes (emit s.hK (codeOf s.hK w.regs.j) w).regs).length
        ≤ ((emit s.hK (codeOf s.hK w.regs.j) w).regs.nbits + 7) / 8 := by
      rw [fillBytes]
      split
      · exact Nat.zero_le _
      · next some_ =>
        rw [List.length_singleton]
        omega
    have ocur := emit_ocur s.hK (codeOf s.hK w.regs.j) w
    have nbits := emit_nbits s.hK (codeOf s.hK w.regs.j) w
    change (emit s.hK (codeOf s.hK w.regs.j) w).regs.ocur
      + (fillBytes (emit s.hK (codeOf s.hK w.regs.j) w).regs).length < 2 ^ s.inst.lenw
    omega
  · change alignedOf s.source.length / 8 < 2 ^ s.inst.lenw
    rw [s.source_length]
    omega

theorem kept_encode (wf : WfParts s) (done : exec .encode s = .next t) : Kept s t := by
  rcases exec_encode_cases done with ⟨e, -, rfl⟩ | ⟨can, rfl⟩
  · exact kept_raiseBlock wf e
  obtain ⟨frame, kind, raw, n, enc, rare, e, length, -, fallback, fits⟩ := encodeFrame_ends_with (s := s.startBlock)
    (b := s.source) (fun enc rare => EncFits s.inst enc ∧ MemoryFits rare s.fresh) ⟨encFits_startBlock wf, wf.rare⟩
    (fun w ends => by
      obtain ⟨read, short, scratch⟩ := blockLoop_scratch wf ends
      exact ⟨(encFits_flushed wf can short scratch).1, scratch.rare⟩)
    (fun w ends => by
      obtain ⟨read, short, scratch⟩ := blockLoop_scratch wf (.inl ends)
      exact ⟨(encFits_flushed wf can short scratch).2, scratch.rare⟩)
  rw [s.source_length] at length
  rw [e]
  exact ⟨Nat.le_succ _, memoryFits_filled _ _, fits.2.mono (Nat.le_succ _), status_finished_wf _ fallback,
    length.trans_lt wf.lengths.2.1, fits.1, decFits_zero _⟩

/-! ### `DECODE` -/

theorem parseFrame_eq_ok {k sh n : Nat} {f : List Byte} {c : Sections} (parsed : parseFrame k sh n f = .ok c) :
    c = sectionsOf k sh n f := by
  rw [parseFrame] at parsed
  dsimp only at parsed
  split at parsed
  · cases parsed
  split at parsed
  · cases parsed
  · cases parsed
    rfl

theorem decUnits_ucur (c : Sections) (stream : List Byte) {w : DecWork} (start : w.regs.ucur = 0) :
    (decUnits s c stream w).regs.ucur = c.units * s.hK := by
  rw [decUnits]
  cases c.units with
  | zero => rw [Nat.zero_mul]; exact start
  | succ n => rw [List.range_succ, List.foldl_append]; rfl

theorem decFits_unitsLoop (wf : WfParts s) (can : s.canDecode) {c : Sections}
    (parsed : parseFrame s.hK s.hS s.blkN s.source = .ok c) {rcur pcur : Nat}
    (hrcur : rcur = 0 ∨ rcur = c.aligned / 8) (hpcur : pcur ≤ c.rc) :
    DecFits s.inst { (unitsLoop s.startBlock s.source c).regs with rcur := rcur, pcur := pcur } := by
  obtain ⟨-, total, -⟩ := wf.handle.2 can.1
  obtain ⟨few, -, aligned, -⟩ := parseFrame_ok parsed
  have flag : s.flag ≤ 2 ^ s.inst.koMax := Nat.pow_le_pow_right (by decide) total
  have loop := decUnits_keeps s.startBlock c ((s.source.take c.m).drop (c.pad + 1))
    (fun w => w.regs.v < s.flag ∧ w.regs.syms < 2 ^ s.inst.lenw)
    (fun w u _ => ⟨Nat.mod_lt _ (Nat.two_pow_pos _), Nat.mod_lt _ (lenw_pos _)⟩) (decStart s.startBlock s.source c)
    ⟨Nat.two_pow_pos _, lenw_pos _⟩
  have ucur : (unitsLoop s.startBlock s.source c).regs.ucur = c.units * s.hK := decUnits_ucur c _ rfl
  have units : c.units * s.hK ≤ 8 * s.srcLen := by
    rw [parseFrame_eq_ok parsed, sectionsOf]
    dsimp only
    refine (Nat.div_mul_le_self _ _).trans (Nat.mul_le_mul_left 8 ?_)
    rw [s.source_length]
    omega
  have srcLen := wf.lengths.2.1
  have blkN := wf.lengths.2.2.2.1
  have size : 2 ^ (s.inst.lenw + 3) = 8 * 2 ^ s.inst.lenw := by rw [Nat.pow_add, Nat.mul_comm]
  refine ⟨loop.1.trans_le flag, ?_, loop.2, ?_, hpcur.trans few⟩
  · change (unitsLoop s.startBlock s.source c).regs.ucur < _
    rw [ucur, size]
    omega
  · have parts := pad_add_aligned s.blkN
    have positive := lenw_pos s.inst
    dsimp only
    rcases hrcur with rfl | rfl <;> omega

theorem kept_decode (wf : WfParts s) (done : exec .decode s = .next t) : Kept s t := by
  rcases exec_decode_cases done with ⟨e, -, rfl⟩ | ⟨can, rfl⟩
  · exact kept_raiseBlock wf e
  obtain ⟨dr, regs, ends⟩ := decodeFrame_ends_with s.startBlock s.source
  have decr : DecFits s.inst dr := by
    rcases regs with rfl | ⟨c, parsed, rcur, pcur, hrcur, hpcur, rfl⟩
    · exact decFits_zero _
    · exact decFits_unitsLoop wf can parsed hrcur hpcur
  rcases ends with ⟨block, kind, rare, -, -, e⟩ | ⟨cause, e⟩ <;> rw [e]
  · exact ⟨le_rfl, wf.dst.writeRange _ _, wf.rare, status_finished_wf _ (fun raw => (nomatch raw)), wf.lengths.2.2.2.1,
      encFits_startBlock wf, decr⟩
  · exact ⟨Nat.le_succ _, (wf.dst.writeRange _ _).mono (Nat.le_succ _), wf.rare.mono (Nat.le_succ _),
      status_failed_wf _ _, lenw_pos _, encFits_startBlock wf, decr⟩

/-! ### `PEXT` and `PDEP` -/

theorem kept_pext (wf : WfParts s) (done : exec .pext s = .next t) : Kept s t := by
  rcases exec_pext_cases done with rfl | ⟨-, rfl⟩
  · exact kept_raise_startBlock wf _
  have srcLen := wf.lengths.2.1
  obtain ⟨place, nbits, icur, ocur, rcnt, -⟩ := encFits_startBlock wf
  have shift := s.cfg.s.isLt
  have plane : s.srcLen * s.cfg.s.toNat / 8 ≤ s.srcLen := by
    refine Nat.div_le_of_le_mul ?_
    rw [Nat.mul_comm]
    exact Nat.mul_le_mul_right _ shift.le
  exact ⟨Nat.le_succ _, memoryFits_filled _ _, wf.rare.mono (Nat.le_succ _), status_finished_wf _ (by decide),
    plane.trans_lt srcLen, ⟨place, nbits, icur, ocur, rcnt, (Nat.div_le_self _ _).trans_lt srcLen⟩, decFits_zero _⟩

theorem kept_pdep (wf : WfParts s) (done : exec .pdep s = .next t) : Kept s t := by
  rcases exec_pdep_cases done with rfl | ⟨-, rfl⟩
  · exact kept_raise_startBlock wf _
  have blkN := wf.lengths.2.2.2.1
  obtain ⟨v, ucur, syms, -, pcur⟩ := decFits_zero s.inst
  exact ⟨le_rfl, wf.dst.writeRange _ _, wf.rare, status_finished_wf _ (by decide), blkN, encFits_startBlock wf,
    ⟨v, ucur, syms, (Nat.div_le_self _ _).trans_lt blkN, pcur⟩⟩

end Commands

end Sys2Proof.Proofs
end

section
/-! The state invariant, continued: `SRESET`, `BUILD`, the host's accesses and the step as a whole. -/

namespace Sys2Proof.Proofs

open Sys2Proof Sys2Proof.Machine

/-! ### Over the exact rationals every probability `BUILD` computes is a rational number (00_scope.md R11) -/

section Exact

variable {pmf : List Prob} {k o s : Nat} {purge : Prob}

theorem trimTail_isNumber (l : List AlphaEntry) {rare : Prob} (number : rare.isNumber = true) :
    (trimTail .exact k o purge l rare).2.isNumber = true := by
  induction l generalizing rare with
  | nil => exact number
  | cons e rest ih =>
    rw [trimTail]
    split
    · exact ih rfl
    · exact number

theorem alphabet_isNumber : (∀ e ∈ (alphabet .exact pmf k o s purge).1, e.p.isNumber = true)
    ∧ (alphabet .exact pmf k o s purge).2.isNumber = true := by
  refine ⟨fun e he => ?_, trimTail_isNumber _ rfl⟩
  obtain ⟨g, -, rfl⟩ := List.mem_map.mp ((alphabet_subperm .exact pmf k o s purge).subset he)
  rfl

theorem wordAt_isNumber {l : List DictWord} (numbers : ∀ w ∈ l, w.p.isNumber = true) (t : Nat) :
    (wordAt l t).p.isNumber = true := by
  rw [wordAt]
  rcases Nat.lt_or_ge t l.length with inside | beyond
  · rw [List.getD_eq_getElem _ _ inside]
    exact numbers _ (List.getElem_mem inside)
  · rw [List.getD_eq_default _ _ beyond]
    rfl

theorem buildChapter_isNumber {b : BuildParams} (exact_ : b.num = .exact) {pst : List Prob} {ch : List DictWord}
    (built : buildChapter b pst = some ch) : ∀ w ∈ ch, w.p.isNumber = true := by
  obtain ⟨nodes, -, rfl⟩ := buildChapter_eq_some_iff.mp built
  intro w hw
  obtain ⟨j, -, rfl⟩ := List.mem_map.mp hw
  refine wordAt_isNumber (fun w hw => ?_) _
  obtain ⟨n, -, rfl⟩ := List.mem_map.mp ((sortWords_perm _ _).mem_iff.mp hw)
  rw [exact_]
  rfl

theorem buildChapters_isNumber {b : BuildParams} (exact_ : b.num = .exact) (psts : List (List Prob)) {d : List DictWord}
    (built : buildChapters b psts = some d) : ∀ w ∈ d, w.p.isNumber = true := by
  induction psts generalizing d with
  | nil => cases built; simp
  | cons pst rest ih =>
    rw [buildChapters] at built
    split at built
    · cases built
    next ch first =>
      obtain ⟨d', others, rfl⟩ := Option.map_eq_some_iff.mp built
      intro w hw
      rcases List.mem_append.mp hw with here | later
      · exact buildChapter_isNumber exact_ first w here
      · exact ih others w later

theorem dictionary_isNumber {b : BuildInput} (exact_ : b.num = .exact) (iters : 1 ≤ b.iters) {sh mws : Nat}
    {d : List DictWord} (built : b.dictionary sh mws = some d) : ∀ w ∈ d, w.p.isNumber = true := by
  rw [dictionary_eq_iterateFrom, ← Nat.sub_add_cancel iters] at built
  obtain ⟨psts, -, last⟩ := iterateFrom_spec (fun _ => True) (fun _ _ _ _ => trivial) _ _ trivial d built
  exact buildChapters_isNumber exact_ psts last

end Exact

/-! ### `SRESET` and `BUILD` -/

section Handle

variable {s t : State}

/-- A handle dropped, with whatever report. -/
theorem wfParts_dropped (wf : WfParts s) {status : Status} (without : status.hvalid = false) (statusWf : status.wf)
    (lastRare : BitVec 8) :
    WfParts { s.dropHandle with status := status, result := 0, lastRare := lastRare } := by
  have later : s.fresh ≤ s.fresh + 1 := Nat.le_succ _
  have table {α : Type} : MemoryFits (Memory.unspecified s.fresh : Memory α) (s.fresh + 1) :=
    memoryFits_unspecified s.fresh
  obtain ⟨margin, srcLen, dstCap, blkN, -⟩ := wf.lengths
  refine ⟨wf.ok, wf.pmf.mono later, wf.src.mono later, wf.dst.mono later, table, table, table, table, table,
    wf.rare.mono later, statusWf, ⟨fun _ => rfl, fun handle => ?_⟩, ⟨margin, srcLen, dstCap, blkN, lenw_pos _⟩, wf.enc,
    wf.decr, wf.probs.1, fun _ => ⟨⟨rfl, rfl, rfl⟩, by simp [State.dropHandle], by simp [State.dropHandle]⟩⟩
  exact absurd (without.symm.trans handle) (by decide)

theorem wfParts_sreset (wf : WfParts s) (done : exec .sreset s = .next t) : WfParts t := by
  cases done
  exact wfParts_dropped wf (status := (s.dropHandle.status).finished .none false) rfl
    (status_finished_wf _ (fun raw => (nomatch raw))) 0

theorem wfParts_built (wf : WfParts s) (ok : s.configOk) {d : List DictWord} (some_ : dictionaryOf s = some d) :
    WfParts (built s d) := by
  have later : s.fresh ≤ s.fresh + 1 := Nat.le_succ _
  have table {α : Type} (vs : List α) : MemoryFits ((Memory.unspecified s.fresh).writeRange 0 vs) (s.fresh + 1) :=
    memoryFits_filled s.fresh vs
  obtain ⟨-, kMax, -, koMax⟩ := ok.2.1
  have start := built_start ok some_
  have inside := start.1
  rw [length_dictionaryOf ok some_] at inside
  obtain ⟨margin, srcLen, dstCap, blkN, -⟩ := wf.lengths
  refine ⟨wf.ok, wf.pmf.mono later, wf.src.mono later, wf.dst.mono later, table _, table _, table _, table _, table _,
    wf.rare.mono later, status_finished_wf _ (fun raw => (nomatch raw)), ⟨fun without => (nomatch without), fun _ => ?_⟩,
    ⟨margin, srcLen, dstCap, blkN, lenw_pos _⟩, wf.enc, wf.decr, wf.probs.1, fun exact_ => ?_⟩
  · rw [built_hK, built_hO]
    exact ⟨kMax, koMax, inside⟩
  · have number : s.buildInput.num = .exact := exact_
    have alpha := alphabet_isNumber (pmf := s.buildInput.pmf) (k := s.buildInput.k) (o := s.buildInput.o)
      (s := shiftOf s) (purge := s.buildInput.purge)
    rw [← number] at alpha
    refine ⟨⟨alpha.2, ?_, ?_⟩, fun c hc => ?_, fun c hc => ?_⟩
    · change (bpsFrom s.buildInput.num _ _ _ _).isNumber = true
      rw [number]
      rfl
    · change (lbarOf s.buildInput.num _).isNumber = true
      rw [number]
      rfl
    · rcases Memory.mem_writeRange hc with old | new
      · exact absurd old (by simp [State.dropHandle])
      · exact alpha.1 _ new
    · rcases Memory.mem_writeRange hc with old | new
      · exact absurd old (by simp [State.dropHandle])
      · exact dictionary_isNumber number (buildInput_bounds ok).2.2 some_ _ new

theorem wfParts_build (wf : WfParts s) (done : exec .build s = .next t) : WfParts t := by
  rcases exec_build_cases done with ⟨e, rfl, -⟩ | ⟨ok, d, some_, rfl⟩
  · exact wfParts_dropped wf (status := (s.dropHandle.status).failed e) rfl (status_failed_wf _ e) s.lastRare
  · exact wfParts_built wf ok some_

theorem wfParts_exec {i : Instr} (wf : WfParts s) (done : exec i s = .next t) : WfParts t := by
  have config := (exec_done done).2.2
  cases i with
  | nop =>
    refine wfParts_of_kept wf config (exec_sameHandle done (by decide) (by decide)) ?_
    cases done
    exact kept_nop wf
  | sreset => exact wfParts_sreset wf done
  | build => exact wfParts_build wf done
  | encode => exact wfParts_of_kept wf config (exec_sameHandle done (by decide) (by decide)) (kept_encode wf done)
  | decode => exact wfParts_of_kept wf config (exec_sameHandle done (by decide) (by decide)) (kept_decode wf done)
  | pext => exact wfParts_of_kept wf config (exec_sameHandle done (by decide) (by decide)) (kept_pext wf done)
  | pdep => exact wfParts_of_kept wf config (exec_sameHandle done (by decide) (by decide)) (kept_pdep wf done)

end Handle

/-! ### The host's accesses and the reset input -/

section Host

variable {s t : State}

theorem status_started_wf {st : Status} (wf : st.wf) : st.started.wf := ⟨fun _ => rfl, wf.2.1, wf.2.2⟩

theorem asLength_lt (s : State) (n : Nat) : s.asLength n < 2 ^ s.inst.lenw := Nat.mod_lt _ (Nat.two_pow_pos _)

/-- A write of the configuration but `CFG_PURGE`: only `ABORT_MARGIN` has a width to keep. -/
theorem wfParts_cfg (wf : WfParts s) {c : CfgRegs} (margin : c.abortMargin < 2 ^ s.inst.lenw)
    (purge : s.inst.numerics.has c.purge = true) : WfParts { s with cfg := c } :=
  ⟨wf.ok, wf.pmf, wf.src, wf.dst, wf.alpha, wf.s2m, wf.dict, wf.jump, wf.dec, wf.rare, wf.status, wf.handle,
    ⟨margin, wf.lengths.2⟩, wf.enc, wf.decr, ⟨purge, wf.probs.1.2⟩, wf.probs.2⟩

theorem wfParts_lengths (wf : WfParts s) {srcLen dstCap blkN : Nat} (hs : srcLen < 2 ^ s.inst.lenw)
    (hd : dstCap < 2 ^ s.inst.lenw) (hb : blkN < 2 ^ s.inst.lenw) :
    WfParts { s with srcLen := srcLen, dstCap := dstCap, blkN := blkN } :=
  ⟨wf.ok, wf.pmf, wf.src, wf.dst, wf.alpha, wf.s2m, wf.dict, wf.jump, wf.dec, wf.rare, wf.status, wf.handle,
    ⟨wf.lengths.1, hs, hd, hb, wf.lengths.2.2.2.2⟩, wf.enc, wf.decr, wf.probs⟩

theorem wfParts_startCommand (wf : WfParts s) (w : Word32) : WfParts (s.startCommand w) :=
  ⟨wf.ok, wf.pmf, wf.src, wf.dst, wf.alpha, wf.s2m, wf.dict, wf.jump, wf.dec, wf.rare, status_started_wf wf.status,
    wf.handle, wf.lengths, wf.enc, wf.decr, wf.probs⟩

theorem wfParts_withReply (wf : WfParts s) (r : Option (HostValue ⊕ HostData)) : WfParts (s.withReply r) :=
  ⟨wf.ok, wf.pmf, wf.src, wf.dst, wf.alpha, wf.s2m, wf.dict, wf.jump, wf.dec, wf.rare, wf.status, wf.handle,
    wf.lengths, wf.enc, wf.decr, wf.probs⟩

theorem wfParts_host (wf : WfParts s) (rest : List HostEvent) : WfParts { s with host := rest } :=
  ⟨wf.ok, wf.pmf, wf.src, wf.dst, wf.alpha, wf.s2m, wf.dict, wf.jump, wf.dec, wf.rare, wf.status, wf.handle,
    wf.lengths, wf.enc, wf.decr, wf.probs⟩

/-- A value of a register's type, written (10_state.md R22). -/
theorem wfParts_setReg (wf : WfParts s) {r : Reg} {v : HostValue} (fits : v.fits s.inst.numerics r = true) :
    WfParts (s.setReg r v) := by
  obtain ⟨margin, srcLen, dstCap, blkN, -⟩ := wf.lengths
  have purge := wf.probs.1.1
  cases r with
  | cmd =>
    cases v with
    | word w => exact wfParts_startCommand wf w
    | _ => exact wf
  | cfgKo =>
    cases v with
    | word w => exact wfParts_cfg wf margin purge
    | _ => exact wf
  | cfgS =>
    cases v with
    | word w => exact wfParts_cfg wf margin purge
    | _ => exact wf
  | cfgMws =>
    cases v with
    | word w => exact wfParts_cfg wf margin purge
    | _ => exact wf
  | cfgIter =>
    cases v with
    | word w => exact wfParts_cfg wf margin purge
    | _ => exact wf
  | cfgPurge =>
    cases v with
    | prob p => exact wfParts_cfg wf margin fits
    | _ => exact wf
  | abortMargin =>
    cases v with
    | num n => exact wfParts_cfg wf (asLength_lt s n) purge
    | _ => exact wf
  | srcLen =>
    cases v with
    | num n => exact wfParts_lengths wf (asLength_lt s n) dstCap blkN
    | _ => exact wf
  | dstCap =>
    cases v with
    | num n => exact wfParts_lengths wf srcLen (asLength_lt s n) blkN
    | _ => exact wf
  | blkN =>
    cases v with
    | num n => exact wfParts_lengths wf srcLen dstCap (asLength_lt s n)
    | _ => exact wf
  | _ => cases v <;> exact wf

theorem wfParts_writePmf (wf : WfParts s) (a : Nat) {l : List Prob} (has : ∀ p ∈ l, s.inst.numerics.has p = true) :
    WfParts { s with pmf := s.pmf.writeRange a l } := by
  refine ⟨wf.ok, wf.pmf.writeRange _ _, wf.src, wf.dst, wf.alpha, wf.s2m, wf.dict, wf.jump, wf.dec, wf.rare, wf.status,
    wf.handle, wf.lengths, wf.enc, wf.decr, ⟨wf.probs.1.1, fun c hc => ?_⟩, wf.probs.2⟩
  rcases Memory.mem_writeRange hc with old | new
  · exact wf.probs.1.2 c old
  · exact has _ new

theorem wfParts_writeSrc (wf : WfParts s) (a : Nat) (l : List Byte) :
    WfParts { s with src := s.src.writeRange a l } :=
  ⟨wf.ok, wf.pmf, wf.src.writeRange _ _, wf.dst, wf.alpha, wf.s2m, wf.dict, wf.jump, wf.dec, wf.rare, wf.status,
    wf.handle, wf.lengths, wf.enc, wf.decr, wf.probs⟩

theorem wfParts_writeDst (wf : WfParts s) (a : Nat) (l : List Byte) : WfParts (s.writeDst a l) :=
  ⟨wf.ok, wf.pmf, wf.src, wf.dst.writeRange _ _, wf.alpha, wf.s2m, wf.dict, wf.jump, wf.dec, wf.rare, wf.status,
    wf.handle, wf.lengths, wf.enc, wf.decr, wf.probs⟩

/-- Entries of a space's type, written (20_memory.md R62). -/
theorem wfParts_writeSpace (wf : WfParts s) {space : Space} (a : Nat) {d : HostData}
    (fits : d.fits s.inst.numerics space = true) : WfParts (s.writeSpace space a d) := by
  cases space with
  | pmf =>
    cases d with
    | probs l => exact wfParts_writePmf wf a (List.all_eq_true.mp fits)
    | _ => exact wf
  | src =>
    cases d with
    | bytes l => exact wfParts_writeSrc wf a l
    | _ => exact wf
  | dst =>
    cases d with
    | bytes l => exact wfParts_writeDst wf a l
    | _ => exact wf
  | _ => cases d <;> exact wf

/-- R341: the reset state of any parameters. -/
theorem wfParts_resetOf {inst : Config.Instance} (ok : inst.ok) (epoch : Nat) (host : List HostEvent) :
    WfParts (State.resetOf inst epoch host) := by
  have table {α : Type} : MemoryFits (Memory.unspecified epoch : Memory α) (epoch + 1) := memoryFits_unspecified epoch
  have margin : 16 < 2 ^ inst.lenw := (by decide : 16 < 2 ^ 5).trans_le (Nat.pow_le_pow_right (by decide) ok.2.1)
  have zero : 0 < 2 ^ inst.lenw := Nat.two_pow_pos _
  have purge : inst.numerics.has (.rat 0) = true := by
    cases inst.numerics <;> rfl
  refine ⟨ok, table, table, table, table, table, table, table, table, table, ?_, ⟨fun _ => rfl, fun handle => ?_⟩,
    ⟨margin, zero, zero, zero, zero⟩, ⟨Nat.two_pow_pos _, Nat.zero_lt_succ _, zero, zero, Nat.zero_le _, zero⟩,
    decFits_zero inst, ⟨purge, by simp [State.resetOf]⟩, fun _ => ⟨⟨rfl, rfl, rfl⟩, by simp [State.resetOf], by simp [State.resetOf]⟩⟩
  · exact ⟨fun busy => (nomatch busy), fun error => (nomatch error), fun raw => (nomatch raw)⟩
  · exact nomatch handle

theorem wfParts_hostAct {a : HostAction} (wf : WfParts s) (done : hostAct a s = .next t) : WfParts t := by
  rcases hostAct_cases done with ⟨-, r, v, -, -, -, fits, rfl⟩ | ⟨-, -, -, -, -, -, rfl⟩ | ⟨-, r, -, -, rfl⟩
    | ⟨space, x, d, -, -, -, -, fits, rfl⟩ | ⟨-, -, -, -, -, -, -, rfl⟩ | ⟨space, x, n, -, -, -, rfl⟩ | ⟨-, rfl⟩
  · exact wfParts_withReply (wfParts_setReg wf fits) _
  · exact wfParts_withReply wf _
  · exact wfParts_withReply wf _
  · exact wfParts_withReply (wfParts_writeSpace wf x fits) _
  · exact wfParts_withReply wf _
  · exact wfParts_withReply wf _
  · exact wfParts_resetOf wf.ok _ _

end Host

/-- Settles O23: a step waits, is a host action or the running command; each keeps every part of the invariant. -/
theorem stepKeepsWellFormed : Obligations.StepKeepsWellFormed := by
  unfold Obligations.StepKeepsWellFormed
  intro s t wf done
  have parts := wfParts wf
  apply wf_of_parts
  rcases step_kinds done with rfl | ⟨e, rest, -, -, act⟩ | ⟨-, -, run⟩
  · exact parts
  · exact wfParts_hostAct (wfParts_host parts rest) act
  · rcases runCommand_cases run with ⟨i, -, exec_⟩ | rfl
    · exact wfParts_exec parts exec_
    · exact wfParts_of_kept parts ⟨rfl, rfl, rfl, rfl, rfl, rfl, rfl, rfl, rfl, rfl⟩ ⟨rfl, rfl, rfl, rfl, rfl, rfl, rfl⟩
        (kept_raise parts _)

/-- Settles O26: the reset state is the one of any parameters, has nothing known and no handle. -/
theorem resetMeetsInvariants : Obligations.ResetMeetsInvariants := by
  unfold Obligations.ResetMeetsInvariants
  refine ⟨wf_of_parts (wfParts_resetOf ?_ _ _), resetOf_inBounds _ _ _, fun handle => nomatch handle⟩
  decide

end Sys2Proof.Proofs
end

section
/-! The command word, the step, and the host's accesses to registers and RAM spaces (30_encoding.md R90 to R93,
10_state.md R22, 20_memory.md R62, R63, 46_control_commands.md R280, 70_reset_and_hazards.md R340 to R350). -/

namespace Sys2Proof.Proofs

open Sys2Proof Sys2Proof.Machine

/-! ### The command word (R90, R91) -/

/-- Settles O1: nine closed words. -/
theorem commandWordsDecode : Obligations.CommandWordsDecode := by
  unfold Obligations.CommandWordsDecode
  refine ⟨?_, by decide, by decide⟩
  simp only [List.forall_mem_cons, List.not_mem_nil, false_implies, implies_true, and_true]
  exact ⟨by decide, by decide, by decide, by decide, by decide, by decide, by decide⟩

theorem instrOfOpc_eq_some {opc : BitVec 8} {i : Instr} (found : instrOfOpc opc = some i) : opc = opcOfInstr i := by
  rw [instrOfOpc, Option.map_eq_some_iff] at found
  obtain ⟨row, first, rfl⟩ := found
  have codes : ∀ row ∈ opcodes, row.1 = opcOfInstr row.2 := by decide
  have here : row.1 = opc := eq_of_beq (List.find?_some (p := fun row : BitVec 8 × Instr => row.1 == opc) first)
  rw [← here]
  exact codes row (List.mem_of_find?_eq_some first)

theorem eq_append_fields (w : Word32) : w = rsvOf w ++ opcOf w := by
  apply BitVec.eq_of_toNat_eq
  rw [BitVec.toNat_append, toNat_rsvOf, toNat_opcOf, ← Nat.shiftLeft_add_eq_or_of_lt (Nat.mod_lt _ (by decide)),
    Nat.shiftLeft_eq, show 2 ^ 8 = 256 from rfl, Nat.div_add_mod']

theorem decode_encode (i : Instr) : decode (encode i) = .ok i := by
  cases i <;> decide

theorem decode_eq_ok_iff (w : Word32) (i : Instr) : decode w = .ok i ↔ w = encode i := by
  constructor
  · intro decoded
    rw [decode] at decoded
    split at decoded
    · cases decoded
    · next rsv =>
      split at decoded
      · next j found =>
        cases decoded
        rw [eq_append_fields w, not_not.mp rsv, instrOfOpc_eq_some found]
        rfl
      · cases decoded
  · rintro rfl
    exact decode_encode i

/-- Settles O2: `RSV` is 0 and `OPC` one of the codes exactly for the seven numbers. -/
theorem oneWordPerCommand : Obligations.OneWordPerCommand := by
  unfold Obligations.OneWordPerCommand
  refine ⟨decode_eq_ok_iff, fun w => ?_⟩
  simp only [decode_eq_ok_iff]
  constructor
  · rintro ⟨i, rfl⟩
    cases i <;> decide
  · intro listed
    have numbers : ∀ n ∈ [0x00, 0x01, 0x10, 0x20, 0x21, 0x30, 0x31], ∃ i, n = (encode i).toNat := by
      simp only [List.forall_mem_cons, List.not_mem_nil, false_implies, implies_true, and_true]
      exact ⟨⟨.nop, rfl⟩, ⟨.sreset, rfl⟩, ⟨.build, rfl⟩, ⟨.encode, rfl⟩, ⟨.decode, rfl⟩, ⟨.pext, rfl⟩, ⟨.pdep, rfl⟩⟩
    obtain ⟨i, number⟩ := numbers _ listed
    exact ⟨i, BitVec.eq_of_toNat_eq number⟩

/-! ### The step (R280, R340) -/

section Step

variable {s : State} {e : HostEvent} {rest : List HostEvent}

theorem step_of_idle (idle : s.status.busy = false) (pending : s.host = e :: rest) :
    step s = hostAct e.action { s with host := rest } := by
  rw [step, if_neg (by rw [idle]; decide), pending]

theorem step_of_early (busy : s.status.busy = true) (pending : s.host = e :: rest) (early : e.early = true) :
    step s = hostActBusy e.action { s with host := rest } := by
  rw [step, if_pos busy, pending]
  simp [early]

theorem step_of_nothing (idle : s.status.busy = false) (pending : s.host = []) : step s = .next s := by
  rw [step, if_neg (by rw [idle]; decide), pending]

theorem step_of_decoded {i : Instr} (busy : s.status.busy = true) (waits : s.hostWaits)
    (decoded : decode s.cmd = .ok i) : step s = exec i s := by
  rw [step_of_busy busy waits, runCommand, decoded]

end Step

/-- Settles O3: the branches of the step. -/
theorem stepRunsDecodedCommand : Obligations.StepRunsDecodedCommand := by
  unfold Obligations.StepRunsDecodedCommand
  exact ⟨fun s i busy waits decoded => step_of_decoded busy waits decoded,
    fun s idle pending => step_of_nothing idle pending⟩

/-- Settles O4: the write sets `BUSY`, so the next step is the command's. -/
theorem cmdWriteStartsCommand : Obligations.CmdWriteStartsCommand := by
  unfold Obligations.CmdWriteStartsCommand
  intro s early w rest idle pending
  exact ⟨_, step_of_idle idle pending, rfl, fun i decoded waits => step_of_decoded rfl waits decoded⟩

/-! ### Registers (10_state.md R22) -/

/-- A field of a word written and read back: the word's bits at its place. -/
theorem fieldAt_extract (w : Word32) {a n : Nat} (fits : a + n ≤ 32) :
    fieldAt a (w.extractLsb' a n) = w &&& BitVec.ofNat 32 ((2 ^ n - 1) * 2 ^ a) := by
  refine BitVec.eq_of_getLsbD_eq fun i hi => ?_
  rw [fieldAt, BitVec.getLsbD_ofNat, BitVec.getLsbD_and, BitVec.getLsbD_ofNat, Nat.testBit_mul_two_pow,
    Nat.testBit_mul_two_pow, Nat.testBit_two_pow_sub_one, BitVec.testBit_toNat, BitVec.getLsbD_extractLsb']
  rcases Nat.lt_or_ge i a with below | above
  · simp [below.not_ge]
  · rw [Nat.add_sub_cancel' above]
    cases w.getLsbD i <;> simp

theorem getLsbD_flagAt (a : Nat) (b : Bool) {i : Nat} (hi : i < 32) :
    (flagAt a b).getLsbD i = (b && decide (a = i)) := by
  cases b with
  | false => exact BitVec.getLsbD_zero
  | true =>
    change (BitVec.ofNat 32 (2 ^ a)).getLsbD i = _
    rw [BitVec.getLsbD_ofNat, Nat.testBit_two_pow, decide_eq_true hi]

theorem flagAt_getLsbD (w : Word32) (a : Nat) : flagAt a (w.getLsbD a) = w &&& BitVec.ofNat 32 (2 ^ a) := by
  refine BitVec.eq_of_getLsbD_eq fun i hi => ?_
  rw [getLsbD_flagAt a _ hi, BitVec.getLsbD_and, BitVec.getLsbD_ofNat, Nat.testBit_two_pow, decide_eq_true hi,
    Bool.true_and]
  by_cases here : a = i
  · rw [here]
  · simp only [here, decide_false, Bool.and_false]

theorem koWord_extract (w : Word32) : koWord (w.extractLsb' 0 5) (w.extractLsb' 8 5) = w &&& 0x00001F1F#32 := by
  rw [koWord, fieldAt_extract w (by decide), fieldAt_extract w (by decide), ← BitVec.and_or_distrib_left]
  rfl

theorem autoWord_extract (w : Word32) {n : Nat} (fits : n ≤ 31) : autoWord (w.extractLsb' 0 n) (w.getLsbD 31)
    = w &&& (BitVec.ofNat 32 ((2 ^ n - 1) * 2 ^ 0) ||| BitVec.ofNat 32 (2 ^ 31)) := by
  rw [autoWord, fieldAt_extract w (by omega), flagAt_getLsbD w, ← BitVec.and_or_distrib_left]

/-! ### Host writes of registers -/

theorem regValue_host (s : State) (rest : List HostEvent) (reply : Option (HostValue ⊕ HostData)) (r : Reg) :
    ({ s with host := rest, reply := reply } : State).regValue r = s.regValue r := by
  cases r <;> rfl

theorem setReg_host (s : State) (rest : List HostEvent) (r : Reg) (v : HostValue) :
    (({ s with host := rest } : State).setReg r v).withReply none
      = { s.setReg r v with host := rest, reply := none } := by
  cases r <;> cases v <;> rfl

/-- R22: a write of a register other than `CMD` is seen in that register only. -/
theorem regValue_setReg_of_ne (s : State) {r r' : Reg} (v : HostValue) (cmd : r ≠ .cmd) (differs : r' ≠ r) :
    (s.setReg r v).regValue r' = s.regValue r' := by
  cases r with
  | cmd => exact absurd rfl cmd
  | cfgKo =>
    cases v with
    | word =>
      cases r' with
      | cfgKo => exact absurd rfl differs
      | _ => rfl
    | _ => rfl
  | cfgS =>
    cases v with
    | word =>
      cases r' with
      | cfgS => exact absurd rfl differs
      | _ => rfl
    | _ => rfl
  | cfgMws =>
    cases v with
    | word =>
      cases r' with
      | cfgMws => exact absurd rfl differs
      | _ => rfl
    | _ => rfl
  | cfgIter =>
    cases v with
    | word =>
      cases r' with
      | cfgIter => exact absurd rfl differs
      | _ => rfl
    | _ => rfl
  | cfgPurge =>
    cases v with
    | prob =>
      cases r' with
      | cfgPurge => exact absurd rfl differs
      | _ => rfl
    | _ => rfl
  | abortMargin =>
    cases v with
    | num =>
      cases r' with
      | abortMargin => exact absurd rfl differs
      | _ => rfl
    | _ => rfl
  | srcLen =>
    cases v with
    | num =>
      cases r' with
      | srcLen => exact absurd rfl differs
      | _ => rfl
    | _ => rfl
  | dstCap =>
    cases v with
    | num =>
      cases r' with
      | dstCap => exact absurd rfl differs
      | _ => rfl
    | _ => rfl
  | blkN =>
    cases v with
    | num =>
      cases r' with
      | blkN => exact absurd rfl differs
      | _ => rfl
    | _ => rfl
  | _ => cases v <;> rfl

section WriteReg

variable {s : State} {early : Bool} {rest : List HostEvent} {n : Nat} {v : HostValue} {r : Reg}

theorem step_writeReg (idle : s.status.busy = false)
    (pending : s.host = { early := early, action := .writeReg n v } :: rest) (number : Reg.ofNumber n = some r)
    (writable : r.hostWritable = true) (fits : v.fits s.inst.numerics r = true) :
    step s = .next { s.setReg r v with host := rest, reply := none } := by
  rw [step_of_idle idle pending, ← setReg_host]
  change hostWriteReg n v _ = _
  rw [hostWriteReg, number]
  dsimp only
  rw [if_pos writable, if_pos fits]

/-- A write that is taken, by what the register reads then. -/
theorem written (idle : s.status.busy = false)
    (pending : s.host = { early := early, action := .writeReg n v } :: rest) (number : Reg.ofNumber n = some r)
    (writable : r.hostWritable = true) (cmd : r ≠ .cmd) (fits : v.fits s.inst.numerics r = true) :
    step s = .next { s.setReg r v with host := rest, reply := none }
      ∧ ({ s.setReg r v with host := rest, reply := none } : State).regValue r = (s.setReg r v).regValue r
      ∧ ∀ r', r' ≠ r → ({ s.setReg r v with host := rest, reply := none } : State).regValue r' = s.regValue r' :=
  ⟨step_writeReg idle pending number writable fits, regValue_host _ _ _ _, fun _ differs =>
    (regValue_host _ _ _ _).trans (regValue_setReg_of_ne s v cmd differs)⟩

end WriteReg

/-- Settles O10: each register keeps its fields, and these are the bits of its mask. -/
theorem configWritesKeepListedFields : Obligations.ConfigWritesKeepListedFields := by
  unfold Obligations.ConfigWritesKeepListedFields
  intro s early rest n w mask idle which pending
  simp only [List.mem_cons, Prod.mk.injEq, List.not_mem_nil, or_false] at which
  rcases which with ⟨rfl, rfl⟩ | ⟨rfl, rfl⟩ | ⟨rfl, rfl⟩ | ⟨rfl, rfl⟩
  · obtain ⟨step_, here, others⟩ := written (r := .cfgKo) idle pending rfl rfl (by decide) rfl
    exact ⟨_, _, step_, rfl, here.trans (congrArg HostValue.word (koWord_extract w)), others, rfl⟩
  · obtain ⟨step_, here, others⟩ := written (r := .cfgS) idle pending rfl rfl (by decide) rfl
    exact ⟨_, _, step_, rfl, here.trans (congrArg HostValue.word (autoWord_extract w (by decide))), others, rfl⟩
  · obtain ⟨step_, here, others⟩ := written (r := .cfgMws) idle pending rfl rfl (by decide) rfl
    exact ⟨_, _, step_, rfl, here.trans (congrArg HostValue.word (autoWord_extract w (by decide))), others, rfl⟩
  · obtain ⟨step_, here, others⟩ := written (r := .cfgIter) idle pending rfl rfl (by decide) rfl
    exact ⟨_, _, step_, rfl, here.trans (congrArg HostValue.word (fieldAt_extract w (by decide))), others, rfl⟩

/-- R11: the values the host can write are those the number system has. -/
theorem takes_iff_has (s : State) (p : Prob) : s.takes p ↔ s.inst.numerics.has p = true := by
  cases p with
  | rat q =>
    have value : s.inst.numerics.has (.rat q) = decide (0 ≤ q) := by cases s.inst.numerics <;> rfl
    rw [value, decide_eq_true_iff]
    constructor
    · rintro (⟨q', positive, same⟩ | ⟨-, c, same⟩)
      · cases same
        exact positive
      · cases same
    · exact fun positive => .inl ⟨q, positive, rfl⟩
  | other c =>
    cases num : s.inst.numerics with
    | exact => simp [State.takes, num, Config.Numerics.has]
    | rounding n => simp [State.takes, num, Config.Numerics.has]

/-- Settles O11: a length below `2^LENW` is kept as it is, a probability of the number system too. -/
theorem lengthAndPurgeWritesReadBack : Obligations.LengthAndPurgeWritesReadBack := by
  unfold Obligations.LengthAndPurgeWritesReadBack
  intro s early rest n v idle value pending
  rcases value with ⟨low, high, x, small, rfl⟩ | ⟨rfl, p, takes, rfl⟩
  · have whole : HostValue.num (s.asLength x) = .num x := congrArg HostValue.num (Nat.mod_eq_of_lt small)
    obtain rfl | rfl | rfl | rfl : n = 7 ∨ n = 8 ∨ n = 9 ∨ n = 10 := by omega
    · obtain ⟨step_, here, others⟩ := written (r := .abortMargin) idle pending rfl rfl (by decide) rfl
      exact ⟨_, _, step_, rfl, here.trans whole, others, rfl⟩
    · obtain ⟨step_, here, others⟩ := written (r := .srcLen) idle pending rfl rfl (by decide) rfl
      exact ⟨_, _, step_, rfl, here.trans whole, others, rfl⟩
    · obtain ⟨step_, here, others⟩ := written (r := .dstCap) idle pending rfl rfl (by decide) rfl
      exact ⟨_, _, step_, rfl, here.trans whole, others, rfl⟩
    · obtain ⟨step_, here, others⟩ := written (r := .blkN) idle pending rfl rfl (by decide) rfl
      exact ⟨_, _, step_, rfl, here.trans whole, others, rfl⟩
  · obtain ⟨step_, here, others⟩ := written (r := .cfgPurge) idle pending rfl rfl (by decide)
      ((takes_iff_has s p).mp takes)
    exact ⟨_, _, step_, rfl, here, others, rfl⟩

/-! ### Reads, and writes that are ignored (20_memory.md R62, R74) -/

section Reads

variable {s : State} {e : HostEvent} {early : Bool} {rest : List HostEvent} {n a : Nat}

/-- The 22 registers, each field at its place, are what the registers read. -/
theorem registerContents_eq (s : State) : s.registerContents = Reg.all.map s.regValue := by
  have iter : fieldAt 0 s.cfg.iter = BitVec.ofNat 32 s.cfg.iter.toNat := by
    rw [fieldAt, pow_zero, Nat.mul_one]
  simp only [State.registerContents, Reg.all, List.map_cons, List.map_nil, State.regValue, Status.word_eq, koWord_eq,
    autoWord_eq (by decide : 3 ≤ 31), autoWord_eq (by decide : 10 ≤ 31), iter]

theorem regValue_of_registerContents {v : HostValue} (content : s.registerContents[n]? = some v) :
    ∃ r, Reg.ofNumber n = some r ∧ s.regValue r = v := by
  rw [registerContents_eq, List.getElem?_map, Option.map_eq_some_iff] at content
  exact content

theorem map_range_add {α : Type} (f : Nat → α) (a n : Nat) :
    ((List.range n).map (a + ·)).map f = (List.range n).map fun k => f (a + k) := List.map_map

theorem readSpace_of_ramContents {space : Space} {d : HostData} (content : (space, d) ∈ s.ramContents a n) :
    s.readSpace space a n = d ∧ space.hostAccess = true := by
  simp only [State.ramContents, map_range_add, List.mem_cons, Prod.mk.injEq, List.not_mem_nil, or_false] at content
  rcases content with ⟨rfl, rfl⟩ | ⟨rfl, rfl⟩ | ⟨rfl, rfl⟩ | ⟨rfl, rfl⟩ | ⟨rfl, rfl⟩ | ⟨rfl, rfl⟩ | ⟨rfl, rfl⟩
    | ⟨rfl, rfl⟩ <;> exact ⟨rfl, rfl⟩

theorem hostReadReg_of_number {r : Reg} (number : Reg.ofNumber n = some r) :
    hostReadReg n s = .next (s.withReply (some (.inl (s.regValue r)))) := by
  rw [hostReadReg, number]

theorem hostReadRam_of_holds {space : Space} (access : space.hostAccess = true) (inside : a + n ≤ space.size s.inst) :
    hostReadRam space a n s = .next (s.withReply (some (.inr (s.readSpace space a n)))) := by
  rw [hostReadRam, access, Space.holds, decide_eq_true inside]
  rfl

theorem hostWriteReg_ignored {r : Reg} (number : Reg.ofNumber n = some r) (readOnly : r.hostWritable = false)
    (v : HostValue) : hostWriteReg n v s = .next (s.withReply none) := by
  rw [hostWriteReg, number]
  dsimp only
  rw [readOnly]
  rfl

theorem hostWriteRam_ignored {space : Space} (access : space.hostAccess = true) (readOnly : space.hostWritable = false)
    {d : HostData} (inside : a + d.count ≤ space.size s.inst) :
    hostWriteRam space a d s = .next (s.withReply none) := by
  rw [hostWriteRam, access, Space.holds, decide_eq_true inside, readOnly]
  rfl

end Reads

/-- Settles O12: the branches of the host port that answer or ignore. -/
theorem ignoredWritesAndReadsChangeNothing : Obligations.IgnoredWritesAndReadsChangeNothing := by
  unfold Obligations.IgnoredWritesAndReadsChangeNothing
  intro s early rest idle
  refine ⟨fun n v number pending => ?_, fun space a d table inside pending => ?_, fun n v content pending => ?_,
    fun space a n d content inside pending => ?_⟩
  · have readOnly : ∃ r, Reg.ofNumber n = some r ∧ r.hostWritable = false := by
      have numbers : ∀ n ∈ 1 :: List.range' 11 11, ∃ r, Reg.ofNumber n = some r ∧ r.hostWritable = false := by
        simp only [List.range', List.forall_mem_cons, List.not_mem_nil, false_implies, implies_true, and_true]
        exact ⟨⟨_, rfl, rfl⟩, ⟨_, rfl, rfl⟩, ⟨_, rfl, rfl⟩, ⟨_, rfl, rfl⟩, ⟨_, rfl, rfl⟩, ⟨_, rfl, rfl⟩, ⟨_, rfl, rfl⟩,
          ⟨_, rfl, rfl⟩, ⟨_, rfl, rfl⟩, ⟨_, rfl, rfl⟩, ⟨_, rfl, rfl⟩, ⟨_, rfl, rfl⟩⟩
      exact numbers n (by rw [List.mem_cons, List.mem_range'_1]; omega)
    obtain ⟨r, number, readOnly⟩ := readOnly
    rw [step_of_idle idle pending]
    exact hostWriteReg_ignored (s := { s with host := rest }) number readOnly v
  · have tables : ∀ space ∈ [Space.alpha, .s2m, .dict, .jump, .dec],
        space.hostAccess = true ∧ space.hostWritable = false := by decide
    obtain ⟨access, readOnly⟩ := tables space table
    rw [step_of_idle idle pending]
    exact hostWriteRam_ignored (s := { s with host := rest }) access readOnly inside
  · obtain ⟨r, number, rfl⟩ := regValue_of_registerContents content
    refine ⟨?_, r, number, rfl⟩
    rw [step_of_idle idle pending]
    refine (hostReadReg_of_number (s := { s with host := rest }) number).trans ?_
    rw [show ({ s with host := rest } : State).regValue r = s.regValue r from regValue_host s rest s.reply r]
    rfl
  · obtain ⟨rfl, access⟩ := readSpace_of_ramContents content
    refine ⟨?_, rfl⟩
    rw [step_of_idle idle pending]
    refine (hostReadRam_of_holds (s := { s with host := rest }) access inside).trans ?_
    rw [show ({ s with host := rest } : State).readSpace space a n = s.readSpace space a n by cases space <;> rfl]
    rfl

end Sys2Proof.Proofs
end

section
/-! The host's accesses to the buffers, the accesses that are refused, the reset input, and a host that keeps the
rules (20_memory.md R62, R63, 70_reset_and_hazards.md R340 to R350). -/

namespace Sys2Proof.Proofs

open Sys2Proof Sys2Proof.Machine

/-! ### Buffer writes (20_memory.md R62) -/

theorem map_range_read_writeRange {α : Type} (free : Nat → Nat → α) (m : Memory α) (a : Nat) (vs : List α) :
    ((List.range vs.length).map fun k => (m.writeRange a vs).read free (a + k)) = vs := by
  refine List.ext_getElem (by rw [List.length_map, List.length_range]) fun k _ inside => ?_
  rw [List.getElem_map, List.getElem_range, Memory.read_writeRange_inside free m a vs k inside]

section BufferWrites

variable {s : State} {early : Bool} {rest : List HostEvent} {space : Space} {a : Nat} {d : HostData}

theorem hostWriteRam_taken (access : space.hostAccess = true) (inside : a + d.count ≤ space.size s.inst)
    (writable : space.hostWritable = true) (fits : d.fits s.inst.numerics space = true) :
    hostWriteRam space a d s = .next ((s.writeSpace space a d).withReply none) := by
  rw [hostWriteRam, access, Space.holds, decide_eq_true inside, writable, fits]
  rfl

theorem step_writeRam (idle : s.status.busy = false)
    (pending : s.host = { early := early, action := .writeRam space a d } :: rest) (access : space.hostAccess = true)
    (inside : a + d.count ≤ space.size s.inst) (writable : space.hostWritable = true)
    (fits : d.fits s.inst.numerics space = true) :
    step s = .next ((({ s with host := rest } : State).writeSpace space a d).withReply none) := by
  rw [step_of_idle idle pending]
  exact hostWriteRam_taken (s := { s with host := rest }) access inside writable fits

end BufferWrites

/-- Settles O13: reading inside and outside a range that was written. -/
theorem bufferWritesReadBack : Obligations.BufferWritesReadBack := by
  unfold Obligations.BufferWritesReadBack
  intro s early rest a idle
  refine ⟨fun l inside pending => ?_, fun l inside pending => ?_, fun l takes inside pending => ?_⟩
  · exact ⟨_, step_writeRam idle pending rfl inside rfl rfl, rfl, map_range_read_writeRange _ _ _ _,
      fun x outside => Memory.read_writeRange_outside _ _ _ _ _ outside⟩
  · exact ⟨_, step_writeRam idle pending rfl inside rfl rfl, rfl, map_range_read_writeRange _ _ _ _,
      fun x outside => Memory.read_writeRange_outside _ _ _ _ _ outside⟩
  · have fits : (HostData.probs l).fits s.inst.numerics .pmf = true :=
      List.all_eq_true.mpr fun p listed => (takes_iff_has s p).mp (takes p listed)
    exact ⟨_, step_writeRam idle pending rfl inside rfl fits, rfl,
      fun k here => Memory.read_writeRange_inside _ _ _ _ _ here,
      fun x outside => Memory.read_writeRange_outside _ _ _ _ _ outside⟩

/-! ### Refused accesses (20_memory.md R62, R63) -/

section Refusals

variable {s : State} {space : Space} {n a : Nat} {v : HostValue} {d : HostData} {r : Reg}

theorem ofNumber_beyond (beyond : 22 ≤ n) : Reg.ofNumber n = none := List.getElem?_eq_none beyond

theorem hostWriteReg_beyond (beyond : 22 ≤ n) : hostWriteReg n v s = .refused .beyondEnd := by
  rw [hostWriteReg, ofNumber_beyond beyond]

theorem hostReadReg_beyond (beyond : 22 ≤ n) : hostReadReg n s = .refused .beyondEnd := by
  rw [hostReadReg, ofNumber_beyond beyond]

theorem hostAccess_of_ne_rare (other : space ≠ .rare) : space.hostAccess = true := by
  cases space with
  | rare => exact absurd rfl other
  | _ => rfl

theorem hostWriteRam_beyond (access : space.hostAccess = true) (beyond : space.size s.inst < a + d.count) :
    hostWriteRam space a d s = .refused .beyondEnd := by
  rw [hostWriteRam, access, Space.holds, decide_eq_false beyond.not_ge]
  rfl

theorem hostReadRam_beyond (access : space.hostAccess = true) (beyond : space.size s.inst < a + n) :
    hostReadRam space a n s = .refused .beyondEnd := by
  rw [hostReadRam, access, Space.holds, decide_eq_false beyond.not_ge]
  rfl

theorem hostWriteReg_wrongType (number : Reg.ofNumber n = some r) (writable : r.hostWritable = true)
    (misfit : v.fits s.inst.numerics r = false) : hostWriteReg n v s = .refused .wrongType := by
  rw [hostWriteReg, number]
  dsimp only
  rw [if_pos writable, misfit]
  rfl

theorem hostWriteRam_wrongType (access : space.hostAccess = true) (inside : a + d.count ≤ space.size s.inst)
    (writable : space.hostWritable = true) (misfit : d.fits s.inst.numerics space = false) :
    hostWriteRam space a d s = .refused .wrongType := by
  rw [hostWriteRam, access, Space.holds, decide_eq_true inside, writable, misfit]
  rfl

/-- R22: the registers 0 and 2 to 5 hold words. -/
theorem misfit_word (number : n = 0 ∨ 2 ≤ n ∧ n ≤ 5) (other : ∀ w, v ≠ .word w) (num : Config.Numerics) :
    ∃ r, Reg.ofNumber n = some r ∧ r.hostWritable = true ∧ v.fits num r = false := by
  obtain rfl | rfl | rfl | rfl | rfl : n = 0 ∨ n = 2 ∨ n = 3 ∨ n = 4 ∨ n = 5 := by omega
  all_goals
    refine ⟨_, rfl, rfl, ?_⟩
    cases v with
    | word w => exact absurd rfl (other w)
    | _ => rfl

/-- R22: the registers 7 to 10 hold lengths. -/
theorem misfit_num (number : 7 ≤ n ∧ n ≤ 10) (other : ∀ x, v ≠ .num x) (num : Config.Numerics) :
    ∃ r, Reg.ofNumber n = some r ∧ r.hostWritable = true ∧ v.fits num r = false := by
  obtain rfl | rfl | rfl | rfl : n = 7 ∨ n = 8 ∨ n = 9 ∨ n = 10 := by omega
  all_goals
    refine ⟨_, rfl, rfl, ?_⟩
    cases v with
    | num x => exact absurd rfl (other x)
    | _ => rfl

/-- R22, R11: `CFG_PURGE` holds a probability of the number system. -/
theorem misfit_prob (other : ∀ p, s.takes p → v ≠ .prob p) : v.fits s.inst.numerics .cfgPurge = false := by
  cases v with
  | prob p =>
    rw [HostValue.fits, ← Bool.not_eq_true, ← takes_iff_has]
    exact fun takes => other p takes rfl
  | _ => rfl

theorem misfit_bytes (buffer : space = .src ∨ space = .dst) (other : ∀ l, d ≠ .bytes l) (num : Config.Numerics) :
    space.hostAccess = true ∧ space.hostWritable = true ∧ d.fits num space = false := by
  rcases buffer with rfl | rfl
  all_goals
    refine ⟨rfl, rfl, ?_⟩
    cases d with
    | bytes l => exact absurd rfl (other l)
    | _ => rfl

theorem misfit_probs (other : ∀ l : List Prob, (∀ p ∈ l, s.takes p) → d ≠ .probs l) :
    d.fits s.inst.numerics .pmf = false := by
  cases d with
  | probs l =>
    rw [HostData.fits, ← Bool.not_eq_true, List.all_eq_true]
    exact fun has => other l (fun p listed => (takes_iff_has s p).mpr (has p listed)) rfl
  | _ => rfl

end Refusals

/-- Settles O14: the branches of the host port that refuse. -/
theorem accessBeyondEndStops : Obligations.AccessBeyondEndStops := by
  unfold Obligations.AccessBeyondEndStops
  intro s early rest idle
  refine ⟨fun n v beyond pending => ?_, fun space a d n other pending => ?_, fun a d n pending => ?_,
    fun n v pending misfit => ?_, fun space a d pending inside misfit => ?_⟩
  · rcases pending with pending | pending <;> rw [step_of_idle idle pending]
    · exact hostWriteReg_beyond beyond
    · exact hostReadReg_beyond beyond
  · have access := hostAccess_of_ne_rare other
    rcases pending with ⟨pending, beyond⟩ | ⟨pending, beyond⟩ <;> rw [step_of_idle idle pending]
    · exact hostWriteRam_beyond (s := { s with host := rest }) access beyond
    · exact hostReadRam_beyond (s := { s with host := rest }) access beyond
  · rcases pending with pending | pending <;> rw [step_of_idle idle pending] <;> rfl
  · rw [step_of_idle idle pending]
    have typed : ∃ r, Reg.ofNumber n = some r ∧ r.hostWritable = true ∧ v.fits s.inst.numerics r = false := by
      rcases misfit with ⟨number, other⟩ | ⟨number, other⟩ | ⟨rfl, other⟩
      · exact misfit_word number other _
      · exact misfit_num number other _
      · exact ⟨.cfgPurge, rfl, rfl, misfit_prob other⟩
    obtain ⟨r, number, writable, unfit⟩ := typed
    exact hostWriteReg_wrongType (s := { s with host := rest }) number writable unfit
  · rw [step_of_idle idle pending]
    have typed : space.hostAccess = true ∧ space.hostWritable = true ∧ d.fits s.inst.numerics space = false := by
      rcases misfit with ⟨buffer, other⟩ | ⟨rfl, other⟩
      · exact misfit_bytes buffer other _
      · exact ⟨rfl, rfl, misfit_probs other⟩
    obtain ⟨access, writable, unfit⟩ := typed
    exact hostWriteRam_wrongType (s := { s with host := rest }) access inside writable unfit

/-! ### While `BUSY = 1` (70_reset_and_hazards.md R350) -/

theorem ofNumber_status {n : Nat} (status : Reg.ofNumber n = some .status) : n = 1 := by
  have only : ∀ i : Fin Reg.all.length, Reg.all[i.val] = .status → i.val = 1 := by decide
  obtain ⟨inside, here⟩ := List.getElem?_eq_some_iff.mp status
  exact only ⟨n, inside⟩ here

theorem busyOk_iff (a : HostAction) : a.busyOk = true ↔ a = .readReg 1 ∨ a = .reset := by
  constructor
  · intro ok
    cases a with
    | readReg n => exact .inl (congrArg HostAction.readReg (ofNumber_status (eq_of_beq ok)))
    | reset => exact .inr rfl
    | writeReg | writeRam | readRam => exact nomatch ok
  · rintro (rfl | rfl) <;> rfl

theorem word_busy (st : Status) : st.word.getLsbD 0 = st.busy := by
  rw [Status.word_eq, BitVec.getLsbD_ofNat, Nat.testBit_zero]
  cases st.busy <;> simp <;> omega

/-- Settles O15: a `STATUS` read and the reset input are the only actions with a meaning then. -/
theorem busyHazardRefused : Obligations.BusyHazardRefused := by
  unfold Obligations.BusyHazardRefused
  intro s a rest busy pending
  rw [step_of_early busy pending rfl]
  refine ⟨?_, fun other noReset => ?_⟩
  · rintro rfl
    exact ⟨rfl, (word_busy s.status).trans busy⟩
  · rw [hostActBusy, if_neg]
    rw [busyOk_iff]
    exact not_or.mpr ⟨other, noReset⟩

/-! ### The reset input (R340, R341, R343) -/

theorem step_reset {s : State} {e : HostEvent} {rest : List HostEvent} (pending : s.host = e :: rest)
    (reset : e.action = .reset) (early : s.status.busy = true → e.early = true) :
    step s = .next (State.resetOf s.inst s.fresh rest) := by
  cases busy : s.status.busy with
  | false => rw [step_of_idle busy pending, reset]; rfl
  | true => rw [step_of_early busy pending (early busy), reset]; rfl

/-- Settles O16: the next state is the reset state of the same parameters. -/
theorem resetInputResets : Obligations.ResetInputResets := by
  unfold Obligations.ResetInputResets
  intro s e rest pending reset early
  exact ⟨_, step_reset pending reset early, fun r => by cases r <;> rfl, rfl, rfl, rfl, rfl, rfl, rfl, rfl, rfl,
    ⟨rfl, rfl, rfl, rfl, rfl⟩, rfl, rfl⟩

/-! ### A host that keeps the rules -/

section Obedient

variable {s t : State} {a : HostAction}

/-- An action with a meaning is taken. -/
theorem hostAct_of_wf (wf : a.wf s.inst = true) : ∃ t, hostAct a s = .next t := by
  cases a with
  | writeReg n v =>
    simp only [HostAction.wf, HostAction.wfWriteReg] at wf
    split at wf
    · exact nomatch wf
    · next r number =>
      cases writable : r.hostWritable with
      | false => exact ⟨_, hostWriteReg_ignored number writable v⟩
      | true =>
        rw [writable, Bool.not_true, Bool.false_or] at wf
        exact ⟨(s.setReg r v).withReply none, by
          simp only [hostAct, hostWriteReg, number, writable, wf, if_true]⟩
  | readReg n =>
    obtain ⟨r, number⟩ := Option.isSome_iff_exists.mp wf
    exact ⟨_, hostReadReg_of_number number⟩
  | writeRam space x d =>
    simp only [HostAction.wf, Bool.and_eq_true, Bool.or_eq_true, Bool.not_eq_true', Space.holds, decide_eq_true_iff] at wf
    obtain ⟨⟨access, inside⟩, readOnly | fits⟩ := wf
    · exact ⟨_, hostWriteRam_ignored access readOnly inside⟩
    · cases writable : space.hostWritable with
      | false => exact ⟨_, hostWriteRam_ignored access writable inside⟩
      | true => exact ⟨_, hostWriteRam_taken access inside writable fits⟩
  | readRam space x n =>
    simp only [HostAction.wf, Bool.and_eq_true, Space.holds, decide_eq_true_iff] at wf
    exact ⟨_, hostReadRam_of_holds wf.1 wf.2⟩
  | reset => exact ⟨_, rfl⟩

theorem setReg_inst_host (s : State) (r : Reg) (v : HostValue) :
    (s.setReg r v).inst = s.inst ∧ (s.setReg r v).host = s.host := by
  cases r <;> cases v <;> exact ⟨rfl, rfl⟩

theorem writeSpace_inst_host (s : State) (space : Space) (x : Nat) (d : HostData) :
    (s.writeSpace space x d).inst = s.inst ∧ (s.writeSpace space x d).host = s.host := by
  cases space <;> cases d <;> exact ⟨rfl, rfl⟩

/-- No action changes the parameters or what the host does next. -/
theorem hostAct_inst_host (done : hostAct a s = .next t) : t.inst = s.inst ∧ t.host = s.host := by
  rcases hostAct_cases done with ⟨-, r, v, -, -, -, -, rfl⟩ | ⟨-, -, -, -, -, -, rfl⟩ | ⟨-, r, -, -, rfl⟩
    | ⟨space, x, d, -, -, -, -, -, rfl⟩ | ⟨-, -, -, -, -, -, -, rfl⟩ | ⟨space, x, n, -, -, -, rfl⟩ | ⟨-, rfl⟩
  · exact setReg_inst_host s r v
  · exact ⟨rfl, rfl⟩
  · exact ⟨rfl, rfl⟩
  · exact writeSpace_inst_host s space x d
  · exact ⟨rfl, rfl⟩
  · exact ⟨rfl, rfl⟩
  · exact ⟨rfl, rfl⟩

theorem runCommand_inst_host (run : runCommand s = .next t) : t.inst = s.inst ∧ t.host = s.host := by
  rcases runCommand_cases run with ⟨i, -, exec_⟩ | rfl
  · obtain ⟨-, -, same⟩ := exec_done exec_
    exact ⟨same.inst, same.host⟩
  · exact ⟨rfl, rfl⟩

end Obedient

/-- Settles O17: the command ends, or the next action has a meaning; both leave the remaining actions as they are. -/
theorem obedientHostNeverStopped : Obligations.ObedientHostNeverStopped := by
  unfold Obligations.ObedientHostNeverStopped
  intro s obeys
  cases busy : s.status.busy with
  | true =>
    have waits : s.hostWaits := fun e first => (obeys e (List.mem_of_mem_head? first)).1
    obtain ⟨t, run⟩ := runCommand_next s
    obtain ⟨inst, host⟩ := runCommand_inst_host run
    exact ⟨t, (step_of_busy busy waits).trans run, by rw [State.hostObeys, inst, host]; exact obeys⟩
  | false =>
    cases pending : s.host with
    | nil => exact ⟨s, step_of_nothing busy pending, obeys⟩
    | cons e rest =>
      have obeyed : ∀ e' ∈ e :: rest, e'.early = false ∧ e'.action.wf s.inst = true := by rw [← pending]; exact obeys
      obtain ⟨t, act⟩ := hostAct_of_wf (s := { s with host := rest }) (obeyed e List.mem_cons_self).2
      obtain ⟨inst, host⟩ := hostAct_inst_host act
      refine ⟨t, (step_of_idle busy pending).trans act, ?_⟩
      rw [State.hostObeys, inst, host]
      exact fun e' later => obeyed e' (List.mem_cons_of_mem _ later)

end Sys2Proof.Proofs
end

section
/-! The alphabet (40_build_alphabet.md R133 to R137): sums of buckets, the order of `SORTALPHA`, what `TRIM` drops. -/

namespace Sys2Proof.Proofs

open Sys2Proof Sys2Proof.Machine

/-! ### Sums of parts -/

section Parts

variable {α β : Type}

theorem map_range_getD (l : List α) (d : α) (f : α → β) :
    ((List.range l.length).map fun i => f (l.getD i d)) = l.map f := by
  refine List.ext_getElem (by simp) fun i _ inside => ?_
  have small : i < l.length := by simpa using inside
  rw [List.getElem_map, List.getElem_map, List.getElem_range, List.getD_eq_getElem _ d small]

/-- The values whose places pass a test, by their places. -/
theorem filter_zipIdx_map_fst (l : List α) (P : Nat → Bool) (d : α) :
    (l.zipIdx.filter fun e => P e.2).map Prod.fst = ((List.range l.length).filter P).map fun i => l.getD i d := by
  have places : l.zipIdx = (List.range l.length).map fun i => (l.getD i d, i) := by
    refine List.ext_getElem (by simp) fun i inside _ => ?_
    have small : i < l.length := by simpa using inside
    rw [List.getElem_zipIdx, List.getElem_map, List.getElem_range, List.getD_eq_getElem _ d small, Nat.zero_add]
  rw [places, List.filter_map, List.map_map]
  rfl

theorem sum_map_range (n : Nat) (f : Nat → ℚ) : ((List.range n).map f).sum = ∑ i ∈ Finset.range n, f i := rfl

/-- Summing over the values of a key, and for each over the elements of that key, sums over all of them. -/
theorem sum_map_filter_key (l : List α) (key : α → Nat) (f : α → ℚ) (m : Nat) (small : ∀ x ∈ l, key x < m) :
    ((List.range m).map fun g => ((l.filter fun x => key x = g).map f).sum).sum = (l.map f).sum := by
  induction l with
  | nil => simp
  | cons x rest ih =>
    have head (g : Nat) : (((x :: rest).filter fun x => key x = g).map f).sum
        = (if key x = g then f x else 0) + ((rest.filter fun x => key x = g).map f).sum := by
      by_cases here : key x = g <;> simp [here]
    simp only [head, List.sum_map_add, ih fun y hy => small y (List.mem_cons_of_mem x hy)]
    rw [sum_map_range, Finset.sum_ite_eq, if_pos (Finset.mem_range.mpr (small x List.mem_cons_self)), List.map_cons,
      List.sum_cons]

/-- Over the exact rationals adding one value after the other gives the sum. -/
theorem foldl_exact_add (l : List Prob) (start : Prob) (number : start.isNumber = true) :
    l.foldl Config.Numerics.exact.add start = .rat (start.toRat + (l.map Prob.toRat).sum) := by
  induction l generalizing start with
  | nil =>
    cases start with
    | rat q => simp
    | other c => exact nomatch number
  | cons p rest ih =>
    rw [List.foldl_cons, ih _ rfl, exact_add, toRat_rat, List.map_cons, List.sum_cons, add_assoc]

end Parts

/-! ### `TRIM` (R135) -/

section Trim

variable (num : Config.Numerics) (k o : Nat) (purge : Prob)

/-- The test of `TRIM`'s loop at a length of the list. -/
def TrimTest (sorted : List AlphaEntry) (n : Nat) : Prop :=
  max (2 ^ o) 8 < n ∧ (2 ^ k - 1 < n ∨ num.lt (sorted.getD (n - 1) { src := 0, p := .rat 0 }).p purge = true)

variable (l : List AlphaEntry) (e : AlphaEntry)

theorem trimTest_append {n : Nat} (below : n ≤ l.length) :
    TrimTest num k o purge (l ++ [e]) n ↔ TrimTest num k o purge l n := by
  refine and_congr_right fun long => ?_
  rw [List.getD_append _ _ _ _ (by omega)]

theorem trimTest_last : TrimTest num k o purge (l ++ [e]) (l.length + 1)
    ↔ l.length + 1 > minMarlin o ∧ (l.length + 1 > maxMarlin k ∨ num.lt e.p purge = true) := by
  rw [TrimTest, Nat.add_sub_cancel, List.getD_append_right _ _ _ _ le_rfl, Nat.sub_self]
  rfl

/-- How many entries the loop keeps. -/
def keptOf (rare : Prob) : Nat := (trimTail num k o purge l.reverse rare).1.length

theorem keptOf_le (rare : Prob) : keptOf num k o purge l rare ≤ l.length :=
  (trimTail_suffix num k o purge l.reverse rare).length_le.trans_eq l.length_reverse

theorem trimTail_append_pos (rare : Prob) (test : TrimTest num k o purge (l ++ [e]) (l.length + 1)) :
    trimTail num k o purge (l ++ [e]).reverse rare = trimTail num k o purge l.reverse (num.add rare e.p) := by
  rw [trimTest_last] at test
  rw [List.reverse_append, List.reverse_singleton, List.singleton_append, trimTail, if_pos (by rwa [List.length_reverse])]

theorem trimTail_append_neg (rare : Prob) (test : ¬ TrimTest num k o purge (l ++ [e]) (l.length + 1)) :
    trimTail num k o purge (l ++ [e]).reverse rare = ((l ++ [e]).reverse, rare) := by
  rw [trimTest_last] at test
  rw [List.reverse_append, List.reverse_singleton, List.singleton_append, trimTail, if_neg (by rwa [List.length_reverse])]

/-- What the loop keeps and drops: the test fails at the length kept, held at every longer one, and the dropped masses
are added from the tail on. -/
theorem trimTail_spec (rare : Prob) : ¬ TrimTest num k o purge l (keptOf num k o purge l rare)
    ∧ (∀ n, keptOf num k o purge l rare < n → n ≤ l.length → TrimTest num k o purge l n)
    ∧ (trimTail num k o purge l.reverse rare).2
        = ((l.drop (keptOf num k o purge l rare)).map AlphaEntry.p).reverse.foldl num.add rare := by
  induction l using List.reverseRecOn generalizing rare with
  | nil =>
    exact ⟨fun test => Nat.not_lt_zero _ test.1, fun n above below => absurd (above.trans_le below) (Nat.not_lt_zero _), rfl⟩
  | append_singleton l e ih =>
    by_cases test : TrimTest num k o purge (l ++ [e]) (l.length + 1)
    · have tail := trimTail_append_pos num k o purge l e rare test
      have kept : keptOf num k o purge (l ++ [e]) rare = keptOf num k o purge l (num.add rare e.p) := by
        rw [keptOf, tail, keptOf]
      have inside := keptOf_le num k o purge l (num.add rare e.p)
      obtain ⟨fails, held, added⟩ := ih (num.add rare e.p)
      rw [kept, tail, added]
      refine ⟨(trimTest_append num k o purge l e inside).not.mpr fails, fun n above below => ?_, ?_⟩
      · rcases Nat.lt_or_ge l.length n with last | earlier
        · obtain rfl : n = l.length + 1 := by rw [List.length_append, List.length_singleton] at below; omega
          exact test
        · exact (trimTest_append num k o purge l e earlier).mpr (held n above earlier)
      · rw [List.drop_append_of_le_length inside, List.map_append, List.reverse_append]
        rfl
    · have tail := trimTail_append_neg num k o purge l e rare test
      have kept : keptOf num k o purge (l ++ [e]) rare = l.length + 1 := by
        rw [keptOf, tail, List.length_reverse, List.length_append, List.length_singleton]
      rw [kept, tail]
      refine ⟨test, fun n above below => ?_, ?_⟩
      · rw [List.length_append, List.length_singleton] at below
        omega
      · rw [List.drop_eq_nil_of_le (by simp)]
        rfl

theorem length_trim (sorted : List AlphaEntry) : (trim num sorted k o purge).1.length = keptOf num k o purge sorted (.rat 0) :=
  List.length_reverse

theorem trim_eq_take (sorted : List AlphaEntry) :
    (trim num sorted k o purge).1 = sorted.take (trim num sorted k o purge).1.length :=
  List.prefix_iff_eq_take.mp (trim_prefix num k o purge sorted)

theorem exact_trim_rare (sorted : List AlphaEntry) : (trim .exact sorted k o purge).2
    = .rat ((sorted.drop (trim .exact sorted k o purge).1.length).map fun e => e.p.toRat).sum := by
  obtain ⟨-, -, added⟩ := trimTail_spec .exact k o purge sorted (.rat 0)
  rw [length_trim, trim, added, foldl_exact_add _ _ rfl, List.map_reverse, List.sum_reverse, List.map_map, toRat_rat,
    zero_add]
  rfl

end Trim

/-- Settles O32: the loop's specification, on the list it takes in reverse. -/
theorem trimStopsWhereItsTestFails : Obligations.TrimStopsWhereItsTestFails := by
  unfold Obligations.TrimStopsWhereItsTestFails
  intro num sorted k o purge
  obtain ⟨fails, held, added⟩ := trimTail_spec num k o purge sorted (.rat 0)
  rw [← length_trim] at fails held added
  refine ⟨trim_eq_take num k o purge sorted, fails, held, added, ?_, fun p q numbers => lt_iff numbers⟩
  rintro rfl
  rw [exact_trim_rare, List.map_map]
  rfl

/-! ### The buckets (R133) and their order (R134) -/

section Buckets

variable {num : Config.Numerics} {pmf : List Prob} {k o s : Nat} {purge : Prob} {e : AlphaEntry}

/-- A bucket is the sum of the entries with its number, told from its symbol. -/
theorem p_of_mem_groupPmf (hs : s ≤ 7) (length : pmf.length = 256) (mem : e ∈ groupPmf num pmf s) :
    e.p = num.sum (((List.range 256).filter fun v => v >>> s = e.src.toNat >>> s).map fun v => pmf.getD v (.rat 0)) := by
  obtain ⟨g, inside, rfl⟩ := List.mem_map.mp mem
  have symbol : (BitVec.ofNat 8 (g <<< s)).toNat >>> s = g := by
    rw [toNat_src_bucket s hs (List.mem_range.mp inside), Nat.shiftRight_eq_div_pow, Nat.mul_div_cancel _ (Nat.two_pow_pos s)]
  dsimp only
  rw [symbol, ← length]
  exact congrArg num.sum (filter_zipIdx_map_fst pmf (fun i => decide (i >>> s = g)) (.rat 0))

/-- With `S = 0` a bucket is one entry. -/
theorem p_of_mem_groupPmf_zero (rounds : num ≠ .exact) (length : pmf.length = 256) (mem : e ∈ groupPmf num pmf 0) :
    pmf[e.src.toNat]? = some e.p := by
  have inside : e.src.toNat < pmf.length := length ▸ e.src.isLt
  have only : ((List.range 256).filter fun v => v >>> 0 = e.src.toNat >>> 0) = [e.src.toNat] := by
    simp only [Nat.shiftRight_zero]
    rw [List.filter_eq, List.count_eq_one_of_mem List.nodup_range (List.mem_range.mpr e.src.isLt)]
    rfl
  rw [p_of_mem_groupPmf (Nat.zero_le 7) length mem, only, List.map_singleton, List.getD_eq_getElem _ _ inside]
  cases num with
  | exact => exact absurd rfl rounds
  | rounding n => rw [rounding_sum_singleton, List.getElem?_eq_getElem inside]

/-- The order of `SORTALPHA` on numbers. -/
def AlphaOrder (a b : AlphaEntry) : Prop :=
  b.p.toRat < a.p.toRat ∨ (a.p.toRat = b.p.toRat ∧ a.src.toNat ≤ b.src.toNat)

theorem alphaOrder_trans (a b c : AlphaEntry) (ab : AlphaOrder a b) (bc : AlphaOrder b c) : AlphaOrder a c := by
  rcases ab with lt | ⟨eq, le⟩ <;> rcases bc with lt' | ⟨eq', le'⟩
  · exact .inl (lt'.trans lt)
  · exact .inl (eq' ▸ lt)
  · exact .inl (eq ▸ lt')
  · exact .inr ⟨eq.trans eq', le.trans le'⟩

theorem alphaBefore_iff {a b : AlphaEntry} (numbers : asRationals num [a.p, b.p]) :
    alphaBefore num a b = true ↔ AlphaOrder a b := by
  have swapped : asRationals num [b.p, a.p] :=
    asRationals_pair numbers (List.mem_cons_of_mem _ List.mem_cons_self) List.mem_cons_self
  rw [alphaBefore, Bool.or_eq_true, Bool.and_eq_true, lt_iff swapped, eq_iff numbers, decide_eq_true_iff]
  rfl

theorem alphaOrder_of_not {a b : AlphaEntry} (different : ¬ AlphaOrder a b) : AlphaOrder b a := by
  simp only [AlphaOrder, not_or, not_and, not_lt, not_le] at different
  rcases different.1.lt_or_eq with lt | eq
  · exact .inl lt
  · exact .inr ⟨eq.symm, (different.2 eq).le⟩

theorem sortAlpha_pairwise {l : List AlphaEntry} (numbers : asRationals num (l.map AlphaEntry.p)) :
    (sortAlpha num l).Pairwise AlphaOrder := by
  have pair {a b : AlphaEntry} (ha : a ∈ l) (hb : b ∈ l) : asRationals num [a.p, b.p] :=
    asRationals_pair numbers (List.mem_map_of_mem ha) (List.mem_map_of_mem hb)
  exact pairwise_insertionSort_of _ _ l (fun a ha b hb before => (alphaBefore_iff (pair ha hb)).mp before)
    (fun a ha b hb after => alphaOrder_of_not fun order => after ((alphaBefore_iff (pair ha hb)).mpr order))
    alphaOrder_trans

theorem alphabet_pairwise (hs : s ≤ 7) (numbers : asRationals num ((groupPmf num pmf s).map AlphaEntry.p)) :
    (alphabet num pmf k o s purge).1.Pairwise fun a b =>
      b.p.toRat < a.p.toRat ∨ (a.p.toRat = b.p.toRat ∧ a.src.toNat < b.src.toNat) := by
  have ordered : (alphabet num pmf k o s purge).1.Pairwise AlphaOrder :=
    (sortAlpha_pairwise numbers).sublist (trim_prefix num k o purge _).sublist
  have distinct := List.pairwise_map.mp (alphaOk_alphabet num pmf k o s purge hs).1
  refine ordered.imp₂ (fun a b order differs => order.imp_right fun ⟨same, le⟩ => ⟨same, ?_⟩) distinct
  exact lt_of_le_of_ne le fun equal => differs (BitVec.eq_of_toNat_eq equal)

/-- The masses of the buckets sum to the sum of the PMF. -/
theorem exact_sum_groupPmf (hs : s ≤ 7) (length : pmf.length = 256) :
    ((groupPmf .exact pmf s).map fun e => e.p.toRat).sum = (pmf.map Prob.toRat).sum := by
  have bucket (g : Nat) : ((pmf.zipIdx.filter fun e => e.2 >>> s = g).map Prod.fst).map Prob.toRat
      = ((List.range pmf.length).filter fun v => v >>> s = g).map fun v => (pmf.getD v (.rat 0)).toRat := by
    rw [filter_zipIdx_map_fst pmf (fun i => decide (i >>> s = g)) (.rat 0), List.map_map]
    rfl
  have small : ∀ v ∈ List.range pmf.length, v >>> s < 2 ^ (8 - s) := fun v inside => by
    rw [Nat.shiftRight_eq_div_pow, Nat.div_lt_iff_lt_mul (Nat.two_pow_pos s), ← Nat.pow_add, Nat.sub_add_cancel (by omega)]
    simpa [length] using inside
  calc ((groupPmf .exact pmf s).map fun e => e.p.toRat).sum
    _ = ((List.range (2 ^ (8 - s))).map fun g => (((List.range pmf.length).filter fun v => v >>> s = g).map
          fun v => (pmf.getD v (.rat 0)).toRat).sum).sum := by
      simp only [groupPmf, List.map_map, Function.comp_def, exact_sum, toRat_rat, ← bucket]
    _ = ((List.range pmf.length).map fun v => (pmf.getD v (.rat 0)).toRat).sum := sum_map_filter_key _ _ _ _ small
    _ = (pmf.map Prob.toRat).sum := by rw [map_range_getD]

/-- R133, R135: what `TRIM` keeps and `rareProb` have the mass of the PMF together. -/
theorem exact_alphabet_mass (hs : s ≤ 7) (length : pmf.length = 256) :
    ((alphabet .exact pmf k o s purge).1.map fun e => e.p.toRat).sum + (alphabet .exact pmf k o s purge).2.toRat
      = (pmf.map Prob.toRat).sum := by
  rw [alphabet, exact_trim_rare, toRat_rat, trim_eq_take, List.length_take, min_eq_left (trim_prefix _ _ _ _ _).length_le,
    ← List.sum_append, ← List.map_append, List.take_append_drop, ((sortAlpha_perm _ _).map _).sum_eq]
  exact exact_sum_groupPmf hs length

end Buckets

/-- Settles O31: sorting and trimming only choose and order the buckets. -/
theorem alphabetProperties : Obligations.AlphabetProperties := by
  unfold Obligations.AlphabetProperties
  refine ⟨fun num pmf k o s purge hs => ⟨alphaOk_alphabet num pmf k o s purge hs, alphabet_pairwise hs, ?_⟩,
    fun pmf k o s purge length total hs => ⟨fun e mem => ?_, (exact_alphabet_mass hs length).trans total⟩⟩
  · rintro rounds length rfl e mem
    exact p_of_mem_groupPmf_zero rounds length ((alphabet_subperm num pmf k o 0 purge).subset mem)
  · rw [p_of_mem_groupPmf hs length ((alphabet_subperm .exact pmf k o s purge).subset mem), exact_sum, List.map_map]
    rfl

end Sys2Proof.Proofs
end

section
/-! The automatic choice of `S` and `maxWordSize` (40_build_alphabet.md R138 to R140), and `SEED`, the queue and one turn
of `GROW` (41_build_dictionary.md R153 to R155). -/

namespace Sys2Proof.Proofs

open Sys2Proof Sys2Proof.Machine

/-! ### Estimates over the exact rationals (R138) -/

section Estimates

variable {x y : Option Prob}

/-- `x > y`, `none` being `+infinity`. -/
theorem exact_bpsWorse_iff :
    bpsWorse .exact x y = true ↔ ∃ q, y = some q ∧ ∀ p, x = some p → q.toRat < p.toRat := by
  cases y with
  | none => cases x <;> simp [bpsWorse]
  | some q => cases x <;> simp [bpsWorse]

theorem exact_bpsExceeds_iff (f g : ℚ) : bpsExceeds .exact x (.rat f) y (.rat g) = true
    ↔ ∃ q, y = some q ∧ ∀ p, x = some p → q.toRat * g < p.toRat * f := by
  rw [bpsExceeds, exact_bpsWorse_iff]
  cases y with
  | none => simp
  | some q => cases x <;> simp

/-- The sweep ends at the last candidate before the first that is worse than the one below it. -/
theorem sweepS_spec (num : Config.Numerics) (bps : Nat → Option Prob) (n best : Nat) :
    let last := sweepS num bps (List.range' (best + 1) n) best
    best ≤ last ∧ last ≤ best + n
      ∧ (∀ s, best < s → s ≤ last → ¬ bpsWorse num (bps s) (bps (s - 1)) = true)
      ∧ (last < best + n → bpsWorse num (bps (last + 1)) (bps last) = true) := by
  induction n generalizing best with
  | zero =>
    exact ⟨le_rfl, le_rfl, fun s above below => absurd below above.not_ge, fun more => absurd more (Nat.lt_irrefl _)⟩
  | succ n ih =>
    rw [List.range'_succ, sweepS, Nat.add_sub_cancel]
    by_cases worse : bpsWorse num (bps (best + 1)) (bps best) = true
    · rw [if_pos worse]
      exact ⟨le_rfl, Nat.le_add_right _ _, fun s above below => absurd below (Nat.not_le.mpr above), fun _ => worse⟩
    · rw [if_neg worse]
      obtain ⟨low, high, good, stop⟩ := ih (best + 1)
      refine ⟨by omega, by omega, fun s above below => ?_, fun more => stop (by omega)⟩
      rcases Nat.lt_or_ge (best + 1) s with later | first
      · exact good s later below
      · obtain rfl : s = best + 1 := by omega
        exact worse

end Estimates

/-- Settles O34: the sweep's and the escalation's tests, read on the rationals. -/
theorem automaticChoice : Obligations.AutomaticChoice := by
  unfold Obligations.AutomaticChoice
  intro b cfg exact_
  dsimp only
  refine ⟨fun supplied => ?_, fun auto => ?_, fun s supplied => ?_, fun s auto => ?_,
    fun s mws => ⟨fun failed => ?_, fun d built => ?_⟩⟩
  · rw [autoS, supplied]
    rfl
  · have sweep : autoS b cfg
        = sweepS .exact (fun s => b.bpsOf s (if cfg.mwsAuto then 7 else cfg.mws.toNat)) (List.range' (0 + 1) 5) 0 := by
      rw [autoS, auto, exact_]
      rfl
    obtain ⟨-, high, good, stop⟩ := sweepS_spec .exact (fun s => b.bpsOf s (if cfg.mwsAuto then 7 else cfg.mws.toNat)) 5 0
    rw [← sweep] at high good stop
    simp only [exact_bpsWorse_iff] at good stop
    simp only [mul_one]
    exact ⟨by omega, fun s positive below => good s (by omega) below, fun more => stop (by omega)⟩
  · rw [autoMws, supplied]
    rfl
  · have choice : autoMws b cfg s = chooseMws .exact (b.bpsOf s) := by
      rw [autoMws, auto, exact_]
      rfl
    simp only [choice, chooseMws, exact_bpsExceeds_iff]
    exact ⟨fun no => if_neg no, fun yes no => by rw [if_pos yes, if_neg no], fun yes yes' => by rw [if_pos yes, if_pos yes']⟩
  · rw [BuildInput.bpsOf, failed]
    rfl
  · rw [BuildInput.bpsOf, built, Option.map_some, exact_, exact_lbarOf, exact_bpsFrom]

/-! ### The queue (R154) -/

section Queue

variable {num : Config.Numerics} {nodes : List Node}

theorem popBest_eq_none_iff : popBest num nodes 0 = none ↔ ∀ n ∈ nodes, n.retired = true := by
  refine ⟨popBest_none num nodes 0, fun gone => ?_⟩
  cases taken : popBest num nodes 0 with
  | none => rfl
  | some x =>
    obtain ⟨-, here, waiting⟩ := popBest_spec num nodes 0 x.1 x.2 taken
    exact nomatch waiting.symm.trans (gone _ (List.mem_of_getElem? here))

/-- The node taken is, among those of its `p`, the one created first. -/
theorem popBest_oldest (numbers : asRationals num (nodes.map Node.p)) {base id : Nat} {n : Node}
    (taken : popBest num nodes base = some (id, n)) :
    ∀ (j : Nat) (m : Node), nodes[j]? = some m → m.retired = false → m.p.toRat = n.p.toRat → id ≤ base + j := by
  induction nodes generalizing base id n with
  | nil => exact nomatch taken
  | cons x xs ih =>
    have rest : asRationals num (xs.map Node.p) := numbers.imp_right fun all p hp => all p (List.mem_cons_of_mem _ hp)
    have later : popBest num xs (base + 1) = some (id, n) → ∀ (j : Nat) (m : Node), xs[j]? = some m → m.retired = false →
        m.p.toRat = n.p.toRat → id ≤ base + (j + 1) := fun tail j m here waiting same => by
      have old := ih rest tail j m here waiting same
      omega
    intro j m here waiting same
    rcases popBest_cons num x xs base with ⟨gone, e⟩ | ⟨-, -, e⟩ | ⟨-, i, y, tail, less, e⟩ <;> rw [taken] at e
    · cases j with
      | zero =>
        cases here
        exact nomatch gone.symm.trans waiting
      | succ j => exact later e.symm j m here waiting same
    · cases e
      exact Nat.le_add_right _ _
    · cases e
      cases j with
      | zero =>
        cases here
        have mem : n ∈ xs := List.mem_of_getElem? (popBest_spec num xs (base + 1) id n tail).2.1
        have pair : asRationals num [x.p, n.p] :=
          asRationals_pair numbers List.mem_cons_self (List.mem_cons_of_mem _ (List.mem_map_of_mem mem))
        exact absurd ((lt_iff pair).mp less) (by rw [same]; exact lt_irrefl _)
      | succ j => exact later tail j m here waiting same

/-- R154: of the largest `p`, and of those the oldest. -/
def FirstInQueue (nodes : List Node) (id : Nat) (n : Node) : Prop :=
  nodes[id]? = some n ∧ n.retired = false ∧ ∀ (j : Nat) (m : Node), nodes[j]? = some m → m.retired = false →
    m.p.toRat < n.p.toRat ∨ (m.p.toRat = n.p.toRat ∧ id ≤ j)

theorem popBest_node {id : Nat} {n : Node} (taken : popBest num nodes 0 = some (id, n)) :
    nodes[id]? = some n ∧ n.retired = false := (popBest_spec num nodes 0 id n taken).2

theorem firstInQueue_of_popBest (numbers : asRationals num (nodes.map Node.p)) {id : Nat} {n : Node}
    (taken : popBest num nodes 0 = some (id, n)) : FirstInQueue nodes id n := by
  obtain ⟨here, waiting⟩ := popBest_node taken
  refine ⟨here, waiting, fun j m there free => ?_⟩
  rcases (popBest_largest num nodes 0 id n numbers taken m (List.mem_of_getElem? there) free).lt_or_eq with less | same
  · exact .inl less
  · exact .inr ⟨same, (popBest_oldest numbers taken j m there free same).trans_eq (Nat.zero_add j)⟩

theorem FirstInQueue.unique {id id' : Nat} {n n' : Node} (first : FirstInQueue nodes id n)
    (first' : FirstInQueue nodes id' n') : (id, n) = (id', n') := by
  obtain ⟨here, waiting, best⟩ := first
  obtain ⟨here', waiting', best'⟩ := first'
  have same : id = id' := by
    rcases best id' n' here' waiting' with less | ⟨equal, le⟩ <;>
      rcases best' id n here waiting with less' | ⟨equal', le'⟩
    · exact absurd less' less.not_gt
    · exact absurd equal' less.ne'
    · exact absurd equal less'.ne'
    · exact le_antisymm le le'
  subst same
  exact congrArg (Prod.mk id) (Option.some.inj (here.symm.trans here'))

theorem popBest_iff (numbers : asRationals num (nodes.map Node.p)) (id : Nat) (n : Node) :
    popBest num nodes 0 = some (id, n) ↔ FirstInQueue nodes id n := by
  refine ⟨firstInQueue_of_popBest numbers, fun first => ?_⟩
  cases taken : popBest num nodes 0 with
  | none =>
    have gone := popBest_eq_none_iff.mp taken n (List.mem_of_getElem? first.1)
    exact nomatch gone.symm.trans first.2.1
  | some x => exact congrArg some ((firstInQueue_of_popBest numbers taken).unique first)

end Queue

/-! ### `SEED` over the exact rationals (R153) -/

/-- The mass of seed child `s`. -/
def seedMass (pn pnSum : List Prob) (alpha : List AlphaEntry) (s : Nat) : ℚ :=
  ((List.range (s + 1)).map fun t => if (pnSum.getD t (.rat 0)).toRat = 0 then 0
      else (pn.getD t (.rat 0)).toRat / (pnSum.getD t (.rat 0)).toRat).sum
    * (alpha.getD s { src := 0, p := .rat 0 }).p.toRat

theorem exact_seedProbs (pn pnSum : List Prob) (alpha : List AlphaEntry) (run : Prob)
    (hpn : pn.length = alpha.length) (hsum : pnSum.length = alpha.length) :
    seedProbs .exact run pn pnSum alpha = (List.range alpha.length).map fun s => .rat ((run.toRat
      + ((List.range (s + 1)).map fun t => if (pnSum.getD t (.rat 0)).toRat = 0 then 0
          else (pn.getD t (.rat 0)).toRat / (pnSum.getD t (.rat 0)).toRat).sum)
      * (alpha.getD s { src := 0, p := .rat 0 }).p.toRat) := by
  induction alpha generalizing pn pnSum run with
  | nil =>
    cases pn with
    | nil => rfl
    | cons => exact nomatch hpn
  | cons e es ih =>
    obtain ⟨q, qs, rfl⟩ := List.exists_cons_of_length_eq_add_one hpn
    obtain ⟨n, ns, rfl⟩ := List.exists_cons_of_length_eq_add_one hsum
    rw [seedProbs, ih qs ns _ (Nat.succ.inj hpn) (Nat.succ.inj hsum), List.length_cons, List.range_succ_eq_map,
      List.map_cons, List.map_map]
    refine congrArg₂ List.cons ?_ (List.map_congr_left fun s _ => ?_)
    · simp [qdiv]
    · rw [Function.comp_apply, List.range_succ_eq_map (n := s + 1), List.map_cons, List.map_map, List.sum_cons, ← add_assoc]
      rfl

theorem exact_seedProbs_zero {pn pnSum : List Prob} {alpha : List AlphaEntry} (hpn : pn.length = alpha.length)
    (hsum : pnSum.length = alpha.length) : seedProbs .exact (.rat 0) pn pnSum alpha
      = (List.range alpha.length).map fun s => .rat (seedMass pn pnSum alpha s) := by
  rw [exact_seedProbs pn pnSum alpha _ hpn hsum]
  simp only [toRat_rat, zero_add]
  rfl

theorem foldl_exact_sub (l : List Prob) (q : ℚ) :
    l.foldl Config.Numerics.exact.sub (.rat q) = .rat (q - (l.map Prob.toRat).sum) := by
  induction l generalizing q with
  | nil => simp
  | cons p rest ih => rw [List.foldl_cons, exact_sub, toRat_rat, ih, List.map_cons, List.sum_cons, sub_sub]

theorem exact_seed {pn pnSum : List Prob} {alpha : List AlphaEntry} (hpn : pn.length = alpha.length)
    (hsum : pnSum.length = alpha.length) : seed .exact pn pnSum alpha
      = { word := [], p := .rat (1 - ((List.range alpha.length).map (seedMass pn pnSum alpha)).sum),
          degree := alpha.length, retired := false }
        :: (List.range alpha.length).map fun s =>
            { word := [s], p := .rat (seedMass pn pnSum alpha s), degree := 0, retired := false } := by
  rw [seed, exact_seedProbs_zero hpn hsum, foldl_exact_sub, List.map_map]
  refine congrArg₂ List.cons rfl ?_
  exact List.ext_getElem (by simp) fun s _ _ => by simp

/-! ### One turn of `GROW` (R155) -/

section Turn

variable {num : Config.Numerics} {k a mws : Nat} {pchild : List Prob} {nodes : List Node}

theorem grow_turn (room : nodes.length < 2 ^ k) : grow num k a mws pchild nodes
    = match popBest num nodes 0 with
      | none => none
      | some (id, n) => if retires a mws n then grow num k a mws pchild (nodes.set id { n with retired := true })
          else grow num k a mws pchild (splitNode num pchild nodes id n) := by
  rw [← grow_fuel_sufficient num k a mws pchild nodes 1, growLoop, if_pos room]
  rfl

theorem grow_enough (enough : 2 ^ k ≤ nodes.length) : grow num k a mws pchild nodes = some nodes := by
  rw [← grow_fuel_sufficient num k a mws pchild nodes 1, growLoop, if_neg (Nat.not_lt.mpr enough)]

theorem retires_iff (n : Node) : retires a mws n = true
    ↔ (mws ≤ n.word.length ∧ 0 < n.word.length) ∨ n.word.length = 255 ∨ n.degree = a := by
  simp only [retires, Bool.or_eq_true, Bool.and_eq_true, decide_eq_true_eq, beq_iff_eq, or_assoc]

variable {id : Nat} {n : Node}

theorem grow_retire (room : nodes.length < 2 ^ k) (taken : popBest num nodes 0 = some (id, n))
    (rule : retires a mws n = true) :
    grow num k a mws pchild nodes = grow num k a mws pchild (nodes.set id { n with retired := true }) := by
  rw [grow_turn room, taken]
  exact if_pos rule

theorem grow_split (room : nodes.length < 2 ^ k) (taken : popBest num nodes 0 = some (id, n))
    (goesOn : ¬ retires a mws n = true) :
    grow num k a mws pchild nodes = grow num k a mws pchild (splitNode num pchild nodes id n) := by
  rw [grow_turn room, taken]
  exact if_neg goesOn

end Turn

/-- Settles O35: the queue's choice, the seed's masses, and `GROW`'s loop unrolled once. -/
theorem queueTakesLargestThenOldest : Obligations.QueueTakesLargestThenOldest := by
  unfold Obligations.QueueTakesLargestThenOldest
  refine ⟨fun num nodes => ⟨popBest_eq_none_iff, fun id n => popBest_node, popBest_iff⟩, fun pn pnSum alpha hpn hsum => ?_,
    fun num k a mws pchild nodes => ⟨grow_enough, fun room gone => ?_, fun id n room taken => ⟨fun rule => ?_, ?_⟩⟩⟩
  · dsimp only
    rw [exact_seed hpn hsum]
    refine ⟨by simp, rfl, fun s inside => ?_⟩
    rw [List.getElem?_cons_succ, List.getElem?_map, List.getElem?_range inside]
    rfl
  · rw [grow_turn room, popBest_eq_none_iff.mpr gone]
  · exact grow_retire room taken ((retires_iff n).mpr rule)
  · intro short notLongest notFull
    refine grow_split room taken fun rule => ?_
    rcases (retires_iff n).mp rule with long | longest | full
    · exact short long
    · exact notLongest longest
    · exact notFull full

end Sys2Proof.Proofs
end

section
/-! The mass of a dictionary over the exact rationals (41_build_dictionary.md R151, R152, R161, R163 (e) to (g)): `GROW`
only divides a chapter's mass, no `p` gets negative, and a pass hands its whole mass on. -/

namespace Sys2Proof.Proofs

open Sys2Proof Sys2Proof.Machine

/-! ### `PNCALC` (R151) -/

section PnCalc

variable (alpha : List AlphaEntry) (rare : Prob)

/-- The mass of the symbols from a place on, with `rareProb`. -/
def tailMass (s : Nat) : ℚ := rare.toRat + ((alpha.drop s).map fun e => e.p.toRat).sum

theorem exact_pnOf : pnOf .exact alpha rare = (List.range alpha.length).map fun s => .rat (tailMass alpha rare s) := by
  simp only [pnOf, exact_add, exact_sum, toRat_rat, List.map_map]
  rfl

theorem exact_pnOf_cons (e : AlphaEntry) :
    pnOf .exact (e :: alpha) rare = .rat (tailMass (e :: alpha) rare 0) :: pnOf .exact alpha rare := by
  rw [exact_pnOf, exact_pnOf, List.length_cons, List.range_succ_eq_map, List.map_cons, List.map_map]
  rfl

theorem getElem?_exact_pnOf {s : Nat} (inside : s < alpha.length) :
    (pnOf .exact alpha rare)[s]? = some (.rat (tailMass alpha rare s)) := by
  rw [exact_pnOf, List.getElem?_map, List.getElem?_range inside]
  rfl

theorem length_pchildOf : (pchildOf .exact alpha (pnOf .exact alpha rare)).length = alpha.length := by
  rw [pchildOf, List.length_zipWith, exact_pnOf, List.length_map, List.length_range, Nat.min_self]

theorem getElem?_exact_pchildOf {s : Nat} (inside : s < alpha.length) :
    (pchildOf .exact alpha (pnOf .exact alpha rare))[s]?
      = some (.rat (if tailMass alpha rare s = 0 then 0 else alpha[s].p.toRat / tailMass alpha rare s)) := by
  rw [pchildOf, List.getElem?_zipWith, List.getElem?_eq_getElem inside, getElem?_exact_pnOf alpha rare inside]
  rfl

end PnCalc

/-! ### `NORM` (R152) -/

section Norm

variable {pst : List Prob}

theorem exact_norm_of_zero (zero : (pst.map Prob.toRat).sum = 0) :
    Machine.norm .exact pst = (pst.mapIdx fun s _ => .rat (if s = 0 then 1 else 0), .rat (pst.map Prob.toRat).sum) := by
  rw [Machine.norm, if_pos (by rw [exact_sum, exact_eq, toRat_rat, toRat_rat]; exact decide_eq_true zero), zero]

theorem exact_norm_of_ne (positive : (pst.map Prob.toRat).sum ≠ 0) :
    Machine.norm .exact pst
      = (pst.map fun p => .rat (p.toRat / (pst.map Prob.toRat).sum), .rat (pst.map Prob.toRat).sum) := by
  rw [Machine.norm, if_neg (by rw [exact_sum, exact_eq, toRat_rat, toRat_rat, decide_eq_true_iff]; exact positive)]
  simp only [exact_sum, exact_qdiv, exact_clamp, toRat_rat, qdiv_eq_div]

theorem exact_norm_factor : (Machine.norm .exact pst).2 = .rat (pst.map Prob.toRat).sum := by
  by_cases zero : (pst.map Prob.toRat).sum = 0
  · rw [exact_norm_of_zero zero]
  · rw [exact_norm_of_ne zero]

end Norm

/-! ### `PSTATES` (R161) -/

section PStates

variable (a o : Nat) (d : List DictWord)

/-- The words at the positions of one residue. -/
theorem filter_zipIdx_residue (c : Nat) : (d.zipIdx.filter fun e => e.2 % 2 ^ o = c).map Prod.fst
    = ((List.range d.length).filter fun i => i % 2 ^ o = c).map (recordAt d) :=
  filter_zipIdx_map_fst d (fun i => decide (i % 2 ^ o = c)) _

theorem exact_pstates : pstates .exact a o d = (List.range (2 ^ o)).map fun c => (List.range a).map fun st =>
    .rat (((((List.range d.length).filter fun i => i % 2 ^ o = c).map (recordAt d)).filter
      fun w => countedState a w.state = st).map fun w => w.p.toRat).sum := by
  simp only [pstates, filter_zipIdx_residue]
  refine List.map_congr_left fun c _ => List.map_congr_left fun st _ => ?_
  rw [foldl_exact_add _ _ rfl, List.map_map, toRat_rat, zero_add]
  rfl

theorem countedState_eq_iff {a st : Nat} (inside : st < a) (state : Nat) :
    countedState a state = st ↔ state = st ∨ (st = 0 ∧ state = a) := by
  rw [countedState]
  split <;> omega

/-- Every word counts once: the vectors have the mass of the dictionary. -/
theorem exact_pstates_mass (counted : ∀ w ∈ d, countedState a w.state < a) :
    ((pstates .exact a o d).map fun pst => (pst.map Prob.toRat).sum).sum = (d.map fun w => w.p.toRat).sum := by
  have chapter (c : Nat) : (((List.range a).map fun st => Prob.rat
        (((((List.range d.length).filter fun i => i % 2 ^ o = c).map (recordAt d)).filter
          fun w => countedState a w.state = st).map fun w => w.p.toRat).sum).map Prob.toRat).sum
      = (((List.range d.length).filter fun i => i % 2 ^ o = c).map fun i => (recordAt d i).p.toRat).sum := by
    rw [List.map_map]
    refine (sum_map_filter_key _ (fun w : DictWord => countedState a w.state) (fun w => w.p.toRat) a fun w hw => ?_).trans ?_
    · obtain ⟨i, hi, rfl⟩ := List.mem_map.mp hw
      exact counted _ (recordAt_mem (List.mem_range.mp (List.mem_filter.mp hi).1))
    · rw [List.map_map]
      rfl
  rw [exact_pstates, List.map_map]
  simp only [Function.comp_def, chapter]
  rw [sum_map_filter_key _ (fun i => i % 2 ^ o) _ _ fun i _ => Nat.mod_lt i (Nat.two_pow_pos o)]
  exact congrArg List.sum (map_range_getD d _ fun w => w.p.toRat)

end PStates

/-! ### The mass of a chapter -/

section ChapterMass

/-- The mass of the nodes. -/
def nodesMass (nodes : List Node) : ℚ := (nodes.map fun n => n.p.toRat).sum

variable {nodes : List Node} {id : Nat} {n : Node}

theorem nodesMass_retire (here : nodes[id]? = some n) :
    nodesMass (nodes.set id { n with retired := true }) = nodesMass nodes := by
  obtain ⟨inside, rfl⟩ := List.getElem?_eq_some_iff.mp here
  rw [nodesMass, List.map_set, List.sum_set', dif_pos (by simpa using inside), List.getElem_map, neg_add_cancel, add_zero]
  rfl

theorem nodesMass_split (pchild : List Prob) (here : nodes[id]? = some n) :
    nodesMass (splitNode .exact pchild nodes id n) = nodesMass nodes := by
  obtain ⟨inside, rfl⟩ := List.getElem?_eq_some_iff.mp here
  rw [nodesMass, splitNode, List.map_append, List.sum_append, List.map_set, List.sum_set', dif_pos (by simpa using inside),
    List.getElem_map, List.map_singleton, List.sum_singleton, exact_sub, exact_mul, toRat_rat, toRat_rat, nodesMass]
  ring

theorem nodesMass_seed (pn pnSum : List Prob) (alpha : List AlphaEntry) : nodesMass (seed .exact pn pnSum alpha) = 1 := by
  have children : ((seedProbs .exact (.rat 0) pn pnSum alpha).mapIdx
      (fun s p => ({ word := [s], p := p, degree := 0, retired := false } : Node))).map (fun n => n.p.toRat)
        = (seedProbs .exact (.rat 0) pn pnSum alpha).map Prob.toRat :=
    List.ext_getElem (by simp) fun s _ _ => by simp
  rw [nodesMass, seed, List.map_cons, children, foldl_exact_sub, List.sum_cons, toRat_rat]
  exact sub_add_cancel _ _

theorem length_seed_le (num : Config.Numerics) (pn pnSum : List Prob) (alpha : List AlphaEntry) :
    (seed num pn pnSum alpha).length ≤ alpha.length + 1 := by
  rw [seed, List.length_cons, List.length_mapIdx, length_seedProbs]
  omega

/-- `GROW` ends with exactly `2^K` nodes of the mass it began with. -/
theorem grow_mass {k a mws : Nat} {pchild : List Prob} {start : List Node} (room : start.length ≤ 2 ^ k)
    (grown : grow .exact k a mws pchild start = some nodes) :
    nodesMass nodes = nodesMass start ∧ nodes.length = 2 ^ k := by
  obtain ⟨⟨mass, most⟩, least⟩ := growLoop_keeps
    (P := fun nodes => nodesMass nodes = nodesMass start ∧ nodes.length ≤ 2 ^ k)
    (fun nodes id n ⟨mass, most⟩ here _ _ => ⟨(nodesMass_retire here).trans mass, by rwa [List.length_set]⟩)
    (fun nodes id n more ⟨mass, _⟩ here _ _ => ⟨(nodesMass_split pchild here).trans mass, by rwa [splitNode_length]⟩)
    _ start ⟨rfl, room⟩ nodes grown
  exact ⟨mass, le_antisymm most least⟩

variable {b : BuildParams} {pst : List Prob} {ch : List DictWord}

/-- A chapter only rearranges what `EXTRACT` gives of the nodes `GROW` ended with. -/
theorem buildChapter_perm (exact_ : b.num = .exact) (ko : b.o ≤ b.k) (room : b.alpha.length < 2 ^ b.k)
    (built : buildChapter b pst = some ch) :
    ∃ nodes, grow .exact b.k b.alpha.length b.mws b.pchild (seed .exact (Machine.norm .exact pst).1 b.pn b.alpha) = some nodes
      ∧ nodesMass nodes = 1 ∧ ch.Perm (extract .exact (Machine.norm .exact pst).2 nodes) := by
  obtain ⟨nodes, grown, rfl⟩ := buildChapter_eq_some_iff.mp built
  rw [exact_] at grown ⊢
  obtain ⟨mass, size⟩ := grow_mass ((length_seed_le _ _ _ _).trans room) grown
  refine ⟨nodes, grown, mass.trans (nodesMass_seed _ _ _), ?_⟩
  have sorted := sortWords_perm .exact (extract .exact (Machine.norm .exact pst).2 nodes)
  exact (pack_perm ko (by rw [sorted.length_eq, extract, List.length_map, size])).trans sorted

/-- R163 (f): a chapter has the mass of its vector. -/
theorem exact_chapter_mass (exact_ : b.num = .exact) (ko : b.o ≤ b.k) (room : b.alpha.length < 2 ^ b.k)
    (built : buildChapter b pst = some ch) : (ch.map fun w => w.p.toRat).sum = (pst.map Prob.toRat).sum := by
  obtain ⟨nodes, -, mass, same⟩ := buildChapter_perm exact_ ko room built
  rw [(same.map _).sum_eq, extract, List.map_map, exact_norm_factor]
  calc (nodes.map fun n => n.p.toRat * (pst.map Prob.toRat).sum).sum
    _ = nodesMass nodes * (pst.map Prob.toRat).sum := List.sum_map_mul_right _ _ _
    _ = (pst.map Prob.toRat).sum := by rw [mass, one_mul]

end ChapterMass

/-! ### No mass gets negative -/

section Nonneg

/-- No value is negative. -/
def Nonneg (l : List Prob) : Prop := ∀ p ∈ l, 0 ≤ p.toRat

theorem Nonneg.sum {l : List Prob} (nonneg : Nonneg l) : 0 ≤ (l.map Prob.toRat).sum :=
  List.sum_nonneg fun q hq => by
    obtain ⟨p, hp, rfl⟩ := List.mem_map.mp hq
    exact nonneg p hp

/-- Masses of symbols. -/
abbrev alphaMasses (alpha : List AlphaEntry) : List Prob := alpha.map AlphaEntry.p

section Alphabet

variable {pmf : List Prob} {k o s : Nat} {purge : Prob}

theorem nonneg_groupPmf (nonneg : Nonneg pmf) : Nonneg (alphaMasses (groupPmf .exact pmf s)) := by
  intro p hp
  obtain ⟨e, he, rfl⟩ := List.mem_map.mp hp
  obtain ⟨g, -, rfl⟩ := List.mem_map.mp he
  refine Nonneg.sum fun p hp => ?_
  obtain ⟨x, hx, rfl⟩ := List.mem_map.mp hp
  exact nonneg _ (List.fst_mem_of_mem_zipIdx (List.mem_filter.mp hx).1)

theorem nonneg_alphabet (nonneg : Nonneg pmf) : Nonneg (alphaMasses (alphabet .exact pmf k o s purge).1)
    ∧ 0 ≤ (alphabet .exact pmf k o s purge).2.toRat := by
  have buckets := nonneg_groupPmf (s := s) nonneg
  refine ⟨fun p hp => buckets p (List.map_subset _ (alphabet_subperm .exact pmf k o s purge).subset hp), ?_⟩
  rw [alphabet, exact_trim_rare, toRat_rat]
  refine List.sum_nonneg fun q hq => ?_
  obtain ⟨e, he, rfl⟩ := List.mem_map.mp hq
  exact buckets _ (List.mem_map_of_mem ((sortAlpha_perm _ _).mem_iff.mp (List.drop_subset _ _ he)))

end Alphabet

theorem div_mul_le {x y : ℚ} (hx : 0 ≤ x) (hy : 0 ≤ y) : x / y * y ≤ x := by
  rcases hy.eq_or_lt with rfl | positive
  · rwa [mul_zero]
  · exact (div_mul_cancel₀ x positive.ne').le

section Masses

variable {alpha : List AlphaEntry} {rare : Prob} (masses : Nonneg (alphaMasses alpha)) (rest : 0 ≤ rare.toRat)

include masses in
theorem sum_masses_nonneg : 0 ≤ (alpha.map fun e => e.p.toRat).sum := by
  have sum := Nonneg.sum masses
  rwa [List.map_map] at sum

include masses rest

/-- R151: `Pchild` is a share. -/
theorem pchild_bounds : ∀ p ∈ pchildOf .exact alpha (pnOf .exact alpha rare), 0 ≤ p.toRat ∧ p.toRat ≤ 1 := by
  intro p hp
  obtain ⟨s, inside, rfl⟩ := List.getElem_of_mem hp
  have small : s < alpha.length := inside.trans_eq (length_pchildOf alpha rare)
  have value := getElem?_exact_pchildOf alpha rare small
  rw [List.getElem?_eq_getElem inside, Option.some_inj] at value
  rw [value, toRat_rat]
  split
  · exact ⟨le_rfl, zero_le_one⟩
  · have tail : Nonneg (alphaMasses (alpha.drop (s + 1))) := fun p hp =>
      masses p (List.map_subset _ (List.drop_subset _ _) hp)
    have here : 0 ≤ alpha[s].p.toRat := masses _ (List.mem_map_of_mem (List.getElem_mem small))
    have whole : tailMass alpha rare s = rare.toRat + (alpha[s].p.toRat + ((alpha.drop (s + 1)).map fun e => e.p.toRat).sum) := by
      rw [tailMass, List.drop_eq_getElem_cons small, List.map_cons, List.sum_cons]
    have later := sum_masses_nonneg tail
    exact ⟨div_nonneg here (by linarith), div_le_one_of_le₀ (by linarith) (by linarith)⟩

/-- R153: the seed children have no negative mass and, given what their runs begin with, take no more than the vector
has. -/
theorem seedProbs_bounds (run : Prob) (started : 0 ≤ run.toRat) (pn : List Prob) (nonneg : Nonneg pn) :
    Nonneg (seedProbs .exact run pn (pnOf .exact alpha rare) alpha)
      ∧ ((seedProbs .exact run pn (pnOf .exact alpha rare) alpha).map Prob.toRat).sum
        ≤ run.toRat * (alpha.map fun e => e.p.toRat).sum + (pn.map Prob.toRat).sum := by
  induction alpha generalizing run pn with
  | nil =>
    have none_ : seedProbs .exact run pn (pnOf .exact [] rare) [] = [] := by cases pn <;> rfl
    rw [none_]
    exact ⟨fun p hp => (nomatch hp), by simpa using nonneg.sum⟩
  | cons e es ih =>
    have later : Nonneg (alphaMasses es) := fun p hp => masses p (List.mem_cons_of_mem _ hp)
    have first : 0 ≤ e.p.toRat := masses _ List.mem_cons_self
    cases pn with
    | nil =>
      have none_ : seedProbs .exact run [] (pnOf .exact (e :: es) rare) (e :: es) = [] := rfl
      rw [none_]
      exact ⟨fun p hp => (nomatch hp), by simpa using mul_nonneg started (sum_masses_nonneg masses)⟩
    | cons q qs =>
      rw [exact_pnOf_cons, seedProbs]
      have share : 0 ≤ q.toRat := nonneg q List.mem_cons_self
      have sum := sum_masses_nonneg later
      have whole : tailMass (e :: es) rare 0 = rare.toRat + (e.p.toRat + (es.map fun e => e.p.toRat).sum) := rfl
      have whole_nonneg : 0 ≤ tailMass (e :: es) rare 0 := by rw [whole]; linarith
      have value : Config.Numerics.exact.add run (Config.Numerics.exact.qdiv q (.rat (tailMass (e :: es) rare 0)))
          = .rat (run.toRat + q.toRat / tailMass (e :: es) rare 0) := by
        rw [exact_add, exact_qdiv, toRat_rat, toRat_rat, qdiv_eq_div]
      have quotient : 0 ≤ q.toRat / tailMass (e :: es) rare 0 := div_nonneg share whole_nonneg
      have taken : q.toRat / tailMass (e :: es) rare 0 * (e.p.toRat + (es.map fun e => e.p.toRat).sum) ≤ q.toRat :=
        calc q.toRat / tailMass (e :: es) rare 0 * (e.p.toRat + (es.map fun e => e.p.toRat).sum)
          _ ≤ q.toRat / tailMass (e :: es) rare 0 * tailMass (e :: es) rare 0 :=
            mul_le_mul_of_nonneg_left (by rw [whole]; linarith) quotient
          _ ≤ q.toRat := div_mul_le share whole_nonneg
      rw [value]
      obtain ⟨nonneg', bound⟩ := ih later (.rat (run.toRat + q.toRat / tailMass (e :: es) rare 0))
        (add_nonneg started quotient) qs fun p hp => nonneg p (List.mem_cons_of_mem _ hp)
      refine ⟨List.forall_mem_cons.mpr ⟨mul_nonneg (add_nonneg started quotient) first, nonneg'⟩, ?_⟩
      simp only [List.map_cons, List.sum_cons, exact_mul, toRat_rat] at bound ⊢
      linarith

/-- R153: neither the root nor a seed child has a negative mass, if the vector has no more than 1. -/
theorem seed_nonneg {pn : List Prob} (nonneg : Nonneg pn) (most : (pn.map Prob.toRat).sum ≤ 1) :
    ∀ n ∈ seed .exact pn (pnOf .exact alpha rare) alpha, 0 ≤ n.p.toRat := by
  obtain ⟨children, bound⟩ := seedProbs_bounds masses rest (.rat 0) le_rfl pn nonneg
  rw [toRat_rat, zero_mul, zero_add] at bound
  rw [seed, foldl_exact_sub]
  refine List.forall_mem_cons.mpr ⟨sub_nonneg.mpr (bound.trans most), fun n hn => ?_⟩
  obtain ⟨s, inside, rfl⟩ := List.mem_mapIdx.mp hn
  exact children _ (List.getElem_mem inside)

end Masses

/-- R152: a normalised vector has no negative entry and the mass 1. -/
theorem norm_bounds {pst : List Prob} (nonneg : Nonneg pst) :
    Nonneg (Machine.norm .exact pst).1 ∧ ((Machine.norm .exact pst).1.map Prob.toRat).sum ≤ 1 := by
  by_cases zero : (pst.map Prob.toRat).sum = 0
  · rw [exact_norm_of_zero zero]
    cases pst with
    | nil => exact ⟨fun p hp => (nomatch hp), zero_le_one⟩
    | cons q qs =>
      have zeros : (qs.mapIdx fun s _ => Prob.rat (if s + 1 = 0 then 1 else 0)) = List.replicate qs.length (.rat 0) :=
        List.ext_getElem (by simp) fun s _ _ => by simp
      rw [List.mapIdx_cons, zeros]
      refine ⟨List.forall_mem_cons.mpr ⟨zero_le_one, fun p hp => ?_⟩, by simp⟩
      rw [List.eq_of_mem_replicate hp]
      exact le_rfl
  · rw [exact_norm_of_ne zero]
    constructor
    · intro p hp
      obtain ⟨q, hq, rfl⟩ := List.mem_map.mp hp
      exact div_nonneg (nonneg q hq) nonneg.sum
    · rw [List.map_map]
      calc (pst.map fun p => p.toRat / (pst.map Prob.toRat).sum).sum
        _ = (pst.map Prob.toRat).sum / (pst.map Prob.toRat).sum := by
          simp only [div_eq_mul_inv]
          exact List.sum_map_mul_right _ _ _
        _ ≤ 1 := div_self_le_one _

section GrowNonneg

/-- What every node keeps: a mass that is not negative and no more than `A` children. -/
def NodeOk (a : Nat) (n : Node) : Prop := 0 ≤ n.p.toRat ∧ n.degree ≤ a

variable {a mws k : Nat} {pchild : List Prob} {nodes start : List Node} {id : Nat} {n : Node}

theorem nodeOk_split (shares : ∀ p ∈ pchild, 0 ≤ p.toRat ∧ p.toRat ≤ 1) (ok : ∀ m ∈ nodes, NodeOk a m)
    (here : nodes[id]? = some n) (goesOn : retires a mws n = false) :
    ∀ m ∈ splitNode .exact pchild nodes id n, NodeOk a m := by
  have share : 0 ≤ (pchild.getD n.degree (.rat 0)).toRat ∧ (pchild.getD n.degree (.rat 0)).toRat ≤ 1 := by
    rcases Nat.lt_or_ge n.degree pchild.length with inside | beyond
    · rw [List.getD_eq_getElem _ _ inside]
      exact shares _ (List.getElem_mem inside)
    · rw [List.getD_eq_default _ _ beyond]
      exact ⟨le_rfl, zero_le_one⟩
  obtain ⟨mass, most⟩ := ok n (List.mem_of_getElem? here)
  have open_ : n.degree ≠ a := fun full => by
    rw [(retires_iff n).mpr (.inr (.inr full))] at goesOn
    exact nomatch goesOn
  have taken := mul_le_of_le_one_right mass share.2
  intro m hm
  rw [splitNode, List.mem_append, List.mem_singleton] at hm
  rcases hm with old | rfl
  · rcases List.mem_or_eq_of_mem_set old with old | rfl
    · exact ok m old
    · exact ⟨sub_nonneg.mpr taken, lt_of_le_of_ne most open_⟩
  · exact ⟨mul_nonneg mass share.1, Nat.zero_le a⟩

theorem grow_nodeOk (shares : ∀ p ∈ pchild, 0 ≤ p.toRat ∧ p.toRat ≤ 1) (ok : ∀ m ∈ start, NodeOk a m)
    (grown : grow .exact k a mws pchild start = some nodes) : ∀ m ∈ nodes, NodeOk a m := by
  refine (growLoop_keeps (P := fun nodes => ∀ m ∈ nodes, NodeOk a m) (fun nodes id n ok here _ _ m hm => ?_)
    (fun nodes id n _ ok here _ goesOn => nodeOk_split shares ok here goesOn) _ start ok nodes grown).1
  rcases List.mem_or_eq_of_mem_set hm with old | rfl
  · exact ok m old
  · exact ok n (List.mem_of_getElem? here)

theorem seed_degree_le (num : Config.Numerics) (pn pnSum : List Prob) (alpha : List AlphaEntry) :
    ∀ n ∈ seed num pn pnSum alpha, n.degree ≤ alpha.length := by
  refine List.forall_mem_cons.mpr ⟨le_rfl, fun n hn => ?_⟩
  obtain ⟨s, -, rfl⟩ := List.mem_mapIdx.mp hn
  exact Nat.zero_le _

end GrowNonneg

/-! ### The dictionaries of an iteration -/

section Iteration

variable {b : BuildParams} {rare : Prob}

/-- The values the chapters share, over the exact rationals, of an alphabet without negative masses. -/
structure MassParams (b : BuildParams) (rare : Prob) : Prop where
  exact_ : b.num = .exact
  ko : b.o ≤ b.k
  room : b.alpha.length < 2 ^ b.k
  symbols : 0 < b.alpha.length
  pn : b.pn = pnOf .exact b.alpha rare
  pchild : b.pchild = pchildOf .exact b.alpha (pnOf .exact b.alpha rare)
  masses : Nonneg (alphaMasses b.alpha)
  rest : 0 ≤ rare.toRat

/-- A word's mass is not negative and its state at most `A`. -/
def WordOk (a : Nat) (w : DictWord) : Prop := 0 ≤ w.p.toRat ∧ w.state ≤ a

theorem buildChapter_wordOk (params : MassParams b rare) {pst : List Prob} (nonneg : Nonneg pst) {ch : List DictWord}
    (built : buildChapter b pst = some ch) : ∀ w ∈ ch, WordOk b.alpha.length w := by
  obtain ⟨nodes, grown, -, same⟩ := buildChapter_perm params.exact_ params.ko params.room built
  rw [params.pn, params.pchild] at grown
  obtain ⟨normal, most⟩ := norm_bounds nonneg
  have ok := grow_nodeOk (pchild_bounds params.masses params.rest)
    (fun n hn => ⟨seed_nonneg params.masses params.rest normal most n hn, seed_degree_le _ _ _ _ n hn⟩) grown
  intro w hw
  obtain ⟨n, hn, rfl⟩ := List.mem_map.mp (same.mem_iff.mp hw)
  obtain ⟨mass, degree⟩ := ok n hn
  refine ⟨?_, degree⟩
  rw [exact_norm_factor]
  exact mul_nonneg mass nonneg.sum

theorem buildChapters_spec_mass (params : MassParams b rare) (psts : List (List Prob)) (nonneg : ∀ pst ∈ psts, Nonneg pst)
    {d : List DictWord} (built : buildChapters b psts = some d) : (∀ w ∈ d, WordOk b.alpha.length w)
      ∧ (d.map fun w => w.p.toRat).sum = (psts.map fun pst => (pst.map Prob.toRat).sum).sum := by
  induction psts generalizing d with
  | nil =>
    cases built
    exact ⟨fun w hw => (nomatch hw), rfl⟩
  | cons pst rest ih =>
    rw [buildChapters] at built
    split at built
    · cases built
    next ch first =>
      obtain ⟨d', others, rfl⟩ := Option.map_eq_some_iff.mp built
      obtain ⟨words, mass⟩ := ih (fun pst hp => nonneg pst (List.mem_cons_of_mem _ hp)) others
      refine ⟨fun w hw => ?_, ?_⟩
      · rcases List.mem_append.mp hw with here | later
        · exact buildChapter_wordOk params (nonneg pst List.mem_cons_self) first w here
        · exact words w later
      · rw [List.map_append, List.sum_append, mass, exact_chapter_mass params.exact_ params.ko params.room first,
          List.map_cons, List.sum_cons]

/-- What the vectors of every pass keep: no negative entry, and the mass 1 in all. -/
structure VectorsMass (psts : List (List Prob)) : Prop where
  nonneg : ∀ pst ∈ psts, Nonneg pst
  mass : (psts.map fun pst => (pst.map Prob.toRat).sum).sum = 1

theorem vectorsMass_pstates (a o : Nat) (positive : 0 < a) {d : List DictWord} (words : ∀ w ∈ d, WordOk a w)
    (mass : (d.map fun w => w.p.toRat).sum = 1) : VectorsMass (pstates .exact a o d) := by
  constructor
  · rw [exact_pstates]
    intro pst hpst p hp
    obtain ⟨c, -, rfl⟩ := List.mem_map.mp hpst
    obtain ⟨st, -, rfl⟩ := List.mem_map.mp hp
    refine List.sum_nonneg fun q hq => ?_
    obtain ⟨w, hw, rfl⟩ := List.mem_map.mp hq
    obtain ⟨i, hi, rfl⟩ := List.mem_map.mp (List.mem_filter.mp hw).1
    exact (words _ (recordAt_mem (List.mem_range.mp (List.mem_filter.mp hi).1))).1
  · rw [exact_pstates_mass a o d fun w hw => ?_, mass]
    have state := (words w hw).2
    rw [countedState]
    split <;> omega

theorem vectorsMass_initial (a o : Nat) (positive : 0 < a) : VectorsMass (initialPstates .exact a o) := by
  obtain ⟨n, rfl⟩ : ∃ n, a = n + 1 := ⟨a - 1, by omega⟩
  have vector : ((List.range (n + 1)).map fun st =>
        if st = 0 then Config.Numerics.exact.qdiv (.rat 1) (.rat (2 ^ o)) else .rat 0)
      = .rat (1 / 2 ^ o) :: List.replicate n (.rat 0) := by
    rw [List.range_succ_eq_map, List.map_cons, List.map_map, if_pos rfl, exact_qdiv, qdiv_eq_div]
    refine congrArg₂ List.cons rfl (List.eq_replicate_iff.mpr ⟨by simp, fun p hp => ?_⟩)
    obtain ⟨st, -, rfl⟩ := List.mem_map.mp hp
    rfl
  rw [initialPstates, vector]
  constructor
  · intro pst hpst
    obtain ⟨c, -, rfl⟩ := List.mem_map.mp hpst
    refine List.forall_mem_cons.mpr ⟨by rw [toRat_rat]; positivity, fun p hp => ?_⟩
    rw [List.eq_of_mem_replicate hp]
    exact le_rfl
  · have two : (2 : ℚ) ^ o ≠ 0 := pow_ne_zero o two_ne_zero
    simp [two]

theorem iterateFrom_mass (params : MassParams b rare) (n : Nat) {d : List DictWord}
    (built : iterateFrom b (n + 1) (initialPstates .exact b.alpha.length b.o) = some d) :
    (∀ w ∈ d, 0 ≤ w.p.toRat) ∧ (d.map fun w => w.p.toRat).sum = 1 := by
  obtain ⟨psts, vectors, last⟩ := iterateFrom_spec VectorsMass (fun psts d vectors pass => by
    obtain ⟨words, mass⟩ := buildChapters_spec_mass params psts vectors.nonneg pass
    rw [params.exact_]
    exact vectorsMass_pstates _ _ params.symbols words (mass.trans vectors.mass)) n _
    (vectorsMass_initial _ _ params.symbols) d built
  obtain ⟨words, mass⟩ := buildChapters_spec_mass params psts vectors.nonneg last
  exact ⟨fun w hw => (words w hw).1, mass.trans vectors.mass⟩

/-- R163 (e), (g). The mass is that of the vectors the first pass starts from. -/
theorem dictionary_mass {b : BuildInput} {s mws : Nat} (exact_ : b.num = .exact) (nonneg : Nonneg b.pmf) (hk : 4 ≤ b.k)
    (ho : b.o < b.k) (hi : 1 ≤ b.iters) (hs : s ≤ 7) {d : List DictWord} (built : b.dictionary s mws = some d) :
    (∀ w ∈ d, 0 ≤ w.p.toRat) ∧ (d.map fun w => w.p.toRat).sum = 1 := by
  have alphabet_eq : b.alphabet s = alphabet .exact b.pmf b.k b.o s b.purge := by rw [BuildInput.alphabet, exact_]
  obtain ⟨masses, rest⟩ := nonneg_alphabet (k := b.k) (o := b.o) (s := s) (purge := b.purge) nonneg
  rw [← alphabet_eq] at masses rest
  obtain ⟨low, -, room⟩ := length_alphabet_bounds hk ho hs
  have params : MassParams (dictParams b s mws) (b.alphabet s).2 := by
    refine ⟨exact_, ho.le, room, by simp only [dictParams, buildParams]; omega, ?_, ?_, masses, rest⟩
    · rw [dictParams, exact_]
      rfl
    · rw [dictParams, exact_]
      rfl
  have num : (dictParams b s mws).num = .exact := exact_
  rw [dictionary_eq_iterateFrom, ← Nat.sub_add_cancel hi, num] at built
  exact iterateFrom_mass params _ built

end Iteration

end Nonneg

theorem eq_rat_of_isNumber {p : Prob} (number : p.isNumber = true) : p = .rat p.toRat := by
  cases p with
  | rat q => rfl
  | other c => exact nomatch number

/-- Settles O38: the values of `PNCALC`, `NORM` and `PSTATES`, a chapter's mass, and the mass of every pass. -/
theorem dictionaryMassIsOne : Obligations.DictionaryMassIsOne := by
  unfold Obligations.DictionaryMassIsOne
  refine ⟨fun alpha rare => ?pn, fun pst => ?norm, fun a o c st d hc hst => ?pstates,
    fun b pst ch exact_ ko room built => ?chapter, fun b s mws d exact_ _ _ nonneg hk ho hi hs built => ?total⟩
  case pn =>
    exact ⟨by rw [exact_pnOf, List.length_map, List.length_range], length_pchildOf alpha rare, fun s inside =>
      ⟨getElem?_exact_pnOf alpha rare inside, getElem?_exact_pchildOf alpha rare inside⟩⟩
  case norm =>
    refine ⟨exact_norm_factor, length_norm .exact pst, fun zero s inside => ?_, fun positive s inside => ?_⟩
    · rw [exact_norm_of_zero zero, List.getElem?_mapIdx, List.getElem?_eq_getElem inside]
      rfl
    · rw [exact_norm_of_ne positive, List.getElem?_map, List.getElem?_eq_getElem inside]
      rfl
  case pstates =>
    obtain ⟨count, vectors⟩ := pstates_wf .exact a o d
    have inside : c < (pstates .exact a o d).length := count.symm ▸ hc
    have at_c : (pstates .exact a o d).getD c [] = (pstates .exact a o d)[c] := List.getD_eq_getElem _ _ inside
    refine ⟨count, ?_, ?_⟩
    · rw [at_c]
      exact vectors _ (List.getElem_mem inside)
    · have cell : (fun i => decide (countedState a (recordAt d i).state = st) && decide (i % 2 ^ o = c))
          = fun i => decide (i % 2 ^ o = c ∧ ((recordAt d i).state = st ∨ (st = 0 ∧ (recordAt d i).state = a))) :=
        funext fun i => by
          rw [← Bool.decide_and, decide_eq_decide, countedState_eq_iff hst, and_comm]
      rw [at_c]
      simp only [exact_pstates, List.getElem_map, List.getElem_range]
      rw [List.getElem?_map, List.getElem?_range hst, Option.map_some, List.filter_map, List.filter_filter, List.map_map]
      exact congrArg (fun P => some (Prob.rat (((List.range d.length).filter P).map fun i => (recordAt d i).p.toRat).sum)) cell
  case chapter => exact ⟨length_of_buildChapter built, exact_chapter_mass exact_ ko room built⟩
  case total =>
    obtain ⟨words, mass⟩ := dictionary_mass exact_ nonneg hk ho hi hs built
    exact ⟨fun w hw => ⟨w.p.toRat, words w hw, eq_rat_of_isNumber (dictionary_isNumber exact_ hi built w hw)⟩, mass⟩

end Sys2Proof.Proofs
end
